-- ==== Sys2Proof/Word.lean ====
section
/-!
DEFINITION. The word types of QRCORE: the command word, a codeword byte, a character, a matrix cell.
-/

namespace Sys2Proof

/-- A command word, and a response value: 32 bits (R90, R98). -/
abbrev Word := BitVec 32

/-- A codeword, and one byte of a character in a charset: 8 bits (R60, R104). -/
abbrev Byte := BitVec 8

/-- A character: one UTF-16 code unit, 16 bits (R103). -/
abbrev CharCode := BitVec 16

/-- A matrix cell: the 4-bit two's-complement code of sign times magnitude (R61, R102). -/
abbrev Module := BitVec 4

end Sys2Proof
end

