-- ==== Sys2Proof/Config.lean ====
section
/-!
DEFINITION. The open parameters of QRCORE (R7, R34, R104): the size of the text buffer and the charset service.
Nothing in Lean can evaluate them; they are bound to the spec's requirements by their types alone
(DESIGN CHOICE, log 4, 5).
-/

namespace Sys2Proof

/-- What the charset service returns for a character it can encode: 1 to `CS_MAXBYTES = 4` bytes, first byte first
(R104, requirement (c)). -/
inductive CharBytes where
  | one (a : Byte)
  | two (a b : Byte)
  | three (a b c : Byte)
  | four (a b c d : Byte)
  deriving DecidableEq, Repr

/-- The open parameters of the model, as arguments of the operations that use them (R7, R104). -/
structure Platform where
  /-- `TXT_SIZE`: the number of cells of `TXT` (R7, D34). -/
  txtSize : Nat
  /-- `CsKnown`: whether a charset id is recognised (R104). -/
  csKnown : BitVec 8 → Bool
  /-- `CsBytes`: the bytes of a character in a charset, or none (R104). -/
  csBytes : BitVec 8 → CharCode → Option CharBytes

namespace Config

/-- `TXT_SIZE - 1`: OPEN, 0..32767 (R7, D34, U11; log 5). -/
opaque txtSizePred : Fin 32768

/-- Which charset ids other than 0 are known: OPEN (R104, U3; log 4). -/
opaque csKnownOther : BitVec 8 → Bool

/-- The bytes of a character in a charset: OPEN, pure, at most four bytes and at least one by its type (R104, U3, U14;
log 4). -/
opaque csBytes : BitVec 8 → CharCode → Option CharBytes

/-- This machine's platform: `1 ≤ TXT_SIZE ≤ 32768` (R7), `CsKnown(CS_CJK) = true` (R104, requirement (b)). -/
def platform : Platform where
  txtSize := txtSizePred.val + 1
  csKnown := fun cs => cs == 0 || csKnownOther cs
  csBytes := csBytes

end Config

end Sys2Proof
end

