-- ==== Sys2Proof/Syntax.lean ====
section
/-!
DEFINITION. The commands of QRCORE: one constructor per row of spec/opcode_table.json, each operand a field of exactly
the width its format gives it (R91, R93).
-/

namespace Sys2Proof

/-- ErrorCorrectionLevel (R99). -/
inductive EcLevel where
  | l
  | m
  | q
  | h
  deriving DecidableEq, Repr

/-- The four encoding modes (R100, R150); UNKNOWN, the pre-start sentinel, is the absence of one. -/
inductive EncMode where
  | numeric
  | alphanumeric
  | byte
  | kanji
  deriving DecidableEq, Repr

/-- A command of QRCORE (R93). -/
inductive Instr where
  /-- `RESET` (R131). -/
  | reset
  /-- `CFG ecl, maxver, sa, cs` (R132). -/
  | cfg (ecl : EcLevel) (maxver : BitVec 6) (sa : Bool) (cs : BitVec 8)
  /-- `SETLEN n` (R133). -/
  | setlen (n : BitVec 16)
  /-- `APPEND` (R219). -/
  | append
  /-- `RENDER k` (R135). -/
  | render (k : BitVec 4)
  /-- `BITASM k` (R241). -/
  | bitasm (k : BitVec 4)
  /-- `RSENC` (R270). -/
  | rsenc
  /-- `MPLACE` (R291). -/
  | mplace
  /-- `MASKSEL` (R339). -/
  | masksel
  /-- `SETW ver, ecl` (R134). -/
  | setw (ver : BitVec 6) (ecl : EcLevel)
  /-- `MODESEL mode, ver, idx` (R190). -/
  | modesel (mode : BitVec 3) (ver : BitVec 6) (idx : BitVec 15)
  /-- `GFMUL a, b` (R264). -/
  | gfmul (a b : BitVec 8)
  /-- `SETA space, idx` (R361). -/
  | seta (space : BitVec 4) (idx : BitVec 20)
  /-- `LD` (R362). -/
  | ld
  /-- `ST v` (R363). -/
  | st (v : BitVec 16)
  /-- `RDR regno` (R364). -/
  | rdr (regno : BitVec 8)
  deriving DecidableEq, Repr

end Sys2Proof
end

