-- ==== Sys2Proof/WellFormed.lean ====
section
/-!
DEFINITION. Which command words are well formed: those that match a row of the opcode map (R93, R94).
The operands of an `Instr` have exactly the widths of their fields, so every `Instr` is well formed by its type, and
the checks that remain are the checks on words: a known opcode, and every reserved bit zero.
-/

namespace Sys2Proof

/-- One row of the opcode map (R93): a word `w` is that command iff `w and mask = match`. -/
structure OpcodeRow where
  mnemonic : String
  pattern : Word
  mask : Word
  deriving DecidableEq, Repr

/-- The opcode map, as the table of R93 prints it. -/
def opcodeMap : List OpcodeRow :=
  [⟨"RESET", 0x01000000, 0xFFFFFFFF⟩, ⟨"CFG", 0x02000000, 0xFF00007F⟩, ⟨"SETLEN", 0x03000000, 0xFFFF0000⟩,
    ⟨"APPEND", 0x04000000, 0xFFFFFFFF⟩, ⟨"RENDER", 0x05000000, 0xFFFFFFF0⟩, ⟨"BITASM", 0x06000000, 0xFFFFFFF0⟩,
    ⟨"RSENC", 0x07000000, 0xFFFFFFFF⟩, ⟨"MPLACE", 0x08000000, 0xFFFFFFFF⟩, ⟨"MASKSEL", 0x09000000, 0xFFFFFFFF⟩,
    ⟨"SETW", 0x0A000000, 0xFFFFFF00⟩, ⟨"MODESEL", 0x0B000000, 0xFF000000⟩, ⟨"GFMUL", 0x0C000000, 0xFFFF0000⟩,
    ⟨"SETA", 0x0D000000, 0xFF000000⟩, ⟨"LD", 0x0E000000, 0xFFFFFFFF⟩, ⟨"ST", 0x0F000000, 0xFFFF0000⟩,
    ⟨"RDR", 0x10000000, 0xFFFFFF00⟩]

/-- A word matches a row (R93). -/
def OpcodeRow.admits (row : OpcodeRow) (w : Word) : Bool := w &&& row.mask == row.pattern

/-- A command word is well formed iff some row admits it; every other word is illegal (R94). -/
def wordWellFormed (w : Word) : Bool := opcodeMap.any (·.admits w)

/-- No word is admitted by both rows: they ask different values of a bit both fix. -/
def OpcodeRow.disjoint (a b : OpcodeRow) : Bool :=
  (a.pattern ^^^ b.pattern) &&& (a.mask &&& b.mask) != 0

/-- The map's row of an instruction's mnemonic. -/
def Instr.mnemonic : Instr → String
  | .reset => "RESET"
  | .cfg _ _ _ _ => "CFG"
  | .setlen _ => "SETLEN"
  | .append => "APPEND"
  | .render _ => "RENDER"
  | .bitasm _ => "BITASM"
  | .rsenc => "RSENC"
  | .mplace => "MPLACE"
  | .masksel => "MASKSEL"
  | .setw _ _ => "SETW"
  | .modesel _ _ _ => "MODESEL"
  | .gfmul _ _ => "GFMUL"
  | .seta _ _ => "SETA"
  | .ld => "LD"
  | .st _ => "ST"
  | .rdr _ => "RDR"

end Sys2Proof
end

