-- ==== Sys2Proof/Decode.lean ====
section
/-!
DEFINITION. The decoder and the encoder of command words (R90–R95), with the codes of the enumerations (R99, R100).
-/

namespace Sys2Proof

/-- The 2-bit register and operand code of an error-correction level: `L = 0`, `M = 1`, `Q = 2`, `H = 3` (R99). -/
def ecCode : EcLevel → BitVec 2
  | .l => 0
  | .m => 1
  | .q => 2
  | .h => 3

/-- The level of a 2-bit code; every code names one (R99, R132: "Every value of `ecl` … is legal"). -/
def ecOfCode (c : BitVec 2) : EcLevel :=
  if c = 0 then .l else if c = 1 then .m else if c = 2 then .q else .h

/-- The 3-bit code of the active mode: `UNKNOWN = 0`, then the four modes in the source's order (R100). -/
def modeCode : Option EncMode → BitVec 3
  | none => 0
  | some .numeric => 1
  | some .alphanumeric => 2
  | some .byte => 3
  | some .kanji => 4

/-- The mode of a 3-bit code; 5..7 are not modes (R100). The outer `none` says "not a mode", the inner one UNKNOWN. -/
def modeOfCode (c : BitVec 3) : Option (Option EncMode) :=
  if c = 0 then some none
  else if c = 1 then some (some .numeric)
  else if c = 2 then some (some .alphanumeric)
  else if c = 3 then some (some .byte)
  else if c = 4 then some (some .kanji)
  else none

/-- Why a word is no command (R94). -/
inductive DecodeError where
  /-- Opcode 0x00 or 0x11..0xFF. -/
  | unknownOpcode
  /-- A known opcode with a reserved operand bit set. -/
  | reservedBits
  deriving DecidableEq, Repr

/-- The field of width `len` whose least significant bit is bit `lo` of the word (R10, R92). -/
def field (w : Word) (lo len : Nat) : BitVec len := w.extractLsb' lo len

/-- The command, provided that the reserved bits (`zero`) are zero (R90, R94). -/
def ifReservedZero {n : Nat} (zero : BitVec n) (i : Instr) : Except DecodeError Instr :=
  if zero = 0 then .ok i else .error .reservedBits

/-- The command a word stands for: the opcode is bits [31:24], the operand fields those of its format (R90–R94). -/
def decode (w : Word) : Except DecodeError Instr :=
  match (field w 24 8).toNat with
  | 0x01 => ifReservedZero (field w 0 24) .reset
  | 0x02 => ifReservedZero (field w 0 7)
      (.cfg (ecOfCode (field w 8 2)) (field w 10 6) (field w 7 1 == 1) (field w 16 8))
  | 0x03 => ifReservedZero (field w 16 8) (.setlen (field w 0 16))
  | 0x04 => ifReservedZero (field w 0 24) .append
  | 0x05 => ifReservedZero (field w 4 20) (.render (field w 0 4))
  | 0x06 => ifReservedZero (field w 4 20) (.bitasm (field w 0 4))
  | 0x07 => ifReservedZero (field w 0 24) .rsenc
  | 0x08 => ifReservedZero (field w 0 24) .mplace
  | 0x09 => ifReservedZero (field w 0 24) .masksel
  | 0x0A => ifReservedZero (field w 8 16) (.setw (field w 2 6) (ecOfCode (field w 0 2)))
  | 0x0B => .ok (.modesel (field w 21 3) (field w 15 6) (field w 0 15))
  | 0x0C => ifReservedZero (field w 16 8) (.gfmul (field w 8 8) (field w 0 8))
  | 0x0D => .ok (.seta (field w 20 4) (field w 0 20))
  | 0x0E => ifReservedZero (field w 0 24) .ld
  | 0x0F => ifReservedZero (field w 16 8) (.st (field w 0 16))
  | 0x10 => ifReservedZero (field w 8 16) (.rdr (field w 0 8))
  | _ => .error .unknownOpcode

/-- The word of a command: opcode, then the operand fields of its format from the high bits down, reserved bits zero
(R91, R93). -/
def encode : Instr → Word
  | .reset => 0x01#8 ++ 0#24
  | .cfg ecl maxver sa cs => 0x02#8 ++ cs ++ maxver ++ ecCode ecl ++ BitVec.ofBool sa ++ 0#7
  | .setlen n => 0x03#8 ++ 0#8 ++ n
  | .append => 0x04#8 ++ 0#24
  | .render k => 0x05#8 ++ 0#20 ++ k
  | .bitasm k => 0x06#8 ++ 0#20 ++ k
  | .rsenc => 0x07#8 ++ 0#24
  | .mplace => 0x08#8 ++ 0#24
  | .masksel => 0x09#8 ++ 0#24
  | .setw ver ecl => 0x0A#8 ++ 0#16 ++ ver ++ ecCode ecl
  | .modesel mode ver idx => 0x0B#8 ++ mode ++ ver ++ idx
  | .gfmul a b => 0x0C#8 ++ 0#8 ++ a ++ b
  | .seta space idx => 0x0D#8 ++ space ++ idx
  | .ld => 0x0E#8 ++ 0#24
  | .st v => 0x0F#8 ++ 0#8 ++ v
  | .rdr regno => 0x10#8 ++ 0#16 ++ regno

/-- The command word the host's table writes as `nbits` bits `w`, the bits above them zero; a row is never longer than
the one length of 32 bits (R90, R95). -/
def tableWord (nbits w : Nat) : Word := BitVec.ofNat 32 (w % 2 ^ nbits)

/-- What the decoder reads from a table word; a QRCORE command is one 32-bit unit, so no byte order intervenes (R64). -/
def decodeTableWord (nbits w : Nat) : Option Instr :=
  if nbits ≤ 32 then (decode (tableWord nbits w)).toOption else none

end Sys2Proof
end

