-- ==== Sys2Proof/Machine/Rom.lean ====
section
/-!
DEFINITION. Unit ROM: the constant tables of QRCORE (49_rom_tables.md), and its fixed parameters (R6, R7).
They are configuration, never state (R34), and stand here as the spec prints them (log 12).
-/

namespace Sys2Proof.Machine

/-- `SYM_MAX`: the most symbols of a group (R6). -/
def symMax : Nat := 16

/-- `CS_CJK`: the id of the kanji charset (R7). -/
def csCjk : BitVec 8 := 0

/-- `QZ_WIDTH`: the quiet zone's width in modules (R7, R74). -/
def qzWidth : Nat := 4

/-- `DCW_SIZE`: the cells of `DCW` (R7, R60). -/
def dcwSize : Nat := 2956

/-- `FCW_SIZE`: the cells of `FCW` (R7, R60). -/
def fcwSize : Nat := 3706

/-- The side length `N(v) = 17 + 4·v` (R6). -/
def side (v : Nat) : Nat := 17 + 4 * v

/-- The versions the tables have a row for: 1..40 (R6, R380). -/
def versionOk (v : Nat) : Bool := 1 ≤ v && v ≤ 40

/-- The version tier: 1–9, 10–26, 27–40 (R181). -/
def tier (v : Nat) : Fin 3 := if v ≤ 9 then 0 else if v ≤ 26 then 1 else 2

/-- The entry of a three-column row that belongs to a tier (R182, R388). -/
def byTier (t : Fin 3) (a b c : Nat) : Nat := if t = 0 then a else if t = 1 then b else c

/-- Four numbers, one per error-correction level (R380). -/
structure PerLevel where
  l : Nat
  m : Nat
  q : Nat
  h : Nat
  deriving DecidableEq, Repr

/-- The number of a level. -/
def ofLevel (x : PerLevel) : EcLevel → Nat
  | .l => x.l
  | .m => x.m
  | .q => x.q
  | .h => x.h

/-- A row of the codeword table (R385). -/
structure CodewordRow where
  total : Nat
  data : PerLevel
  blocks : PerLevel
  deriving DecidableEq, Repr

/-- Part 1 of `codewordRows`. -/
def codewordRowsPart1 : List CodewordRow :=
  [⟨26, ⟨19, 16, 13, 9⟩, ⟨1, 1, 1, 1⟩⟩, ⟨44, ⟨34, 28, 22, 16⟩, ⟨1, 1, 1, 1⟩⟩,
    ⟨70, ⟨55, 44, 34, 26⟩, ⟨1, 1, 2, 2⟩⟩, ⟨100, ⟨80, 64, 48, 36⟩, ⟨1, 2, 2, 4⟩⟩,
    ⟨134, ⟨108, 86, 62, 46⟩, ⟨1, 2, 4, 4⟩⟩, ⟨172, ⟨136, 108, 76, 60⟩, ⟨2, 4, 4, 4⟩⟩,
    ⟨196, ⟨156, 124, 88, 66⟩, ⟨2, 4, 6, 5⟩⟩, ⟨242, ⟨194, 154, 110, 86⟩, ⟨2, 4, 6, 6⟩⟩,
    ⟨292, ⟨232, 182, 132, 100⟩, ⟨2, 5, 8, 8⟩⟩, ⟨346, ⟨274, 216, 154, 122⟩, ⟨4, 5, 8, 8⟩⟩]

/-- Part 2 of `codewordRows`. -/
def codewordRowsPart2 : List CodewordRow :=
  [⟨404, ⟨324, 254, 180, 140⟩, ⟨4, 5, 8, 11⟩⟩, ⟨466, ⟨370, 290, 206, 158⟩, ⟨4, 8, 10, 11⟩⟩,
    ⟨532, ⟨428, 334, 244, 180⟩, ⟨4, 9, 12, 16⟩⟩, ⟨581, ⟨461, 365, 261, 197⟩, ⟨4, 9, 16, 16⟩⟩,
    ⟨655, ⟨523, 415, 295, 223⟩, ⟨6, 10, 12, 18⟩⟩, ⟨733, ⟨589, 453, 325, 253⟩, ⟨6, 10, 17, 16⟩⟩,
    ⟨815, ⟨647, 507, 367, 283⟩, ⟨6, 11, 16, 19⟩⟩, ⟨901, ⟨721, 563, 397, 313⟩, ⟨6, 13, 18, 21⟩⟩,
    ⟨991, ⟨795, 627, 445, 341⟩, ⟨7, 14, 21, 25⟩⟩, ⟨1085, ⟨861, 669, 485, 385⟩, ⟨8, 16, 20, 25⟩⟩]

/-- Part 3 of `codewordRows`. -/
def codewordRowsPart3 : List CodewordRow :=
  [⟨1156, ⟨932, 714, 512, 406⟩, ⟨8, 17, 23, 25⟩⟩, ⟨1258, ⟨1006, 782, 568, 442⟩, ⟨9, 17, 23, 34⟩⟩,
    ⟨1364, ⟨1094, 860, 614, 464⟩, ⟨9, 18, 25, 30⟩⟩, ⟨1474, ⟨1174, 914, 664, 514⟩, ⟨10, 20, 27, 32⟩⟩,
    ⟨1588, ⟨1276, 1000, 718, 538⟩, ⟨12, 21, 29, 35⟩⟩, ⟨1706, ⟨1370, 1062, 754, 596⟩, ⟨12, 23, 34, 37⟩⟩,
    ⟨1828, ⟨1468, 1128, 808, 628⟩, ⟨12, 25, 34, 40⟩⟩, ⟨1921, ⟨1531, 1193, 871, 661⟩, ⟨13, 26, 35, 42⟩⟩,
    ⟨2051, ⟨1631, 1267, 911, 701⟩, ⟨14, 28, 38, 45⟩⟩, ⟨2185, ⟨1735, 1373, 985, 745⟩, ⟨15, 29, 40, 48⟩⟩]

/-- Part 4 of `codewordRows`. -/
def codewordRowsPart4 : List CodewordRow :=
  [⟨2323, ⟨1843, 1455, 1033, 793⟩, ⟨16, 31, 43, 51⟩⟩, ⟨2465, ⟨1955, 1541, 1115, 845⟩, ⟨17, 33, 45, 54⟩⟩,
    ⟨2611, ⟨2071, 1631, 1171, 901⟩, ⟨18, 35, 48, 57⟩⟩, ⟨2761, ⟨2191, 1725, 1231, 961⟩, ⟨19, 37, 51, 60⟩⟩,
    ⟨2876, ⟨2306, 1812, 1286, 986⟩, ⟨19, 38, 53, 63⟩⟩, ⟨3034, ⟨2434, 1914, 1354, 1054⟩, ⟨20, 40, 56, 66⟩⟩,
    ⟨3196, ⟨2566, 1992, 1426, 1096⟩, ⟨21, 43, 59, 70⟩⟩, ⟨3362, ⟨2702, 2102, 1502, 1142⟩, ⟨22, 45, 62, 74⟩⟩,
    ⟨3532, ⟨2812, 2216, 1582, 1222⟩, ⟨24, 47, 65, 77⟩⟩, ⟨3706, ⟨2956, 2334, 1666, 1276⟩, ⟨25, 49, 68, 81⟩⟩]

/-- The codeword table of R385, one row per version 1..40 in order: `TotalCW`, `DataCW` L M Q H, `Blocks` L M Q H. -/
def codewordRows : List CodewordRow :=
  codewordRowsPart1 ++ codewordRowsPart2 ++ codewordRowsPart3 ++ codewordRowsPart4

/-- Part 1 of `alignRows`. -/
def alignRowsPart1 : List (List Nat) :=
  [[], [6, 18],
    [6, 22], [6, 26],
    [6, 30], [6, 34],
    [6, 22, 38], [6, 24, 42],
    [6, 26, 46], [6, 28, 50],
    [6, 30, 54], [6, 32, 58],
    [6, 34, 62], [6, 26, 46, 66],
    [6, 26, 48, 70], [6, 26, 50, 74],
    [6, 30, 54, 78], [6, 30, 56, 82],
    [6, 30, 58, 86], [6, 34, 62, 90]]

/-- Part 2 of `alignRows`. -/
def alignRowsPart2 : List (List Nat) :=
  [[6, 28, 50, 72, 94], [6, 26, 50, 74, 98],
    [6, 30, 54, 78, 102], [6, 28, 54, 80, 106],
    [6, 32, 58, 84, 110], [6, 30, 58, 86, 114],
    [6, 34, 62, 90, 118], [6, 26, 50, 74, 98, 122],
    [6, 30, 54, 78, 102, 126], [6, 26, 52, 78, 104, 130],
    [6, 30, 56, 82, 108, 134], [6, 34, 60, 86, 112, 138],
    [6, 30, 58, 86, 114, 142], [6, 34, 62, 90, 118, 146],
    [6, 30, 54, 78, 102, 126, 150], [6, 24, 50, 76, 102, 128, 154],
    [6, 28, 54, 80, 106, 132, 158], [6, 32, 58, 84, 110, 136, 162],
    [6, 26, 54, 82, 110, 138, 166], [6, 30, 58, 86, 114, 142, 170]]

/-- `AlignPos` of versions 1..40 in order (R390). -/
def alignRows : List (List Nat) :=
  alignRowsPart1 ++ alignRowsPart2

/-- The 15-bit format words of R391: rows L, M, Q, H, columns `m = 0..7`. -/
def formatRows : List (List (BitVec 15)) :=
  [[0x77C4, 0x72F3, 0x7DAA, 0x789D, 0x662F, 0x6318, 0x6C41, 0x6976],
    [0x5412, 0x5125, 0x5E7C, 0x5B4B, 0x45F9, 0x40CE, 0x4F97, 0x4AA0],
    [0x355F, 0x3068, 0x3F31, 0x3A06, 0x24B4, 0x2183, 0x2EDA, 0x2BED],
    [0x1689, 0x13BE, 0x1CE7, 0x19D0, 0x0762, 0x0255, 0x0D0C, 0x083B]]

/-- Part 1 of `versionWords`. -/
def versionWordsPart1 : List (BitVec 18) :=
  [0x07C94, 0x085BC, 0x09A99, 0x0A4D3, 0x0BBF6, 0x0C762, 0x0D847, 0x0E60D,
    0x0F928, 0x10B78, 0x1145D, 0x12A17, 0x13532, 0x149A6, 0x15683, 0x168C9,
    0x177EC, 0x18EC4, 0x191E1, 0x1AFAB, 0x1B08E, 0x1CC1A, 0x1D33F, 0x1ED75,
    0x1F250, 0x209D5, 0x216F0, 0x228BA, 0x2379F, 0x24B0B, 0x2542E, 0x26A64,
    0x27541, 0x28C69]

/-- The 18-bit version words of versions 7..40 in order (R393). -/
def versionWords : List (BitVec 18) :=
  versionWordsPart1

/-- Part 1 of `expTable`. -/
def expTablePart1 : List Byte :=
  [0x01, 0x02, 0x04, 0x08, 0x10, 0x20, 0x40, 0x80, 0x1D, 0x3A, 0x74, 0xE8, 0xCD, 0x87, 0x13, 0x26,
    0x4C, 0x98, 0x2D, 0x5A, 0xB4, 0x75, 0xEA, 0xC9, 0x8F, 0x03, 0x06, 0x0C, 0x18, 0x30, 0x60, 0xC0,
    0x9D, 0x27, 0x4E, 0x9C, 0x25, 0x4A, 0x94, 0x35, 0x6A, 0xD4, 0xB5, 0x77, 0xEE, 0xC1, 0x9F, 0x23,
    0x46, 0x8C, 0x05, 0x0A, 0x14, 0x28, 0x50, 0xA0, 0x5D, 0xBA, 0x69, 0xD2, 0xB9, 0x6F, 0xDE, 0xA1]

/-- Part 2 of `expTable`. -/
def expTablePart2 : List Byte :=
  [0x5F, 0xBE, 0x61, 0xC2, 0x99, 0x2F, 0x5E, 0xBC, 0x65, 0xCA, 0x89, 0x0F, 0x1E, 0x3C, 0x78, 0xF0,
    0xFD, 0xE7, 0xD3, 0xBB, 0x6B, 0xD6, 0xB1, 0x7F, 0xFE, 0xE1, 0xDF, 0xA3, 0x5B, 0xB6, 0x71, 0xE2,
    0xD9, 0xAF, 0x43, 0x86, 0x11, 0x22, 0x44, 0x88, 0x0D, 0x1A, 0x34, 0x68, 0xD0, 0xBD, 0x67, 0xCE,
    0x81, 0x1F, 0x3E, 0x7C, 0xF8, 0xED, 0xC7, 0x93, 0x3B, 0x76, 0xEC, 0xC5, 0x97, 0x33, 0x66, 0xCC]

/-- Part 3 of `expTable`. -/
def expTablePart3 : List Byte :=
  [0x85, 0x17, 0x2E, 0x5C, 0xB8, 0x6D, 0xDA, 0xA9, 0x4F, 0x9E, 0x21, 0x42, 0x84, 0x15, 0x2A, 0x54,
    0xA8, 0x4D, 0x9A, 0x29, 0x52, 0xA4, 0x55, 0xAA, 0x49, 0x92, 0x39, 0x72, 0xE4, 0xD5, 0xB7, 0x73,
    0xE6, 0xD1, 0xBF, 0x63, 0xC6, 0x91, 0x3F, 0x7E, 0xFC, 0xE5, 0xD7, 0xB3, 0x7B, 0xF6, 0xF1, 0xFF,
    0xE3, 0xDB, 0xAB, 0x4B, 0x96, 0x31, 0x62, 0xC4, 0x95, 0x37, 0x6E, 0xDC, 0xA5, 0x57, 0xAE, 0x41]

/-- Part 4 of `expTable`. -/
def expTablePart4 : List Byte :=
  [0x82, 0x19, 0x32, 0x64, 0xC8, 0x8D, 0x07, 0x0E, 0x1C, 0x38, 0x70, 0xE0, 0xDD, 0xA7, 0x53, 0xA6,
    0x51, 0xA2, 0x59, 0xB2, 0x79, 0xF2, 0xF9, 0xEF, 0xC3, 0x9B, 0x2B, 0x56, 0xAC, 0x45, 0x8A, 0x09,
    0x12, 0x24, 0x48, 0x90, 0x3D, 0x7A, 0xF4, 0xF5, 0xF7, 0xF3, 0xFB, 0xEB, 0xCB, 0x8B, 0x0B, 0x16,
    0x2C, 0x58, 0xB0, 0x7D, 0xFA, 0xE9, 0xCF, 0x83, 0x1B, 0x36, 0x6C, 0xD8, 0xAD, 0x47, 0x8E]

/-- `EXP[i]` for `i = 0..254` (R395). -/
def expTable : List Byte :=
  expTablePart1 ++ expTablePart2 ++ expTablePart3 ++ expTablePart4

/-- Part 1 of `logTable`. -/
def logTablePart1 : List Nat :=
  [0, 1, 25, 2, 50, 26, 198, 3, 223, 51, 238, 27, 104, 199, 75, 4,
    100, 224, 14, 52, 141, 239, 129, 28, 193, 105, 248, 200, 8, 76, 113, 5,
    138, 101, 47, 225, 36, 15, 33, 53, 147, 142, 218, 240, 18, 130, 69, 29,
    181, 194, 125, 106, 39, 249, 185, 201, 154, 9, 120, 77, 228, 114, 166, 6]

/-- Part 2 of `logTable`. -/
def logTablePart2 : List Nat :=
  [191, 139, 98, 102, 221, 48, 253, 226, 152, 37, 179, 16, 145, 34, 136, 54,
    208, 148, 206, 143, 150, 219, 189, 241, 210, 19, 92, 131, 56, 70, 64, 30,
    66, 182, 163, 195, 72, 126, 110, 107, 58, 40, 84, 250, 133, 186, 61, 202,
    94, 155, 159, 10, 21, 121, 43, 78, 212, 229, 172, 115, 243, 167, 87, 7]

/-- Part 3 of `logTable`. -/
def logTablePart3 : List Nat :=
  [112, 192, 247, 140, 128, 99, 13, 103, 74, 222, 237, 49, 197, 254, 24, 227,
    165, 153, 119, 38, 184, 180, 124, 17, 68, 146, 217, 35, 32, 137, 46, 55,
    63, 209, 91, 149, 188, 207, 205, 144, 135, 151, 178, 220, 252, 190, 97, 242,
    86, 211, 171, 20, 42, 93, 158, 132, 60, 57, 83, 71, 109, 65, 162, 31]

/-- Part 4 of `logTable`. -/
def logTablePart4 : List Nat :=
  [45, 67, 216, 183, 123, 164, 118, 196, 23, 73, 236, 127, 12, 111, 246, 108,
    161, 59, 82, 41, 157, 85, 170, 251, 96, 134, 177, 187, 204, 62, 90, 203,
    89, 95, 176, 156, 169, 160, 81, 11, 245, 22, 235, 122, 117, 44, 215, 79,
    174, 213, 233, 230, 231, 173, 232, 116, 214, 244, 234, 168, 80, 88, 175]

/-- `LOG[x]` for `x = 1..255`, at position `x - 1` (R396); `LOG[0]` is undefined and has no entry (U9). -/
def logTable : List Nat :=
  logTablePart1 ++ logTablePart2 ++ logTablePart3 ++ logTablePart4

/-- The row of a version; outside 1..40 there is none (log 6: an all-zero row stands for it, and no command reads it). -/
def codewordRow : Nat → CodewordRow
  | 0 => ⟨0, ⟨0, 0, 0, 0⟩, ⟨0, 0, 0, 0⟩⟩
  | v + 1 => codewordRows.getD v ⟨0, ⟨0, 0, 0, 0⟩, ⟨0, 0, 0, 0⟩⟩

/-- `TotalCW(v)` (R384, R385). -/
def totalCW (v : Nat) : Nat := (codewordRow v).total

/-- `DataCW(ecl, v)` (R385). -/
def dataCW (ecl : EcLevel) (v : Nat) : Nat := ofLevel (codewordRow v).data ecl

/-- `Blocks(ecl, v)` (R386). -/
def blocks (ecl : EcLevel) (v : Nat) : Nat := ofLevel (codewordRow v).blocks ecl

/-- `EcPerBlock(ecl, v)`: `TotalCW/Blocks − DataCW/Blocks`, both floor divisions (R268, R399). -/
def ecPerBlock (ecl : EcLevel) (v : Nat) : Nat := totalCW v / blocks ecl v - dataCW ecl v / blocks ecl v

/-- `RawModules(v)`: the cells the function patterns leave free (R384). -/
def rawModules (v : Nat) : Nat :=
  (16 * v + 128) * v + 64 - (if v = 1 then 0 else (25 * (v / 7 + 2) - 10) * (v / 7 + 2) - 55) - (if 7 ≤ v then 36 else 0)

/-- `RemBits(v)`: the number of remainder cells (R398). -/
def remBits (v : Nat) : Nat := rawModules v % 8

/-- `ModeInd(mode)`: the 4-bit mode indicator (R387). -/
def modeInd : EncMode → Nat
  | .numeric => 0b0001
  | .alphanumeric => 0b0010
  | .byte => 0b0100
  | .kanji => 0b1000

/-- The structured-append mode indicator (R243, R387). -/
def saInd : Nat := 0b0011

/-- `CCW(v, mode)`: the width of the character-count indicator (R388). -/
def ccw (v : Nat) : EncMode → Nat
  | .numeric => byTier (tier v) 10 12 14
  | .alphanumeric => byTier (tier v) 9 11 13
  | .byte => byTier (tier v) 8 16 16
  | .kanji => byTier (tier v) 8 10 12

/-- The 45 codes of the ALPHANUMERIC table, in the order of their values 0..44 (R389). -/
def alnCodes : List Nat :=
  [0x30, 0x31, 0x32, 0x33, 0x34, 0x35, 0x36, 0x37, 0x38, 0x39,
    0x41, 0x42, 0x43, 0x44, 0x45, 0x46, 0x47, 0x48, 0x49, 0x4A, 0x4B, 0x4C, 0x4D,
    0x4E, 0x4F, 0x50, 0x51, 0x52, 0x53, 0x54, 0x55, 0x56, 0x57, 0x58, 0x59, 0x5A,
    0x20, 0x24, 0x25, 0x2A, 0x2B, 0x2D, 0x2E, 0x2F, 0x3A]

/-- `AlignPos(v)`: the alignment coordinates (R390). -/
def alignPos : Nat → List Nat
  | 0 => []
  | v + 1 => alignRows.getD v []

/-- `FormatBits(ecl, m)` (R391). -/
def formatBits (ecl : EcLevel) (m : Nat) : BitVec 15 :=
  let row := match ecl with
    | .l => 0
    | .m => 1
    | .q => 2
    | .h => 3
  (formatRows.getD row []).getD m 0

/-- `FormatPos(N, i)`: the two cells that carry format bit `i`, first copy then second (R392). -/
def formatPos (n i : Nat) : List (Nat × Nat) :=
  [if i ≤ 5 then (i, 8) else if i = 6 then (7, 8) else if i = 7 then (8, 8) else if i = 8 then (8, 7) else (8, 14 - i),
    if i ≤ 7 then (8, n - 1 - i) else (n - 15 + i, 8)]

/-- `VersionBits(v)` for `7 ≤ v ≤ 40` (R393). -/
def versionBits (v : Nat) : BitVec 18 := versionWords.getD (v - 7) 0

/-- `VersionPos(N, i)`: the two cells that carry version bit `i` (R394). -/
def versionPos (n i : Nat) : List (Nat × Nat) :=
  [(i / 3, n - 11 + i % 3), (n - 11 + i % 3, i / 3)]

/-- `EXP[i]` for `0 ≤ i ≤ 254` (R395). -/
def gfExp (i : Nat) : Byte := expTable.getD i 0

/-- `LOG[x]` for `x ≠ 0` (R396); `LOG[0]` is never looked up (R263, U9; log 10). -/
def gfLog (x : Byte) : Nat := logTable.getD (x.toNat - 1) 0

end Sys2Proof.Machine
end

