-- ==== Sys2Proof/Machine/State.lean ====
section
/-!
DEFINITION. The architectural state of QRCORE (R20–R35, R60, R61), the model's own command and response streams
(R69, R98), the result codes (R411), and the reasons a step can stop.
-/

namespace Sys2Proof.Machine

/-- `PHASE`: the life-cycle phase (R22); the code 3 never occurs (R101; DEDUCED, log 11). -/
inductive Phase where
  | unconfigured
  | building
  | rendered
  deriving DecidableEq, Repr

/-- The five address spaces `ASPACE` can select (R60); SETA refuses every other id (R361). -/
inductive Space where
  | txt
  | dcw
  | fcw
  | mm
  | qm
  deriving DecidableEq, Repr

/-- `MMV`: what `MM` holds (R28): nothing, a pre-mask matrix, or a final matrix. -/
inductive MatrixKind where
  | empty
  | premask
  | final
  deriving DecidableEq, Repr

/-- A segment of a symbol's segment store (R31): its mode, its character count (bytes, for BYTE), the accumulated
words, and the number of data bits of the words. -/
structure Segment where
  mode : EncMode
  count : Nat
  words : List Nat
  bits : Nat
  deriving DecidableEq, Repr

/-- A symbol slot `S[k]` (R30, R31). `mode = none` is UNKNOWN. -/
structure Slot where
  ver : BitVec 6
  cap : BitVec 15
  cnt : BitVec 15
  mode : Option EncMode
  segnNumeric : BitVec 11
  segnAlphanumeric : BitVec 11
  segnByte : BitVec 11
  segnKanji : BitVec 11
  segs : List Segment
  deriving DecidableEq, Repr

/-- The group registers but `PHASE` (R21). -/
structure Group where
  ecl : EcLevel
  maxver : BitVec 6
  sa : Bool
  charset : BitVec 8
  minver : BitVec 6
  parity : BitVec 8
  symcnt : BitVec 5
  deriving DecidableEq, Repr

/-- The written cells of one address space: (index, element) pairs, indexes strictly rising; a cell that is not listed
is unwritten and holds no value (R60, R63; DESIGN CHOICE, log 8). With 8-bit elements an entry is a `Host.Cell`. -/
abbrev Cells (α : Type) := List (Nat × α)

/-- The four buffers (R60). `QM` is a view of `MM`, not a buffer (R66, R74). -/
structure Memory where
  txt : Cells CharCode
  dcw : Cells Byte
  fcw : Cells Byte
  mm : Cells Module
  deriving DecidableEq, Repr

/-- The result codes of a response (R411); codes 8..15 are never produced. -/
inductive ResCode where
  | ok
  | illegal
  | sequence
  | config
  | unsupportedChar
  | inputTooLong
  | address
  | argument
  deriving DecidableEq, Repr

/-- A response `(res, val)` (R98). -/
structure Response where
  res : ResCode
  val : Word
  deriving DecidableEq, Repr

/-- The state of QRCORE (R20), with the host's side of the command port beside it (`cmds`, `resps`: the model's own). -/
structure State where
  /-- `PHASE` (R22). -/
  phase : Phase
  /-- `ECL`, `MAXVER`, `SA`, `CHARSET`, `MINVER`, `PARITY`, `SYMCNT` (R21). -/
  group : Group
  /-- `TLEN` (R23). -/
  tlen : BitVec 16
  /-- `TPOS` (R24). -/
  tpos : BitVec 16
  /-- `ASPACE` (R25). -/
  aspace : Space
  /-- `AIDX` (R25). -/
  aidx : BitVec 20
  /-- `WVER` (R26). -/
  wver : BitVec 6
  /-- `WECL` (R26). -/
  wecl : EcLevel
  /-- `WSYM` (R26). -/
  wsym : BitVec 4
  /-- `MASKREF` (R27). -/
  maskref : BitVec 3
  /-- `PEN[0..7]` (R27). -/
  pen : Vector (BitVec 32) 8
  /-- `PENC[0..7][0..3]` (R27). -/
  penc : Vector (Vector (BitVec 32) 4) 8
  /-- `TXTN` (R28). -/
  txtn : BitVec 16
  /-- `DCWN` (R28). -/
  dcwn : BitVec 12
  /-- `FCWN` (R28). -/
  fcwn : BitVec 12
  /-- `MMV` (R28). -/
  mmv : MatrixKind
  /-- `S[0..15]` (R30, R31). -/
  slots : Vector Slot 16
  /-- `TXT`, `DCW`, `FCW`, `MM` (R60). -/
  mem : Memory
  /-- DESIGN CHOICE (log 1): the command words the host will present, in order; each step takes the first (R69, R90). -/
  cmds : List Word
  /-- DESIGN CHOICE (log 1): the responses the host has received, oldest first (R98); no command reads them. -/
  resps : List Response
  deriving DecidableEq, Repr

/-- Why the machine stops with a fault: only in situations the rules make unreachable
(`93_implementation_defined.md`: "the model … must record a fault (never return a value)"; log 7). All are safe. -/
inductive Fault where
  /-- A command reads a buffer cell that nothing has written although the valid length says it is written (U8).
  Raised by APPEND, MODESEL, RSENC, MPLACE, MASKSEL, RENDER and LD. Safe. -/
  | unwrittenRead
  /-- The current symbol `S[SYMCNT-1]` does not exist in phase BUILDING (R21, R22). Raised by APPEND. Safe. -/
  | noCurrentSymbol
  /-- A version register holds a number outside 1..40, for which the tables have no row (R380).
  Raised by APPEND, BITASM, RSENC, MPLACE, MASKSEL, RENDER. Safe. -/
  | versionOutsideTables
  /-- The active mode is not UNKNOWN but the segment store is empty (R30). Raised by APPEND. Safe. -/
  | noSegment
  deriving DecidableEq, Repr

/-- Why a step has no meaning. -/
inductive Refusal where
  /-- The instruction has no meaning in this model yet. Raised by `exec`'s refused arms. Safe. -/
  | notModelled (mnemonic : String)
  /-- The host has presented no command word, so there is no step to take (R3, R8, R446). Raised by `step`. Safe. -/
  | noCommand
  deriving DecidableEq, Repr

/-- A slot that was never created since reset: every field 0, `MODE` UNKNOWN, no segments (R35). -/
def Slot.reset : Slot :=
  ⟨0, 0, 0, none, 0, 0, 0, 0, []⟩

/-- The group registers after reset: the construction defaults (R35). -/
def Group.reset : Group :=
  ⟨.m, 40, false, 0, 1, 0, 0⟩

/-- No cell of any buffer is written (R35, R63). -/
def Memory.reset : Memory :=
  ⟨[], [], [], []⟩

/-- The machine right after reset (R35, R440), with nothing presented to it and no response given. -/
def State.reset : State where
  phase := .unconfigured
  group := .reset
  tlen := 0
  tpos := 0
  aspace := .txt
  aidx := 0
  wver := 0
  wecl := .m
  wsym := 0
  maskref := 0
  pen := .replicate 8 0
  penc := .replicate 8 (.replicate 4 0)
  txtn := 0
  dcwn := 0
  fcwn := 0
  mmv := .empty
  slots := .replicate 16 .reset
  mem := .reset
  cmds := []
  resps := []

end Sys2Proof.Machine
end

