-- ==== Sys2Proof/Machine/Ops.lean ====
section
/-!
DEFINITION. The named operations over memory, registers and the command port: cells (R60–R63), `MemRead` and
`MemWrite` (R62), the response and the error mechanism (R98, R410–R412), taking the next command (R69, R446).
-/

namespace Sys2Proof.Machine

/-! ### Cells -/

section
variable {α : Type}

/-- The element at an index, or none where nothing is written (R63). -/
def cellAt : Cells α → Nat → Option α
  | [], _ => none
  | (a, v) :: rest, i => if a = i then some v else cellAt rest i

/-- Write one element, keeping the indexes strictly rising. -/
def cellPut : Cells α → Nat → α → Cells α
  | [], i, v => [(i, v)]
  | (a, x) :: rest, i, v =>
    if i < a then (i, v) :: (a, x) :: rest
    else if i = a then (i, v) :: rest
    else (a, x) :: cellPut rest i v

/-- The cells `start, start+1, …` holding the elements of a list. -/
def cellsFrom (start : Nat) : List α → Cells α
  | [] => []
  | v :: vs => (start, v) :: cellsFrom (start + 1) vs

/-- The elements at `start, …, start + n - 1` of cells that begin there, or none if one of them is unwritten. -/
def cellRun (start : Nat) : Nat → Cells α → Option (List α)
  | 0, _ => some []
  | _ + 1, [] => none
  | n + 1, (a, v) :: rest => if a = start then (cellRun (start + 1) n rest).map (v :: ·) else none

/-- The first `n` elements of a buffer, or none if one of them is unwritten. -/
def firstCells (c : Cells α) (n : Nat) : Option (List α) := cellRun 0 n c

/-- Every index of the list is at least `lo`, and they rise strictly. -/
def cellsRising (lo : Nat) : Cells α → Bool
  | [] => true
  | (a, _) :: rest => lo ≤ a && cellsRising (a + 1) rest

end

/-- The canonical form of the memory: in every buffer the indexes rise strictly. An unlisted cell has no value, so no
entry can equal what an unlisted cell reads as. -/
def Memory.wf (m : Memory) : Bool :=
  cellsRising 0 m.txt && cellsRising 0 m.dcw && cellsRising 0 m.fcw && cellsRising 0 m.mm

/-! ### Codes of the registers that are not numbers -/

/-- The code of `PHASE` (R101). -/
def phaseCode : Phase → BitVec 2
  | .unconfigured => 0
  | .building => 1
  | .rendered => 2

/-- The id of an address space (R60). -/
def spaceCode : Space → BitVec 4
  | .txt => 0
  | .dcw => 1
  | .fcw => 2
  | .mm => 3
  | .qm => 4

/-- The code of `MMV` (R28). -/
def mmvCode : MatrixKind → BitVec 2
  | .empty => 0
  | .premask => 1
  | .final => 2

/-- The 4-bit code of a result (R411). -/
def resCode : ResCode → BitVec 4
  | .ok => 0
  | .illegal => 1
  | .sequence => 2
  | .config => 3
  | .unsupportedChar => 4
  | .inputTooLong => 5
  | .address => 6
  | .argument => 7

/-! ### The response and the error mechanism -/

/-- Give the host the one response of a command (R98). -/
def respond (s : State) (res : ResCode) (val : Word) : State :=
  { s with resps := s.resps ++ [⟨res, val⟩] }

/-- How the rule of a command ends: `respond(v)`, `raise E(info)` with the state written so far (R11, R410), or a
situation the rules make unreachable (`93_implementation_defined.md`). -/
inductive Result where
  | done (s : State) (val : Word)
  | raised (s : State) (err : ResCode) (info : Word)
  | stuck (why : Fault)
  deriving DecidableEq, Repr

/-- Ending a command, and with it the WHOLE of taking an error: "The whole of “entry” is the response" (R410, R416);
state written before the `raise` stays written, nothing is saved, no mode changes. There is no return (R423). -/
def Result.finish : Result → Host.Outcome State Fault Refusal
  | .done s val => .next (respond s .ok val)
  | .raised s err info => .next (respond s err info)
  | .stuck why => .fault why

/-- Go on with a further stage in the state a stage left; its value is dropped (R135). -/
def Result.andThen (r : Result) (f : State → Result) : Result :=
  match r with
  | .done s _ => f s
  | .raised s err info => .raised s err info
  | .stuck why => .stuck why

/-- `raise ERR_SEQUENCE(PHASE)`: the value is `PHASE`, zero-extended (R413). -/
def sequenceError (s : State) : Result := .raised s .sequence ((phaseCode s.phase).setWidth 32)

/-- `raise ERR_ARGUMENT(x)` (R419). -/
def argumentError (s : State) (x : Word) : Result := .raised s .argument x

/-- `raise ERR_ADDRESS(x)` (R418). -/
def addressError (s : State) (x : Word) : Result := .raised s .address x

/-- An illegal word: `ERR_ILLEGAL` with the word as value, no state changed (R94, R412). -/
def illegalWord (w : Word) (s : State) : Host.Outcome State Fault Refusal :=
  (Result.raised s .illegal w).finish

/-! ### The command port -/

/-- The next command word, taken from the host's stream (R69, R446; log 1). -/
def takeCommand (s : State) : Option (Word × State) :=
  match s.cmds with
  | [] => none
  | w :: rest => some (w, { s with cmds := rest })

/-- Present one command word ahead of whatever else the host will present (log 2). -/
def presentCommand (s : State) (w : Word) : State :=
  { s with cmds := w :: s.cmds }

/-! ### `MemRead` and `MemWrite` (R62) -/

/-- What `MemRead` answers: an element, `ERR_ADDRESS`, or an unwritten cell below the valid length (U8). -/
inductive ReadResult (α : Type) where
  | value (x : α)
  | refused
  | unwritten
  deriving DecidableEq, Repr

section
variable {α : Type}

/-- Read the cell at `idx` of a buffer that has `n` valid cells (R62). -/
def readCell (c : Cells α) (n idx : Nat) : ReadResult α :=
  if n ≤ idx then .refused
  else match cellAt c idx with
    | some x => .value x
    | none => .unwritten

end

/-- The side of the matrix `MM` holds: `17 + 4·WVER` (R60, R75). -/
def State.side (s : State) : Nat := Machine.side s.wver.toNat

/-- The cell of the quiet-zone view at index `idx`: the border is 0, inside it is `MM` (R74). -/
def readQuiet (s : State) (idx : Nat) : ReadResult Module :=
  let n := s.side
  let q := n + 2 * qzWidth
  if s.mmv = .final ∧ idx < q * q then
    let r := idx / q
    let c := idx % q
    if qzWidth ≤ r ∧ r < qzWidth + n ∧ qzWidth ≤ c ∧ c < qzWidth + n then
      readCell s.mem.mm (n * n) ((r - qzWidth) * n + (c - qzWidth))
    else .value 0
  else .refused

/-- Widen what was read to the 32-bit response value: zero-extended (R66, R362). -/
def zextRead {w : Nat} : ReadResult (BitVec w) → ReadResult Word
  | .value x => .value (x.setWidth 32)
  | .refused => .refused
  | .unwritten => .unwritten

/-- Widen a matrix cell to the 32-bit response value: sign-extended (R66, R102, R362). -/
def sextRead {w : Nat} : ReadResult (BitVec w) → ReadResult Word
  | .value x => .value (x.signExtend 32)
  | .refused => .refused
  | .unwritten => .unwritten

/-- `MemRead(space, idx)`, with the element widened as LD returns it (R62, R362). -/
def memRead (s : State) (space : Space) (idx : Nat) : ReadResult Word :=
  match space with
  | .txt => zextRead (readCell s.mem.txt s.txtn.toNat idx)
  | .dcw => zextRead (readCell s.mem.dcw s.dcwn.toNat idx)
  | .fcw => zextRead (readCell s.mem.fcw s.fcwn.toNat idx)
  | .mm => if s.mmv = .empty then .refused else sextRead (readCell s.mem.mm (s.side * s.side) idx)
  | .qm => sextRead (readQuiet s idx)

/-- Whether a buffer of `size` cells, `n` of them written, takes a store at `idx`: no hole, no overrun (R62). -/
def storeOk (n size idx : Nat) : Bool := idx ≤ n && idx < size

/-- The valid length after a store at `idx` (R62). -/
def storeLength {w : Nat} (n : BitVec w) (idx : Nat) : BitVec w := if idx = n.toNat then n + 1 else n

/-- `MemWrite(space, idx, v)`: none is `ERR_ADDRESS`, which changes nothing (R62). -/
def memWrite (p : Platform) (s : State) (space : Space) (idx : Nat) (v : BitVec 16) : Option State :=
  match space with
  | .txt =>
    if storeOk s.txtn.toNat p.txtSize idx then
      some { s with mem := { s.mem with txt := cellPut s.mem.txt idx v }, txtn := storeLength s.txtn idx }
    else none
  | .dcw =>
    if storeOk s.dcwn.toNat dcwSize idx then
      some { s with mem := { s.mem with dcw := cellPut s.mem.dcw idx (v.setWidth 8) }, dcwn := storeLength s.dcwn idx }
    else none
  | .fcw =>
    if storeOk s.fcwn.toNat fcwSize idx then
      some { s with mem := { s.mem with fcw := cellPut s.mem.fcw idx (v.setWidth 8) }, fcwn := storeLength s.fcwn idx }
    else none
  | .mm => none
  | .qm => none

/-! ### Whole buffers, as the stage commands write them -/

/-- Open a working context: `DCW` holds these `n` codewords, `DCWN <- n`, and the buffers downstream are unwritten
again (R28, R134, R241; DEDUCED, log 18). -/
def openContext (s : State) (ver : BitVec 6) (ecl : EcLevel) (n : Nat) (codewords : List Byte) : State :=
  { s with
    wver := ver, wecl := ecl,
    dcwn := BitVec.ofNat 12 n, fcwn := 0, mmv := .empty,
    mem := { s.mem with dcw := cellsFrom 0 codewords, fcw := [], mm := [] } }

/-- `FCW` holds these `n` codewords and no more, `FCWN <- n` (R28, R270). -/
def storeStream (s : State) (n : Nat) (codewords : List Byte) : State :=
  { s with fcwn := BitVec.ofNat 12 n, mem := { s.mem with fcw := cellsFrom 0 codewords } }

/-- `MM` holds exactly these cells, row-major (R75, R291, R339). -/
def storeMatrix (s : State) (kind : MatrixKind) (cells : List Module) : State :=
  { s with mmv := kind, mem := { s.mem with mm := cellsFrom 0 cells } }

/-! ### Symbol slots -/

/-- `S[k]` (R30). -/
def State.slot (s : State) (k : BitVec 4) : Slot := s.slots[k.toNat]

/-- `S[k] <- x`. -/
def State.setSlot (s : State) (k : BitVec 4) (x : Slot) : State :=
  { s with slots := s.slots.set k.toNat x }

/-- The index of the current symbol: `SYMCNT - 1` (R21); meaningful for `1 ≤ SYMCNT ≤ 16`. -/
def State.curIdx (s : State) : BitVec 4 := (s.group.symcnt - 1).setWidth 4

/-- The current symbol `S[SYMCNT-1]` (R21). -/
def State.cur (s : State) : Slot := s.slot s.curIdx

/-- Write the current symbol: "Only the current symbol `S[SYMCNT-1]` is ever written" (R30). -/
def State.setCur (s : State) (x : Slot) : State := s.setSlot s.curIdx x

/-- `SEGN[mode]` of a slot (R30). -/
def Slot.segn (x : Slot) : EncMode → BitVec 11
  | .numeric => x.segnNumeric
  | .alphanumeric => x.segnAlphanumeric
  | .byte => x.segnByte
  | .kanji => x.segnKanji

/-- `SEGN[mode] <- SEGN[mode] + 1` (R214). -/
def Slot.bumpSegn (x : Slot) : EncMode → Slot
  | .numeric => { x with segnNumeric := x.segnNumeric + 1 }
  | .alphanumeric => { x with segnAlphanumeric := x.segnAlphanumeric + 1 }
  | .byte => { x with segnByte := x.segnByte + 1 }
  | .kanji => { x with segnKanji := x.segnKanji + 1 }

end Sys2Proof.Machine
end

