-- ==== Sys2Proof/Machine/Operands.lean ====
section
/-!
DEFINITION. What the operands of the commands name: address spaces (R60, R361), register numbers (R21–R30, R364), and
the symbol position of RENDER and BITASM (R135, R241). The other operands are plain numbers (R92).
-/

namespace Sys2Proof.Machine

/-- The address space of an id; ids 5..15 are reserved (R60, R361). -/
def spaceOfId (c : BitVec 4) : Option Space :=
  if c = 0 then some .txt
  else if c = 1 then some .dcw
  else if c = 2 then some .fcw
  else if c = 3 then some .mm
  else if c = 4 then some .qm
  else none

/-- The registers 0x00..0x0F: the group, sequencing, access and working-context registers (R21–R27). -/
def lowRegister (s : State) : Nat → Option Word
  | 0x00 => some ((phaseCode s.phase).setWidth 32)
  | 0x01 => some ((ecCode s.group.ecl).setWidth 32)
  | 0x02 => some (s.group.maxver.setWidth 32)
  | 0x03 => some ((BitVec.ofBool s.group.sa).setWidth 32)
  | 0x04 => some (s.group.charset.setWidth 32)
  | 0x05 => some (s.group.minver.setWidth 32)
  | 0x06 => some (s.group.parity.setWidth 32)
  | 0x07 => some (s.group.symcnt.setWidth 32)
  | 0x08 => some (s.tlen.setWidth 32)
  | 0x09 => some (s.tpos.setWidth 32)
  | 0x0A => some ((spaceCode s.aspace).setWidth 32)
  | 0x0B => some (s.aidx.setWidth 32)
  | 0x0C => some (s.wver.setWidth 32)
  | 0x0D => some ((ecCode s.wecl).setWidth 32)
  | 0x0E => some (s.wsym.setWidth 32)
  | 0x0F => some (s.maskref.setWidth 32)
  | _ => none

/-- The registers 0x18..0x1B: the valid lengths (R28). -/
def lengthRegister (s : State) : Nat → Option Word
  | 0x18 => some (s.txtn.setWidth 32)
  | 0x19 => some (s.dcwn.setWidth 32)
  | 0x1A => some (s.fcwn.setWidth 32)
  | 0x1B => some ((mmvCode s.mmv).setWidth 32)
  | _ => none

/-- Field `f` of a symbol slot (R30). -/
def slotRegister (x : Slot) : Nat → Option Word
  | 0 => some (x.ver.setWidth 32)
  | 1 => some (x.cap.setWidth 32)
  | 2 => some (x.cnt.setWidth 32)
  | 3 => some ((modeCode x.mode).setWidth 32)
  | 4 => some (x.segnNumeric.setWidth 32)
  | 5 => some (x.segnAlphanumeric.setWidth 32)
  | 6 => some (x.segnByte.setWidth 32)
  | 7 => some (x.segnKanji.setWidth 32)
  | _ => none

/-- The value of register number `n`, zero-extended to 32 bits; none where the number names no register (R364):
`PEN[m]` at `0x10+m`, `PENC[m][t]` at `0x20+4m+t` (R27), `S[k]` field `f` at `0x80+8k+f` (R30). -/
def registerValue (s : State) (n : BitVec 8) : Option Word :=
  let i := n.toNat
  if i < 0x10 then lowRegister s i
  else if i < 0x18 then some (s.pen[(n.extractLsb' 0 3).toNat])
  else if i < 0x20 then lengthRegister s i
  else if i < 0x40 then some (s.penc[(n.extractLsb' 2 3).toNat][(n.extractLsb' 0 2).toNat])
  else if i < 0x80 then none
  else slotRegister (s.slot (n.extractLsb' 3 4)) (n.extractLsb' 0 3).toNat

/-- The index of the symbol a position names, widened as `ERR_ARGUMENT` reports it (R135, R241). -/
def symbolExists (s : State) (k : BitVec 4) : Bool := k.toNat < s.group.symcnt.toNat

end Sys2Proof.Machine
end

