-- ==== Sys2Proof/Machine/Access.lean ====
section
/-!
DEFINITION. The access commands SETA, LD, ST, RDR (48_access_commands.md).
-/

namespace Sys2Proof.Machine

/-- `SETA space, idx` (R361). -/
def seta (space : BitVec 4) (idx : BitVec 20) (s : State) : Result :=
  match spaceOfId space with
  | none => addressError s (space.setWidth 32)
  | some sp => .done { s with aspace := sp, aidx := idx } 0

/-- The meaning of SETA (R361). -/
def execSeta (space : BitVec 4) (idx : BitVec 20) (s : State) : Host.Outcome State Fault Refusal :=
  (seta space idx s).finish

/-- `AIDX <- AIDX + 1` (R362, R363). -/
def advanceAidx (s : State) : State := { s with aidx := s.aidx + 1 }

/-- `LD` (R362). -/
def load (s : State) : Result :=
  match memRead s s.aspace s.aidx.toNat with
  | .value v => .done (advanceAidx s) v
  | .refused => addressError s (s.aidx.setWidth 32)
  | .unwritten => .stuck .unwrittenRead

/-- The meaning of LD (R362). -/
def execLd (s : State) : Host.Outcome State Fault Refusal := (load s).finish

/-- `ST v` (R363). -/
def store (p : Platform) (v : BitVec 16) (s : State) : Result :=
  match memWrite p s s.aspace s.aidx.toNat v with
  | some s' => .done (advanceAidx s') 0
  | none => addressError s (s.aidx.setWidth 32)

/-- The meaning of ST (R363). -/
def execSt (v : BitVec 16) (s : State) : Host.Outcome State Fault Refusal := (store Config.platform v s).finish

/-- `RDR regno` (R364). -/
def readRegister (regno : BitVec 8) (s : State) : Result :=
  match registerValue s regno with
  | some v => .done s v
  | none => argumentError s (regno.setWidth 32)

/-- The meaning of RDR (R364). -/
def execRdr (regno : BitVec 8) (s : State) : Host.Outcome State Fault Refusal := (readRegister regno s).finish

end Sys2Proof.Machine
end

