-- ==== Sys2Proof/Machine/Flags.lean ====
section
/-!
DEFINITION. QRCORE has no arithmetic flags and no condition codes (R29). What steers later operations the way a flag
would: the phase check (R22, R130) and the presence of a stage's input (R413).
-/

namespace Sys2Proof.Machine

/-- The phase check of CFG: accepted only in UNCONFIGURED (R130, R132). -/
def cfgAccepted (ph : Phase) : Bool := ph == .unconfigured

/-- The phase check of APPEND: accepted only in BUILDING (R130, R219). -/
def appendAccepted (ph : Phase) : Bool := ph == .building

/-- The phase check of RENDER and BITASM: refused only in UNCONFIGURED (R130, R135, R241). -/
def renderAccepted (ph : Phase) : Bool := ph != .unconfigured

/-- A working context is open: `WVER ≠ 0` (R26, R270, R291). -/
def contextOpen (s : State) : Bool := s.wver != 0

/-- The data codewords of the working context are all there: `DCWN = DataCW(WECL, WVER)` (R270). -/
def dataComplete (s : State) : Bool := s.dcwn.toNat == dataCW s.wecl s.wver.toNat

/-- The final codeword stream is all there: `FCWN = TotalCW(WVER)` (R291). -/
def streamComplete (s : State) : Bool := s.fcwn.toNat == totalCW s.wver.toNat

end Sys2Proof.Machine
end

