-- ==== Sys2Proof/Machine/Encoders.lean ====
section
/-!
DEFINITION. Character classes, bit costs and the four mode encoders of unit SEG (41_mode_encoders.md).
`p` is the platform (the charset service), `cs` the register `CHARSET`.
-/

namespace Sys2Proof.Machine

/-! ### Characters and bytes -/

/-- The bytes of an answer of the charset service, first byte first (R104). -/
def byteList : CharBytes → List Byte
  | .one a => [a]
  | .two a b => [a, b]
  | .three a b c => [a, b, c]
  | .four a b c d => [a, b, c, d]

/-- `CsBytes(cs, ch)` as a list; a character the charset cannot encode has no bytes (R104; log 10). -/
def charBytes (p : Platform) (cs : BitVec 8) (ch : CharCode) : List Byte :=
  match p.csBytes cs ch with
  | some b => byteList b
  | none => []

/-! ### Character classes (R151–R158) -/

/-- `Num(ch)`: the ten digits (R151). -/
def isNum (ch : CharCode) : Bool := 0x30 ≤ ch.toNat && ch.toNat ≤ 0x39

/-- `AlnVal(ch)`, where `ch` is one of the 45 codes (R162, R389). -/
def alnVal? (ch : CharCode) : Option Nat := alnCodes.idxOf? ch.toNat

/-- `Aln(ch)`: one of the 45 codes (R152). -/
def isAln (ch : CharCode) : Bool := (alnVal? ch).isSome

/-- `AlnX(ch)`: alphanumeric and not numeric (R153). -/
def isAlnX (ch : CharCode) : Bool := isAln ch && !isNum ch

/-- The double-byte codes the KANJI encoder takes: in one of the two ranges, and the second byte in 0x40..0xFC but not
0x7F (R156). -/
def kanjiCodeOk (first second : Byte) : Bool :=
  let code := first.toNat * 256 + second.toNat
  ((0x8140 ≤ code && code ≤ 0x9FFC) || (0xE040 ≤ code && code ≤ 0xEBBF))
    && second != 0x7F && 0x40 ≤ second.toNat && second.toNat ≤ 0xFC

/-- `KanjiCode(ch)`, defined only when `KanjiChar(ch)`; the charset asked is `CS_CJK` whatever `CHARSET` is (R156). -/
def kanjiCode? (p : Platform) (ch : CharCode) : Option Nat :=
  match p.csBytes csCjk ch with
  | some (.two a b) => if kanjiCodeOk a b then some (a.toNat * 256 + b.toNat) else none
  | _ => none

/-- `KanjiChar(ch)` (R156). -/
def isKanjiChar (p : Platform) (ch : CharCode) : Bool := (kanjiCode? p ch).isSome

/-- `Kan(ch)`: kanji-eligible, under the active charset (R157). -/
def isKan (p : Platform) (cs : BitVec 8) (ch : CharCode) : Bool := cs == csCjk && isKanjiChar p ch

/-- `Byt(ch)`: the active charset can encode it (R154). -/
def isByt (p : Platform) (cs : BitVec 8) (ch : CharCode) : Bool := (p.csBytes cs ch).isSome

/-- `BytX(ch)`: byte-exclusive (R155). -/
def isBytX (p : Platform) (cs : BitVec 8) (ch : CharCode) : Bool := isByt p cs ch && !isAln ch && !isKan p cs ch

/-- `CheckSupported(ch, i)` passes: no kanji character under another charset, and the active charset encodes it (R158). -/
def supported (p : Platform) (cs : BitVec 8) (ch : CharCode) : Bool :=
  !(isKanjiChar p ch && cs != csCjk) && isByt p cs ch

/-! ### Bit cost (R159) -/

/-- `CharBits(mode, count, ch)` (R159). -/
def charBits (p : Platform) (cs : BitVec 8) (mode : EncMode) (count : Nat) (ch : CharCode) : Nat :=
  match mode with
  | .numeric => if count % 3 = 0 then 4 else 3
  | .alphanumeric => if count % 2 = 0 then 6 else 5
  | .byte => 8 * (charBytes p cs ch).length
  | .kanji => 13

/-! ### The encoders (R160–R168) -/

/-- `last(words) <- last(words)·m + d` (R160, R163). -/
def extendLast (words : List Nat) (m d : Nat) : List Nat := words.dropLast ++ [words.getLastD 0 * m + d]

/-- `NumAppend(seg, ch)` (R160). -/
def numAppend (seg : Segment) (ch : CharCode) : Segment :=
  let d := ch.toNat - 0x30
  { seg with
    words := if seg.count % 3 = 0 then seg.words ++ [d] else extendLast seg.words 10 d
    bits := seg.bits + (if seg.count % 3 = 0 then 4 else 3)
    count := seg.count + 1 }

/-- `AlnAppend(seg, ch)` (R163). -/
def alnAppend (seg : Segment) (ch : CharCode) : Segment :=
  let a := (alnVal? ch).getD 0
  { seg with
    words := if seg.count % 2 = 0 then seg.words ++ [a] else extendLast seg.words 45 a
    bits := seg.bits + (if seg.count % 2 = 0 then 6 else 5)
    count := seg.count + 1 }

/-- `BytAppend(seg, ch)`: every byte is a word and counts (R165, R166). -/
def bytAppend (p : Platform) (cs : BitVec 8) (seg : Segment) (ch : CharCode) : Segment :=
  let bytes := charBytes p cs ch
  { seg with
    words := seg.words ++ bytes.map (·.toNat)
    bits := seg.bits + 8 * bytes.length
    count := seg.count + bytes.length }

/-- `KanVal`, of a double-byte code (R167). -/
def kanVal (code : Nat) : Nat :=
  let d := code - (if code ≤ 0x9FFC then 0x8140 else 0xC140)
  (d >>> 8) * 0xC0 + (d &&& 0xFF)

/-- `KanAppend(seg, ch)` (R168). -/
def kanAppend (p : Platform) (seg : Segment) (ch : CharCode) : Segment :=
  { seg with
    words := seg.words ++ [kanVal ((kanjiCode? p ch).getD 0)]
    bits := seg.bits + 13
    count := seg.count + 1 }

/-- The encoder of a segment's mode takes a character (R150, R216). -/
def segAppend (p : Platform) (cs : BitVec 8) (seg : Segment) (ch : CharCode) : Segment :=
  match seg.mode with
  | .numeric => numAppend seg ch
  | .alphanumeric => alnAppend seg ch
  | .byte => bytAppend p cs seg ch
  | .kanji => kanAppend p seg ch

/-! ### Word widths and the packed stream (R161, R164, R170, R172) -/

/-- `WordWidth(mode, count, j)` (R161, R164, R165, R168). -/
def wordWidth (mode : EncMode) (count j : Nat) : Nat :=
  match mode with
  | .numeric =>
    if j + 1 < (count + 2) / 3 ∨ count % 3 = 0 then 10 else if count % 3 = 1 then 4 else 7
  | .alphanumeric => if j + 1 < (count + 1) / 2 ∨ count % 2 = 0 then 11 else 6
  | .byte => 8
  | .kanji => 13

/-- What `put(B, v, n)` appends: the bits `v[n-1], …, v[0]`, most significant first (R10). -/
def bitsOf (v n : Nat) : List Bool := (List.range n).map fun i => v.testBit (n - 1 - i)

/-- `SegBits(seg)`: the packed stream of a segment (R172). -/
def segBits (seg : Segment) : List Bool :=
  (seg.words.zipIdx).flatMap fun wj => bitsOf wj.1 (wordWidth seg.mode seg.count wj.2)

end Sys2Proof.Machine
end

