-- ==== Sys2Proof/Machine/Segmentation.lean ====
section
/-!
DEFINITION. The segmentation / mode-selection state machine and MODESEL (42_segmentation.md).
The unconsumed suffix `TXT[i..TLEN-1]` is the list `ch :: rest`; lookahead sees nothing else (R180).
-/

namespace Sys2Proof.Machine

/-! ### Thresholds (R182) -/

def thInitAlnByte (t : Fin 3) : Nat := byTier t 6 7 8
def thInitNumByte (t : Fin 3) : Nat := byTier t 4 4 5
def thInitNumAln (t : Fin 3) : Nat := byTier t 7 8 9
def thAlnNum (t : Fin 3) : Nat := byTier t 13 15 17
def thByteNum (t : Fin 3) : Nat := byTier t 6 8 9
def thByteAln (t : Fin 3) : Nat := byTier t 11 15 16

/-! ### Lookahead (R183) -/

/-- `Run(P, i)` on the suffix that starts at `i` (R183). -/
def run (pred : CharCode → Bool) (suffix : List CharCode) : Nat := (suffix.takeWhile pred).length

/-- The character `n` places on exists and satisfies the predicate; false at the end of the string (R183). -/
def nextIs (pred : CharCode → Bool) (suffix : List CharCode) (n : Nat) : Bool :=
  match suffix[n]? with
  | some ch => pred ch
  | none => false

/-! ### The rules per current mode (R184–R188) -/

/-- `SelectInitial(ver, i)`: from UNKNOWN or KANJI (R184). -/
def selectInitial (p : Platform) (cs : BitVec 8) (ver : Nat) (ch : CharCode) (rest : List CharCode) : EncMode :=
  let t := tier ver
  let suffix := ch :: rest
  if isKan p cs ch then .kanji
  else if isBytX p cs ch then .byte
  else if isAlnX ch then
    let n := run isAlnX suffix
    if n < thInitAlnByte t && nextIs (isBytX p cs) suffix n then .byte else .alphanumeric
  else
    let n := run isNum suffix
    if n < thInitNumByte t && nextIs (isBytX p cs) suffix n then .byte
    else if n < thInitNumAln t && nextIs isAlnX suffix n then .alphanumeric
    else .numeric

/-- `SelectFromNumeric(ver, i)` (R185). -/
def selectFromNumeric (p : Platform) (cs : BitVec 8) (ch : CharCode) : EncMode :=
  if isKan p cs ch then .kanji
  else if isBytX p cs ch then .byte
  else if isAlnX ch then .alphanumeric
  else .numeric

/-- `SelectFromAlphanumeric(ver, i)`: the digit run must be followed by a character that exists and is not
alphanumeric (R186, D8). -/
def selectFromAlphanumeric (p : Platform) (cs : BitVec 8) (ver : Nat) (ch : CharCode) (rest : List CharCode) : EncMode :=
  let suffix := ch :: rest
  if isKan p cs ch then .kanji
  else if isBytX p cs ch then .byte
  else
    let n := run isNum suffix
    if thAlnNum (tier ver) ≤ n && nextIs (fun c => !isAln c) suffix n then .numeric else .alphanumeric

/-- `SelectFromByte(ver, i)`: run lengths only, no terminator (R187, D9). -/
def selectFromByte (p : Platform) (cs : BitVec 8) (ver : Nat) (ch : CharCode) (rest : List CharCode) : EncMode :=
  let t := tier ver
  let suffix := ch :: rest
  if isKan p cs ch then .kanji
  else if thByteNum t ≤ run isNum suffix then .numeric
  else if thByteAln t ≤ run isAlnX suffix then .alphanumeric
  else .byte

/-- `ModeSelect(mode, ver, i)`; none is `ERR_UNSUPPORTED_CHAR` of the current character (R158, R188). -/
def modeSelect (p : Platform) (cs : BitVec 8) (mode : Option EncMode) (ver : Nat) (ch : CharCode)
    (rest : List CharCode) : Option EncMode :=
  if supported p cs ch then
    match mode with
    | none => some (selectInitial p cs ver ch rest)
    | some .kanji => some (selectInitial p cs ver ch rest)
    | some .numeric => some (selectFromNumeric p cs ch)
    | some .alphanumeric => some (selectFromAlphanumeric p cs ver ch rest)
    | some .byte => some (selectFromByte p cs ver ch rest)
  else none

/-- `raise ERR_UNSUPPORTED_CHAR({ch, i[15:0]})` (R158, R415). -/
def unsupportedError (s : State) (ch : CharCode) (i : BitVec 16) : Result :=
  .raised s .unsupportedChar (ch ++ i)

/-- The input string `TXT[0..TLEN-1]` (R23); none if a cell of it is unwritten, which SETLEN rules out (R219; DEDUCED, log 9). -/
def inputText (s : State) : Option (List CharCode) := firstCells s.mem.txt s.tlen.toNat

/-- `MODESEL mode, ver, idx` (R190). -/
def modesel (p : Platform) (mode : BitVec 3) (ver : BitVec 6) (idx : BitVec 15) (s : State) : Result :=
  match modeOfCode mode with
  | none => argumentError s (mode.setWidth 32)
  | some m =>
    if !versionOk ver.toNat then argumentError s (ver.setWidth 32)
    else if s.tlen.toNat ≤ idx.toNat then argumentError s (idx.setWidth 32)
    else match inputText s with
      | none => .stuck .unwrittenRead
      | some text =>
        match text.drop idx.toNat with
        | [] => .stuck .unwrittenRead
        | ch :: rest =>
          match modeSelect p s.group.charset m ver.toNat ch rest with
          | none => unsupportedError s ch (idx.setWidth 16)
          | some new => .done s ((modeCode (some new)).setWidth 32)

/-- The meaning of MODESEL (R190). -/
def execModesel (mode : BitVec 3) (ver : BitVec 6) (idx : BitVec 15) (s : State) : Host.Outcome State Fault Refusal :=
  (modesel Config.platform mode ver idx s).finish

end Sys2Proof.Machine
end

