-- ==== Sys2Proof/Machine/Append.lean ====
section
/-!
DEFINITION. The capacity negotiator, the structured-append coordinator and APPEND (43_capacity_append.md).
-/

namespace Sys2Proof.Machine

/-! ### Capacity (R211, R212) -/

/-- `Cap(v)`: the data-bit capacity, 20 bits set aside when structured append is allowed (R211). -/
def capOf (ecl : EcLevel) (sa : Bool) (v : Nat) : Nat := 8 * dataCW ecl v - (if sa then 20 else 0)

/-- The part of `Adjust(v)` that belongs to one mode (R212). -/
def adjustMode (x : Slot) (v : Nat) (m : EncMode) : Nat := (x.segn m).toNat * (ccw (v + 1) m - ccw v m)

/-- `Adjust(v)`: the correction of the counter from version `v` to `v+1` (R212). -/
def adjust (x : Slot) (v : Nat) : Nat :=
  adjustMode x v .numeric + adjustMode x v .alphanumeric + adjustMode x v .byte + adjustMode x v .kanji

/-! ### The Negotiator (R213) -/

/-- The copies `Ensure` works on (R213): version, capacity, counter, minimum version (DEDUCED, log 16). -/
structure Growth where
  ver : Nat
  cap : Nat
  cnt : Nat
  minver : Nat
  deriving DecidableEq, Repr

/-- How the search for room ends (R213): it fits; exhausted with the growth kept; exhausted with the copies discarded. -/
inductive Room where
  | fit (g : Growth)
  | exhausted (g : Growth)
  | discarded
  deriving DecidableEq, Repr

/-- The loop of `Ensure`: `left` is `MAXVER - v`, the number of versions still to grow into (R213). -/
def findRoom (ecl : EcLevel) (sa : Bool) (x : Slot) (need : Nat → Nat) : Nat → Growth → Room
  | 0, g =>
    if g.cnt + need g.ver ≤ g.cap then .fit g
    else if g.cnt ≤ g.cap then .exhausted g
    else .discarded
  | left + 1, g =>
    if g.cnt + need g.ver ≤ g.cap then .fit g
    else findRoom ecl sa x need left
      ⟨g.ver + 1, capOf ecl sa (g.ver + 1), g.cnt + adjust x g.ver, g.ver + 1⟩

/-- How an append step ends (R213–R215): done, capacity exhausted, or a situation the rules make unreachable. -/
inductive Fit where
  | fit (s : State)
  | exhausted (s : State)
  | broken (why : Fault)
  deriving DecidableEq, Repr

/-- Commit the copies of `Ensure` (R213). -/
def commitGrowth (s : State) (g : Growth) : State :=
  let s' := s.setCur { s.cur with ver := BitVec.ofNat 6 g.ver, cap := BitVec.ofNat 15 g.cap, cnt := BitVec.ofNat 15 g.cnt }
  { s' with group := { s'.group with minver := BitVec.ofNat 6 g.minver } }

/-- The copies `Ensure` starts from (R213). -/
def growthOf (s : State) : Growth :=
  ⟨s.cur.ver.toNat, s.cur.cap.toNat, s.cur.cnt.toNat, s.group.minver.toNat⟩

/-- `Ensure(n)` (R213). -/
def ensure (need : Nat → Nat) (s : State) : Fit :=
  match findRoom s.group.ecl s.group.sa s.cur need (s.group.maxver.toNat - s.cur.ver.toNat) (growthOf s) with
  | .fit g => .fit (commitGrowth s g)
  | .exhausted g => .exhausted (commitGrowth s g)
  | .discarded => .exhausted s

/-! ### The append steps (R214–R216) -/

/-- Open a new, still empty segment of a mode in the current symbol and count its header (R214). -/
def openSegment (mode : EncMode) (s : State) : State :=
  let x := s.cur
  let header := 4 + ccw x.ver.toNat mode
  s.setCur { x.bumpSegn mode with
    cnt := BitVec.ofNat 15 (x.cnt.toNat + header)
    segs := x.segs ++ [⟨mode, 0, [], 0⟩]
    mode := some mode }

/-- `TrySetMode(mode, ch)`: room for the header and the first character together (R214). -/
def trySetMode (p : Platform) (mode : EncMode) (ch : CharCode) (s : State) : Fit :=
  let b := charBits p s.group.charset mode 0 ch
  match ensure (fun v => 4 + ccw v mode + b) s with
  | .fit s' => .fit (openSegment mode s')
  | .exhausted s' => .exhausted s'
  | .broken f => .broken f

/-- `Commit(ch, b)`: encoder, counter and parity, for the last segment `seg` of the current symbol (R216). -/
def commitChar (p : Platform) (seg : Segment) (ch : CharCode) (b : Nat) (s : State) : State :=
  let cs := s.group.charset
  let x := s.cur
  let s' := s.setCur { x with
    segs := x.segs.dropLast ++ [segAppend p cs seg ch]
    cnt := BitVec.ofNat 15 (x.cnt.toNat + b) }
  { s' with group := { s'.group with parity := (charBytes p cs ch).foldl (· ^^^ ·) s'.group.parity } }

/-- `TryAppend(ch)` (R215). An empty segment store is unreachable here (R217, R220). -/
def tryAppend (p : Platform) (ch : CharCode) (s : State) : Fit :=
  match s.cur.segs.getLast? with
  | none => .broken .noSegment
  | some seg =>
    let b := charBits p s.group.charset seg.mode seg.count ch
    match ensure (fun _ => b) s with
    | .fit s' => .fit (commitChar p seg ch b s')
    | .exhausted s' => .exhausted s'
    | .broken f => .broken f

/-- `TrySetMode`, then `TryAppend` (R217, R220). -/
def openAndAppend (p : Platform) (mode : EncMode) (ch : CharCode) (s : State) : Fit :=
  match trySetMode p mode ch s with
  | .fit s' => tryAppend p ch s'
  | .exhausted s' => .exhausted s'
  | .broken f => .broken f

/-! ### The Coordinator (R218–R221) -/

/-- `NewSymbol()`: the next symbol, at the group's minimum version (R218). -/
def newSymbol (s : State) : State :=
  let g := s.group
  let s' := s.setSlot (g.symcnt.setWidth 4)
    { Slot.reset with ver := g.minver, cap := BitVec.ofNat 15 (capOf g.ecl g.sa g.minver.toNat) }
  { s' with group := { g with symcnt := g.symcnt + 1 } }

/-- `raise ERR_INPUT_TOO_LONG(i)` (R417). -/
def tooLongError (s : State) (i : BitVec 16) : Result := .raised s .inputTooLong (i.setWidth 32)

/-- The retry of `AppendChar` in a fresh symbol (R220). -/
def retryInNewSymbol (p : Platform) (ch : CharCode) (rest : List CharCode) (s : State) : Result :=
  let s := newSymbol s
  match modeSelect p s.group.charset none s.cur.ver.toNat ch rest with
  | none => unsupportedError s ch s.tpos
  | some mode =>
    match openAndAppend p mode ch s with
    | .fit s' => .done s' 0
    | .exhausted s' => tooLongError s' s.tpos
    | .broken f => .stuck f

/-- Put a character into the current symbol: a new segment first if the mode changes (R220). -/
def putChar (p : Platform) (mode : EncMode) (ch : CharCode) (s : State) : Fit :=
  if s.cur.mode = some mode then tryAppend p ch s else openAndAppend p mode ch s

/-- `AppendChar(i)`, for the character at `i = TPOS` (R220). -/
def appendChar (p : Platform) (ch : CharCode) (rest : List CharCode) (s : State) : Result :=
  match modeSelect p s.group.charset s.cur.mode s.cur.ver.toNat ch rest with
  | none => unsupportedError s ch s.tpos
  | some mode =>
    match putChar p mode ch s with
    | .fit s' => .done s' 0
    | .broken f => .stuck f
    | .exhausted s' =>
      if !s'.group.sa || symMax ≤ s'.group.symcnt.toNat then tooLongError s' s.tpos
      else retryInNewSymbol p ch rest s'

/-- The loop of APPEND over the characters not yet consumed (R219). -/
def appendLoop (p : Platform) : List CharCode → State → Result
  | [], s => .done s (s.group.symcnt.setWidth 32)
  | ch :: rest, s =>
    (appendChar p ch rest s).andThen fun s' => appendLoop p rest { s' with tpos := s'.tpos + 1 }

/-- What the rules of APPEND take for granted: a current symbol, and versions the tables have rows for (R21, R30). -/
def appendObstacle (s : State) : Option Fault :=
  if s.group.symcnt.toNat = 0 ∨ symMax < s.group.symcnt.toNat then some .noCurrentSymbol
  else if versionOk s.cur.ver.toNat && versionOk s.group.minver.toNat && versionOk s.group.maxver.toNat then none
  else some .versionOutsideTables

/-- `APPEND` (R219). -/
def append (p : Platform) (s : State) : Result :=
  if !appendAccepted s.phase then sequenceError s
  else if s.tlen = 0 then argumentError s 0
  else match appendObstacle s with
    | some f => .stuck f
    | none =>
      match inputText s with
      | none => .stuck .unwrittenRead
      | some text => appendLoop p text { s with tpos := 0 }

/-- The meaning of APPEND (R219). -/
def execAppend (s : State) : Host.Outcome State Fault Refusal := (append Config.platform s).finish

end Sys2Proof.Machine
end

