-- ==== Sys2Proof/Machine/BitAssembly.lean ====
section
/-!
DEFINITION. Bit assembly: a symbol's segments become its data codewords, BITASM (44_bit_assembly.md).
-/

namespace Sys2Proof.Machine

/-- `SaHeader(k)`: indicator, position, total minus one, parity; 20 bits (R243). -/
def saHeader (k symcnt parity : Nat) : List Bool :=
  bitsOf saInd 4 ++ bitsOf k 4 ++ bitsOf (symcnt - 1) 4 ++ bitsOf parity 8

/-- `SegStream(seg, v)`: mode indicator, character count, packed stream (R244). -/
def segStream (seg : Segment) (v : Nat) : List Bool :=
  bitsOf (modeInd seg.mode) 4 ++ bitsOf seg.count (ccw v seg.mode) ++ segBits seg

/-- The bits of symbol `k` in use before the terminator (R240, R241): a header only in a group of several symbols. -/
def usedBits (s : State) (k : BitVec 4) : List Bool :=
  let x := s.slot k
  (if 1 < s.group.symcnt.toNat then saHeader k.toNat s.group.symcnt.toNat s.group.parity.toNat else [])
    ++ x.segs.flatMap fun seg => segStream seg x.ver.toNat

/-- The terminator: up to four zero bits, as room allows (R245); `room` is `8·D`. -/
def addTerminator (room : Nat) (b : List Bool) : List Bool := b ++ List.replicate (min 4 (room - b.length)) false

/-- Zero bits up to the next multiple of 8 (R246). -/
def addBitPadding (b : List Bool) : List Bool := b ++ List.replicate ((8 - b.length % 8) % 8) false

/-- `n` pad codewords `0xEC, 0x11, 0xEC, …` (R248). -/
def padCodewords (n : Nat) : List Byte := (List.range n).map fun i => if i % 2 = 0 then 0xEC else 0x11

/-- Eight bits as a codeword, the first bit most significant (R247). -/
def octet (b7 b6 b5 b4 b3 b2 b1 b0 : Bool) : Byte :=
  BitVec.ofBool b7 ++ BitVec.ofBool b6 ++ BitVec.ofBool b5 ++ BitVec.ofBool b4 ++
    BitVec.ofBool b3 ++ BitVec.ofBool b2 ++ BitVec.ofBool b1 ++ BitVec.ofBool b0

/-- Cut a bit string into codewords (R247). -/
def cutCodewords : List Bool → List Byte
  | b7 :: b6 :: b5 :: b4 :: b3 :: b2 :: b1 :: b0 :: rest => octet b7 b6 b5 b4 b3 b2 b1 b0 :: cutCodewords rest
  | _ => []

/-- The `d` data codewords of the used bits: terminator, padding, cutting, pad codewords (R245–R248). -/
def fillCodewords (d : Nat) (b : List Bool) : List Byte :=
  let cut := cutCodewords (addBitPadding (addTerminator (8 * d) b))
  (cut ++ padCodewords (d - cut.length)).take d

/-- `BITASM k` (R241). -/
def bitasm (k : BitVec 4) (s : State) : Result :=
  if !renderAccepted s.phase then sequenceError s
  else if !symbolExists s k then argumentError s (k.setWidth 32)
  else if (s.slot k).segs = [] then sequenceError s
  else if !versionOk (s.slot k).ver.toNat then .stuck .versionOutsideTables
  else
    let v := (s.slot k).ver
    let d := dataCW s.group.ecl v.toNat
    let b := usedBits s k
    let s' := openContext s v s.group.ecl d (fillCodewords d b)
    .done { s' with wsym := k, phase := .rendered } (BitVec.ofNat 32 b.length)

/-- The meaning of BITASM (R241). -/
def execBitasm (k : BitVec 4) (s : State) : Host.Outcome State Fault Refusal := (bitasm k s).finish

end Sys2Proof.Machine
end

