-- ==== Sys2Proof/Machine/Matrix.lean ====
section
/-!
DEFINITION. The module matrix assembler: MPLACE (46_matrix.md).
-/

namespace Sys2Proof.Machine

/-- An `N×N` matrix while a stage works on it: rows from the top, cells from the left (R12). -/
abbrev Grid := List (List Module)

/-- A cell to write: row, column, value. -/
abbrev Placement := Nat × Nat × Module

/-- `N×N` cells of 0 (R291). -/
def blankGrid (n : Nat) : Grid := List.replicate n (List.replicate n 0)

/-- `M[r][c]`. -/
def gridAt (g : Grid) (r c : Nat) : Module := (g.getD r []).getD c 0

/-- `M[r][c] <- v`. -/
def gridSet (g : Grid) (r c : Nat) (v : Module) : Grid := g.modify r fun row => row.set c v

/-- `Claim(M, r, c, v)`: write only a cell that reads 0 (R292). -/
def claim (g : Grid) (x : Placement) : Grid :=
  if gridAt g x.1 x.2.1 = 0 then gridSet g x.1 x.2.1 x.2.2 else g

/-- Claims in order (R292). -/
def claimAll (g : Grid) (xs : List Placement) : Grid := xs.foldl claim g

/-- Writes in order, past the overwrite rule (R293, R333). -/
def setAll (g : Grid) (xs : List Placement) : Grid := xs.foldl (fun g x => gridSet g x.1 x.2.1 x.2.2) g

/-! ### Function patterns (R293–R301) -/

/-- `F[i][j]`: dark outer ring, light inner ring, dark 3×3 centre (R293). -/
def finderCell (i j : Nat) : Module :=
  if i = 0 ∨ i = 6 ∨ j = 0 ∨ j = 6 then 3
  else if i = 1 ∨ i = 5 ∨ j = 1 ∨ j = 5 then -3
  else 3

/-- A 7×7 finder with its top-left cell at `(r0, c0)` (R293). -/
def finderAt (r0 c0 : Nat) : List Placement :=
  (List.range 7).flatMap fun i => (List.range 7).map fun j => (r0 + i, c0 + j, finderCell i j)

/-- `PlaceFinders`: top-left, top-right, bottom-left (R293). -/
def finders (n : Nat) : List Placement := finderAt 0 0 ++ finderAt 0 (n - 7) ++ finderAt (n - 7) 0

/-- `PlaceSeparators` (R294). -/
def separators (n : Nat) : List Placement :=
  (List.range 8).flatMap fun i =>
    [(7, i, -5), (i, 7, -5), (7, n - 8 + i, -5), (i, n - 8, -5), (n - 8, i, -5), (n - 8 + i, 7, -5)]

/-- `PlaceTiming`: even index dark (R295). -/
def timing (n : Nat) : List Placement :=
  (List.range (n - 16)).flatMap fun t =>
    let i := 8 + t
    let v : Module := if i % 2 = 0 then 6 else -6
    [(6, i, v), (i, 6, v)]

/-- `A[i][j]`: dark outer ring, light inner ring, dark centre (R296). -/
def alignmentCell (i j : Nat) : Module :=
  if i = 0 ∨ i = 4 ∨ j = 0 ∨ j = 4 then 2
  else if i = 2 ∧ j = 2 then 2
  else -2

/-- A 5×5 alignment pattern centred at `(r, c)` (R296). -/
def alignmentAt (r c : Nat) : List Placement :=
  (List.range 5).flatMap fun i => (List.range 5).map fun j => (r - 2 + i, c - 2 + j, alignmentCell i j)

/-- `PlaceAlignment`: every pair of coordinates but the three that fall on finders (R296). -/
def alignments (v : Nat) : List Placement :=
  let ps := alignPos v
  let p := ps.length
  ps.zipIdx.flatMap fun ra => ps.zipIdx.flatMap fun cb =>
    let a := ra.2
    let b := cb.2
    if (a = 0 ∧ b = 0) ∨ (a = 0 ∧ b + 1 = p) ∨ (a + 1 = p ∧ b = 0) then [] else alignmentAt ra.1 cb.1

/-- `ReserveFormat`: the 30 format cells and the dark module's cell, sentinel −4 (R300). -/
def formatReserve (n : Nat) : List Placement :=
  ((List.range 15).flatMap fun i => (formatPos n i).map fun rc => (rc.1, rc.2, (-4 : Module))) ++ [(n - 8, 8, -4)]

/-- `ReserveVersion`: the 36 version cells from version 7 on, sentinel −7 (R301). -/
def versionReserve (v : Nat) : List Placement :=
  if 7 ≤ v then (List.range 18).flatMap fun i => (versionPos (side v) i).map fun rc => (rc.1, rc.2, (-7 : Module))
  else []

/-- The matrix with all function patterns and reservations, before the data (R290, R293–R301). -/
def functionPatterns (v : Nat) : Grid :=
  let n := side v
  let g := setAll (blankGrid n) (finders n)
  claimAll g (separators n ++ timing n ++ alignments v ++ formatReserve n ++ versionReserve v)

/-! ### Data (R302–R304) -/

/-- The right columns of the bands, from `right` down; column 6 is skipped by shifting to 5 (R302). `fuel` bounds the
number of bands, and `N` of it is more than enough. -/
def bands : Nat → Nat → List Nat
  | 0, _ => []
  | fuel + 1, right =>
    if right < 1 then []
    else
      let r := if right = 6 then 5 else right
      r :: bands fuel (r - 2)

/-- The cells in the order of the traversal: bands alternate up and down, right cell before left (R302). -/
def traversal (n : Nat) : List (Nat × Nat) :=
  (bands n (n - 1)).zipIdx.flatMap fun band => (List.range n).flatMap fun t =>
    let r := if band.2 % 2 = 0 then n - 1 - t else t
    [(r, band.1), (r, band.1 - 1)]

/-- `DataCell(b)`: 1 is dark, 0 is light (R303). -/
def dataCell (b : Bool) : Module := if b then 1 else -1

/-- The bits of the stream: each codeword most significant bit first (R303). -/
def streamBits (ws : List Byte) : List Bool := ws.flatMap fun w => bitsOf w.toNat 8

/-- `PlaceData` along a path: a cell that reads 0 takes the next bit, every other is passed over (R302). -/
def fillData : List (Nat × Nat) → List Bool → Grid → Grid
  | _, [], g => g
  | [], _, g => g
  | rc :: path, b :: bs, g =>
    if gridAt g rc.1 rc.2 = 0 then fillData path bs (gridSet g rc.1 rc.2 (dataCell b))
    else fillData path (b :: bs) g

/-- `PlaceRemainder`: every cell left zero becomes light data filler (R304). -/
def placeRemainder (g : Grid) : Grid := g.map fun row => row.map fun v => if v = 0 then -1 else v

/-- The pre-mask matrix of a final codeword stream (R291, R309). -/
def premaskMatrix (v : Nat) (ws : List Byte) : Grid :=
  placeRemainder (fillData (traversal (side v)) (streamBits ws) (functionPatterns v))

/-- `MPLACE` (R291). -/
def mplace (s : State) : Result :=
  if !contextOpen s then sequenceError s
  else if !versionOk s.wver.toNat then .stuck .versionOutsideTables
  else if !streamComplete s then sequenceError s
  else match firstCells s.mem.fcw s.fcwn.toNat with
    | none => .stuck .unwrittenRead
    | some ws =>
      .done (storeMatrix s .premask (premaskMatrix s.wver.toNat ws).flatten) (BitVec.ofNat 32 s.side)

/-- The meaning of MPLACE (R291). -/
def execMplace (s : State) : Host.Outcome State Fault Refusal := (mplace s).finish

end Sys2Proof.Machine
end

