-- ==== Sys2Proof/Machine/Masking.lean ====
section
/-!
DEFINITION. The masking optimizer: MASKSEL (47_masking.md).
-/

namespace Sys2Proof.Machine

/-! ### Candidates (R331–R333, R338) -/

/-- `MaskCond(m, r, c)` (R331). -/
def maskCond (m r c : Nat) : Bool :=
  match m with
  | 0 => (r + c) % 2 == 0
  | 1 => r % 2 == 0
  | 2 => c % 3 == 0
  | 3 => (r + c) % 3 == 0
  | 4 => (r / 2 + c / 3) % 2 == 0
  | 5 => (r * c) % 2 + (r * c) % 3 == 0
  | 6 => ((r * c) % 2 + (r * c) % 3) % 2 == 0
  | _ => ((r + c) % 2 + (r * c) % 3) % 2 == 0

/-- A cell of data magnitude (R332). -/
def isData (v : Module) : Bool := v == 1 || v == -1

/-- `ApplyMask(M, m)` (R332). -/
def applyMask (g : Grid) (m : Nat) : Grid :=
  g.zipIdx.map fun rowr => rowr.1.zipIdx.map fun vc =>
    if isData vc.1 && maskCond m rowr.2 vc.2 then -vc.1 else vc.1

/-- The real format cells: the 15 bits in both copies, and the dark module (R333). -/
def formatInfo (ecl : EcLevel) (m n : Nat) : List Placement :=
  let f := formatBits ecl m
  ((List.range 15).flatMap fun i => (formatPos n i).map fun rc =>
    (rc.1, rc.2, if f.getLsbD i then (4 : Module) else -4)) ++ [(n - 8, 8, 4)]

/-- The real version cells, from version 7 on (R333). -/
def versionInfo (v : Nat) : List Placement :=
  if 7 ≤ v then
    let w := versionBits v
    (List.range 18).flatMap fun i => (versionPos (side v) i).map fun rc =>
      (rc.1, rc.2, if w.getLsbD i then (7 : Module) else -7)
  else []

/-- `WriteInfo(C, ecl, m, v)` (R333). -/
def writeInfo (g : Grid) (ecl : EcLevel) (m v : Nat) : Grid :=
  setAll g (formatInfo ecl m (side v) ++ versionInfo v)

/-- `Candidate(M, m)` (R338). -/
def candidate (g : Grid) (ecl : EcLevel) (v m : Nat) : Grid := writeInfo (applyMask g m) ecl m v

/-! ### Lines (R334, R336) -/

/-- `Dark(v)`: positive (R12). -/
def dark (v : Module) : Bool := BitVec.slt 0 v

/-- The colours of a matrix. -/
def colours (g : Grid) : List (List Bool) := g.map fun row => row.map dark

/-- The columns of a matrix of `n` columns, each top to bottom (R334). -/
def columnsOf (n : Nat) (g : List (List Bool)) : List (List Bool) :=
  (List.range n).map fun c => g.map fun row => row.getD c false

/-- One cell more at the left of a line's runs. -/
def addToRuns (b : Bool) : List (Bool × Nat) → List (Bool × Nat)
  | [] => [(b, 1)]
  | (c, n) :: rest => if b = c then (c, n + 1) :: rest else (b, 1) :: (c, n) :: rest

/-- The maximal runs of equal colour of a line, left to right: colour and length (R334, R336). -/
def runsOf (line : List Bool) : List (Bool × Nat) := line.foldr addToRuns []

/-! ### The four penalty terms (R334–R337) -/

/-- The run penalty of one line: `L - 2` for every run of length `L ≥ 5` (R334). -/
def runPenalty (line : List Bool) : Nat :=
  ((runsOf line).map fun u => if 5 ≤ u.2 then u.2 - 2 else 0).sum

/-- `P0(C)`: rows and columns (R334). -/
def penaltyRun (n : Nat) (g : List (List Bool)) : Nat :=
  ((g ++ columnsOf n g).map runPenalty).sum

/-- The uniform 2×2 windows of two neighbouring rows (R335). -/
def uniformWindows : List Bool → List Bool → Nat
  | a :: b :: top, c :: d :: bottom =>
    (if a = b ∧ a = c ∧ a = d then 1 else 0) + uniformWindows (b :: top) (d :: bottom)
  | _, _ => 0

/-- The uniform 2×2 windows of a matrix (R335). -/
def blockCount : List (List Bool) → Nat
  | r1 :: r2 :: rest => uniformWindows r1 r2 + blockCount (r2 :: rest)
  | _ => 0

/-- `P1(C)` (R335). -/
def penaltyBlock (g : List (List Bool)) : Nat := 3 * blockCount g

/-- The colours with the quiet zone around them: `qzWidth` light cells on every side (R74, R336). -/
def withQuietZone (n : Nat) (g : List (List Bool)) : List (List Bool) :=
  let edge := List.replicate qzWidth false
  let blank := List.replicate (n + 2 * qzWidth) false
  List.replicate qzWidth blank ++ g.map (fun row => edge ++ row ++ edge) ++ List.replicate qzWidth blank

/-- The length of the run `d` places left of run `x`, if it exists (R336). -/
def lengthLeft (u : List (Bool × Nat)) (x d : Nat) : Option Nat :=
  if d ≤ x then (u[x - d]?).map (·.2) else none

/-- The length of the run `d` places right of run `x`, if it exists (R336). -/
def lengthRight (u : List (Bool × Nat)) (x d : Nat) : Option Nat := (u[x + d]?).map (·.2)

/-- A run length exists and is at least `k` (R336). -/
def atLeast (len : Option Nat) (k : Nat) : Bool :=
  match len with
  | some n => k ≤ n
  | none => false

/-- Run `x` is the centre of a 1:1:3:1:1 pattern with `4k` light on an outer side (R336, D24). -/
def isRatioCentre (u : List (Bool × Nat)) (x : Nat) : Bool :=
  match u[x]? with
  | none => false
  | some (colour, len) =>
    let k := len / 3
    colour && 3 ≤ len && len % 3 == 0
      && lengthLeft u x 1 == some k && lengthLeft u x 2 == some k
      && lengthRight u x 1 == some k && lengthRight u x 2 == some k
      && (atLeast (lengthLeft u x 3) (4 * k) || atLeast (lengthRight u x 3) (4 * k))

/-- `RatioMatches(line)` (R336). -/
def ratioMatches (line : List Bool) : Nat :=
  let u := runsOf line
  ((List.range u.length).filter (isRatioCentre u)).length

/-- `P2(C)` (R336). -/
def penaltyRatio (n : Nat) (g : List (List Bool)) : Nat :=
  let q := withQuietZone n g
  40 * ((q ++ columnsOf (n + 2 * qzWidth) q).map ratioMatches).sum

/-- `P3(C)`, in exact integers, rounded down (R337, C3; log 19). -/
def penaltyBalance (n : Nat) (g : List (List Bool)) : Nat :=
  let t := n * n
  let d := (g.map fun row => row.count true).sum
  ((100 * (d : Int) - 50 * (t : Int)).natAbs / (5 * t)) * 10

/-- The four terms of a candidate, as `PENC[m]` holds them (R27, R339). -/
def penaltyTerms (n : Nat) (g : Grid) : Vector (BitVec 32) 4 :=
  let c := colours g
  #v[BitVec.ofNat 32 (penaltyRun n c), BitVec.ofNat 32 (penaltyBlock c),
    BitVec.ofNat 32 (penaltyRatio n c), BitVec.ofNat 32 (penaltyBalance n c)]

/-! ### Selection (R339) -/

/-- `PEN[m]`: the sum of the four terms (R27, R339). -/
def penaltyTotal (t : Vector (BitVec 32) 4) : BitVec 32 := t[0] + t[1] + t[2] + t[3]

/-- The strictly lowest total; the lowest number wins a tie (R339, R452). -/
def selectMask (pen : Vector (BitVec 32) 8) : Fin 8 :=
  ([1, 2, 3, 4, 5, 6, 7] : List (Fin 8)).foldl (fun best m => if pen[m] < pen[best] then m else best) 0

/-- `n` rows of `n` cells (R75). -/
def rowsOf (n : Nat) : Nat → List Module → Grid
  | 0, _ => []
  | k + 1, cells => cells.take n :: rowsOf n k (cells.drop n)

/-- `MASKSEL` (R339). -/
def masksel (s : State) : Result :=
  if s.mmv ≠ .premask then sequenceError s
  else if !versionOk s.wver.toNat then .stuck .versionOutsideTables
  else match firstCells s.mem.mm (s.side * s.side) with
    | none => .stuck .unwrittenRead
    | some cells =>
      let g := rowsOf s.side s.side cells
      let cand := fun m : Nat => candidate g s.wecl s.wver.toNat m
      let penc : Vector (Vector (BitVec 32) 4) 8 :=
        #v[penaltyTerms s.side (cand 0), penaltyTerms s.side (cand 1), penaltyTerms s.side (cand 2),
          penaltyTerms s.side (cand 3), penaltyTerms s.side (cand 4), penaltyTerms s.side (cand 5),
          penaltyTerms s.side (cand 6), penaltyTerms s.side (cand 7)]
      let pen := penc.map penaltyTotal
      let best := selectMask pen
      let s' := storeMatrix s .final (cand best.val).flatten
      .done { s' with penc := penc, pen := pen, maskref := BitVec.ofFin best } (BitVec.ofNat 32 best.val)

/-- The meaning of MASKSEL (R339). -/
def execMasksel (s : State) : Host.Outcome State Fault Refusal := (masksel s).finish

end Sys2Proof.Machine
end

