-- ==== Sys2Proof/Machine/ReedSolomon.lean ====
section
/-!
DEFINITION. The Galois-field engine and the Reed–Solomon block builder: GFMUL, RSENC (45_gf_rs.md).
-/

namespace Sys2Proof.Machine

/-! ### The field (R260–R263) -/

/-- `gfmul(a, b)`, through the tables (R263). -/
def gfmul (a b : Byte) : Byte :=
  if a = 0 ∨ b = 0 then 0 else gfExp ((gfLog a + gfLog b) % 255)

/-- `xtime(x)`: multiplication by the primitive element (R263). -/
def xtime (x : Byte) : Byte := (x <<< 1) ^^^ (if 0x80 ≤ x.toNat then 0x1D else 0)

/-- `GFMUL a, b` (R264). -/
def gfmulCommand (a b : Byte) (s : State) : Result := .done s ((gfmul a b).setWidth 32)

/-- The meaning of GFMUL (R264). -/
def execGfmul (a b : BitVec 8) (s : State) : Host.Outcome State Fault Refusal := (gfmulCommand a b s).finish

/-! ### Generator polynomials (R265) -/

/-- One factor more: `g·(x − e)`, coefficients highest power first (R265). -/
def mulLinear (e : Byte) (g : List Byte) : List Byte :=
  List.zipWith (· ^^^ ·) (g ++ [0]) (0 :: g.map fun c => gfmul c e)

/-- `Gen(n)` (R265). -/
def gen : Nat → List Byte
  | 0 => [1]
  | i + 1 => mulLinear (gfExp i) (gen i)

/-! ### Division (R269) -/

/-- XOR a list onto the front of another; the rest stays (R269). -/
def xorFront : List Byte → List Byte → List Byte
  | _, [] => []
  | [], w => w
  | x :: xs, y :: ys => (x ^^^ y) :: xorFront xs ys

/-- `m` rounds of the long division by a monic generator with tail `g`: each takes the leading entry `f` of `w`,
which its round makes 0, and adds `f·g` to the entries that follow (R269). -/
def divideRounds (g : List Byte) : Nat → List Byte → List Byte
  | 0, w => w
  | _ + 1, [] => []
  | m + 1, f :: w => divideRounds g m (xorFront (g.map fun c => gfmul c f) w)

/-- `RsRemainder(d, n)`: the `n` EC codewords of a data block (R267, R269). -/
def rsRemainder (d : List Byte) (n : Nat) : List Byte :=
  divideRounds (gen n).tail d.length (d ++ List.replicate n 0)

/-! ### Blocks and interleaving (R268, R271) -/

/-- The data lengths of the blocks: the shorter ones first (R268, C1). -/
def blockLengths (ecl : EcLevel) (v : Nat) : List Nat :=
  let nb := blocks ecl v
  let nlong := dataCW ecl v % nb
  let short := dataCW ecl v / nb
  List.replicate (nb - nlong) short ++ List.replicate nlong (short + 1)

/-- Consecutive slices of the given lengths (R268). -/
def slices : List Nat → List Byte → List (List Byte)
  | [], _ => []
  | n :: ns, d => d.take n :: slices ns (d.drop n)

/-- Column `c` of the blocks, top to bottom; a block that is not so long contributes nothing (R271). -/
def column (bs : List (List Byte)) (c : Nat) : List Byte := bs.filterMap fun b => b[c]?

/-- The first `n` columns of the blocks, one after the other (R271). -/
def columns (bs : List (List Byte)) (n : Nat) : List Byte := (List.range n).flatMap (column bs)

/-- `Interleave`: all data columns, then all EC columns (R271). -/
def interleave (ecl : EcLevel) (v : Nat) (data ecw : List (List Byte)) : List Byte :=
  columns data (dataCW ecl v / blocks ecl v + 1) ++ columns ecw (ecPerBlock ecl v)

/-- The final codeword stream of the data codewords (R268–R271). -/
def codewordStream (ecl : EcLevel) (v : Nat) (d : List Byte) : List Byte :=
  let data := slices (blockLengths ecl v) d
  interleave ecl v data (data.map fun b => rsRemainder b (ecPerBlock ecl v))

/-- `RSENC` (R270). -/
def rsenc (s : State) : Result :=
  if !contextOpen s then sequenceError s
  else if !versionOk s.wver.toNat then .stuck .versionOutsideTables
  else if !dataComplete s then sequenceError s
  else match firstCells s.mem.dcw s.dcwn.toNat with
    | none => .stuck .unwrittenRead
    | some d =>
      let t := totalCW s.wver.toNat
      .done (storeStream s t (codewordStream s.wecl s.wver.toNat d)) (BitVec.ofNat 32 t)

/-- The meaning of RSENC (R270). -/
def execRsenc (s : State) : Host.Outcome State Fault Refusal := (rsenc s).finish

end Sys2Proof.Machine
end

