-- ==== Sys2Proof/Machine/Session.lean ====
section
/-!
DEFINITION. The session commands RESET, CFG, SETLEN, SETW, RENDER (40_session_commands.md).
-/

namespace Sys2Proof.Machine

/-- `RESET`: every register, slot and cell at its reset value (R131, R440); the command and response streams are the
host's side of the port, not state of the block (log 1). -/
def resetCommand (s : State) : Result := .done { State.reset with cmds := s.cmds, resps := s.resps } 0

/-- The meaning of RESET (R131). -/
def execReset (s : State) : Host.Outcome State Fault Refusal := (resetCommand s).finish

/-- The group as CFG opens it, before its first symbol (R132). -/
def openGroup (ecl : EcLevel) (maxver : BitVec 6) (sa : Bool) (cs : BitVec 8) (s : State) : State :=
  { s with group := ⟨ecl, maxver, sa, cs, 1, 0, 0⟩ }

/-- `CFG ecl, maxver, sa, cs` (R132). -/
def cfg (p : Platform) (ecl : EcLevel) (maxver : BitVec 6) (sa : Bool) (cs : BitVec 8) (s : State) : Result :=
  if !cfgAccepted s.phase then sequenceError s
  else if !versionOk maxver.toNat then .raised s .config 1
  else if !p.csKnown cs then .raised s .config 2
  else
    let s' := newSymbol (openGroup ecl maxver sa cs s)
    .done { s' with phase := .building } 0

/-- The meaning of CFG (R132). -/
def execCfg (ecl : EcLevel) (maxver : BitVec 6) (sa : Bool) (cs : BitVec 8) (s : State) :
    Host.Outcome State Fault Refusal :=
  (cfg Config.platform ecl maxver sa cs s).finish

/-- `SETLEN n` (R133); `TPOS` is not touched even where it then exceeds `TLEN` (DEDUCED, log 13). -/
def setlen (n : BitVec 16) (s : State) : Result :=
  if s.txtn.toNat < n.toNat then argumentError s (n.setWidth 32) else .done { s with tlen := n } 0

/-- The meaning of SETLEN (R133). -/
def execSetlen (n : BitVec 16) (s : State) : Host.Outcome State Fault Refusal := (setlen n s).finish

/-- `SETW ver, ecl` (R134). -/
def setw (ver : BitVec 6) (ecl : EcLevel) (s : State) : Result :=
  if !versionOk ver.toNat then argumentError s (ver.setWidth 32) else .done (openContext s ver ecl 0 []) 0

/-- The meaning of SETW (R134). -/
def execSetw (ver : BitVec 6) (ecl : EcLevel) (s : State) : Host.Outcome State Fault Refusal := (setw ver ecl s).finish

/-- `respond(MASKREF)`, the end of RENDER (R135). -/
def respondMask (s : State) : Result := .done s (s.maskref.setWidth 32)

/-- `RENDER k`: the three checks, which are BITASM's own, then the four stages (R135, D35); a stage's own error would be passed on (DEDUCED, log 17). -/
def render (k : BitVec 4) (s : State) : Result :=
  if !renderAccepted s.phase then sequenceError s
  else if !symbolExists s k then argumentError s (k.setWidth 32)
  else if (s.slot k).segs = [] then sequenceError s
  else (((bitasm k s).andThen rsenc).andThen mplace).andThen masksel |>.andThen respondMask

/-- The meaning of RENDER (R135). -/
def execRender (k : BitVec 4) (s : State) : Host.Outcome State Fault Refusal := (render k s).finish

end Sys2Proof.Machine
end

