-- ==== Sys2Proof/Machine/Dispatch.lean ====
section
/-!
DEFINITION. The dispatch of a command to its meaning, one arm per row of the opcode map (R93).
-/

namespace Sys2Proof.Machine

def exec (i : Instr) (s : State) : Host.Outcome State Fault Refusal :=
  match i with
  | .reset => Sys2Proof.Machine.execReset s
  | .cfg ecl maxver sa cs => Sys2Proof.Machine.execCfg ecl maxver sa cs s
  | .setlen n => Sys2Proof.Machine.execSetlen n s
  | .append => Sys2Proof.Machine.execAppend s
  | .render k => Sys2Proof.Machine.execRender k s
  | .bitasm k => Sys2Proof.Machine.execBitasm k s
  | .rsenc => Sys2Proof.Machine.execRsenc s
  | .mplace => Sys2Proof.Machine.execMplace s
  | .masksel => Sys2Proof.Machine.execMasksel s
  | .setw ver ecl => Sys2Proof.Machine.execSetw ver ecl s
  | .modesel mode ver idx => Sys2Proof.Machine.execModesel mode ver idx s
  | .gfmul a b => Sys2Proof.Machine.execGfmul a b s
  | .seta space idx => Sys2Proof.Machine.execSeta space idx s
  | .ld => Sys2Proof.Machine.execLd s
  | .st v => Sys2Proof.Machine.execSt v s
  | .rdr regno => Sys2Proof.Machine.execRdr regno s

end Sys2Proof.Machine
end

