-- ==== Sys2Proof/Machine/Step.lean ====
section
/-!
DEFINITION. One step of QRCORE: take the next command word, decode it, execute it; an illegal word is answered by the
decode step itself (R8, R94, R412).
-/

namespace Sys2Proof.Machine

/-- One command from the command port to its response (R3, R8, R69, R98); with none presented there is no step (log 2).
No time passes (log 14), and the one stream stands for every host (log 3, 15). -/
def step (s : State) : Host.Outcome State Fault Refusal :=
  match takeCommand s with
  | none => .refused .noCommand
  | some (w, s') =>
    match decode w with
    | .ok i => exec i s'
    | .error _ => illegalWord w s'

/-- The state with the table word `w` of `nbits` bits presented as the very next command (log 2). -/
def State.withFetchWord (s : State) (nbits w : Nat) : State := presentCommand s (tableWord nbits w)

end Sys2Proof.Machine
end

