-- ==== Sys2Proof/Safety.lean ====
section
/-!
DEFINITION. What the spec says always holds of a state between two commands, as invariants of the model (R22, R27, R28,
R30, R63, R170, R217), and what a safe run is.
-/

namespace Sys2Proof.Machine

/-! ### Buffers and the working context -/

/-- Exactly the cells `0 … n-1` of a buffer are written: the valid-length register tells the truth (R28, R63). -/
abbrev dense {α : Type} (c : Cells α) (n : Nat) : Prop := c.map Prod.fst = List.range n

/-- The number of cells `MM` holds: none, or a whole matrix (R28, R60). -/
def State.matrixCells (s : State) : Nat := if s.mmv = .empty then 0 else s.side * s.side

/-- Every buffer holds exactly what its valid-length register says and no more than its size, the string lies in
written cells, and a matrix has a version (R28, R60, R63, R133, R339). -/
structure BuffersAgree (p : Platform) (s : State) : Prop where
  txt : dense s.mem.txt s.txtn.toNat
  dcw : dense s.mem.dcw s.dcwn.toNat
  fcw : dense s.mem.fcw s.fcwn.toNat
  mm : dense s.mem.mm s.matrixCells
  txtSize : s.txtn.toNat ≤ p.txtSize
  dcwSize : s.dcwn.toNat ≤ Machine.dcwSize
  fcwSize : s.fcwn.toNat ≤ Machine.fcwSize
  string : s.tlen.toNat ≤ s.txtn.toNat
  version : s.wver.toNat ≤ 40
  matrix : s.mmv ≠ .empty → s.wver ≠ 0

/-- Every total is the sum of its four terms, and the selected mask is the first of least total (R27, R339). -/
structure PenaltiesAgree (s : State) : Prop where
  sums : ∀ m : Fin 8, s.pen[m] = s.penc[m][0] + s.penc[m][1] + s.penc[m][2] + s.penc[m][3]
  least : ∀ m : Fin 8, s.pen[s.maskref.toNat]'s.maskref.isLt ≤ s.pen[m]
  first : ∀ m : Fin 8, m.val < s.maskref.toNat → s.pen[s.maskref.toNat]'s.maskref.isLt < s.pen[m]

/-! ### The group and its symbols -/

/-- The active mode is that of the last segment, or UNKNOWN when there is none (R30). -/
def Slot.modeAgrees (x : Slot) : Prop := x.mode = x.segs.getLast?.map (·.mode)

/-- The shape of the group (R21, R22, R30, R35, R213, R218): the phase says whether there is a group; the versions lie
in `1 … MAXVER`, the current symbol's being `MINVER`; symbols that were never created hold their reset values. -/
structure GroupShape (s : State) : Prop where
  exists_iff : s.phase = .unconfigured ↔ s.group.symcnt = 0
  count : s.group.symcnt.toNat ≤ symMax
  single : s.group.sa = false → s.group.symcnt.toNat ≤ 1
  minver : 1 ≤ s.group.minver.toNat
  maxver : s.group.minver.toNat ≤ s.group.maxver.toNat
  table : s.group.maxver.toNat ≤ 40
  version : ∀ k : BitVec 4, k.toNat < s.group.symcnt.toNat →
    1 ≤ (s.slot k).ver.toNat ∧ (s.slot k).ver.toNat ≤ s.group.minver.toNat
  current : s.group.symcnt ≠ 0 → s.cur.ver = s.group.minver
  mode : ∀ k : BitVec 4, (s.slot k).modeAgrees
  uncreated : ∀ k : BitVec 4, s.group.symcnt.toNat ≤ k.toNat → s.slot k = .reset

/-- The number of words of a segment of `count` characters (R161, R164, R165, R168). -/
def wordCount (mode : EncMode) (count : Nat) : Nat :=
  match mode with
  | .numeric => (count + 2) / 3
  | .alphanumeric => (count + 1) / 2
  | .byte => count
  | .kanji => count

/-- The number of data bits of a segment of `count` characters (R170). -/
def segmentBits (mode : EncMode) (count : Nat) : Nat :=
  match mode with
  | .numeric => 10 * (count / 3) + (if count % 3 = 0 then 0 else if count % 3 = 1 then 4 else 7)
  | .alphanumeric => 11 * (count / 2) + (if count % 2 = 0 then 0 else 6)
  | .byte => 8 * count
  | .kanji => 13 * count

/-- A segment's bits and words are those of its count (R170). -/
structure SegmentAgrees (seg : Segment) : Prop where
  bits : seg.bits = segmentBits seg.mode seg.count
  words : seg.words.length = wordCount seg.mode seg.count

/-- The bits a segment takes of a symbol at version `v`: header and data (R30). -/
def segmentCost (v : Nat) (seg : Segment) : Nat := 4 + ccw v seg.mode + seg.bits

/-- The counters of a symbol of a group with level `ecl` and flag `sa` (the invariants of R30). -/
structure SlotCounts (ecl : EcLevel) (sa : Bool) (x : Slot) : Prop where
  cap : x.cap.toNat = capOf ecl sa x.ver.toNat
  room : x.cnt.toNat ≤ x.cap.toNat
  count : x.cnt.toNat = (x.segs.map (segmentCost x.ver.toNat)).sum
  segn : ∀ m : EncMode, (x.segn m).toNat = x.segs.countP (·.mode = m)
  segments : ∀ seg ∈ x.segs, SegmentAgrees seg

/-- The counters of every symbol of the group agree with its segments (R30). -/
def CountersAgree (s : State) : Prop :=
  ∀ k : BitVec 4, k.toNat < s.group.symcnt.toNat → SlotCounts s.group.ecl s.group.sa (s.slot k)

/-- No stored segment is empty (R217). -/
def NoEmptySegment (s : State) : Prop := ∀ k : BitVec 4, ∀ seg ∈ (s.slot k).segs, 1 ≤ seg.count

/-! ### A safe run -/

/-- The state is one the rules describe: no command can reach a situation they make unreachable. -/
structure Safe (s : State) : Prop where
  buffers : BuffersAgree Config.platform s
  group : GroupShape s

end Sys2Proof.Machine
end

