-- ==== Sys2Proof/Certificates/Slice0/Obligations.lean ====
section
/-!
DEFINITION. The statements for the provers, from the numbered rules of the spec. OBLIGATIONS.json lists them in this
order; each docstring names the rules it rests on.
-/

namespace Sys2Proof.Claims

open Sys2Proof.Machine

/-- The value of `ERR_SEQUENCE`: `PHASE`, zero-extended (R413). -/
def phaseWord (s : State) : Word := (phaseCode s.phase).setWidth 32

/-- What APPEND starts from: a group being built, a string in written cells, a current symbol, versions of the tables,
and a segment wherever a mode is active (R21, R30, R219). -/
structure AppendReady (s : State) (text : List CharCode) : Prop where
  phase : s.phase = .building
  string : inputText s = some text
  nonempty : s.tlen ≠ 0
  symbol : 1 ≤ s.group.symcnt.toNat ∧ s.group.symcnt.toNat ≤ 16
  version : 1 ≤ s.cur.ver.toNat ∧ s.cur.ver.toNat ≤ 40
  minver : 1 ≤ s.group.minver.toNat ∧ s.group.minver.toNat ≤ 40
  maxver : 1 ≤ s.group.maxver.toNat ∧ s.group.maxver.toNat ≤ 40
  mode : s.cur.mode ≠ none → s.cur.segs ≠ []

/-- How an APPEND from `s` ends, leaving `u` and answering `(res, val)`: the whole string is committed; or the
character at the cursor is not supported; or it does not fit and no new symbol is possible (R24, R219–R221, R415, R417). -/
def AppendOutcome (p : Platform) (s : State) (text : List CharCode) (u : State) (res : ResCode) (val : Word) : Prop :=
  (∀ ch ∈ text.take u.tpos.toNat, supported p s.group.charset ch = true) ∧
    ((u.tpos = s.tlen ∧ res = .ok ∧ val = u.group.symcnt.setWidth 32) ∨
      (∃ ch, text[u.tpos.toNat]? = some ch ∧ supported p s.group.charset ch = false ∧
        res = .unsupportedChar ∧ val = ch ++ u.tpos) ∨
      (u.tpos.toNat < text.length ∧ (s.group.sa = false ∨ u.group.symcnt = 16) ∧
        res = .inputTooLong ∧ val = u.tpos.setWidth 32))

/-- `PARITY` after the characters of a list are committed (R216). -/
def parityAfter (p : Platform) (cs : BitVec 8) (parity : BitVec 8) (text : List CharCode) : BitVec 8 :=
  text.foldl (fun acc ch => (charBytes p cs ch).foldl (· ^^^ ·) acc) parity

/-- The counter of a symbol grown from version `ver` to `v`: every segment's indicator takes the new width (R212). -/
def countAt (x : Slot) (cnt ver v : Nat) : Nat :=
  cnt + (x.segnNumeric.toNat * (ccw v .numeric - ccw ver .numeric) +
    x.segnAlphanumeric.toNat * (ccw v .alphanumeric - ccw ver .alphanumeric) +
    x.segnByte.toNat * (ccw v .byte - ccw ver .byte) + x.segnKanji.toNat * (ccw v .kanji - ccw ver .kanji))

/-- The capacity at version `v` of a symbol that has capacity `cap` at version `ver` (R211). -/
def capAt (ecl : EcLevel) (sa : Bool) (cap ver v : Nat) : Nat := if v = ver then cap else capOf ecl sa v

/-- The copies of `Ensure` at version `v` (R213). -/
def grownTo (ecl : EcLevel) (sa : Bool) (x : Slot) (g : Growth) (v : Nat) : Growth :=
  ⟨v, capAt ecl sa g.cap g.ver v, countAt x g.cnt g.ver v, if v = g.ver then g.minver else v⟩

/-- The counter of the current symbol if it grew to version `v` (R212). -/
def curCountAt (s : State) (v : Nat) : Nat := countAt s.cur s.cur.cnt.toNat s.cur.ver.toNat v

/-- The capacity of a symbol of the group at version `v` (R211). -/
def capOfGroup (s : State) (v : Nat) : Nat := capOf s.group.ecl s.group.sa v

/-- A write of `need v` bits fits the current symbol grown to version `v` (R213). -/
def fitsAt (s : State) (need : Nat → Nat) (v : Nat) : Prop := curCountAt s v + need v ≤ capOfGroup s v

/-- A write fits no version from the current one to `MAXVER` (R213). -/
def fitsNowhere (s : State) (need : Nat → Nat) : Prop :=
  ∀ v, s.cur.ver.toNat ≤ v → v ≤ s.group.maxver.toNat → ¬ fitsAt s need v

/-- The state with the current symbol, and with it `MINVER`, grown to version `v`, and nothing else changed (R213). -/
def grownState (s : State) (v : Nat) : State :=
  { s.setCur
      { s.cur with
        ver := BitVec.ofNat 6 v, cap := BitVec.ofNat 15 (capOfGroup s v), cnt := BitVec.ofNat 15 (curCountAt s v) } with
    group := { s.group with minver := BitVec.ofNat 6 v } }

/-- What an exhausted negotiation leaves: the growth to `MAXVER` if the counter is within capacity there, nothing
otherwise (R213, outcomes 2 and 3). -/
def exhaustedState (s : State) : State :=
  if curCountAt s s.group.maxver.toNat ≤ capOfGroup s s.group.maxver.toNat then grownState s s.group.maxver.toNat else s

/-- The bits that writing a character takes at version `v`: the character's in the last segment if the mode stays, a
segment header and the character's if it changes (R214, R215). -/
def pendingBits (p : Platform) (s : State) (mode : EncMode) (ch : CharCode) (v : Nat) : Nat :=
  if s.cur.mode = some mode then
    charBits p s.group.charset mode ((s.cur.segs.getLast?.map (·.count)).getD 0) ch
  else 4 + ccw v mode + charBits p s.group.charset mode 0 ch

/-- `u` is what a character without room leaves: before it, in `w`, the characters at and after the cursor are
`ch :: rest`, the state machine decides a mode for `ch`, and that write fits no version up to `MAXVER`; `u` is `w` but
for the growth an exhausted negotiation keeps (R213, R220–R222). -/
def NoRoomAtCursor (p : Platform) (text : List CharCode) (u : State) : Prop :=
  ∃ (w : State) (ch : CharCode) (rest : List CharCode) (mode : EncMode),
    GroupShape w ∧ CountersAgree w ∧ text.drop w.tpos.toNat = ch :: rest ∧
      modeSelect p w.group.charset w.cur.mode w.cur.ver.toNat ch rest = some mode ∧
      fitsNowhere w (pendingBits p w mode ch) ∧ u = exhaustedState w

/-- The value of a polynomial, coefficients highest power first, by Horner's rule in the field (R267). -/
def evalAt (x : Byte) (poly : List Byte) : Byte := poly.foldl (fun acc c => gfmul acc x ^^^ c) 0

/-- The product of two field elements without tables: the XOR of `xtime^i(a)` over the set bits `i` of `b` (R263). -/
def productOf (a b : Byte) : Byte :=
  (List.range 8).foldl (fun acc i => if b.getLsbD i then acc ^^^ xtime^[i] a else acc) 0

/-- A matrix has `n` rows of `n` cells (R12). -/
def isSquare {α : Type} (n : Nat) (g : List (List α)) : Prop := g.length = n ∧ ∀ row ∈ g, row.length = n

/-! ### What the segments hold, read back -/

/-- The `count` values packed `size` to a word in base `base`, the first value of a word highest; the last word may hold
fewer (R160, R163). -/
def unpack (base size : Nat) : Nat → List Nat → List Nat
  | _, [] => []
  | count, w :: ws =>
    let n := min size count
    (List.range n).map (fun i => if i = 0 then w / base ^ (n - 1) else w / base ^ (n - 1 - i) % base)
      ++ unpack base size (count - size) ws

/-- The values a segment holds, read back from its words: digits three to a word, alphanumeric values two to a word,
bytes and 13-bit kanji values one to a word (R160, R163, R165, R168). -/
def readBack (seg : Segment) : List Nat :=
  match seg.mode with
  | .numeric => unpack 10 3 seg.count seg.words
  | .alphanumeric => unpack 45 2 seg.count seg.words
  | .byte => seg.words
  | .kanji => seg.words

/-- The values of all segments of the group, in order, each with the mode of its segment. -/
def storedValues (s : State) : List (EncMode × Nat) :=
  ((s.slots.toList.take s.group.symcnt.toNat).flatMap (·.segs)).flatMap fun seg => (readBack seg).map (seg.mode, ·)

/-- The values a character stands for in a mode: its digit, its place among the 45 codes, its bytes, or
`((code - offset) >> 8)·0xC0 + ((code - offset) & 0xFF)` of its double-byte code (R160, R162, R165, R167). -/
def valuesIn (p : Platform) (cs : BitVec 8) (ch : CharCode) : EncMode → List Nat
  | .numeric => [ch.toNat - 0x30]
  | .alphanumeric => [alnCodes.idxOf ch.toNat]
  | .byte => (charBytes p cs ch).map (·.toNat)
  | .kanji =>
    match p.csBytes 0 ch with
    | some (.two a b) =>
      let d := a.toNat * 256 + b.toNat - (if a.toNat < 0xA0 then 0x8140 else 0xC140)
      [d / 256 * 192 + d % 256]
    | _ => []

/-- The subset of a mode (R151, R152, R154, R157). -/
def inSubset (p : Platform) (cs : BitVec 8) (ch : CharCode) : EncMode → Bool
  | .numeric => isNum ch
  | .alphanumeric => isAln ch
  | .byte => isByt p cs ch
  | .kanji => isKan p cs ch

/-! ### Lookahead and the bits of a symbol -/

/-- The threshold of a version's tier (R181, R182). -/
def byVersion (v a b c : Nat) : Nat := if v ≤ 9 then a else if v ≤ 26 then b else c

/-- The first `n` characters exist and satisfy the predicate (R183). -/
def startsWith (pred : CharCode → Bool) (suffix : List CharCode) (n : Nat) : Prop :=
  ∀ j < n, ∃ d, suffix[j]? = some d ∧ pred d = true

/-- A run of fewer than `bound` characters of one class is followed by an existing character of another (R183, R184). -/
def shortRunBefore (pred next : CharCode → Bool) (suffix : List CharCode) (bound : Nat) : Prop :=
  ∃ n c, n < bound ∧ startsWith pred suffix n ∧ suffix[n]? = some c ∧ next c = true

/-- A run of at least `bound` characters of one class is followed by an existing character of another (R183, R186). -/
def longRunBefore (pred next : CharCode → Bool) (suffix : List CharCode) (bound : Nat) : Prop :=
  ∃ n c, bound ≤ n ∧ startsWith pred suffix n ∧ suffix[n]? = some c ∧ next c = true

/-- The number in `width` bits of a bit string from `start` on, the first bit most significant (R10). -/
def fieldAt (b : List Bool) (start width : Nat) : Nat :=
  ((b.drop start).take width).foldl (fun acc x => 2 * acc + x.toNat) 0

/-- The 4-bit mode indicators (R387). -/
def indicatorOf : EncMode → Nat
  | .numeric => 1
  | .alphanumeric => 2
  | .byte => 4
  | .kanji => 8

/-- The width of every word of a segment but its last (R161, R164, R165, R168). -/
def fullWidth : EncMode → Nat
  | .numeric => 10
  | .alphanumeric => 11
  | .byte => 8
  | .kanji => 13

/-- The width of the last word of a segment of `count` characters (R161, R164, R165, R168). -/
def lastWidth (mode : EncMode) (count : Nat) : Nat :=
  if mode = .numeric ∧ count % 3 = 1 then 4
  else if mode = .numeric ∧ count % 3 = 2 then 7
  else if mode = .alphanumeric ∧ count % 2 = 1 then 6
  else fullWidth mode

/-! ### Cells of the matrix and lines of it -/

/-- The centre of the alignment pattern a cell lies in, if any: a pair of coordinates of the version, not on one of the
three finders, at most two rows and two columns away (R296). -/
def alignmentCentre (v r c : Nat) : Option (Nat × Nat) :=
  ((alignPos v).product (alignPos v)).find? fun pq =>
    !((pq.1 = 6 && pq.2 = 6) || (pq.1 = 6 && pq.2 + 7 = side v) || (pq.1 + 7 = side v && pq.2 = 6))
      && r ≤ pq.1 + 2 && pq.1 ≤ r + 2 && c ≤ pq.2 + 2 && pq.2 ≤ c + 2

/-- The cell `(r, c)` of the matrix of version `v` before the data, or 0 where the cell is free: the finders, their
light borders, the timing lines, the alignment patterns, the format cells with the dark module's, the version cells
(R293–R296, R300, R301). -/
def patternCell (v r c : Nat) : Module :=
  let n := side v
  if r < 7 ∧ c < 7 then finderCell r c
  else if r < 7 ∧ n - 7 ≤ c then finderCell r (c - (n - 7))
  else if n - 7 ≤ r ∧ c < 7 then finderCell (r - (n - 7)) c
  else if (r ≤ 7 ∧ c ≤ 7) ∨ (r ≤ 7 ∧ n - 8 ≤ c) ∨ (n - 8 ≤ r ∧ c ≤ 7) then -5
  else if r = 6 then (if c % 2 = 0 then 6 else -6)
  else if c = 6 then (if r % 2 = 0 then 6 else -6)
  else match alignmentCentre v r c with
    | some (p, q) =>
      if (r = p ∧ c = q) ∨ r + 2 = p ∨ r = p + 2 ∨ c + 2 = q ∨ c = q + 2 then 2 else -2
    | none =>
      if (r = 8 ∧ (c ≤ 8 ∨ n - 8 ≤ c)) ∨ (c = 8 ∧ (r ≤ 8 ∨ n - 8 ≤ r)) then -4
      else if 7 ≤ v ∧ ((r < 6 ∧ n - 11 ≤ c) ∨ (n - 11 ≤ r ∧ c < 6)) then -7
      else 0

/-- The colour at a place of a matrix of colours. -/
def colourAt (g : List (List Bool)) (r c : Nat) : Bool := (g.getD r []).getD c false

/-- The same with the quiet zone of four light cells around the matrix of `n` by `n` (R74). -/
def quietAt (n : Nat) (g : List (List Bool)) (r c : Nat) : Bool :=
  decide (4 ≤ r ∧ r < n + 4 ∧ 4 ≤ c ∧ c < n + 4) && colourAt g (r - 4) (c - 4)

/-- The cells `i, …, i + n - 1` of a line exist, are of one colour, and neither neighbour is of that colour (R334). -/
def maximalRun (l : List Bool) (i n : Nat) : Bool :=
  1 ≤ n && i + n ≤ l.length && (List.range n).all (fun j => l[i + j]? == l[i]?)
    && (i == 0 || l[i - 1]? != l[i]?) && l[i + n]? != l[i]?

/-- At least `4k` light, `k` dark, `k` light, `3k` dark from cell `i` on, `k` light, `k` dark; the `4k` light may be at
the other end instead. All are maximal runs (R336). -/
def ratioAt (l : List Bool) (i k : Nat) : Bool :=
  let wide := fun start => (List.range (l.length + 1)).any fun len => 4 * k ≤ len && maximalRun l start len
  let wideBefore := (List.range (i - 2 * k)).any fun start => 4 * k ≤ i - 2 * k - start
    && maximalRun l start (i - 2 * k - start)
  l[i]? == some true && 2 * k ≤ i && maximalRun l i (3 * k) && maximalRun l (i - k) k
    && maximalRun l (i - 2 * k) k && maximalRun l (i + 3 * k) k && maximalRun l (i + 4 * k) k
    && (wideBefore || wide (i + 5 * k))

end Sys2Proof.Claims

open Sys2Proof Sys2Proof.Machine Sys2Proof.Claims

/-! ## Encoding -/

/-- Every command, with every operand value, is read back from its word (R90, R91, R93). -/
def Obligations.DecodeOfEncode : Prop := ∀ i : Instr, decode (encode i) = .ok i

/-- A word is a command exactly when a row of the opcode map admits it; then it is the only word of that command, and
the row is that of the command's mnemonic (R93, R94). -/
def Obligations.DecodeIsTheMap : Prop :=
  ∀ w : Word,
    ((∃ i, decode w = .ok i) ↔ ∃ row ∈ opcodeMap, w &&& row.mask = row.pattern) ∧
      ∀ i, decode w = .ok i →
        w = encode i ∧ ∃ row ∈ opcodeMap, row.mnemonic = i.mnemonic ∧ w &&& row.mask = row.pattern

/-- A word that matches no row is answered `(ERR_ILLEGAL, w)` and changes nothing, in every phase; such are the words
with opcode 0x00 or 0x11..0xFF, and those of a known opcode with a reserved bit set (R412). -/
def Obligations.IllegalWordChangesNothing : Prop :=
  ∀ (s : State) (w : Word) (rest : List Word), s.cmds = w :: rest →
    ((∀ row ∈ opcodeMap, w &&& row.mask ≠ row.pattern) →
        step s = .next (respond { s with cmds := rest } .illegal w)) ∧
      (field w 24 8 = 0 ∨ 0x11 ≤ (field w 24 8).toNat → ∀ row ∈ opcodeMap, w &&& row.mask ≠ row.pattern) ∧
      ∀ row ∈ opcodeMap, field w 24 8 = field row.pattern 24 8 →
        (w &&& row.mask ≠ row.pattern ↔ field (w &&& row.mask) 0 24 ≠ 0)

/-- The words the spec writes out decode to the commands it says they are, and its illegal words to none (R93, R94,
R96, R190, R264, R361, R363, R364, R412). -/
def Obligations.SpecWordsDecode : Prop :=
  decode 0x01000000 = .ok .reset ∧ decode 0x0200A100 = .ok (.cfg .m 40 false 0) ∧
    decode 0x04000000 = .ok .append ∧ decode 0x0A000016 = .ok (.setw 5 .q) ∧
    decode 0x0B028000 = .ok (.modesel 0 5 0) ∧ decode 0x0C0053CA = .ok (.gfmul 0x53 0xCA) ∧
    decode 0x0D400000 = .ok (.seta 4 0) ∧ decode 0x0F000048 = .ok (.st 0x48) ∧
    decode 0x10000081 = .ok (.rdr 0x81) ∧ decode 0x00000000 = .error .unknownOpcode ∧
    decode 0x01000001 = .error .reservedBits ∧ decode 0x0200A101 = .error .reservedBits

/-- A step takes the next word and executes the command it decodes to, and nothing else happens around it; a word
placed by `withFetchWord` is the one the very next step runs; with no word presented there is no step (R8, R69, R446;
the two last clauses are the model's own, log 2). -/
def Obligations.StepRunsDecoded : Prop :=
  ∀ (s : State) (w : Word) (rest : List Word) (i : Instr),
    (s.cmds = w :: rest → decode w = .ok i → step s = exec i { s with cmds := rest }) ∧
      (decode w = .ok i → step (s.withFetchWord 32 w.toNat) = exec i s) ∧
      (s.cmds = [] → step s = .refused .noCommand)

/-- Every step consumes exactly one command word and gives exactly one response (R98), RESET included: the two streams
`cmds` and `resps` it says this of are the model's own, and that RESET keeps them is the model's choice (log 1). -/
def Obligations.OneResponse : Prop :=
  ∀ s t : State, step s = .next t → ∃ w r, s.cmds = w :: t.cmds ∧ t.resps = s.resps ++ [r]

/-! ## Reset and the session commands -/

/-- After power-on, and after the RESET command in any state, every register holds the value R35 gives it and no cell
is written; RESET responds `(OK, 0)` (R35, R131, R440). That RESET keeps `cmds` and `resps` is the model's choice: they
are the host's side of the port (log 1). -/
def Obligations.ResetLeaves : Prop :=
  (∀ s : State, exec .reset s = .next (respond { State.reset with cmds := s.cmds, resps := s.resps } .ok 0)) ∧
    State.reset.phase = .unconfigured ∧ State.reset.group.ecl = .m ∧ State.reset.group.maxver = 40 ∧
    State.reset.group.sa = false ∧ State.reset.group.charset = 0 ∧ State.reset.group.minver = 1 ∧
    State.reset.group.parity = 0 ∧ State.reset.group.symcnt = 0 ∧ State.reset.tlen = 0 ∧ State.reset.tpos = 0 ∧
    State.reset.aspace = .txt ∧ State.reset.aidx = 0 ∧ State.reset.wver = 0 ∧ State.reset.wecl = .m ∧
    State.reset.wsym = 0 ∧ State.reset.maskref = 0 ∧
    (∀ m : Fin 8, State.reset.pen[m] = 0 ∧ ∀ t : Fin 4, State.reset.penc[m][t] = 0) ∧
    State.reset.txtn = 0 ∧ State.reset.dcwn = 0 ∧ State.reset.fcwn = 0 ∧ State.reset.mmv = .empty ∧
    (∀ k : Fin 16, State.reset.slots[k] = ⟨0, 0, 0, none, 0, 0, 0, 0, []⟩) ∧
    ∀ i : Nat, cellAt State.reset.mem.txt i = none ∧ cellAt State.reset.mem.dcw i = none ∧
      cellAt State.reset.mem.fcw i = none ∧ cellAt State.reset.mem.mm i = none

/-- CFG opens the group with its first, empty symbol at version 1; out of phase, with a version bound outside 1..40, or
with an unknown charset it changes nothing (R132, R218, R211, R414). The charset service is open, so the last refusal is
stated for every platform, of which `exec` is the instance at this machine's (R104). -/
def Obligations.CfgOpensGroup : Prop :=
  ∀ (ecl : EcLevel) (maxver : BitVec 6) (sa : Bool) (cs : BitVec 8) (s : State),
    (s.phase = .unconfigured → 1 ≤ maxver.toNat → maxver.toNat ≤ 40 → Config.platform.csKnown cs = true →
        exec (.cfg ecl maxver sa cs) s = .next (respond
          { s with
            phase := .building
            group := ⟨ecl, maxver, sa, cs, 1, 0, 1⟩
            slots := s.slots.set 0
              ⟨1, BitVec.ofNat 15 (8 * dataCW ecl 1 - if sa then 20 else 0), 0, none, 0, 0, 0, 0, []⟩ } .ok 0)) ∧
      (s.phase ≠ .unconfigured → exec (.cfg ecl maxver sa cs) s = .next (respond s .sequence (phaseWord s))) ∧
      (s.phase = .unconfigured → maxver.toNat = 0 ∨ 40 < maxver.toNat →
        exec (.cfg ecl maxver sa cs) s = .next (respond s .config 1)) ∧
      (exec (.cfg ecl maxver sa cs) s = (cfg Config.platform ecl maxver sa cs s).finish) ∧
      ∀ p : Platform, s.phase = .unconfigured → 1 ≤ maxver.toNat → maxver.toNat ≤ 40 → p.csKnown cs = false →
        (cfg p ecl maxver sa cs s).finish = .next (respond s .config 2)

/-- SETLEN sets `TLEN`, provided the string lies in written cells, and nothing else; a later ST does not change it
(R133). -/
def Obligations.SetlenSets : Prop :=
  ∀ (n : BitVec 16) (s : State),
    (n.toNat ≤ s.txtn.toNat → exec (.setlen n) s = .next (respond { s with tlen := n } .ok 0)) ∧
      (s.txtn.toNat < n.toNat → exec (.setlen n) s = .next (respond s .argument (n.setWidth 32))) ∧
      (BuffersAgree Config.platform s → n.toNat ≤ s.txtn.toNat → n.toNat ≤ Config.platform.txtSize) ∧
      ∀ (v : BitVec 16) (t : State), exec (.st v) s = .next t → t.tlen = s.tlen

/-- SETW opens a working context for a version 1..40: the cells of `DCW`, `FCW`, `MM` become unwritten and everything
else keeps its value; for any other version it changes nothing (R134). -/
def Obligations.SetwOpens : Prop :=
  ∀ (ver : BitVec 6) (ecl : EcLevel) (s : State),
    (1 ≤ ver.toNat → ver.toNat ≤ 40 →
        exec (.setw ver ecl) s = .next (respond
          { s with
            wver := ver, wecl := ecl, dcwn := 0, fcwn := 0, mmv := .empty
            mem := { s.mem with dcw := [], fcw := [], mm := [] } } .ok 0)) ∧
      (ver.toNat = 0 ∨ 40 < ver.toNat → exec (.setw ver ecl) s = .next (respond s .argument (ver.setWidth 32)))

/-- RENDER and BITASM make the same three checks in the same order: a group, a symbol of it, a segment in that symbol
(R135, R241, R413, R419). -/
def Obligations.RenderBitasmRefuse : Prop :=
  ∀ (k : BitVec 4) (s : State),
    (s.phase = .unconfigured →
        exec (.render k) s = .next (respond s .sequence 0) ∧ exec (.bitasm k) s = .next (respond s .sequence 0)) ∧
      (s.phase ≠ .unconfigured → s.group.symcnt.toNat ≤ k.toNat →
        exec (.render k) s = .next (respond s .argument (k.setWidth 32)) ∧
          exec (.bitasm k) s = .next (respond s .argument (k.setWidth 32))) ∧
      (s.phase ≠ .unconfigured → k.toNat < s.group.symcnt.toNat → (s.slot k).segs = [] →
        exec (.render k) s = .next (respond s .sequence (phaseWord s)) ∧
          exec (.bitasm k) s = .next (respond s .sequence (phaseWord s)))

/-- RENDER of a symbol with a segment completes, and its end state is exactly that of BITASM, RSENC, MPLACE, MASKSEL
run one after the other, each of which completes; it responds the selected mask (R135). -/
def Obligations.RenderIsFourStages : Prop :=
  ∀ (k : BitVec 4) (s : State), s.phase ≠ .unconfigured → k.toNat < s.group.symcnt.toNat → (s.slot k).segs ≠ [] →
    1 ≤ (s.slot k).ver.toNat → (s.slot k).ver.toNat ≤ 40 →
      ∃ t1 t2 t3 t4 : State,
        exec (.bitasm k) s = .next t1 ∧ exec .rsenc t1 = .next t2 ∧ exec .mplace t2 = .next t3 ∧
          exec .masksel t3 = .next t4 ∧
          (∃ v1 v2 v3 v4, t4.resps = s.resps ++ [⟨.ok, v1⟩, ⟨.ok, v2⟩, ⟨.ok, v3⟩, ⟨.ok, v4⟩]) ∧
          exec (.render k) s = .next { t4 with resps := s.resps ++ [⟨.ok, t4.maskref.setWidth 32⟩] }

/-- Rendering the same symbol again changes nothing: same matrix, mask and penalties (R135, R339: determinism). -/
def Obligations.RenderTwice : Prop :=
  ∀ (k : BitVec 4) (s : State), s.phase ≠ .unconfigured → k.toNat < s.group.symcnt.toNat → (s.slot k).segs ≠ [] →
    1 ≤ (s.slot k).ver.toNat → (s.slot k).ver.toNat ≤ 40 →
      ∃ t : State, exec (.render k) s = .next t ∧
        exec (.render k) t = .next (respond t .ok (t.maskref.setWidth 32))

/-- RSENC, MPLACE and MASKSEL refuse to start when their input is not all there, and then change nothing; MASKSEL
refuses to run twice on one matrix (R270, R291, R339, R413). -/
def Obligations.StageRefusals : Prop :=
  ∀ s : State,
    (s.wver = 0 → exec .rsenc s = .next (respond s .sequence (phaseWord s)) ∧
        exec .mplace s = .next (respond s .sequence (phaseWord s))) ∧
      (1 ≤ s.wver.toNat → s.wver.toNat ≤ 40 → s.dcwn.toNat ≠ dataCW s.wecl s.wver.toNat →
        exec .rsenc s = .next (respond s .sequence (phaseWord s))) ∧
      (1 ≤ s.wver.toNat → s.wver.toNat ≤ 40 → s.fcwn.toNat ≠ totalCW s.wver.toNat →
        exec .mplace s = .next (respond s .sequence (phaseWord s))) ∧
      (s.mmv = .empty ∨ s.mmv = .final → exec .masksel s = .next (respond s .sequence (phaseWord s)))

/-- What BITASM, RSENC, MPLACE, MASKSEL and RENDER leave unchanged: everything but the registers and buffers their rules
list; no symbol slot, no group register but `PHASE`, and never `TXT` (R135, R241, R270, R291, R339: "Writes"). -/
def Obligations.StageFrames : Prop :=
  ∀ (k : BitVec 4) (s t : State),
    (exec (.bitasm k) s = .next t →
        t = { s with
          phase := t.phase, wver := t.wver, wecl := t.wecl, wsym := t.wsym, dcwn := t.dcwn, fcwn := t.fcwn
          mmv := t.mmv, mem := { t.mem with txt := s.mem.txt }, resps := t.resps }) ∧
      (exec .rsenc s = .next t →
        t = { s with fcwn := t.fcwn, mem := { s.mem with fcw := t.mem.fcw }, resps := t.resps }) ∧
      (exec .mplace s = .next t →
        t = { s with mmv := t.mmv, mem := { s.mem with mm := t.mem.mm }, resps := t.resps }) ∧
      (exec .masksel s = .next t →
        t = { s with
          mmv := t.mmv, maskref := t.maskref, pen := t.pen, penc := t.penc
          mem := { s.mem with mm := t.mem.mm }, resps := t.resps }) ∧
      (exec (.render k) s = .next t →
        t = { s with
          phase := t.phase, wver := t.wver, wecl := t.wecl, wsym := t.wsym, maskref := t.maskref, pen := t.pen
          penc := t.penc, dcwn := t.dcwn, fcwn := t.fcwn, mmv := t.mmv
          mem := { t.mem with txt := s.mem.txt }, resps := t.resps })

/-! ## APPEND -/

/-- APPEND is refused outside BUILDING and for an empty string, and then changes nothing (R219, R413, R419). -/
def Obligations.AppendRefusals : Prop :=
  ∀ s : State,
    (s.phase ≠ .building → exec .append s = .next (respond s .sequence (phaseWord s))) ∧
      (s.phase = .building → s.tlen = 0 → exec .append s = .next (respond s .argument 0))

/-- An APPEND that is accepted answers, in one of the three ways the rules describe, with the cursor at the number of
committed characters; so it does for every charset service. Where the group and its counters have the shape the rules
give them, it answers `ERR_INPUT_TOO_LONG` only for a character whose write fits no version of the current symbol up to
`MAXVER`; and one character alone goes into the current symbol, grown to the least version that fits, or, when none
does, is too long without structured append or at 16 symbols, and else opens the next symbol at the group's minimum
version (R213, R218–R222, R415, R417). -/
def Obligations.AppendCompletes : Prop :=
  (∀ (s : State) (text : List CharCode), AppendReady s text →
      ∃ u res val, exec .append s = .next (respond u res val) ∧ AppendOutcome Config.platform s text u res val ∧
        (GroupShape s → CountersAgree s → res = .inputTooLong → NoRoomAtCursor Config.platform text u)) ∧
    ∀ (p : Platform) (s : State) (text : List CharCode), AppendReady s text →
      ∃ u res val, (append p s).finish = .next (respond u res val) ∧ AppendOutcome p s text u res val ∧
        (GroupShape s → CountersAgree s → res = .inputTooLong → NoRoomAtCursor p text u) ∧
        ∀ ch, text = [ch] → supported p s.group.charset ch = true → GroupShape s → CountersAgree s →
          ∃ mode, modeSelect p s.group.charset s.cur.mode s.cur.ver.toNat ch [] = some mode ∧
            (∀ v, s.cur.ver.toNat ≤ v → v ≤ s.group.maxver.toNat → fitsAt s (pendingBits p s mode ch) v →
              (∀ w, s.cur.ver.toNat ≤ w → w < v → ¬ fitsAt s (pendingBits p s mode ch) w) →
                res = .ok ∧ u.group.symcnt = s.group.symcnt ∧ u.cur.ver.toNat = v ∧ u.group.minver.toNat = v) ∧
            (fitsNowhere s (pendingBits p s mode ch) → s.group.sa = false ∨ s.group.symcnt = 16 →
              res = .inputTooLong ∧ u = { exhaustedState s with tpos := 0 }) ∧
            (fitsNowhere s (pendingBits p s mode ch) → s.group.sa = true → s.group.symcnt ≠ 16 →
              res = .ok ∧ u.group.symcnt = s.group.symcnt + 1 ∧ u.cur.ver = (exhaustedState s).group.minver ∧
                u.slot s.curIdx = (exhaustedState s).cur)

/-- APPEND takes the whole string, in the current symbol and without growth, when every character is supported and 52
bits a character are free: 52 is the dearest header and character of R220. The charset service is open, so this is
stated for every platform, `exec` being the instance at this machine's (R104, R219). -/
def Obligations.AppendTakesWholeText : Prop :=
  ∀ (p : Platform) (s : State) (text : List CharCode), AppendReady s text →
    (∀ ch ∈ text, supported p s.group.charset ch = true) →
    s.cur.cnt.toNat + 52 * text.length ≤ s.cur.cap.toNat →
      ∃ u : State, (append p s).finish = .next (respond u .ok (s.group.symcnt.setWidth 32)) ∧
        (p = Config.platform → exec .append s = .next (respond u .ok (s.group.symcnt.setWidth 32))) ∧
        u.tpos = s.tlen ∧ u.group.symcnt = s.group.symcnt ∧ u.group.minver = s.group.minver ∧
        u.cur.ver = s.cur.ver ∧ u.cur.cap = s.cur.cap ∧
        u.group.parity = parityAfter p s.group.charset s.group.parity text

/-- What APPEND leaves unchanged, however it ends: everything but `TPOS`, `PARITY`, `MINVER`, `SYMCNT` and the symbol
slots; and the symbols before the current one are frozen (R219: "Writes", R30). -/
def Obligations.AppendFrame : Prop :=
  (∀ s : State, exec .append s = (append Config.platform s).finish) ∧
    ∀ (p : Platform) (s t : State), (append p s).finish = .next t →
      t = { s with
          tpos := t.tpos, slots := t.slots, resps := t.resps
          group := { s.group with minver := t.group.minver, parity := t.group.parity, symcnt := t.group.symcnt } } ∧
        ∀ k : BitVec 4, k.toNat + 1 < s.group.symcnt.toNat → t.slot k = s.slot k

/-- Whatever ends an APPEND, `PARITY` is the running XOR over the bytes of exactly the characters before the cursor, in
whichever symbol and mode they went; the cursor is in `0 … TLEN`; and the segments of the group read back as before,
followed by exactly those characters in order, each with its values in a mode whose subset holds it
(R24, R160–R168, R216, R221). -/
def Obligations.AppendParity : Prop :=
  ∀ (p : Platform) (s t : State) (text : List CharCode), AppendReady s text → (append p s).finish = .next t →
    t.tpos.toNat ≤ s.tlen.toNat ∧
      t.group.parity = parityAfter p s.group.charset s.group.parity (text.take t.tpos.toNat) ∧
      (GroupShape s → CountersAgree s →
        ∃ modes : List EncMode, modes.length = t.tpos.toNat ∧
          (∀ mc ∈ modes.zip text, inSubset p s.group.charset mc.2 mc.1 = true) ∧
          storedValues t = storedValues s ++
            (modes.zip text).flatMap fun mc => (valuesIn p s.group.charset mc.2 mc.1).map (mc.1, ·))

/-- The negotiator finds the least version at which the write fits, with the counter corrected for the wider indicators
and the table's capacity; if there is none it is exhausted, keeping the growth exactly when it is consistent. So does
its search, from any start; and `Ensure` on the current symbol of a group the rules describe searches from `VER` to
`MAXVER`, commits the growth to the version found, and leaves the group as exhausted otherwise (R211–R213). -/
def Obligations.EnsureLeastVersion : Prop :=
  (∀ (ecl : EcLevel) (sa : Bool) (x : Slot) (need : Nat → Nat) (left : Nat) (g : Growth),
    let fits := fun v => countAt x g.cnt g.ver v + need v ≤ capAt ecl sa g.cap g.ver v
    let last := g.ver + left
    match findRoom ecl sa x need left g with
    | .fit g' => g' = grownTo ecl sa x g g'.ver ∧ g.ver ≤ g'.ver ∧ g'.ver ≤ last ∧ fits g'.ver ∧
        ∀ v, g.ver ≤ v → v < g'.ver → ¬ fits v
    | .exhausted g' => g' = grownTo ecl sa x g last ∧ g'.cnt ≤ g'.cap ∧ ∀ v, g.ver ≤ v → v ≤ last → ¬ fits v
    | .discarded => capAt ecl sa g.cap g.ver last < countAt x g.cnt g.ver last ∧
        ∀ v, g.ver ≤ v → v ≤ last → ¬ fits v) ∧
    ∀ (need : Nat → Nat) (s : State), GroupShape s → CountersAgree s → s.group.symcnt ≠ 0 →
      (∀ v, s.cur.ver.toNat ≤ v → v ≤ s.group.maxver.toNat → fitsAt s need v →
        (∀ u, s.cur.ver.toNat ≤ u → u < v → ¬ fitsAt s need u) →
          ensure need s = .fit (grownState s v) ∧ (grownState s v).cur.ver.toNat = v ∧
            (grownState s v).cur.cap.toNat = capOfGroup s v ∧ (grownState s v).cur.cnt.toNat = curCountAt s v ∧
            (grownState s v).group.minver.toNat = v) ∧
        (fitsNowhere s need → ensure need s = .exhausted (exhaustedState s))

/-! ## The segmentation state machine -/

/-- MODESEL answers the decision of the state machine for the character at `idx`, or reports it unsupported, or refuses
its operands in their order; it changes nothing. The charset service is open, so the decisions are stated for every
platform, `exec` being the instance at this machine's (R190, R188, R104). -/
def Obligations.ModeselDecides : Prop :=
  ∀ (mode : BitVec 3) (ver : BitVec 6) (idx : BitVec 15) (s : State),
    (4 < mode.toNat → exec (.modesel mode ver idx) s = .next (respond s .argument (mode.setWidth 32))) ∧
      (mode.toNat ≤ 4 → ver.toNat = 0 ∨ 40 < ver.toNat →
        exec (.modesel mode ver idx) s = .next (respond s .argument (ver.setWidth 32))) ∧
      (mode.toNat ≤ 4 → 1 ≤ ver.toNat → ver.toNat ≤ 40 → s.tlen.toNat ≤ idx.toNat →
        exec (.modesel mode ver idx) s = .next (respond s .argument (idx.setWidth 32))) ∧
      ∀ text : List CharCode, mode.toNat ≤ 4 → 1 ≤ ver.toNat → ver.toNat ≤ 40 → idx.toNat < s.tlen.toNat →
        inputText s = some text →
          (∃ res val, exec (.modesel mode ver idx) s = .next (respond s res val) ∧
            exec (.modesel mode ver idx) s = (modesel Config.platform mode ver idx s).finish) ∧
          ∃ ch rest, text.drop idx.toNat = ch :: rest ∧ ∀ p : Platform,
            (supported p s.group.charset ch = true →
              ∃ m new, modeCode m = mode ∧ modeSelect p s.group.charset m ver.toNat ch rest = some new ∧
                (modesel p mode ver idx s).finish = .next (respond s .ok ((modeCode (some new)).setWidth 32))) ∧
            (supported p s.group.charset ch = false →
              (modesel p mode ver idx s).finish = .next (respond s .unsupportedChar (ch ++ idx.setWidth 16)))

/-- The state machine's answer is a mode whose encoder takes the character; a kanji-eligible character goes to KANJI
from every mode; a supported character that is not kanji-eligible is in exactly one of the three other exclusive
classes (R158, R184–R188, R215). -/
def Obligations.ModeSelectFits : Prop :=
  ∀ (p : Platform) (cs : BitVec 8) (mode : Option EncMode) (ver : Nat) (ch : CharCode) (rest : List CharCode),
    supported p cs ch = true →
      ∃ new, modeSelect p cs mode ver ch rest = some new ∧
        (new = .numeric → isNum ch = true) ∧ (new = .alphanumeric → isAln ch = true) ∧
        (new = .byte → isByt p cs ch = true) ∧ (new = .kanji ↔ isKan p cs ch = true) ∧
        (isKan p cs ch = false →
          (isBytX p cs ch = true ∧ isAlnX ch = false ∧ isNum ch = false) ∨
            (isBytX p cs ch = false ∧ isAlnX ch = true ∧ isNum ch = false) ∨
            (isBytX p cs ch = false ∧ isAlnX ch = false ∧ isNum ch = true))

/-- A string of digits to its end: NUMERIC from no mode, from KANJI and from NUMERIC; ALPHANUMERIC stays ALPHANUMERIC
however long the run is; BYTE changes to NUMERIC exactly from the tier's threshold on (R184–R187, R191, D8, D9). -/
def Obligations.DigitString : Prop :=
  ∀ (p : Platform) (cs : BitVec 8) (ver : Nat) (ch : CharCode) (rest : List CharCode),
    (∀ c ∈ ch :: rest, isNum c = true) → supported p cs ch = true → isKan p cs ch = false →
      modeSelect p cs none ver ch rest = some .numeric ∧
        modeSelect p cs (some .kanji) ver ch rest = some .numeric ∧
        modeSelect p cs (some .numeric) ver ch rest = some .numeric ∧
        modeSelect p cs (some .alphanumeric) ver ch rest = some .alphanumeric ∧
        modeSelect p cs (some .byte) ver ch rest =
          some (if (if ver ≤ 9 then 6 else if ver ≤ 26 then 8 else 9) ≤ (ch :: rest).length then .numeric else .byte)

/-- The decisions for a supported character that is not kanji-eligible, exactly. From no mode and from KANJI: BYTE for a
byte-exclusive character, and for a short run before one; a short digit run before a letter goes to ALPHANUMERIC. From
NUMERIC the character alone decides. ALPHANUMERIC changes to NUMERIC exactly before a long enough digit run that is
followed by a character outside the ALPHANUMERIC subset, to BYTE exactly for a byte-exclusive character, and otherwise
stays; BYTE looks at run lengths alone and otherwise stays (R182–R187). -/
def Obligations.Lookahead : Prop :=
  ∀ (p : Platform) (cs : BitVec 8) (ver : Nat) (ch : CharCode) (rest : List CharCode),
    supported p cs ch = true → isKan p cs ch = false →
      (∀ old : Option EncMode, old = none ∨ old = some .kanji →
        (isBytX p cs ch = true → modeSelect p cs old ver ch rest = some .byte) ∧
          (isAlnX ch = true →
            (modeSelect p cs old ver ch rest = some .byte ↔
              shortRunBefore isAlnX (isBytX p cs) (ch :: rest) (byVersion ver 6 7 8)) ∧
            (modeSelect p cs old ver ch rest = some .alphanumeric ↔
              ¬ shortRunBefore isAlnX (isBytX p cs) (ch :: rest) (byVersion ver 6 7 8))) ∧
          (isNum ch = true →
            (modeSelect p cs old ver ch rest = some .byte ↔
              shortRunBefore isNum (isBytX p cs) (ch :: rest) (byVersion ver 4 4 5)) ∧
            (modeSelect p cs old ver ch rest = some .alphanumeric ↔
              shortRunBefore isNum isAlnX (ch :: rest) (byVersion ver 7 8 9)) ∧
            (modeSelect p cs old ver ch rest = some .numeric ↔
              ¬ shortRunBefore isNum (isBytX p cs) (ch :: rest) (byVersion ver 4 4 5) ∧
                ¬ shortRunBefore isNum isAlnX (ch :: rest) (byVersion ver 7 8 9)))) ∧
        ((isBytX p cs ch = true → modeSelect p cs (some .numeric) ver ch rest = some .byte ∧
            modeSelect p cs (some .alphanumeric) ver ch rest = some .byte) ∧
          (isAlnX ch = true → modeSelect p cs (some .numeric) ver ch rest = some .alphanumeric) ∧
          (isNum ch = true → modeSelect p cs (some .numeric) ver ch rest = some .numeric)) ∧
        (isBytX p cs ch = false →
          (modeSelect p cs (some .alphanumeric) ver ch rest = some .numeric ↔
            longRunBefore isNum (fun c => !isAln c) (ch :: rest) (byVersion ver 13 15 17))) ∧
        (modeSelect p cs (some .alphanumeric) ver ch rest = some .alphanumeric ↔
          isBytX p cs ch = false ∧
            ¬ longRunBefore isNum (fun c => !isAln c) (ch :: rest) (byVersion ver 13 15 17)) ∧
        (modeSelect p cs (some .byte) ver ch rest = some .numeric ↔
          startsWith isNum (ch :: rest) (byVersion ver 6 8 9)) ∧
        (modeSelect p cs (some .byte) ver ch rest = some .alphanumeric ↔
          startsWith isAlnX (ch :: rest) (byVersion ver 11 15 16)) ∧
        (modeSelect p cs (some .byte) ver ch rest = some .byte ↔
          ¬ startsWith isNum (ch :: rest) (byVersion ver 6 8 9) ∧
            ¬ startsWith isAlnX (ch :: rest) (byVersion ver 11 15 16))

/-! ## Bit assembly -/

/-- BITASM completes: it opens the working context of the symbol's version, writes the `DataCW` codewords made of the
bits in use, the terminator, the padding and the pad codewords (`DataCodewordBits` says which bits these are), and
responds the number of bits in use (R240, R241, R245–R248). -/
def Obligations.BitasmCompletes : Prop :=
  ∀ (k : BitVec 4) (s : State), s.phase ≠ .unconfigured → k.toNat < s.group.symcnt.toNat → (s.slot k).segs ≠ [] →
    1 ≤ (s.slot k).ver.toNat → (s.slot k).ver.toNat ≤ 40 →
      ∃ ws : List Byte,
        exec (.bitasm k) s = .next (respond
          { s with
            phase := .rendered, wver := (s.slot k).ver, wecl := s.group.ecl, wsym := k
            dcwn := BitVec.ofNat 12 ws.length, fcwn := 0, mmv := .empty
            mem := { s.mem with dcw := cellsFrom 0 ws, fcw := [], mm := [] } }
          .ok (BitVec.ofNat 32 (usedBits s k).length)) ∧
        ws.length = dataCW s.group.ecl (s.slot k).ver.toNat ∧
        ws = fillCodewords (dataCW s.group.ecl (s.slot k).ver.toNat) (usedBits s k) ∧
        ((usedBits s k).length ≤ 8 * ws.length → usedBits s k <+: streamBits ws)

/-- The codewords of `b`, for a symbol of `d` codewords: `b`, the terminator of at most four zero bits, zero bits up to
a multiple of eight, then `EC 11 EC …` (R245–R248). -/
def Obligations.DataCodewordBits : Prop :=
  ∀ (d : Nat) (b : List Bool), b.length ≤ 8 * d →
    let terminator := min 4 (8 * d - b.length)
    let padding := (8 - (b.length + terminator) % 8) % 8
    let pad := d - (b.length + terminator + padding) / 8
    (fillCodewords d b).length = d ∧
      streamBits (fillCodewords d b) =
        b ++ List.replicate (terminator + padding) false ++
          streamBits ((List.range pad).map fun i => if i % 2 = 0 then 0xEC else 0x11)

/-- How many bits are in use, and which: the symbol's counter, and 20 more in a group of several symbols; they fit the
symbol. The 20 are 0011, the position, the number of symbols less one, the parity. Then comes each segment: its mode
indicator, its count in the width of the symbol's version, its words, each in its width (R30, R172, R241, R243, R244). -/
def Obligations.UsedBitsCount : Prop :=
  ∀ (k : BitVec 4) (s : State), SlotCounts s.group.ecl s.group.sa (s.slot k) →
    let header := if 1 < s.group.symcnt.toNat then 20 else 0
    let v := (s.slot k).ver.toNat
    (usedBits s k).length = (s.slot k).cnt.toNat + header ∧
      (1 < s.group.symcnt.toNat → s.group.symcnt.toNat ≤ 16 →
        fieldAt (usedBits s k) 0 4 = 3 ∧ fieldAt (usedBits s k) 4 4 = k.toNat ∧
          fieldAt (usedBits s k) 8 4 = s.group.symcnt.toNat - 1 ∧
          fieldAt (usedBits s k) 12 8 = s.group.parity.toNat) ∧
      (∀ (before after : List Segment) (seg : Segment), (s.slot k).segs = before ++ seg :: after →
        let start := header + (before.map (segmentCost v)).sum
        let data := start + 4 + ccw v seg.mode
        fieldAt (usedBits s k) start 4 = indicatorOf seg.mode ∧
          (1 ≤ v → v ≤ 40 → fieldAt (usedBits s k) (start + 4) (ccw v seg.mode) = seg.count) ∧
          ∀ j w, seg.words[j]? = some w →
            let width := if j + 1 = seg.words.length then lastWidth seg.mode seg.count else fullWidth seg.mode
            fieldAt (usedBits s k) (data + j * fullWidth seg.mode) width = w % 2 ^ width) ∧
      (1 ≤ (s.slot k).ver.toNat → (s.slot k).ver.toNat ≤ 40 → (s.group.sa = false → s.group.symcnt.toNat ≤ 1) →
        (usedBits s k).length ≤ 8 * dataCW s.group.ecl (s.slot k).ver.toNat)

/-! ## The Galois field and the Reed–Solomon builder -/

/-- GFMUL responds the field product, zero-extended, and writes nothing; the product of the tables is the product
without tables (R264, R263). -/
def Obligations.GfmulProduct : Prop :=
  ∀ (a b : Byte) (s : State),
    exec (.gfmul a b) s = .next (respond s .ok ((productOf a b).setWidth 32)) ∧ gfmul a b = productOf a b

/-- The laws of the field: commutative, associative, distributive over XOR, one, zero, inverses (R263). -/
def Obligations.FieldLaws : Prop :=
  ∀ a b c : Byte,
    gfmul a b = gfmul b a ∧ gfmul (gfmul a b) c = gfmul a (gfmul b c) ∧
      gfmul a (b ^^^ c) = gfmul a b ^^^ gfmul a c ∧ gfmul a 1 = a ∧ gfmul a 0 = 0 ∧
      (a ≠ 0 → ∃ d, gfmul a d = 1)

/-- The tables are the powers of `α = 2` modulo 0x11D and their logarithms; `EXP` takes every non-zero value exactly
once, and `α^255 = 1` (R261). -/
def Obligations.FieldTables : Prop :=
  gfExp 0 = 1 ∧
    (∀ i < 254, (gfExp (i + 1)).toNat =
      ((gfExp i).toNat <<< 1) ^^^ (if 0x80 ≤ (gfExp i).toNat then 0x11D else 0)) ∧
    (∀ i < 255, gfLog (gfExp i) = i) ∧
    (∀ x : Byte, x ≠ 0 → gfLog x < 255 ∧ gfExp (gfLog x) = x) ∧
    ((gfExp 254).toNat <<< 1) ^^^ 0x11D = 1

/-- Every block with its EC codewords is a codeword of the Reed–Solomon code: as a polynomial it vanishes at
`α^0 … α^(n-1)` (R267, R269, R272). -/
def Obligations.RsCodewordRoots : Prop :=
  ∀ (d : List Byte) (n : Nat), n ≤ 255 →
    (rsRemainder d n).length = n ∧ ∀ j < n, evalAt (gfExp j) (d ++ rsRemainder d n) = 0

/-- The EC codewords are linear in the data over XOR, and the zero block has zero EC codewords (R269). -/
def Obligations.RsLinear : Prop :=
  ∀ (d e : List Byte) (m n : Nat), d.length = e.length →
    rsRemainder (List.zipWith (· ^^^ ·) d e) n = List.zipWith (· ^^^ ·) (rsRemainder d n) (rsRemainder e n) ∧
      rsRemainder (List.replicate m 0) n = List.replicate n 0

/-- The block plan of every version and level: consecutive slices, the shorter blocks first, that tile the data; and
`D + nb·ec = T` (R268, R399). -/
def Obligations.BlockPlan : Prop :=
  ∀ (ecl : EcLevel) (v : Nat) (d : List Byte), 1 ≤ v → v ≤ 40 → d.length = dataCW ecl v →
    1 ≤ blocks ecl v ∧ (blockLengths ecl v).length = blocks ecl v ∧ (blockLengths ecl v).sum = dataCW ecl v ∧
      (∀ b (h : b < (blockLengths ecl v).length), (blockLengths ecl v)[b] =
        dataCW ecl v / blocks ecl v + (if b < blocks ecl v - dataCW ecl v % blocks ecl v then 0 else 1)) ∧
      dataCW ecl v + blocks ecl v * ecPerBlock ecl v = totalCW v ∧
      (slices (blockLengths ecl v) d).flatten = d ∧
      (slices (blockLengths ecl v) d).map List.length = blockLengths ecl v

/-- RSENC completes when the data codewords are all there: it writes `TotalCW` codewords, the first of which are the
data codewords rearranged, and nothing else (R270, R272). -/
def Obligations.RsencCompletes : Prop :=
  ∀ (s : State) (d : List Byte), 1 ≤ s.wver.toNat → s.wver.toNat ≤ 40 →
    s.dcwn.toNat = dataCW s.wecl s.wver.toNat → firstCells s.mem.dcw s.dcwn.toNat = some d →
      ∃ ws : List Byte,
        exec .rsenc s = .next (respond
          { s with fcwn := BitVec.ofNat 12 ws.length, mem := { s.mem with fcw := cellsFrom 0 ws } }
          .ok (BitVec.ofNat 32 ws.length)) ∧
        ws.length = totalCW s.wver.toNat ∧ (ws.take (dataCW s.wecl s.wver.toNat)).Perm d ∧
        ws = codewordStream s.wecl s.wver.toNat d

/-- Where each codeword of each block stands in the stream: data column by column, the last column of the longer blocks
only, then EC column by column (R268, R271). -/
def Obligations.InterleaveLayout : Prop :=
  ∀ (ecl : EcLevel) (v : Nat) (d : List Byte), 1 ≤ v → v ≤ 40 → d.length = dataCW ecl v →
    let nb := blocks ecl v
    let short := dataCW ecl v / nb
    let first := nb - dataCW ecl v % nb
    let start := fun b => b * short + (b - first)
    let ws := codewordStream ecl v d
    (∀ b c, b < nb → c < short → ws[c * nb + b]? = d[start b + c]?) ∧
      (∀ b, first ≤ b → b < nb → ws[short * nb + (b - first)]? = d[start b + short]?) ∧
      ∀ b c, b < nb → c < ecPerBlock ecl v →
        ws[dataCW ecl v + (c * nb + b)]? =
          (rsRemainder ((d.drop (start b)).take (short + if b < first then 0 else 1)) (ecPerBlock ecl v))[c]?

/-! ## The matrix -/

/-- MPLACE completes when the stream is all there: a matrix of `N·N` cells, none of them 0, responding `N` (R291,
R309). -/
def Obligations.MplaceCompletes : Prop :=
  ∀ (s : State) (ws : List Byte), 1 ≤ s.wver.toNat → s.wver.toNat ≤ 40 → s.fcwn.toNat = totalCW s.wver.toNat →
    firstCells s.mem.fcw s.fcwn.toNat = some ws →
      ∃ cells : List Module,
        exec .mplace s = .next (respond
          { s with mmv := .premask, mem := { s.mem with mm := cellsFrom 0 cells } }
          .ok (BitVec.ofNat 32 (17 + 4 * s.wver.toNat))) ∧
        cells.length = (17 + 4 * s.wver.toNat) * (17 + 4 * s.wver.toNat) ∧ (0 : Module) ∉ cells ∧
        cells = (premaskMatrix s.wver.toNat ws).flatten

/-- The function patterns are, cell by cell, the finders, separators, timing lines, alignment patterns and reserved
format and version cells of the rules; `8·TotalCW + RemBits` cells are free. Placing the data leaves every pattern and
reserved cell as it is, and fills every free cell with a cell of data magnitude (R292–R296, R300–R304, R309). -/
def Obligations.PremaskKeepsPatterns : Prop :=
  ∀ (v : Nat) (ws : List Byte), 1 ≤ v → v ≤ 40 →
    (∀ r c : Nat, r < side v → c < side v →
      gridAt (functionPatterns v) r c = patternCell v r c ∧
        (gridAt (functionPatterns v) r c ≠ 0 →
          gridAt (premaskMatrix v ws) r c = gridAt (functionPatterns v) r c) ∧
        (gridAt (functionPatterns v) r c = 0 →
          gridAt (premaskMatrix v ws) r c = 1 ∨ gridAt (premaskMatrix v ws) r c = -1)) ∧
      ((List.range (side v)).map fun r =>
        (List.range (side v)).countP fun c => gridAt (functionPatterns v) r c = 0).sum = 8 * totalCW v + remBits v

/-- The traversal visits every cell outside column 6 exactly once; the free cell it meets as the `k`-th takes bit `k` of
the stream, dark for 1 and light for 0, and light when the stream has run out (R302–R304). -/
def Obligations.DataFollowsTraversal : Prop :=
  ∀ (v : Nat) (ws : List Byte), 1 ≤ v → v ≤ 40 →
    (traversal (side v)).Nodup ∧
      (∀ r c : Nat, (r, c) ∈ traversal (side v) ↔ r < side v ∧ c < side v ∧ c ≠ 6) ∧
      ∀ k r c : Nat, ((traversal (side v)).filter fun rc => gridAt (functionPatterns v) rc.1 rc.2 = 0)[k]? = some (r, c) →
        gridAt (premaskMatrix v ws) r c = if (streamBits ws)[k]? = some true then 1 else -1

/-- The finder patterns occupy the three corners, before masking and in every candidate, whatever the data, the level
and the mask (R293, R332, R340). -/
def Obligations.FindersSurvive : Prop :=
  ∀ (v : Nat) (ws : List Byte) (ecl : EcLevel) (m i j : Nat), 1 ≤ v → v ≤ 40 → m < 8 → i < 7 → j < 7 →
    ∀ g ∈ [premaskMatrix v ws, candidate (premaskMatrix v ws) ecl v m],
      gridAt g i j = finderCell i j ∧ gridAt g i (side v - 7 + j) = finderCell i j ∧
        gridAt g (side v - 7 + i) j = finderCell i j

/-! ## Masking -/

/-- Masking flips exactly the cells of data magnitude that satisfy the condition, leaves every other cell as it is, and
is its own inverse (R332). -/
def Obligations.ApplyMask : Prop :=
  ∀ (g : Grid) (m : Nat),
    (∀ r c row v, g[r]? = some row → row[c]? = some v →
        gridAt (applyMask g m) r c = if (v = 1 ∨ v = -1) ∧ maskCond m r c = true then -v else v) ∧
      (applyMask g m).map List.length = g.map List.length ∧ applyMask (applyMask g m) m = g

/-- MASKSEL completes on a pre-mask matrix: `PENC[m]` are the four penalties of candidate `m`'s colours (dark is a
positive cell; `PenaltyWindows` says what the penalties are), the totals are their sums,
the mask is the lowest-numbered one of least total, and `MM` becomes its candidate; nothing else changes (R339, R27,
R338, R452). -/
def Obligations.MaskselSelects : Prop :=
  ∀ (s : State) (cells : List Module), s.mmv = .premask → 1 ≤ s.wver.toNat → s.wver.toNat ≤ 40 →
    firstCells s.mem.mm (s.side * s.side) = some cells →
      ∃ t : State, exec .masksel s = .next t ∧
        t = respond
          { s with
            mmv := .final, maskref := t.maskref, pen := t.pen, penc := t.penc
            mem := { s.mem with
              mm := cellsFrom 0
                (candidate (rowsOf s.side s.side cells) s.wecl s.wver.toNat t.maskref.toNat).flatten } }
          .ok (t.maskref.setWidth 32) ∧
        (∀ m : Fin 8,
          let c := (candidate (rowsOf s.side s.side cells) s.wecl s.wver.toNat m.val).map fun row =>
            row.map fun x => decide (0 < x.toInt)
          t.penc[m] = #v[BitVec.ofNat 32 (penaltyRun s.side c), BitVec.ofNat 32 (penaltyBlock c),
            BitVec.ofNat 32 (penaltyRatio s.side c), BitVec.ofNat 32 (penaltyBalance s.side c)]) ∧
        PenaltiesAgree t

/-- The stage commands are pure functions of their inputs: RSENC of `DCW`, `WVER`, `WECL`; MPLACE of `FCW`, `WVER`;
MASKSEL of `MM`, `WVER`, `WECL` (R270, R291, R339). -/
def Obligations.StagesArePure : Prop :=
  ∀ s s' t t' : State, s.wver = s'.wver →
    (s.wecl = s'.wecl → s.dcwn = s'.dcwn → s.mem.dcw = s'.mem.dcw → dataComplete s = true → s.wver ≠ 0 →
        exec .rsenc s = .next t → exec .rsenc s' = .next t' → t.mem.fcw = t'.mem.fcw ∧ t.fcwn = t'.fcwn) ∧
      (s.fcwn = s'.fcwn → s.mem.fcw = s'.mem.fcw → streamComplete s = true → s.wver ≠ 0 →
        exec .mplace s = .next t → exec .mplace s' = .next t' → t.mem.mm = t'.mem.mm ∧ t.mmv = t'.mmv) ∧
      (s.wecl = s'.wecl → s.mmv = .premask → s'.mmv = .premask → s.mem.mm = s'.mem.mm →
        exec .masksel s = .next t → exec .masksel s' = .next t' →
          t.mem.mm = t'.mem.mm ∧ t.maskref = t'.maskref ∧ t.pen = t'.pen ∧ t.penc = t'.penc)

/-- In a candidate the format cells hold the 15 format bits in both copies, the dark module is dark, and from version 7
on the version cells hold the 18 version bits in both copies; every other cell is the masked matrix (R333, R338, R340). -/
def Obligations.InfoCells : Prop :=
  ∀ (v : Nat) (ecl : EcLevel) (m : Nat) (g : Grid), 1 ≤ v → v ≤ 40 → m < 8 → isSquare (side v) g →
    (∀ i < 15, ∀ rc ∈ formatPos (side v) i,
        gridAt (candidate g ecl v m) rc.1 rc.2 = if (formatBits ecl m).getLsbD i then 4 else -4) ∧
      gridAt (candidate g ecl v m) (side v - 8) 8 = 4 ∧
      (7 ≤ v → ∀ i < 18, ∀ rc ∈ versionPos (side v) i,
        gridAt (candidate g ecl v m) rc.1 rc.2 = if (versionBits v).getLsbD i then 7 else -7) ∧
      ∀ r c, r < side v → c < side v → (∀ i < 15, (r, c) ∉ formatPos (side v) i) → (r, c) ≠ (side v - 8, 8) →
        (7 ≤ v → ∀ i < 18, (r, c) ∉ versionPos (side v) i) →
          gridAt (candidate g ecl v m) r c = gridAt (applyMask g m) r c

/-- The four penalties of a square of colours. Runs: `L - 2` for every maximal run of length `L ≥ 5` of every row and
column, so that the direction of scanning does not matter. Blocks: three times the number of uniform 2×2 windows. Ratio:
40 for every dark run of a row or column with the quiet zone that is the centre of a 1:1:3:1:1 pattern with `4k` light on
an outer side. Balance: ten times the whole number of five per cents between the dark share and one half
(R74, R334–R337). -/
def Obligations.PenaltyWindows : Prop :=
  (∀ line : List Bool,
      runPenalty line = ((List.range line.length).map fun i => ((List.range (line.length + 1)).map fun len =>
        if maximalRun line i len = true ∧ 5 ≤ len then len - 2 else 0).sum).sum ∧
      runPenalty line.reverse = runPenalty line ∧
      ratioMatches line = (List.range line.length).countP fun i =>
        (List.range (line.length + 1)).any fun k => ratioAt line i k) ∧
    ∀ (n : Nat) (g : List (List Bool)), isSquare n g →
      penaltyRun n g = ((List.range n).map fun i =>
        runPenalty ((List.range n).map fun j => colourAt g i j) +
          runPenalty ((List.range n).map fun j => colourAt g j i)).sum ∧
      penaltyBlock g = 3 * ((List.range (n - 1)).map fun r => (List.range (n - 1)).countP fun c =>
        colourAt g r c == colourAt g r (c + 1) && colourAt g r c == colourAt g (r + 1) c &&
          colourAt g r c == colourAt g (r + 1) (c + 1)).sum ∧
      penaltyRatio n g = 40 * ((List.range (n + 8)).map fun i =>
        ratioMatches ((List.range (n + 8)).map fun j => quietAt n g i j) +
          ratioMatches ((List.range (n + 8)).map fun j => quietAt n g j i)).sum ∧
      (1 ≤ n → ∃ q : Nat, penaltyBalance n g = q * 10 ∧
        let dark : Nat := ((List.range n).map fun r => (List.range n).countP fun c => colourAt g r c).sum
        let deviation := (100 * (dark : Int) - 50 * ((n * n : Nat) : Int)).natAbs
        5 * (n * n) * q ≤ deviation ∧ deviation < 5 * (n * n) * (q + 1))

/-! ## The access commands -/

/-- SETA selects spaces 0..4 with any index and refuses the reserved ids 5..15, changing nothing (R361). -/
def Obligations.SetaSelects : Prop :=
  ∀ (space : BitVec 4) (idx : BitVec 20) (s : State),
    (space.toNat ≤ 4 → ∃ sp, spaceCode sp = space ∧
        exec (.seta space idx) s = .next (respond { s with aspace := sp, aidx := idx } .ok 0)) ∧
      (4 < space.toNat → exec (.seta space idx) s = .next (respond s .address (space.setWidth 32)))

/-- LD returns the selected element, zero-extended from `TXT`, `DCW`, `FCW` and sign-extended from `MM` and `QM`, and
advances `AIDX`; at or above the valid length it answers `ERR_ADDRESS` and nothing moves (R62, R74, R75, R362). -/
def Obligations.LdReads : Prop :=
  ∀ s : State,
    (∀ x, s.aspace = .txt → s.aidx.toNat < s.txtn.toNat → cellAt s.mem.txt s.aidx.toNat = some x →
        exec .ld s = .next (respond { s with aidx := s.aidx + 1 } .ok (x.setWidth 32))) ∧
      (∀ x, s.aspace = .dcw → s.aidx.toNat < s.dcwn.toNat → cellAt s.mem.dcw s.aidx.toNat = some x →
        exec .ld s = .next (respond { s with aidx := s.aidx + 1 } .ok (x.setWidth 32))) ∧
      (∀ x, s.aspace = .fcw → s.aidx.toNat < s.fcwn.toNat → cellAt s.mem.fcw s.aidx.toNat = some x →
        exec .ld s = .next (respond { s with aidx := s.aidx + 1 } .ok (x.setWidth 32))) ∧
      (∀ x r c, s.aspace = .mm → s.mmv ≠ .empty → r < s.side → c < s.side → s.aidx.toNat = r * s.side + c →
        cellAt s.mem.mm (r * s.side + c) = some x →
          exec .ld s = .next (respond { s with aidx := s.aidx + 1 } .ok (x.signExtend 32))) ∧
      (∀ x r c, s.aspace = .qm → s.mmv = .final → r < s.side → c < s.side →
        s.aidx.toNat = (r + 4) * (s.side + 8) + (c + 4) → cellAt s.mem.mm (r * s.side + c) = some x →
          exec .ld s = .next (respond { s with aidx := s.aidx + 1 } .ok (x.signExtend 32))) ∧
      (∀ r c, s.aspace = .qm → s.mmv = .final → r < s.side + 8 → c < s.side + 8 →
        r < 4 ∨ s.side + 4 ≤ r ∨ c < 4 ∨ s.side + 4 ≤ c → s.aidx.toNat = r * (s.side + 8) + c →
          exec .ld s = .next (respond { s with aidx := s.aidx + 1 } .ok 0)) ∧
      ((s.aspace = .txt ∧ s.txtn.toNat ≤ s.aidx.toNat) ∨ (s.aspace = .dcw ∧ s.dcwn.toNat ≤ s.aidx.toNat) ∨
        (s.aspace = .fcw ∧ s.fcwn.toNat ≤ s.aidx.toNat) ∨
        (s.aspace = .mm ∧ (s.mmv = .empty ∨ s.side * s.side ≤ s.aidx.toNat)) ∨
        (s.aspace = .qm ∧ (s.mmv ≠ .final ∨ (s.side + 8) * (s.side + 8) ≤ s.aidx.toNat)) →
          exec .ld s = .next (respond s .address (s.aidx.setWidth 32)))

/-- ST writes the selected element, keeping the low 8 bits in `DCW` and `FCW`, extends the buffer by at most one cell and
advances `AIDX`; every other element of every space reads as before, and no other register changes. A store that would
leave a hole, overrun the buffer or reach a read-only space is refused and changes nothing (R62, R363). -/
def Obligations.StStores : Prop :=
  ∀ (v : BitVec 16) (s : State),
    (s.aspace = .txt → s.aidx.toNat ≤ s.txtn.toNat → s.aidx.toNat < Config.platform.txtSize →
        ∃ t, exec (.st v) s = .next t ∧
          t = respond
            { s with
              aidx := s.aidx + 1, txtn := if s.aidx.toNat = s.txtn.toNat then s.txtn + 1 else s.txtn
              mem := { s.mem with txt := t.mem.txt } } .ok 0 ∧
          memRead t .txt s.aidx.toNat = .value (v.setWidth 32) ∧
          ∀ sp i, (sp, i) ≠ (Space.txt, s.aidx.toNat) → memRead t sp i = memRead s sp i) ∧
      (s.aspace = .dcw → s.aidx.toNat ≤ s.dcwn.toNat → s.aidx.toNat < 2956 →
        ∃ t, exec (.st v) s = .next t ∧
          t = respond
            { s with
              aidx := s.aidx + 1, dcwn := if s.aidx.toNat = s.dcwn.toNat then s.dcwn + 1 else s.dcwn
              mem := { s.mem with dcw := t.mem.dcw } } .ok 0 ∧
          memRead t .dcw s.aidx.toNat = .value ((v.setWidth 8).setWidth 32) ∧
          ∀ sp i, (sp, i) ≠ (Space.dcw, s.aidx.toNat) → memRead t sp i = memRead s sp i) ∧
      (s.aspace = .fcw → s.aidx.toNat ≤ s.fcwn.toNat → s.aidx.toNat < 3706 →
        ∃ t, exec (.st v) s = .next t ∧
          t = respond
            { s with
              aidx := s.aidx + 1, fcwn := if s.aidx.toNat = s.fcwn.toNat then s.fcwn + 1 else s.fcwn
              mem := { s.mem with fcw := t.mem.fcw } } .ok 0 ∧
          memRead t .fcw s.aidx.toNat = .value ((v.setWidth 8).setWidth 32) ∧
          ∀ sp i, (sp, i) ≠ (Space.fcw, s.aidx.toNat) → memRead t sp i = memRead s sp i) ∧
      ((s.aspace = .txt ∧ (s.txtn.toNat < s.aidx.toNat ∨ Config.platform.txtSize ≤ s.aidx.toNat)) ∨
        (s.aspace = .dcw ∧ (s.dcwn.toNat < s.aidx.toNat ∨ 2956 ≤ s.aidx.toNat)) ∨
        (s.aspace = .fcw ∧ (s.fcwn.toNat < s.aidx.toNat ∨ 3706 ≤ s.aidx.toNat)) ∨
        s.aspace = .mm ∨ s.aspace = .qm →
          exec (.st v) s = .next (respond s .address (s.aidx.setWidth 32)))

/-- RDR returns the value of every defined register, zero-extended, and writes nothing; it refuses the undefined
numbers; a symbol slot that was never created reads as zeros (R364, with the numbers of R21–R30). -/
def Obligations.RdrReads : Prop :=
  ∀ s : State,
    (∀ n v, (n, v) ∈
        ([(0x00, (phaseCode s.phase).setWidth 32), (0x01, (ecCode s.group.ecl).setWidth 32),
          (0x02, s.group.maxver.setWidth 32), (0x03, (BitVec.ofBool s.group.sa).setWidth 32),
          (0x04, s.group.charset.setWidth 32), (0x05, s.group.minver.setWidth 32),
          (0x06, s.group.parity.setWidth 32), (0x07, s.group.symcnt.setWidth 32), (0x08, s.tlen.setWidth 32),
          (0x09, s.tpos.setWidth 32), (0x0A, (spaceCode s.aspace).setWidth 32), (0x0B, s.aidx.setWidth 32),
          (0x0C, s.wver.setWidth 32), (0x0D, (ecCode s.wecl).setWidth 32), (0x0E, s.wsym.setWidth 32),
          (0x0F, s.maskref.setWidth 32), (0x18, s.txtn.setWidth 32), (0x19, s.dcwn.setWidth 32),
          (0x1A, s.fcwn.setWidth 32), (0x1B, (mmvCode s.mmv).setWidth 32)] : List (BitVec 8 × Word)) →
        exec (.rdr n) s = .next (respond s .ok v)) ∧
      (∀ m : Fin 8, exec (.rdr (BitVec.ofNat 8 (0x10 + m.val))) s = .next (respond s .ok s.pen[m])) ∧
      (∀ (m : Fin 8) (t : Fin 4),
        exec (.rdr (BitVec.ofNat 8 (0x20 + 4 * m.val + t.val))) s = .next (respond s .ok s.penc[m][t])) ∧
      (∀ (k : Fin 16) (f : Fin 8) (v : Word),
        [s.slots[k].ver.setWidth 32, s.slots[k].cap.setWidth 32, s.slots[k].cnt.setWidth 32,
          (modeCode s.slots[k].mode).setWidth 32, s.slots[k].segnNumeric.setWidth 32,
          s.slots[k].segnAlphanumeric.setWidth 32, s.slots[k].segnByte.setWidth 32,
          s.slots[k].segnKanji.setWidth 32][f.val]? = some v →
            exec (.rdr (BitVec.ofNat 8 (0x80 + 8 * k.val + f.val))) s = .next (respond s .ok v)) ∧
      (∀ n : BitVec 8, (0x1C ≤ n.toNat ∧ n.toNat ≤ 0x1F) ∨ (0x40 ≤ n.toNat ∧ n.toNat ≤ 0x7F) →
        exec (.rdr n) s = .next (respond s .argument (n.setWidth 32))) ∧
      ∀ (k : Fin 16) (f : Fin 8), GroupShape s → s.group.symcnt.toNat ≤ k.val →
        exec (.rdr (BitVec.ofNat 8 (0x80 + 8 * k.val + f.val))) s = .next (respond s .ok 0)

/-- SETA, LD, ST and RDR, in every phase, never touch the group registers, the symbol slots or the working-context
registers, but for the valid lengths, which only a store moves; none of them raises `ERR_SEQUENCE` (R360). -/
def Obligations.AccessOnly : Prop :=
  ∀ (i : Instr) (s t : State),
    (∃ space idx, i = .seta space idx) ∨ i = .ld ∨ (∃ v, i = .st v) ∨ (∃ n, i = .rdr n) → exec i s = .next t →
      t = { s with
          aspace := t.aspace, aidx := t.aidx, txtn := t.txtn, dcwn := t.dcwn, fcwn := t.fcwn
          mem := { t.mem with mm := s.mem.mm }, resps := t.resps } ∧
        ((∀ v, i ≠ .st v) → t.txtn = s.txtn ∧ t.dcwn = s.dcwn ∧ t.fcwn = s.fcwn ∧ t.mem = s.mem) ∧
        ∃ r, t.resps = s.resps ++ [r] ∧ r.res ≠ .sequence

/-! ## The whole machine -/

/-- Who writes what, over all commands: `PHASE` moves only by RESET, a successful CFG (0 → 1) and BITASM or RENDER
(→ 2); the configuration changes only at CFG and RESET; the symbols and the rest of the group only at RESET, CFG and
APPEND; the text only by ST and RESET (R21, R22, R30, R68, R425). -/
def Obligations.WhoWrites : Prop :=
  ∀ (i : Instr) (s t : State), exec i s = .next t →
    (t.phase = s.phase ∨ (i = .reset ∧ t.phase = .unconfigured) ∨
        ((∃ ecl maxver sa cs, i = .cfg ecl maxver sa cs) ∧ s.phase = .unconfigured ∧ t.phase = .building) ∨
        ((∃ k, i = .bitasm k ∨ i = .render k) ∧ s.phase ≠ .unconfigured ∧ t.phase = .rendered)) ∧
      (i = .reset ∨ (∃ ecl maxver sa cs, i = .cfg ecl maxver sa cs) ∨
        (t.group.ecl = s.group.ecl ∧ t.group.maxver = s.group.maxver ∧ t.group.sa = s.group.sa ∧
          t.group.charset = s.group.charset)) ∧
      (i = .reset ∨ (∃ ecl maxver sa cs, i = .cfg ecl maxver sa cs) ∨ i = .append ∨
        (t.group = s.group ∧ t.slots = s.slots ∧ t.tpos = s.tpos)) ∧
      (i = .reset ∨ (∃ v, i = .st v) ∨ (t.mem.txt = s.mem.txt ∧ t.txtn = s.txtn))

/-- A failed command other than APPEND changes no state at all: only the response is new (R410). -/
def Obligations.FailureChangesNothing : Prop :=
  ∀ (i : Instr) (s t : State) (res : ResCode) (val : Word), i ≠ .append → exec i s = .next t →
    t.resps = s.resps ++ [⟨res, val⟩] → res ≠ .ok → t = respond s res val

/-- The memory keeps its canonical form in every step, from any state that has it (the model's form of R60, R63). -/
def Obligations.StepKeepsMemoryForm : Prop :=
  ∀ s t : State, s.mem.wf = true → step s = .next t → t.mem.wf = true

/-- Every step keeps the valid-length registers truthful, the string in written cells, the matrix of the side its
version says, the totals the sums of their terms and the mask the first of least total (R27, R28, R63, R339). -/
def Obligations.StepKeepsBuffers : Prop :=
  ∀ s t : State, BuffersAgree Config.platform s → PenaltiesAgree s → step s = .next t →
    BuffersAgree Config.platform t ∧ PenaltiesAgree t

/-- Every step keeps the shape of the group: a group exists exactly outside UNCONFIGURED, at most 16 symbols, versions
in `1 … MAXVER`, `VER = MINVER` of the current symbol, the mode that of the last segment, uncreated slots at their reset
values (R22, R30, R213, R218). -/
def Obligations.StepKeepsGroup : Prop :=
  ∀ s t : State, GroupShape s → step s = .next t → GroupShape t

/-- Every step keeps the counters of every symbol: `CAP = Cap(VER)`, `CNT ≤ CAP`, `CNT` the sum over the segments, `SEGN`
the number of segments of each mode, and every segment's bits those of its count (R30, R170, R211–R216). -/
def Obligations.StepKeepsCounters : Prop :=
  ∀ s t : State, GroupShape s → CountersAgree s → step s = .next t → CountersAgree t

/-- No step leaves an empty segment (R217). -/
def Obligations.StepKeepsNonempty : Prop :=
  ∀ s t : State, NoEmptySegment s → step s = .next t → NoEmptySegment t

/-- From a state the rules describe, every command word the host presents is answered: no situation that the model
faults on is ever reached (R63, R217, R220, R380). -/
def Obligations.StepAnswers : Prop :=
  ∀ s : State, Safe s → s.cmds ≠ [] → ∃ t, step s = .next t

/-- The state after reset meets every invariant (R35, R440). -/
def Obligations.ResetMeetsInvariants : Prop :=
  State.reset.mem.wf = true ∧ BuffersAgree Config.platform State.reset ∧ PenaltiesAgree State.reset ∧
    GroupShape State.reset ∧ CountersAgree State.reset ∧ NoEmptySegment State.reset ∧ Safe State.reset

/-- R24 gives `TPOS` the values `0..TLEN`; SETLEN writes `TLEN` and not `TPOS` (R24, R133), so a shorter string leaves
the cursor past its end until the next APPEND. Expected to fail. -/
def Obligations.SetlenKeepsCursorInRange : Prop :=
  ∀ (n : BitVec 16) (s t : State), s.tpos.toNat ≤ s.tlen.toNat → exec (.setlen n) s = .next t →
    t.tpos.toNat ≤ t.tlen.toNat
end

