-- ==== Sys2Proof/Laws/State.lean ====
section
/-!
SUPPORT. One lemma per field per named update of the state, each true by unfolding the update once, so that later
proofs never unfold a record update.
-/

namespace Sys2Proof.Laws

open Sys2Proof.Machine

/-! ### `respond` -/

@[simp] theorem respond_phase (s : State) (res : ResCode) (val : Word) : (respond s res val).phase = s.phase := rfl
@[simp] theorem respond_group (s : State) (res : ResCode) (val : Word) : (respond s res val).group = s.group := rfl
@[simp] theorem respond_tlen (s : State) (res : ResCode) (val : Word) : (respond s res val).tlen = s.tlen := rfl
@[simp] theorem respond_tpos (s : State) (res : ResCode) (val : Word) : (respond s res val).tpos = s.tpos := rfl
@[simp] theorem respond_aspace (s : State) (res : ResCode) (val : Word) : (respond s res val).aspace = s.aspace := rfl
@[simp] theorem respond_aidx (s : State) (res : ResCode) (val : Word) : (respond s res val).aidx = s.aidx := rfl
@[simp] theorem respond_wver (s : State) (res : ResCode) (val : Word) : (respond s res val).wver = s.wver := rfl
@[simp] theorem respond_wecl (s : State) (res : ResCode) (val : Word) : (respond s res val).wecl = s.wecl := rfl
@[simp] theorem respond_wsym (s : State) (res : ResCode) (val : Word) : (respond s res val).wsym = s.wsym := rfl
@[simp] theorem respond_maskref (s : State) (res : ResCode) (val : Word) : (respond s res val).maskref = s.maskref := rfl
@[simp] theorem respond_pen (s : State) (res : ResCode) (val : Word) : (respond s res val).pen = s.pen := rfl
@[simp] theorem respond_penc (s : State) (res : ResCode) (val : Word) : (respond s res val).penc = s.penc := rfl
@[simp] theorem respond_txtn (s : State) (res : ResCode) (val : Word) : (respond s res val).txtn = s.txtn := rfl
@[simp] theorem respond_dcwn (s : State) (res : ResCode) (val : Word) : (respond s res val).dcwn = s.dcwn := rfl
@[simp] theorem respond_fcwn (s : State) (res : ResCode) (val : Word) : (respond s res val).fcwn = s.fcwn := rfl
@[simp] theorem respond_mmv (s : State) (res : ResCode) (val : Word) : (respond s res val).mmv = s.mmv := rfl
@[simp] theorem respond_slots (s : State) (res : ResCode) (val : Word) : (respond s res val).slots = s.slots := rfl
@[simp] theorem respond_mem (s : State) (res : ResCode) (val : Word) : (respond s res val).mem = s.mem := rfl
@[simp] theorem respond_cmds (s : State) (res : ResCode) (val : Word) : (respond s res val).cmds = s.cmds := rfl
@[simp] theorem respond_resps (s : State) (res : ResCode) (val : Word) : (respond s res val).resps = s.resps ++ [⟨res, val⟩] := rfl

/-! ### `presentCommand` -/

@[simp] theorem presentCommand_phase (s : State) (w : Word) : (presentCommand s w).phase = s.phase := rfl
@[simp] theorem presentCommand_group (s : State) (w : Word) : (presentCommand s w).group = s.group := rfl
@[simp] theorem presentCommand_tlen (s : State) (w : Word) : (presentCommand s w).tlen = s.tlen := rfl
@[simp] theorem presentCommand_tpos (s : State) (w : Word) : (presentCommand s w).tpos = s.tpos := rfl
@[simp] theorem presentCommand_aspace (s : State) (w : Word) : (presentCommand s w).aspace = s.aspace := rfl
@[simp] theorem presentCommand_aidx (s : State) (w : Word) : (presentCommand s w).aidx = s.aidx := rfl
@[simp] theorem presentCommand_wver (s : State) (w : Word) : (presentCommand s w).wver = s.wver := rfl
@[simp] theorem presentCommand_wecl (s : State) (w : Word) : (presentCommand s w).wecl = s.wecl := rfl
@[simp] theorem presentCommand_wsym (s : State) (w : Word) : (presentCommand s w).wsym = s.wsym := rfl
@[simp] theorem presentCommand_maskref (s : State) (w : Word) : (presentCommand s w).maskref = s.maskref := rfl
@[simp] theorem presentCommand_pen (s : State) (w : Word) : (presentCommand s w).pen = s.pen := rfl
@[simp] theorem presentCommand_penc (s : State) (w : Word) : (presentCommand s w).penc = s.penc := rfl
@[simp] theorem presentCommand_txtn (s : State) (w : Word) : (presentCommand s w).txtn = s.txtn := rfl
@[simp] theorem presentCommand_dcwn (s : State) (w : Word) : (presentCommand s w).dcwn = s.dcwn := rfl
@[simp] theorem presentCommand_fcwn (s : State) (w : Word) : (presentCommand s w).fcwn = s.fcwn := rfl
@[simp] theorem presentCommand_mmv (s : State) (w : Word) : (presentCommand s w).mmv = s.mmv := rfl
@[simp] theorem presentCommand_slots (s : State) (w : Word) : (presentCommand s w).slots = s.slots := rfl
@[simp] theorem presentCommand_mem (s : State) (w : Word) : (presentCommand s w).mem = s.mem := rfl
@[simp] theorem presentCommand_cmds (s : State) (w : Word) : (presentCommand s w).cmds = w :: s.cmds := rfl
@[simp] theorem presentCommand_resps (s : State) (w : Word) : (presentCommand s w).resps = s.resps := rfl

/-! ### `openContext` -/

@[simp] theorem openContext_phase (s : State) (ver : BitVec 6) (ecl : EcLevel) (n : Nat) (ws : List Byte) : (openContext s ver ecl n ws).phase = s.phase := rfl
@[simp] theorem openContext_group (s : State) (ver : BitVec 6) (ecl : EcLevel) (n : Nat) (ws : List Byte) : (openContext s ver ecl n ws).group = s.group := rfl
@[simp] theorem openContext_tlen (s : State) (ver : BitVec 6) (ecl : EcLevel) (n : Nat) (ws : List Byte) : (openContext s ver ecl n ws).tlen = s.tlen := rfl
@[simp] theorem openContext_tpos (s : State) (ver : BitVec 6) (ecl : EcLevel) (n : Nat) (ws : List Byte) : (openContext s ver ecl n ws).tpos = s.tpos := rfl
@[simp] theorem openContext_aspace (s : State) (ver : BitVec 6) (ecl : EcLevel) (n : Nat) (ws : List Byte) : (openContext s ver ecl n ws).aspace = s.aspace := rfl
@[simp] theorem openContext_aidx (s : State) (ver : BitVec 6) (ecl : EcLevel) (n : Nat) (ws : List Byte) : (openContext s ver ecl n ws).aidx = s.aidx := rfl
@[simp] theorem openContext_wver (s : State) (ver : BitVec 6) (ecl : EcLevel) (n : Nat) (ws : List Byte) : (openContext s ver ecl n ws).wver = ver := rfl
@[simp] theorem openContext_wecl (s : State) (ver : BitVec 6) (ecl : EcLevel) (n : Nat) (ws : List Byte) : (openContext s ver ecl n ws).wecl = ecl := rfl
@[simp] theorem openContext_wsym (s : State) (ver : BitVec 6) (ecl : EcLevel) (n : Nat) (ws : List Byte) : (openContext s ver ecl n ws).wsym = s.wsym := rfl
@[simp] theorem openContext_maskref (s : State) (ver : BitVec 6) (ecl : EcLevel) (n : Nat) (ws : List Byte) : (openContext s ver ecl n ws).maskref = s.maskref := rfl
@[simp] theorem openContext_pen (s : State) (ver : BitVec 6) (ecl : EcLevel) (n : Nat) (ws : List Byte) : (openContext s ver ecl n ws).pen = s.pen := rfl
@[simp] theorem openContext_penc (s : State) (ver : BitVec 6) (ecl : EcLevel) (n : Nat) (ws : List Byte) : (openContext s ver ecl n ws).penc = s.penc := rfl
@[simp] theorem openContext_txtn (s : State) (ver : BitVec 6) (ecl : EcLevel) (n : Nat) (ws : List Byte) : (openContext s ver ecl n ws).txtn = s.txtn := rfl
@[simp] theorem openContext_dcwn (s : State) (ver : BitVec 6) (ecl : EcLevel) (n : Nat) (ws : List Byte) : (openContext s ver ecl n ws).dcwn = BitVec.ofNat 12 n := rfl
@[simp] theorem openContext_fcwn (s : State) (ver : BitVec 6) (ecl : EcLevel) (n : Nat) (ws : List Byte) : (openContext s ver ecl n ws).fcwn = 0 := rfl
@[simp] theorem openContext_mmv (s : State) (ver : BitVec 6) (ecl : EcLevel) (n : Nat) (ws : List Byte) : (openContext s ver ecl n ws).mmv = .empty := rfl
@[simp] theorem openContext_slots (s : State) (ver : BitVec 6) (ecl : EcLevel) (n : Nat) (ws : List Byte) : (openContext s ver ecl n ws).slots = s.slots := rfl
@[simp] theorem openContext_txt (s : State) (ver : BitVec 6) (ecl : EcLevel) (n : Nat) (ws : List Byte) : (openContext s ver ecl n ws).mem.txt = s.mem.txt := rfl
@[simp] theorem openContext_dcw (s : State) (ver : BitVec 6) (ecl : EcLevel) (n : Nat) (ws : List Byte) : (openContext s ver ecl n ws).mem.dcw = cellsFrom 0 ws := rfl
@[simp] theorem openContext_fcw (s : State) (ver : BitVec 6) (ecl : EcLevel) (n : Nat) (ws : List Byte) : (openContext s ver ecl n ws).mem.fcw = [] := rfl
@[simp] theorem openContext_mm (s : State) (ver : BitVec 6) (ecl : EcLevel) (n : Nat) (ws : List Byte) : (openContext s ver ecl n ws).mem.mm = [] := rfl
@[simp] theorem openContext_cmds (s : State) (ver : BitVec 6) (ecl : EcLevel) (n : Nat) (ws : List Byte) : (openContext s ver ecl n ws).cmds = s.cmds := rfl
@[simp] theorem openContext_resps (s : State) (ver : BitVec 6) (ecl : EcLevel) (n : Nat) (ws : List Byte) : (openContext s ver ecl n ws).resps = s.resps := rfl

/-! ### `storeStream` -/

@[simp] theorem storeStream_phase (s : State) (n : Nat) (ws : List Byte) : (storeStream s n ws).phase = s.phase := rfl
@[simp] theorem storeStream_group (s : State) (n : Nat) (ws : List Byte) : (storeStream s n ws).group = s.group := rfl
@[simp] theorem storeStream_tlen (s : State) (n : Nat) (ws : List Byte) : (storeStream s n ws).tlen = s.tlen := rfl
@[simp] theorem storeStream_tpos (s : State) (n : Nat) (ws : List Byte) : (storeStream s n ws).tpos = s.tpos := rfl
@[simp] theorem storeStream_aspace (s : State) (n : Nat) (ws : List Byte) : (storeStream s n ws).aspace = s.aspace := rfl
@[simp] theorem storeStream_aidx (s : State) (n : Nat) (ws : List Byte) : (storeStream s n ws).aidx = s.aidx := rfl
@[simp] theorem storeStream_wver (s : State) (n : Nat) (ws : List Byte) : (storeStream s n ws).wver = s.wver := rfl
@[simp] theorem storeStream_wecl (s : State) (n : Nat) (ws : List Byte) : (storeStream s n ws).wecl = s.wecl := rfl
@[simp] theorem storeStream_wsym (s : State) (n : Nat) (ws : List Byte) : (storeStream s n ws).wsym = s.wsym := rfl
@[simp] theorem storeStream_maskref (s : State) (n : Nat) (ws : List Byte) : (storeStream s n ws).maskref = s.maskref := rfl
@[simp] theorem storeStream_pen (s : State) (n : Nat) (ws : List Byte) : (storeStream s n ws).pen = s.pen := rfl
@[simp] theorem storeStream_penc (s : State) (n : Nat) (ws : List Byte) : (storeStream s n ws).penc = s.penc := rfl
@[simp] theorem storeStream_txtn (s : State) (n : Nat) (ws : List Byte) : (storeStream s n ws).txtn = s.txtn := rfl
@[simp] theorem storeStream_dcwn (s : State) (n : Nat) (ws : List Byte) : (storeStream s n ws).dcwn = s.dcwn := rfl
@[simp] theorem storeStream_fcwn (s : State) (n : Nat) (ws : List Byte) : (storeStream s n ws).fcwn = BitVec.ofNat 12 n := rfl
@[simp] theorem storeStream_mmv (s : State) (n : Nat) (ws : List Byte) : (storeStream s n ws).mmv = s.mmv := rfl
@[simp] theorem storeStream_slots (s : State) (n : Nat) (ws : List Byte) : (storeStream s n ws).slots = s.slots := rfl
@[simp] theorem storeStream_txt (s : State) (n : Nat) (ws : List Byte) : (storeStream s n ws).mem.txt = s.mem.txt := rfl
@[simp] theorem storeStream_dcw (s : State) (n : Nat) (ws : List Byte) : (storeStream s n ws).mem.dcw = s.mem.dcw := rfl
@[simp] theorem storeStream_fcw (s : State) (n : Nat) (ws : List Byte) : (storeStream s n ws).mem.fcw = cellsFrom 0 ws := rfl
@[simp] theorem storeStream_mm (s : State) (n : Nat) (ws : List Byte) : (storeStream s n ws).mem.mm = s.mem.mm := rfl
@[simp] theorem storeStream_cmds (s : State) (n : Nat) (ws : List Byte) : (storeStream s n ws).cmds = s.cmds := rfl
@[simp] theorem storeStream_resps (s : State) (n : Nat) (ws : List Byte) : (storeStream s n ws).resps = s.resps := rfl

/-! ### `storeMatrix` -/

@[simp] theorem storeMatrix_phase (s : State) (kind : MatrixKind) (cells : List Module) : (storeMatrix s kind cells).phase = s.phase := rfl
@[simp] theorem storeMatrix_group (s : State) (kind : MatrixKind) (cells : List Module) : (storeMatrix s kind cells).group = s.group := rfl
@[simp] theorem storeMatrix_tlen (s : State) (kind : MatrixKind) (cells : List Module) : (storeMatrix s kind cells).tlen = s.tlen := rfl
@[simp] theorem storeMatrix_tpos (s : State) (kind : MatrixKind) (cells : List Module) : (storeMatrix s kind cells).tpos = s.tpos := rfl
@[simp] theorem storeMatrix_aspace (s : State) (kind : MatrixKind) (cells : List Module) : (storeMatrix s kind cells).aspace = s.aspace := rfl
@[simp] theorem storeMatrix_aidx (s : State) (kind : MatrixKind) (cells : List Module) : (storeMatrix s kind cells).aidx = s.aidx := rfl
@[simp] theorem storeMatrix_wver (s : State) (kind : MatrixKind) (cells : List Module) : (storeMatrix s kind cells).wver = s.wver := rfl
@[simp] theorem storeMatrix_wecl (s : State) (kind : MatrixKind) (cells : List Module) : (storeMatrix s kind cells).wecl = s.wecl := rfl
@[simp] theorem storeMatrix_wsym (s : State) (kind : MatrixKind) (cells : List Module) : (storeMatrix s kind cells).wsym = s.wsym := rfl
@[simp] theorem storeMatrix_maskref (s : State) (kind : MatrixKind) (cells : List Module) : (storeMatrix s kind cells).maskref = s.maskref := rfl
@[simp] theorem storeMatrix_pen (s : State) (kind : MatrixKind) (cells : List Module) : (storeMatrix s kind cells).pen = s.pen := rfl
@[simp] theorem storeMatrix_penc (s : State) (kind : MatrixKind) (cells : List Module) : (storeMatrix s kind cells).penc = s.penc := rfl
@[simp] theorem storeMatrix_txtn (s : State) (kind : MatrixKind) (cells : List Module) : (storeMatrix s kind cells).txtn = s.txtn := rfl
@[simp] theorem storeMatrix_dcwn (s : State) (kind : MatrixKind) (cells : List Module) : (storeMatrix s kind cells).dcwn = s.dcwn := rfl
@[simp] theorem storeMatrix_fcwn (s : State) (kind : MatrixKind) (cells : List Module) : (storeMatrix s kind cells).fcwn = s.fcwn := rfl
@[simp] theorem storeMatrix_mmv (s : State) (kind : MatrixKind) (cells : List Module) : (storeMatrix s kind cells).mmv = kind := rfl
@[simp] theorem storeMatrix_slots (s : State) (kind : MatrixKind) (cells : List Module) : (storeMatrix s kind cells).slots = s.slots := rfl
@[simp] theorem storeMatrix_txt (s : State) (kind : MatrixKind) (cells : List Module) : (storeMatrix s kind cells).mem.txt = s.mem.txt := rfl
@[simp] theorem storeMatrix_dcw (s : State) (kind : MatrixKind) (cells : List Module) : (storeMatrix s kind cells).mem.dcw = s.mem.dcw := rfl
@[simp] theorem storeMatrix_fcw (s : State) (kind : MatrixKind) (cells : List Module) : (storeMatrix s kind cells).mem.fcw = s.mem.fcw := rfl
@[simp] theorem storeMatrix_mm (s : State) (kind : MatrixKind) (cells : List Module) : (storeMatrix s kind cells).mem.mm = cellsFrom 0 cells := rfl
@[simp] theorem storeMatrix_cmds (s : State) (kind : MatrixKind) (cells : List Module) : (storeMatrix s kind cells).cmds = s.cmds := rfl
@[simp] theorem storeMatrix_resps (s : State) (kind : MatrixKind) (cells : List Module) : (storeMatrix s kind cells).resps = s.resps := rfl

/-! ### `setSlot` -/

@[simp] theorem setSlot_phase (s : State) (k : BitVec 4) (x : Slot) : (s.setSlot k x).phase = s.phase := rfl
@[simp] theorem setSlot_group (s : State) (k : BitVec 4) (x : Slot) : (s.setSlot k x).group = s.group := rfl
@[simp] theorem setSlot_tlen (s : State) (k : BitVec 4) (x : Slot) : (s.setSlot k x).tlen = s.tlen := rfl
@[simp] theorem setSlot_tpos (s : State) (k : BitVec 4) (x : Slot) : (s.setSlot k x).tpos = s.tpos := rfl
@[simp] theorem setSlot_aspace (s : State) (k : BitVec 4) (x : Slot) : (s.setSlot k x).aspace = s.aspace := rfl
@[simp] theorem setSlot_aidx (s : State) (k : BitVec 4) (x : Slot) : (s.setSlot k x).aidx = s.aidx := rfl
@[simp] theorem setSlot_wver (s : State) (k : BitVec 4) (x : Slot) : (s.setSlot k x).wver = s.wver := rfl
@[simp] theorem setSlot_wecl (s : State) (k : BitVec 4) (x : Slot) : (s.setSlot k x).wecl = s.wecl := rfl
@[simp] theorem setSlot_wsym (s : State) (k : BitVec 4) (x : Slot) : (s.setSlot k x).wsym = s.wsym := rfl
@[simp] theorem setSlot_maskref (s : State) (k : BitVec 4) (x : Slot) : (s.setSlot k x).maskref = s.maskref := rfl
@[simp] theorem setSlot_pen (s : State) (k : BitVec 4) (x : Slot) : (s.setSlot k x).pen = s.pen := rfl
@[simp] theorem setSlot_penc (s : State) (k : BitVec 4) (x : Slot) : (s.setSlot k x).penc = s.penc := rfl
@[simp] theorem setSlot_txtn (s : State) (k : BitVec 4) (x : Slot) : (s.setSlot k x).txtn = s.txtn := rfl
@[simp] theorem setSlot_dcwn (s : State) (k : BitVec 4) (x : Slot) : (s.setSlot k x).dcwn = s.dcwn := rfl
@[simp] theorem setSlot_fcwn (s : State) (k : BitVec 4) (x : Slot) : (s.setSlot k x).fcwn = s.fcwn := rfl
@[simp] theorem setSlot_mmv (s : State) (k : BitVec 4) (x : Slot) : (s.setSlot k x).mmv = s.mmv := rfl
@[simp] theorem setSlot_slots (s : State) (k : BitVec 4) (x : Slot) : (s.setSlot k x).slots = s.slots.set k.toNat x := rfl
@[simp] theorem setSlot_mem (s : State) (k : BitVec 4) (x : Slot) : (s.setSlot k x).mem = s.mem := rfl
@[simp] theorem setSlot_cmds (s : State) (k : BitVec 4) (x : Slot) : (s.setSlot k x).cmds = s.cmds := rfl
@[simp] theorem setSlot_resps (s : State) (k : BitVec 4) (x : Slot) : (s.setSlot k x).resps = s.resps := rfl

/-! ### `setCur` -/

@[simp] theorem setCur_phase (s : State) (x : Slot) : (s.setCur x).phase = s.phase := rfl
@[simp] theorem setCur_group (s : State) (x : Slot) : (s.setCur x).group = s.group := rfl
@[simp] theorem setCur_tlen (s : State) (x : Slot) : (s.setCur x).tlen = s.tlen := rfl
@[simp] theorem setCur_tpos (s : State) (x : Slot) : (s.setCur x).tpos = s.tpos := rfl
@[simp] theorem setCur_aspace (s : State) (x : Slot) : (s.setCur x).aspace = s.aspace := rfl
@[simp] theorem setCur_aidx (s : State) (x : Slot) : (s.setCur x).aidx = s.aidx := rfl
@[simp] theorem setCur_wver (s : State) (x : Slot) : (s.setCur x).wver = s.wver := rfl
@[simp] theorem setCur_wecl (s : State) (x : Slot) : (s.setCur x).wecl = s.wecl := rfl
@[simp] theorem setCur_wsym (s : State) (x : Slot) : (s.setCur x).wsym = s.wsym := rfl
@[simp] theorem setCur_maskref (s : State) (x : Slot) : (s.setCur x).maskref = s.maskref := rfl
@[simp] theorem setCur_pen (s : State) (x : Slot) : (s.setCur x).pen = s.pen := rfl
@[simp] theorem setCur_penc (s : State) (x : Slot) : (s.setCur x).penc = s.penc := rfl
@[simp] theorem setCur_txtn (s : State) (x : Slot) : (s.setCur x).txtn = s.txtn := rfl
@[simp] theorem setCur_dcwn (s : State) (x : Slot) : (s.setCur x).dcwn = s.dcwn := rfl
@[simp] theorem setCur_fcwn (s : State) (x : Slot) : (s.setCur x).fcwn = s.fcwn := rfl
@[simp] theorem setCur_mmv (s : State) (x : Slot) : (s.setCur x).mmv = s.mmv := rfl
@[simp] theorem setCur_slots (s : State) (x : Slot) : (s.setCur x).slots = s.slots.set s.curIdx.toNat x := rfl
@[simp] theorem setCur_mem (s : State) (x : Slot) : (s.setCur x).mem = s.mem := rfl
@[simp] theorem setCur_cmds (s : State) (x : Slot) : (s.setCur x).cmds = s.cmds := rfl
@[simp] theorem setCur_resps (s : State) (x : Slot) : (s.setCur x).resps = s.resps := rfl

/-! ### `advanceAidx` -/

@[simp] theorem advanceAidx_phase (s : State) : (advanceAidx s).phase = s.phase := rfl
@[simp] theorem advanceAidx_group (s : State) : (advanceAidx s).group = s.group := rfl
@[simp] theorem advanceAidx_tlen (s : State) : (advanceAidx s).tlen = s.tlen := rfl
@[simp] theorem advanceAidx_tpos (s : State) : (advanceAidx s).tpos = s.tpos := rfl
@[simp] theorem advanceAidx_aspace (s : State) : (advanceAidx s).aspace = s.aspace := rfl
@[simp] theorem advanceAidx_aidx (s : State) : (advanceAidx s).aidx = s.aidx + 1 := rfl
@[simp] theorem advanceAidx_wver (s : State) : (advanceAidx s).wver = s.wver := rfl
@[simp] theorem advanceAidx_wecl (s : State) : (advanceAidx s).wecl = s.wecl := rfl
@[simp] theorem advanceAidx_wsym (s : State) : (advanceAidx s).wsym = s.wsym := rfl
@[simp] theorem advanceAidx_maskref (s : State) : (advanceAidx s).maskref = s.maskref := rfl
@[simp] theorem advanceAidx_pen (s : State) : (advanceAidx s).pen = s.pen := rfl
@[simp] theorem advanceAidx_penc (s : State) : (advanceAidx s).penc = s.penc := rfl
@[simp] theorem advanceAidx_txtn (s : State) : (advanceAidx s).txtn = s.txtn := rfl
@[simp] theorem advanceAidx_dcwn (s : State) : (advanceAidx s).dcwn = s.dcwn := rfl
@[simp] theorem advanceAidx_fcwn (s : State) : (advanceAidx s).fcwn = s.fcwn := rfl
@[simp] theorem advanceAidx_mmv (s : State) : (advanceAidx s).mmv = s.mmv := rfl
@[simp] theorem advanceAidx_slots (s : State) : (advanceAidx s).slots = s.slots := rfl
@[simp] theorem advanceAidx_mem (s : State) : (advanceAidx s).mem = s.mem := rfl
@[simp] theorem advanceAidx_cmds (s : State) : (advanceAidx s).cmds = s.cmds := rfl
@[simp] theorem advanceAidx_resps (s : State) : (advanceAidx s).resps = s.resps := rfl

/-! ### `commitGrowth` -/

@[simp] theorem commitGrowth_phase (s : State) (g : Growth) : (commitGrowth s g).phase = s.phase := rfl
@[simp] theorem commitGrowth_ecl (s : State) (g : Growth) : (commitGrowth s g).group.ecl = s.group.ecl := rfl
@[simp] theorem commitGrowth_maxver (s : State) (g : Growth) : (commitGrowth s g).group.maxver = s.group.maxver := rfl
@[simp] theorem commitGrowth_sa (s : State) (g : Growth) : (commitGrowth s g).group.sa = s.group.sa := rfl
@[simp] theorem commitGrowth_charset (s : State) (g : Growth) : (commitGrowth s g).group.charset = s.group.charset := rfl
@[simp] theorem commitGrowth_minver (s : State) (g : Growth) : (commitGrowth s g).group.minver = BitVec.ofNat 6 g.minver := rfl
@[simp] theorem commitGrowth_parity (s : State) (g : Growth) : (commitGrowth s g).group.parity = s.group.parity := rfl
@[simp] theorem commitGrowth_symcnt (s : State) (g : Growth) : (commitGrowth s g).group.symcnt = s.group.symcnt := rfl
@[simp] theorem commitGrowth_tlen (s : State) (g : Growth) : (commitGrowth s g).tlen = s.tlen := rfl
@[simp] theorem commitGrowth_tpos (s : State) (g : Growth) : (commitGrowth s g).tpos = s.tpos := rfl
@[simp] theorem commitGrowth_aspace (s : State) (g : Growth) : (commitGrowth s g).aspace = s.aspace := rfl
@[simp] theorem commitGrowth_aidx (s : State) (g : Growth) : (commitGrowth s g).aidx = s.aidx := rfl
@[simp] theorem commitGrowth_wver (s : State) (g : Growth) : (commitGrowth s g).wver = s.wver := rfl
@[simp] theorem commitGrowth_wecl (s : State) (g : Growth) : (commitGrowth s g).wecl = s.wecl := rfl
@[simp] theorem commitGrowth_wsym (s : State) (g : Growth) : (commitGrowth s g).wsym = s.wsym := rfl
@[simp] theorem commitGrowth_maskref (s : State) (g : Growth) : (commitGrowth s g).maskref = s.maskref := rfl
@[simp] theorem commitGrowth_pen (s : State) (g : Growth) : (commitGrowth s g).pen = s.pen := rfl
@[simp] theorem commitGrowth_penc (s : State) (g : Growth) : (commitGrowth s g).penc = s.penc := rfl
@[simp] theorem commitGrowth_txtn (s : State) (g : Growth) : (commitGrowth s g).txtn = s.txtn := rfl
@[simp] theorem commitGrowth_dcwn (s : State) (g : Growth) : (commitGrowth s g).dcwn = s.dcwn := rfl
@[simp] theorem commitGrowth_fcwn (s : State) (g : Growth) : (commitGrowth s g).fcwn = s.fcwn := rfl
@[simp] theorem commitGrowth_mmv (s : State) (g : Growth) : (commitGrowth s g).mmv = s.mmv := rfl
@[simp] theorem commitGrowth_mem (s : State) (g : Growth) : (commitGrowth s g).mem = s.mem := rfl
@[simp] theorem commitGrowth_cmds (s : State) (g : Growth) : (commitGrowth s g).cmds = s.cmds := rfl
@[simp] theorem commitGrowth_resps (s : State) (g : Growth) : (commitGrowth s g).resps = s.resps := rfl

/-! ### `openSegment` -/

@[simp] theorem openSegment_phase (mode : EncMode) (s : State) : (openSegment mode s).phase = s.phase := rfl
@[simp] theorem openSegment_group (mode : EncMode) (s : State) : (openSegment mode s).group = s.group := rfl
@[simp] theorem openSegment_tlen (mode : EncMode) (s : State) : (openSegment mode s).tlen = s.tlen := rfl
@[simp] theorem openSegment_tpos (mode : EncMode) (s : State) : (openSegment mode s).tpos = s.tpos := rfl
@[simp] theorem openSegment_aspace (mode : EncMode) (s : State) : (openSegment mode s).aspace = s.aspace := rfl
@[simp] theorem openSegment_aidx (mode : EncMode) (s : State) : (openSegment mode s).aidx = s.aidx := rfl
@[simp] theorem openSegment_wver (mode : EncMode) (s : State) : (openSegment mode s).wver = s.wver := rfl
@[simp] theorem openSegment_wecl (mode : EncMode) (s : State) : (openSegment mode s).wecl = s.wecl := rfl
@[simp] theorem openSegment_wsym (mode : EncMode) (s : State) : (openSegment mode s).wsym = s.wsym := rfl
@[simp] theorem openSegment_maskref (mode : EncMode) (s : State) : (openSegment mode s).maskref = s.maskref := rfl
@[simp] theorem openSegment_pen (mode : EncMode) (s : State) : (openSegment mode s).pen = s.pen := rfl
@[simp] theorem openSegment_penc (mode : EncMode) (s : State) : (openSegment mode s).penc = s.penc := rfl
@[simp] theorem openSegment_txtn (mode : EncMode) (s : State) : (openSegment mode s).txtn = s.txtn := rfl
@[simp] theorem openSegment_dcwn (mode : EncMode) (s : State) : (openSegment mode s).dcwn = s.dcwn := rfl
@[simp] theorem openSegment_fcwn (mode : EncMode) (s : State) : (openSegment mode s).fcwn = s.fcwn := rfl
@[simp] theorem openSegment_mmv (mode : EncMode) (s : State) : (openSegment mode s).mmv = s.mmv := rfl
@[simp] theorem openSegment_mem (mode : EncMode) (s : State) : (openSegment mode s).mem = s.mem := rfl
@[simp] theorem openSegment_cmds (mode : EncMode) (s : State) : (openSegment mode s).cmds = s.cmds := rfl
@[simp] theorem openSegment_resps (mode : EncMode) (s : State) : (openSegment mode s).resps = s.resps := rfl

/-! ### `commitChar` -/

@[simp] theorem commitChar_phase (p : Platform) (seg : Segment) (ch : CharCode) (b : Nat) (s : State) : (commitChar p seg ch b s).phase = s.phase := rfl
@[simp] theorem commitChar_ecl (p : Platform) (seg : Segment) (ch : CharCode) (b : Nat) (s : State) : (commitChar p seg ch b s).group.ecl = s.group.ecl := rfl
@[simp] theorem commitChar_maxver (p : Platform) (seg : Segment) (ch : CharCode) (b : Nat) (s : State) : (commitChar p seg ch b s).group.maxver = s.group.maxver := rfl
@[simp] theorem commitChar_sa (p : Platform) (seg : Segment) (ch : CharCode) (b : Nat) (s : State) : (commitChar p seg ch b s).group.sa = s.group.sa := rfl
@[simp] theorem commitChar_charset (p : Platform) (seg : Segment) (ch : CharCode) (b : Nat) (s : State) : (commitChar p seg ch b s).group.charset = s.group.charset := rfl
@[simp] theorem commitChar_minver (p : Platform) (seg : Segment) (ch : CharCode) (b : Nat) (s : State) : (commitChar p seg ch b s).group.minver = s.group.minver := rfl
@[simp] theorem commitChar_parity (p : Platform) (seg : Segment) (ch : CharCode) (b : Nat) (s : State) : (commitChar p seg ch b s).group.parity = (charBytes p s.group.charset ch).foldl (· ^^^ ·) s.group.parity := rfl
@[simp] theorem commitChar_symcnt (p : Platform) (seg : Segment) (ch : CharCode) (b : Nat) (s : State) : (commitChar p seg ch b s).group.symcnt = s.group.symcnt := rfl
@[simp] theorem commitChar_tlen (p : Platform) (seg : Segment) (ch : CharCode) (b : Nat) (s : State) : (commitChar p seg ch b s).tlen = s.tlen := rfl
@[simp] theorem commitChar_tpos (p : Platform) (seg : Segment) (ch : CharCode) (b : Nat) (s : State) : (commitChar p seg ch b s).tpos = s.tpos := rfl
@[simp] theorem commitChar_aspace (p : Platform) (seg : Segment) (ch : CharCode) (b : Nat) (s : State) : (commitChar p seg ch b s).aspace = s.aspace := rfl
@[simp] theorem commitChar_aidx (p : Platform) (seg : Segment) (ch : CharCode) (b : Nat) (s : State) : (commitChar p seg ch b s).aidx = s.aidx := rfl
@[simp] theorem commitChar_wver (p : Platform) (seg : Segment) (ch : CharCode) (b : Nat) (s : State) : (commitChar p seg ch b s).wver = s.wver := rfl
@[simp] theorem commitChar_wecl (p : Platform) (seg : Segment) (ch : CharCode) (b : Nat) (s : State) : (commitChar p seg ch b s).wecl = s.wecl := rfl
@[simp] theorem commitChar_wsym (p : Platform) (seg : Segment) (ch : CharCode) (b : Nat) (s : State) : (commitChar p seg ch b s).wsym = s.wsym := rfl
@[simp] theorem commitChar_maskref (p : Platform) (seg : Segment) (ch : CharCode) (b : Nat) (s : State) : (commitChar p seg ch b s).maskref = s.maskref := rfl
@[simp] theorem commitChar_pen (p : Platform) (seg : Segment) (ch : CharCode) (b : Nat) (s : State) : (commitChar p seg ch b s).pen = s.pen := rfl
@[simp] theorem commitChar_penc (p : Platform) (seg : Segment) (ch : CharCode) (b : Nat) (s : State) : (commitChar p seg ch b s).penc = s.penc := rfl
@[simp] theorem commitChar_txtn (p : Platform) (seg : Segment) (ch : CharCode) (b : Nat) (s : State) : (commitChar p seg ch b s).txtn = s.txtn := rfl
@[simp] theorem commitChar_dcwn (p : Platform) (seg : Segment) (ch : CharCode) (b : Nat) (s : State) : (commitChar p seg ch b s).dcwn = s.dcwn := rfl
@[simp] theorem commitChar_fcwn (p : Platform) (seg : Segment) (ch : CharCode) (b : Nat) (s : State) : (commitChar p seg ch b s).fcwn = s.fcwn := rfl
@[simp] theorem commitChar_mmv (p : Platform) (seg : Segment) (ch : CharCode) (b : Nat) (s : State) : (commitChar p seg ch b s).mmv = s.mmv := rfl
@[simp] theorem commitChar_mem (p : Platform) (seg : Segment) (ch : CharCode) (b : Nat) (s : State) : (commitChar p seg ch b s).mem = s.mem := rfl
@[simp] theorem commitChar_cmds (p : Platform) (seg : Segment) (ch : CharCode) (b : Nat) (s : State) : (commitChar p seg ch b s).cmds = s.cmds := rfl
@[simp] theorem commitChar_resps (p : Platform) (seg : Segment) (ch : CharCode) (b : Nat) (s : State) : (commitChar p seg ch b s).resps = s.resps := rfl

/-! ### `newSymbol` -/

@[simp] theorem newSymbol_phase (s : State) : (newSymbol s).phase = s.phase := rfl
@[simp] theorem newSymbol_ecl (s : State) : (newSymbol s).group.ecl = s.group.ecl := rfl
@[simp] theorem newSymbol_maxver (s : State) : (newSymbol s).group.maxver = s.group.maxver := rfl
@[simp] theorem newSymbol_sa (s : State) : (newSymbol s).group.sa = s.group.sa := rfl
@[simp] theorem newSymbol_charset (s : State) : (newSymbol s).group.charset = s.group.charset := rfl
@[simp] theorem newSymbol_minver (s : State) : (newSymbol s).group.minver = s.group.minver := rfl
@[simp] theorem newSymbol_parity (s : State) : (newSymbol s).group.parity = s.group.parity := rfl
@[simp] theorem newSymbol_symcnt (s : State) : (newSymbol s).group.symcnt = s.group.symcnt + 1 := rfl
@[simp] theorem newSymbol_tlen (s : State) : (newSymbol s).tlen = s.tlen := rfl
@[simp] theorem newSymbol_tpos (s : State) : (newSymbol s).tpos = s.tpos := rfl
@[simp] theorem newSymbol_aspace (s : State) : (newSymbol s).aspace = s.aspace := rfl
@[simp] theorem newSymbol_aidx (s : State) : (newSymbol s).aidx = s.aidx := rfl
@[simp] theorem newSymbol_wver (s : State) : (newSymbol s).wver = s.wver := rfl
@[simp] theorem newSymbol_wecl (s : State) : (newSymbol s).wecl = s.wecl := rfl
@[simp] theorem newSymbol_wsym (s : State) : (newSymbol s).wsym = s.wsym := rfl
@[simp] theorem newSymbol_maskref (s : State) : (newSymbol s).maskref = s.maskref := rfl
@[simp] theorem newSymbol_pen (s : State) : (newSymbol s).pen = s.pen := rfl
@[simp] theorem newSymbol_penc (s : State) : (newSymbol s).penc = s.penc := rfl
@[simp] theorem newSymbol_txtn (s : State) : (newSymbol s).txtn = s.txtn := rfl
@[simp] theorem newSymbol_dcwn (s : State) : (newSymbol s).dcwn = s.dcwn := rfl
@[simp] theorem newSymbol_fcwn (s : State) : (newSymbol s).fcwn = s.fcwn := rfl
@[simp] theorem newSymbol_mmv (s : State) : (newSymbol s).mmv = s.mmv := rfl
@[simp] theorem newSymbol_mem (s : State) : (newSymbol s).mem = s.mem := rfl
@[simp] theorem newSymbol_cmds (s : State) : (newSymbol s).cmds = s.cmds := rfl
@[simp] theorem newSymbol_resps (s : State) : (newSymbol s).resps = s.resps := rfl

/-! ### `openGroup` -/

@[simp] theorem openGroup_phase (ecl : EcLevel) (maxver : BitVec 6) (sa : Bool) (cs : BitVec 8) (s : State) : (openGroup ecl maxver sa cs s).phase = s.phase := rfl
@[simp] theorem openGroup_group (ecl : EcLevel) (maxver : BitVec 6) (sa : Bool) (cs : BitVec 8) (s : State) : (openGroup ecl maxver sa cs s).group = ⟨ecl, maxver, sa, cs, 1, 0, 0⟩ := rfl
@[simp] theorem openGroup_tlen (ecl : EcLevel) (maxver : BitVec 6) (sa : Bool) (cs : BitVec 8) (s : State) : (openGroup ecl maxver sa cs s).tlen = s.tlen := rfl
@[simp] theorem openGroup_tpos (ecl : EcLevel) (maxver : BitVec 6) (sa : Bool) (cs : BitVec 8) (s : State) : (openGroup ecl maxver sa cs s).tpos = s.tpos := rfl
@[simp] theorem openGroup_aspace (ecl : EcLevel) (maxver : BitVec 6) (sa : Bool) (cs : BitVec 8) (s : State) : (openGroup ecl maxver sa cs s).aspace = s.aspace := rfl
@[simp] theorem openGroup_aidx (ecl : EcLevel) (maxver : BitVec 6) (sa : Bool) (cs : BitVec 8) (s : State) : (openGroup ecl maxver sa cs s).aidx = s.aidx := rfl
@[simp] theorem openGroup_wver (ecl : EcLevel) (maxver : BitVec 6) (sa : Bool) (cs : BitVec 8) (s : State) : (openGroup ecl maxver sa cs s).wver = s.wver := rfl
@[simp] theorem openGroup_wecl (ecl : EcLevel) (maxver : BitVec 6) (sa : Bool) (cs : BitVec 8) (s : State) : (openGroup ecl maxver sa cs s).wecl = s.wecl := rfl
@[simp] theorem openGroup_wsym (ecl : EcLevel) (maxver : BitVec 6) (sa : Bool) (cs : BitVec 8) (s : State) : (openGroup ecl maxver sa cs s).wsym = s.wsym := rfl
@[simp] theorem openGroup_maskref (ecl : EcLevel) (maxver : BitVec 6) (sa : Bool) (cs : BitVec 8) (s : State) : (openGroup ecl maxver sa cs s).maskref = s.maskref := rfl
@[simp] theorem openGroup_pen (ecl : EcLevel) (maxver : BitVec 6) (sa : Bool) (cs : BitVec 8) (s : State) : (openGroup ecl maxver sa cs s).pen = s.pen := rfl
@[simp] theorem openGroup_penc (ecl : EcLevel) (maxver : BitVec 6) (sa : Bool) (cs : BitVec 8) (s : State) : (openGroup ecl maxver sa cs s).penc = s.penc := rfl
@[simp] theorem openGroup_txtn (ecl : EcLevel) (maxver : BitVec 6) (sa : Bool) (cs : BitVec 8) (s : State) : (openGroup ecl maxver sa cs s).txtn = s.txtn := rfl
@[simp] theorem openGroup_dcwn (ecl : EcLevel) (maxver : BitVec 6) (sa : Bool) (cs : BitVec 8) (s : State) : (openGroup ecl maxver sa cs s).dcwn = s.dcwn := rfl
@[simp] theorem openGroup_fcwn (ecl : EcLevel) (maxver : BitVec 6) (sa : Bool) (cs : BitVec 8) (s : State) : (openGroup ecl maxver sa cs s).fcwn = s.fcwn := rfl
@[simp] theorem openGroup_mmv (ecl : EcLevel) (maxver : BitVec 6) (sa : Bool) (cs : BitVec 8) (s : State) : (openGroup ecl maxver sa cs s).mmv = s.mmv := rfl
@[simp] theorem openGroup_slots (ecl : EcLevel) (maxver : BitVec 6) (sa : Bool) (cs : BitVec 8) (s : State) : (openGroup ecl maxver sa cs s).slots = s.slots := rfl
@[simp] theorem openGroup_mem (ecl : EcLevel) (maxver : BitVec 6) (sa : Bool) (cs : BitVec 8) (s : State) : (openGroup ecl maxver sa cs s).mem = s.mem := rfl
@[simp] theorem openGroup_cmds (ecl : EcLevel) (maxver : BitVec 6) (sa : Bool) (cs : BitVec 8) (s : State) : (openGroup ecl maxver sa cs s).cmds = s.cmds := rfl
@[simp] theorem openGroup_resps (ecl : EcLevel) (maxver : BitVec 6) (sa : Bool) (cs : BitVec 8) (s : State) : (openGroup ecl maxver sa cs s).resps = s.resps := rfl

/-! ### Slots read back -/

/-- A slot read after a write of a slot. -/
theorem slot_setSlot (s : State) (k j : BitVec 4) (x : Slot) :
    (s.setSlot k x).slot j = if k = j then x else s.slot j := by
  simp only [State.slot, setSlot_slots, Vector.getElem_set]
  by_cases h : k = j
  · subst h; simp
  · rw [if_neg h, if_neg fun hk => h (BitVec.eq_of_toNat_eq hk)]

@[simp] theorem slot_setSlot_self (s : State) (k : BitVec 4) (x : Slot) : (s.setSlot k x).slot k = x := by
  simp [slot_setSlot]

@[simp] theorem curIdx_setCur (s : State) (x : Slot) : (s.setCur x).curIdx = s.curIdx := rfl

/-- The current symbol read after it is written. -/
@[simp] theorem cur_setCur (s : State) (x : Slot) : (s.setCur x).cur = x :=
  slot_setSlot_self s s.curIdx x

/-- A slot that is not the current one is unchanged by a write of the current one. -/
theorem slot_setCur_ne (s : State) (x : Slot) {k : BitVec 4} (h : s.curIdx ≠ k) : (s.setCur x).slot k = s.slot k := by
  simp [State.setCur, slot_setSlot, h]

@[simp] theorem curIdx_commitGrowth (s : State) (g : Growth) : (commitGrowth s g).curIdx = s.curIdx := rfl
@[simp] theorem curIdx_openSegment (mode : EncMode) (s : State) : (openSegment mode s).curIdx = s.curIdx := rfl
@[simp] theorem curIdx_commitChar (p : Platform) (seg : Segment) (ch : CharCode) (b : Nat) (s : State) :
    (commitChar p seg ch b s).curIdx = s.curIdx := rfl

/-- The current symbol after growth is committed: version, capacity and counter are the copies (R213). -/
@[simp] theorem cur_commitGrowth (s : State) (g : Growth) :
    (commitGrowth s g).cur =
      { s.cur with ver := BitVec.ofNat 6 g.ver, cap := BitVec.ofNat 15 g.cap, cnt := BitVec.ofNat 15 g.cnt } :=
  cur_setCur s _

/-- The current symbol after a segment is opened (R214). -/
@[simp] theorem cur_openSegment (mode : EncMode) (s : State) :
    (openSegment mode s).cur =
      { s.cur.bumpSegn mode with
        cnt := BitVec.ofNat 15 (s.cur.cnt.toNat + (4 + ccw s.cur.ver.toNat mode))
        segs := s.cur.segs ++ [⟨mode, 0, [], 0⟩]
        mode := some mode } :=
  cur_setCur s _

/-- The current symbol after a character is committed (R216). -/
@[simp] theorem cur_commitChar (p : Platform) (seg : Segment) (ch : CharCode) (b : Nat) (s : State) :
    (commitChar p seg ch b s).cur =
      { s.cur with
        segs := s.cur.segs.dropLast ++ [segAppend p s.group.charset seg ch]
        cnt := BitVec.ofNat 15 (s.cur.cnt.toNat + b) } :=
  cur_setCur s _

/-- The steps on the current symbol leave every other slot alone (R30: "Only the current symbol … is ever written"). -/
theorem slot_commitGrowth_ne (s : State) (g : Growth) {k : BitVec 4} (h : s.curIdx ≠ k) :
    (commitGrowth s g).slot k = s.slot k := slot_setCur_ne s _ h
theorem slot_openSegment_ne (mode : EncMode) (s : State) {k : BitVec 4} (h : s.curIdx ≠ k) :
    (openSegment mode s).slot k = s.slot k := slot_setCur_ne s _ h
theorem slot_commitChar_ne (p : Platform) (seg : Segment) (ch : CharCode) (b : Nat) (s : State) {k : BitVec 4}
    (h : s.curIdx ≠ k) : (commitChar p seg ch b s).slot k = s.slot k := slot_setCur_ne s _ h

/-- The slot a new symbol is written to (R218). -/
theorem slot_newSymbol (s : State) (k : BitVec 4) :
    (newSymbol s).slot k =
      if s.group.symcnt.setWidth 4 = k then
        { Slot.reset with
          ver := s.group.minver
          cap := BitVec.ofNat 15 (capOf s.group.ecl s.group.sa s.group.minver.toNat) }
      else s.slot k :=
  slot_setSlot s _ k _

/-- After `NewSymbol` the new symbol is the current one (R218). -/
theorem curIdx_newSymbol (s : State) : (newSymbol s).curIdx = s.group.symcnt.setWidth 4 := by
  simp [State.curIdx]

end Sys2Proof.Laws
end

