-- ==== Sys2Proof/Laws/Result.lean ====
section
/-!
SUPPORT. How a command ends: the laws of `Result`, of the error operations and of the response (R98, R410).
-/

namespace Sys2Proof.Laws

open Sys2Proof.Machine

/-- The state a command leaves, whether it responds or raises; none if it is stuck. -/
def stateOf : Result → Option State
  | .done s _ => some s
  | .raised s _ _ => some s
  | .stuck _ => none

@[simp] theorem stateOf_done (s : State) (v : Word) : stateOf (.done s v) = some s := rfl
@[simp] theorem stateOf_raised (s : State) (e : ResCode) (v : Word) : stateOf (.raised s e v) = some s := rfl
@[simp] theorem stateOf_stuck (f : Fault) : stateOf (.stuck f) = none := rfl
@[simp] theorem stateOf_sequenceError (s : State) : stateOf (sequenceError s) = some s := rfl
@[simp] theorem stateOf_argumentError (s : State) (x : Word) : stateOf (argumentError s x) = some s := rfl
@[simp] theorem stateOf_addressError (s : State) (x : Word) : stateOf (addressError s x) = some s := rfl
@[simp] theorem stateOf_unsupportedError (s : State) (ch : CharCode) (i : BitVec 16) :
    stateOf (unsupportedError s ch i) = some s := rfl
@[simp] theorem stateOf_tooLongError (s : State) (i : BitVec 16) : stateOf (tooLongError s i) = some s := rfl

@[simp] theorem finish_done (s : State) (v : Word) : (Result.done s v).finish = .next (respond s .ok v) := rfl
@[simp] theorem finish_raised (s : State) (e : ResCode) (v : Word) :
    (Result.raised s e v).finish = .next (respond s e v) := rfl
@[simp] theorem finish_stuck (f : Fault) : (Result.stuck f).finish = .fault f := rfl

/-- A command that gives a next state leaves the state of its result, with exactly one response more (R98). -/
theorem finish_eq_next {r : Result} {t : State} (h : r.finish = .next t) :
    ∃ s res val, stateOf r = some s ∧ t = respond s res val := by
  cases r with
  | done s v => exact ⟨s, .ok, v, rfl, by simpa using h.symm⟩
  | raised s e v => exact ⟨s, e, v, rfl, by simpa using h.symm⟩
  | stuck f => simp at h

/-- No command is refused. -/
theorem finish_ne_refused (r : Result) (x : Refusal) : r.finish ≠ .refused x := by
  cases r <;> simp

/-- What a composition of two stages leaves is left by the first stage, raising, or by the second (R135). -/
theorem stateOf_andThen {r : Result} {f : State → Result} {t : State} (h : stateOf (r.andThen f) = some t) :
    (∃ s v, r = .done s v ∧ stateOf (f s) = some t) ∨ (∃ e v, r = .raised t e v) := by
  cases r with
  | done s v => exact .inl ⟨s, v, rfl, h⟩
  | raised s e v => exact .inr ⟨e, v, by simpa [Result.andThen] using h⟩
  | stuck f => simp [Result.andThen] at h

@[simp] theorem andThen_done (s : State) (v : Word) (f : State → Result) : (Result.done s v).andThen f = f s := rfl
@[simp] theorem andThen_raised (s : State) (e : ResCode) (v : Word) (f : State → Result) :
    (Result.raised s e v).andThen f = .raised s e v := rfl
@[simp] theorem andThen_stuck (x : Fault) (f : State → Result) : (Result.stuck x).andThen f = .stuck x := rfl

end Sys2Proof.Laws
end

