-- ==== Sys2Proof/Laws/Append.lean ====
section
/-!
SUPPORT. Everything the append machine can do, said once: the negotiator's search (R213), each append step, and the
chain of elementary updates an APPEND is made of (R213–R220).
-/

namespace Sys2Proof.Laws

open Sys2Proof.Machine

/-! ### The negotiator (R213) -/

/-- The copies after some rounds of growth, each one version up (R213). -/
inductive Grown (ecl : EcLevel) (sa : Bool) (x : Slot) : Growth → Growth → Prop where
  | refl (g : Growth) : Grown ecl sa x g g
  | up {g g' : Growth}
      (h : Grown ecl sa x ⟨g.ver + 1, capOf ecl sa (g.ver + 1), g.cnt + adjust x g.ver, g.ver + 1⟩ g') : Grown ecl sa x g g'

/-- Growth never lowers the version. -/
theorem Grown.ver_le {ecl : EcLevel} {sa : Bool} {x : Slot} {g g' : Growth} (h : Grown ecl sa x g g') :
    g.ver ≤ g'.ver := by
  induction h with
  | refl => exact le_rfl
  | up _ ih => exact (Nat.le_succ _).trans ih

/-- Growth never lowers the counter. -/
theorem Grown.cnt_le {ecl : EcLevel} {sa : Bool} {x : Slot} {g g' : Growth} (h : Grown ecl sa x g g') :
    g.cnt ≤ g'.cnt := by
  induction h with
  | refl => exact le_rfl
  | up _ ih => exact (Nat.le_add_right _ _).trans ih

/-- Either nothing grew, or the capacity is the table's and the minimum version has moved to the version (R213). -/
theorem Grown.settled {ecl : EcLevel} {sa : Bool} {x : Slot} {g g' : Growth} (h : Grown ecl sa x g g') :
    g' = g ∨ (g'.cap = capOf ecl sa g'.ver ∧ g'.minver = g'.ver) := by
  induction h with
  | refl => exact .inl rfl
  | up _ ih => rcases ih with rfl | ih <;> [exact .inr ⟨rfl, rfl⟩; exact .inr ih]

/-- What the search for room can answer: `fit` holds the write; `exhausted` is at the last version, consistent, and
does not hold it (R213). -/
theorem findRoom_cases (ecl : EcLevel) (sa : Bool) (x : Slot) (need : Nat → Nat) (left : Nat) (g : Growth) :
    (∃ g', findRoom ecl sa x need left g = .fit g' ∧ Grown ecl sa x g g' ∧ g'.ver ≤ g.ver + left ∧
        g'.cnt + need g'.ver ≤ g'.cap) ∨
      (∃ g', findRoom ecl sa x need left g = .exhausted g' ∧ Grown ecl sa x g g' ∧ g'.ver = g.ver + left ∧
        g'.cnt ≤ g'.cap ∧ g'.cap < g'.cnt + need g'.ver) ∨
      findRoom ecl sa x need left g = .discarded := by
  induction left generalizing g with
  | zero =>
    by_cases hfit : g.cnt + need g.ver ≤ g.cap
    · exact .inl ⟨g, by simp [findRoom, hfit], .refl g, by omega, hfit⟩
    · by_cases hcap : g.cnt ≤ g.cap
      · exact .inr (.inl ⟨g, by simp [findRoom, hfit, hcap], .refl g, by omega, hcap, by omega⟩)
      · exact .inr (.inr (by simp [findRoom, hfit, hcap]))
  | succ left ih =>
    by_cases hfit : g.cnt + need g.ver ≤ g.cap
    · exact .inl ⟨g, by simp [findRoom, hfit], .refl g, by omega, hfit⟩
    · rcases ih ⟨g.ver + 1, capOf ecl sa (g.ver + 1), g.cnt + adjust x g.ver, g.ver + 1⟩ with
        ⟨g', he, hg, hv, hn⟩ | ⟨g', he, hg, hv, hc, hn⟩ | he
      · exact .inl ⟨g', by simpa [findRoom, hfit] using he, .up hg, by simp only at hv; omega, hn⟩
      · exact .inr (.inl ⟨g', by simpa [findRoom, hfit] using he, .up hg, by simp only at hv; omega, hc, hn⟩)
      · exact .inr (.inr (by simpa [findRoom, hfit] using he))

/-- A write that fits needs no growth (R213). -/
theorem ensure_of_fits {need : Nat → Nat} {s : State}
    (h : s.cur.cnt.toNat + need s.cur.ver.toNat ≤ s.cur.cap.toNat) :
    ensure need s = .fit (commitGrowth s (growthOf s)) := by
  have hfind : ∀ left, findRoom s.group.ecl s.group.sa s.cur need left (growthOf s) = .fit (growthOf s) := by
    intro left
    cases left <;> simp [findRoom, growthOf, h]
  simp [ensure, hfind]

/-- Committing the copies unchanged changes nothing. -/
theorem commitGrowth_growthOf (s : State) : commitGrowth s (growthOf s) = s := by
  have hcur : s.setCur s.cur = s := by
    simp only [State.setCur, State.setSlot, State.cur, State.slot, Vector.set_getElem_self]
  simp only [commitGrowth, growthOf, BitVec.ofNat_toNat, BitVec.setWidth_eq]
  exact congrArg (fun u => { u with group := { u.group with minver := s.group.minver } }) hcur

/-- What `Ensure` can answer (R213). -/
theorem ensure_cases (need : Nat → Nat) (s : State) :
    (∃ g, ensure need s = .fit (commitGrowth s g) ∧ Grown s.group.ecl s.group.sa s.cur (growthOf s) g ∧
        g.ver ≤ s.cur.ver.toNat + (s.group.maxver.toNat - s.cur.ver.toNat) ∧ g.cnt + need g.ver ≤ g.cap) ∨
      (∃ g, ensure need s = .exhausted (commitGrowth s g) ∧ Grown s.group.ecl s.group.sa s.cur (growthOf s) g ∧
        g.ver = s.cur.ver.toNat + (s.group.maxver.toNat - s.cur.ver.toNat) ∧ g.cnt ≤ g.cap) ∨
      ensure need s = .exhausted s := by
  rcases findRoom_cases s.group.ecl s.group.sa s.cur need (s.group.maxver.toNat - s.cur.ver.toNat) (growthOf s) with
    ⟨g, he, hg, hv, hn⟩ | ⟨g, he, hg, hv, hc, -⟩ | he
  · exact .inl ⟨g, by simp [ensure, he], hg, hv, hn⟩
  · exact .inr (.inl ⟨g, by simp [ensure, he], hg, hv, hc⟩)
  · exact .inr (.inr (by simp [ensure, he]))

/-! ### The elementary updates of an APPEND -/

/-- One elementary update of the append machine, with what is known when it happens (R213–R219). -/
inductive AppendMove (p : Platform) : State → State → Prop where
  /-- Growth committed by `Ensure`, consistent (R213). -/
  | grow (s : State) (g : Growth) (grown : Grown s.group.ecl s.group.sa s.cur (growthOf s) g)
      (bound : g.ver ≤ s.cur.ver.toNat + (s.group.maxver.toNat - s.cur.ver.toNat)) (room : g.cnt ≤ g.cap) :
      AppendMove p s (commitGrowth s g)
  /-- A segment opened: the header fits the current symbol as it stands (R214). -/
  | openSeg (s : State) (g : Growth) (mode : EncMode) (b : Nat)
      (room : g.cnt + (4 + ccw g.ver mode + b) ≤ g.cap) :
      AppendMove p (commitGrowth s g) (openSegment mode (commitGrowth s g))
  /-- A character committed to the last segment, whose cost fits (R215, R216). -/
  | commit (s : State) (g : Growth) (seg : Segment) (ch : CharCode) (last : s.cur.segs.getLast? = some seg)
      (room : g.cnt + charBits p s.group.charset seg.mode seg.count ch ≤ g.cap) :
      AppendMove p (commitGrowth s g)
        (commitChar p seg ch (charBits p s.group.charset seg.mode seg.count ch) (commitGrowth s g))
  /-- A new symbol, while there is room for one and structured append is allowed (R218, R220). -/
  | newSym (s : State) (allowed : s.group.sa = true) (room : s.group.symcnt.toNat < symMax) :
      AppendMove p s (newSymbol s)
  /-- The cursor past a committed character (R219). -/
  | advance (s : State) : AppendMove p s { s with tpos := s.tpos + 1 }

/-- The state an append step leaves, whether it fits or not. -/
def stateOfFit : Fit → Option State
  | .fit s => some s
  | .exhausted s => some s
  | .broken _ => none

/-- Elementary updates, one after the other. -/
abbrev AppendPath (p : Platform) : State → State → Prop := Relation.ReflTransGen (AppendMove p)

/-- `Ensure` commits growth or does nothing. -/
theorem ensure_path (p : Platform) {need : Nat → Nat} {s t : State} (h : stateOfFit (ensure need s) = some t) :
    AppendPath p s t := by
  rcases ensure_cases need s with ⟨g, he, hg, hv, hn⟩ | ⟨g, he, hg, hv, hc⟩ | he
  · rw [he] at h; cases h; exact .single (.grow s g hg hv (by omega))
  · rw [he] at h; cases h; exact .single (.grow s g hg (by omega) hc)
  · rw [he] at h; cases h; exact .refl

/-- `TrySetMode` grows, then opens a segment if it fits (R214). -/
theorem trySetMode_path {p : Platform} {mode : EncMode} {ch : CharCode} {s t : State}
    (h : stateOfFit (trySetMode p mode ch s) = some t) : AppendPath p s t := by
  rw [trySetMode] at h
  rcases ensure_cases (fun v => 4 + ccw v mode + charBits p s.group.charset mode 0 ch) s with
    ⟨g, he, hg, hv, hn⟩ | ⟨g, he, hg, hv, hc⟩ | he
  · simp only [he] at h; cases h
    exact .tail (.single (.grow s g hg hv (by omega))) (.openSeg s g mode _ hn)
  · simp only [he] at h; cases h; exact .single (.grow s g hg (by omega) hc)
  · simp only [he] at h; cases h; exact .refl

/-- `TryAppend` grows, then commits the character if it fits (R215). -/
theorem tryAppend_path {p : Platform} {ch : CharCode} {s t : State}
    (h : stateOfFit (tryAppend p ch s) = some t) : AppendPath p s t := by
  rw [tryAppend] at h
  cases hl : s.cur.segs.getLast? with
  | none => simp [hl, stateOfFit] at h
  | some seg =>
    simp only [hl] at h
    rcases ensure_cases (fun _ => charBits p s.group.charset seg.mode seg.count ch) s with
      ⟨g, he, hg, hv, hn⟩ | ⟨g, he, hg, hv, hc⟩ | he
    · simp only [he] at h; cases h
      exact .tail (.single (.grow s g hg hv (by omega))) (.commit s g seg ch hl hn)
    · simp only [he] at h; cases h; exact .single (.grow s g hg (by omega) hc)
    · simp only [he] at h; cases h; exact .refl

/-- `TrySetMode` and then `TryAppend` (R217). -/
theorem openAndAppend_path {p : Platform} {mode : EncMode} {ch : CharCode} {s t : State}
    (h : stateOfFit (openAndAppend p mode ch s) = some t) : AppendPath p s t := by
  rw [openAndAppend] at h
  cases hf : trySetMode p mode ch s with
  | fit u =>
    simp only [hf] at h
    exact (trySetMode_path (t := u) (by rw [hf]; rfl)).trans (tryAppend_path h)
  | exhausted u => simp only [hf] at h; cases h; exact trySetMode_path (by rw [hf]; rfl)
  | broken f => simp [hf, stateOfFit] at h

/-- Putting a character into the current symbol (R220). -/
theorem putChar_path {p : Platform} {mode : EncMode} {ch : CharCode} {s t : State}
    (h : stateOfFit (putChar p mode ch s) = some t) : AppendPath p s t := by
  rw [putChar] at h
  split at h
  · exact tryAppend_path h
  · exact openAndAppend_path h

/-- The retry in a fresh symbol (R220). -/
theorem retryInNewSymbol_path {p : Platform} {ch : CharCode} {rest : List CharCode} {s t : State}
    (allowed : s.group.sa = true) (room : s.group.symcnt.toNat < symMax)
    (h : stateOf (retryInNewSymbol p ch rest s) = some t) : AppendPath p s t := by
  have hnew : AppendPath p s (newSymbol s) := .single (.newSym s allowed room)
  simp only [retryInNewSymbol] at h
  split at h
  · cases h; exact hnew
  · rename_i mode _
    cases hf : openAndAppend p mode ch (newSymbol s) with
    | fit u => simp only [hf] at h; cases h; exact hnew.trans (openAndAppend_path (by rw [hf]; rfl))
    | exhausted u => simp only [hf] at h; cases h; exact hnew.trans (openAndAppend_path (by rw [hf]; rfl))
    | broken f => simp [hf] at h

/-- One character (R220). -/
theorem appendChar_path {p : Platform} {ch : CharCode} {rest : List CharCode} {s t : State}
    (h : stateOf (appendChar p ch rest s) = some t) : AppendPath p s t := by
  rw [appendChar] at h
  split at h
  · cases h; exact .refl
  · rename_i mode _
    cases hf : putChar p mode ch s with
    | fit u => simp only [hf] at h; cases h; exact putChar_path (by rw [hf]; rfl)
    | broken f => simp [hf] at h
    | exhausted u =>
      simp only [hf] at h
      have hu : AppendPath p s u := putChar_path (by rw [hf]; rfl)
      split at h
      · cases h; exact hu
      · rename_i hcond
        simp only [Bool.not_eq_true, Bool.or_eq_false_iff, Bool.not_eq_false', decide_eq_false_iff_not, not_le] at hcond
        exact hu.trans (retryInNewSymbol_path hcond.1 hcond.2 h)

/-- All characters that are left (R219). -/
theorem appendLoop_path {p : Platform} {text : List CharCode} {s t : State}
    (h : stateOf (appendLoop p text s) = some t) : AppendPath p s t := by
  induction text generalizing s with
  | nil => cases h; exact .refl
  | cons ch rest ih =>
    rw [appendLoop] at h
    rcases stateOf_andThen h with ⟨u, v, hu, ht⟩ | ⟨e, v, hr⟩
    · exact ((appendChar_path (t := u) (by rw [hu]; rfl)).tail (.advance u)).trans (ih ht)
    · exact appendChar_path (by rw [hr]; rfl)

/-- An APPEND that leaves a state either left the one it found, or ran in BUILDING from `TPOS = 0` (R219). -/
theorem append_path {p : Platform} {s t : State} (h : stateOf (append p s) = some t) :
    t = s ∨ (s.phase = .building ∧ appendObstacle s = none ∧ AppendPath p { s with tpos := 0 } t) := by
  rw [append] at h
  split at h
  · left; simpa using h.symm
  · rename_i hphase
    split at h
    · left; simpa using h.symm
    · split at h
      · simp at h
      · rename_i hobs
        split at h
        · simp at h
        · exact .inr ⟨by simpa [appendAccepted] using hphase, hobs, appendLoop_path h⟩

/-- What every elementary update keeps, an APPEND keeps. -/
theorem AppendPath.keeps {p : Platform} {Inv : State → Prop} (step : ∀ s t, AppendMove p s t → Inv s → Inv t)
    {s t : State} (h : AppendPath p s t) (hs : Inv s) : Inv t := by
  induction h with
  | refl => exact hs
  | tail _ hm ih => exact step _ _ hm ih

/-- The registers and buffers no elementary update touches (R219: "Writes"). -/
structure AppendFrame (s t : State) : Prop where
  phase : t.phase = s.phase
  ecl : t.group.ecl = s.group.ecl
  maxver : t.group.maxver = s.group.maxver
  sa : t.group.sa = s.group.sa
  charset : t.group.charset = s.group.charset
  tlen : t.tlen = s.tlen
  aspace : t.aspace = s.aspace
  aidx : t.aidx = s.aidx
  wver : t.wver = s.wver
  wecl : t.wecl = s.wecl
  wsym : t.wsym = s.wsym
  maskref : t.maskref = s.maskref
  pen : t.pen = s.pen
  penc : t.penc = s.penc
  txtn : t.txtn = s.txtn
  dcwn : t.dcwn = s.dcwn
  fcwn : t.fcwn = s.fcwn
  mmv : t.mmv = s.mmv
  mem : t.mem = s.mem
  cmds : t.cmds = s.cmds
  resps : t.resps = s.resps

/-- The append frame holds of a state and itself. -/
theorem AppendFrame.refl (s : State) : AppendFrame s s := by constructor <;> rfl

/-- The append frame composes. -/
theorem AppendFrame.trans {s t u : State} (a : AppendFrame s t) (b : AppendFrame t u) : AppendFrame s u := by
  constructor <;> first
    | exact b.phase.trans a.phase | exact b.ecl.trans a.ecl | exact b.maxver.trans a.maxver
    | exact b.sa.trans a.sa | exact b.charset.trans a.charset | exact b.tlen.trans a.tlen
    | exact b.aspace.trans a.aspace | exact b.aidx.trans a.aidx | exact b.wver.trans a.wver
    | exact b.wecl.trans a.wecl | exact b.wsym.trans a.wsym | exact b.maskref.trans a.maskref
    | exact b.pen.trans a.pen | exact b.penc.trans a.penc | exact b.txtn.trans a.txtn
    | exact b.dcwn.trans a.dcwn | exact b.fcwn.trans a.fcwn | exact b.mmv.trans a.mmv
    | exact b.mem.trans a.mem | exact b.cmds.trans a.cmds | exact b.resps.trans a.resps

/-- Every elementary update keeps the frame. -/
theorem AppendMove.frame {p : Platform} {s t : State} (h : AppendMove p s t) : AppendFrame s t := by
  cases h <;> constructor <;> rfl

/-- An append path keeps the frame. -/
theorem AppendPath.frame {p : Platform} {s t : State} (h : AppendPath p s t) : AppendFrame s t :=
  AppendPath.keeps (Inv := AppendFrame s) (fun _ _ hm hs => hs.trans hm.frame) h (.refl s)

end Sys2Proof.Laws
end

