-- ==== Sys2Proof/Laws/Cells.lean ====
section
/-!
SUPPORT. The laws of buffers: a read after a write, the canonical form under every operation, whole-buffer reads.
-/

namespace Sys2Proof.Laws

open Sys2Proof.Machine

variable {α : Type}

/-! ### Read after write -/

/-- A cell reads back what was written to it. -/
@[simp] theorem cellAt_cellPut_self (c : Cells α) (i : Nat) (v : α) : cellAt (cellPut c i v) i = some v := by
  induction c with
  | nil => simp [cellPut, cellAt]
  | cons head rest ih =>
    obtain ⟨a, x⟩ := head
    by_cases hlt : i < a
    · simp [cellPut, hlt, cellAt]
    · by_cases heq : i = a
      · simp [cellPut, heq, cellAt]
      · simp [cellPut, hlt, heq, cellAt, Ne.symm heq, ih]

/-- A write leaves every other cell as it was. -/
theorem cellAt_cellPut_ne (c : Cells α) {i j : Nat} (v : α) (h : j ≠ i) :
    cellAt (cellPut c i v) j = cellAt c j := by
  induction c with
  | nil => simp [cellPut, cellAt, Ne.symm h]
  | cons head rest ih =>
    obtain ⟨a, x⟩ := head
    by_cases hlt : i < a
    · simp [cellPut, hlt, cellAt, Ne.symm h]
    · by_cases heq : i = a
      · subst heq; simp [cellPut, cellAt, Ne.symm h]
      · simp [cellPut, hlt, heq, cellAt, ih]

/-- Read after write, both cases. -/
theorem cellAt_cellPut (c : Cells α) (i j : Nat) (v : α) :
    cellAt (cellPut c i v) j = if j = i then some v else cellAt c j := by
  by_cases h : j = i
  · subst h; simp
  · simp [h, cellAt_cellPut_ne c v h]

/-! ### Cells made from a list -/

/-- The cell at `i` of cells made from a list. -/
theorem cellAt_cellsFrom (start : Nat) (l : List α) (i : Nat) :
    cellAt (cellsFrom start l) i = if start ≤ i then l[i - start]? else none := by
  induction l generalizing start with
  | nil => simp [cellsFrom, cellAt]
  | cons v vs ih =>
    simp only [cellsFrom, cellAt, ih]
    by_cases h : start = i
    · subst h; simp
    · by_cases hlt : start ≤ i
      · rw [if_neg h, if_pos (by omega), if_pos hlt, show i - start = (i - (start + 1)) + 1 by omega]
        simp
      · rw [if_neg h, if_neg (by omega), if_neg hlt]

/-- Cells made from a list hold it. -/
@[simp] theorem cellAt_cellsFrom_zero (l : List α) (i : Nat) : cellAt (cellsFrom 0 l) i = l[i]? := by
  simp [cellAt_cellsFrom]

/-- The indexes of cells made from a list. -/
theorem cellsFrom_keys (start : Nat) (l : List α) :
    (cellsFrom start l).map Prod.fst = List.range' start l.length := by
  induction l generalizing start with
  | nil => rfl
  | cons v vs ih => simp [cellsFrom, ih, List.range'_succ]

/-- The elements of cells made from a list. -/
theorem cellsFrom_values (start : Nat) (l : List α) : (cellsFrom start l).map Prod.snd = l := by
  induction l generalizing start with
  | nil => rfl
  | cons v vs ih => simp [cellsFrom, ih]

/-! ### The canonical form -/

/-- A lower bound may be lowered. -/
theorem cellsRising_mono {lo lo' : Nat} {c : Cells α} (h : cellsRising lo c = true) (hle : lo' ≤ lo) :
    cellsRising lo' c = true := by
  cases c with
  | nil => rfl
  | cons head rest =>
    simp only [cellsRising, Bool.and_eq_true, decide_eq_true_eq] at h ⊢
    exact ⟨hle.trans h.1, h.2⟩

/-- A write keeps the canonical form. -/
theorem cellsRising_cellPut {lo : Nat} {c : Cells α} {i : Nat} (v : α)
    (h : cellsRising lo c = true) (hi : lo ≤ i) : cellsRising lo (cellPut c i v) = true := by
  induction c generalizing lo with
  | nil => simp [cellPut, cellsRising, hi]
  | cons head rest ih =>
    obtain ⟨a, x⟩ := head
    simp only [cellsRising, Bool.and_eq_true, decide_eq_true_eq] at h
    by_cases hlt : i < a
    · simp only [cellPut, hlt, if_true, cellsRising, Bool.and_eq_true, decide_eq_true_eq]
      exact ⟨hi, by omega, h.2⟩
    · by_cases heq : i = a
      · subst heq; simp [cellPut, cellsRising, h]
      · simp only [cellPut, hlt, heq, if_false, cellsRising, Bool.and_eq_true, decide_eq_true_eq]
        exact ⟨h.1, ih h.2 (by omega)⟩

/-- Cells made from a list are canonical. -/
theorem cellsRising_cellsFrom (start : Nat) (l : List α) : cellsRising start (cellsFrom start l) = true := by
  induction l generalizing start with
  | nil => rfl
  | cons v vs ih => simp [cellsFrom, cellsRising, ih]

/-- In canonical cells nothing below the bound is written. -/
theorem cellAt_below {lo : Nat} {c : Cells α} (h : cellsRising lo c = true) {i : Nat} (hi : i < lo) :
    cellAt c i = none := by
  induction c generalizing lo with
  | nil => rfl
  | cons head rest ih =>
    obtain ⟨a, x⟩ := head
    simp only [cellsRising, Bool.and_eq_true, decide_eq_true_eq] at h
    rw [cellAt, if_neg (by omega)]
    exact ih h.2 (by omega)

/-! ### Dense buffers: exactly the cells `0 … n-1` are written -/

/-- Writing below the end of a dense buffer keeps its indexes. -/
theorem cellPut_keys_inside {start n : Nat} {c : Cells α} {i : Nat} (v : α)
    (h : c.map Prod.fst = List.range' start n) (hlo : start ≤ i) (hhi : i < start + n) :
    (cellPut c i v).map Prod.fst = List.range' start n := by
  induction n generalizing start c with
  | zero => omega
  | succ n ih =>
    cases c with
    | nil => simp at h
    | cons head rest =>
      obtain ⟨a, x⟩ := head
      simp only [List.map_cons, List.range'_succ, List.cons.injEq] at h
      obtain ⟨rfl, hrest⟩ := h
      by_cases heq : i = a
      · subst heq; simp [cellPut, List.range'_succ, hrest]
      · have hlt : ¬ i < a := by omega
        simp only [cellPut, hlt, heq, if_false, List.map_cons, List.range'_succ]
        rw [ih hrest (by omega) (by omega)]

/-- Writing at the end of a dense buffer extends it by one. -/
theorem cellPut_keys_end {start n : Nat} {c : Cells α} (v : α) (h : c.map Prod.fst = List.range' start n) :
    (cellPut c (start + n) v).map Prod.fst = List.range' start (n + 1) := by
  induction n generalizing start c with
  | zero =>
    have hc : c = [] := by simpa using h
    subst hc; simp [cellPut]
  | succ n ih =>
    cases c with
    | nil => simp at h
    | cons head rest =>
      obtain ⟨a, x⟩ := head
      simp only [List.map_cons, List.range'_succ, List.cons.injEq] at h
      obtain ⟨rfl, hrest⟩ := h
      have h1 : ¬ a + (n + 1) < a := by omega
      have h2 : ¬ a + (n + 1) = a := by omega
      simp only [cellPut, h1, h2, if_false, List.map_cons]
      rw [show a + (n + 1) = (a + 1) + n by omega, ih hrest, List.range'_succ (n := n + 1)]

/-- The whole content of a dense buffer can be read. -/
theorem cellRun_of_keys {start n : Nat} {c : Cells α} (h : c.map Prod.fst = List.range' start n) :
    cellRun start n c = some (c.map Prod.snd) := by
  induction n generalizing start c with
  | zero =>
    have hc : c = [] := by simpa using h
    subst hc; rfl
  | succ n ih =>
    cases c with
    | nil => simp at h
    | cons head rest =>
      obtain ⟨a, x⟩ := head
      simp only [List.map_cons, List.range'_succ, List.cons.injEq] at h
      obtain ⟨rfl, hrest⟩ := h
      simp [cellRun, ih hrest]

/-- Reading a prefix of what can be read gives the prefix. -/
theorem cellRun_prefix {start n k : Nat} {c : Cells α} {l : List α} (h : cellRun start n c = some l) (hk : k ≤ n) :
    cellRun start k c = some (l.take k) := by
  induction n generalizing start k c l with
  | zero =>
    obtain rfl : k = 0 := by omega
    simp [cellRun]
  | succ n ih =>
    cases k with
    | zero => simp [cellRun]
    | succ k =>
      cases c with
      | nil => simp [cellRun] at h
      | cons head rest =>
        obtain ⟨a, x⟩ := head
        by_cases ha : a = start
        · simp only [cellRun, ha, if_true, Option.map_eq_some_iff] at h ⊢
          obtain ⟨l', hl', rfl⟩ := h
          exact ⟨l'.take k, ih hl' (by omega), by simp⟩
        · simp [cellRun, ha] at h

/-- A whole-buffer read has the length asked for. -/
theorem cellRun_length {start n : Nat} {c : Cells α} {l : List α} (h : cellRun start n c = some l) : l.length = n := by
  induction n generalizing start c l with
  | zero => simp only [cellRun, Option.some.injEq] at h; simp [← h]
  | succ n ih =>
    cases c with
    | nil => simp [cellRun] at h
    | cons head rest =>
      obtain ⟨a, x⟩ := head
      by_cases ha : a = start
      · simp only [cellRun, ha, if_true, Option.map_eq_some_iff] at h
        obtain ⟨l', hl', rfl⟩ := h
        simp [ih hl']
      · simp [cellRun, ha] at h

/-- A whole-buffer read is, cell by cell, what single reads give. -/
theorem cellAt_of_cellRun {start n : Nat} {c : Cells α} {l : List α} (h : cellRun start n c = some l) {i : Nat}
    (hi : i < n) : cellAt c (start + i) = l[i]? := by
  induction n generalizing start c l i with
  | zero => omega
  | succ n ih =>
    cases c with
    | nil => simp [cellRun] at h
    | cons head rest =>
      obtain ⟨a, x⟩ := head
      by_cases ha : a = start
      · subst ha
        simp only [cellRun, if_true, Option.map_eq_some_iff] at h
        obtain ⟨l', hl', rfl⟩ := h
        cases i with
        | zero => simp [cellAt]
        | succ i =>
          have hne : ¬ a = a + (i + 1) := by omega
          simp only [cellAt, hne, if_false, List.getElem?_cons_succ]
          rw [← ih hl' (by omega)]
          congr 1
          omega
      · simp [cellRun, ha] at h

/-- What was just written as a whole reads back as a whole. -/
@[simp] theorem firstCells_cellsFrom (l : List α) : firstCells (cellsFrom 0 l) l.length = some l := by
  rw [firstCells, cellRun_of_keys (cellsFrom_keys 0 l), cellsFrom_values]

/-- For canonical cells a whole-buffer read succeeds exactly when every cell of it is written. -/
theorem firstCells_isSome_iff {c : Cells α} (h : cellsRising 0 c = true) (n : Nat) :
    (firstCells c n).isSome = true ↔ ∀ i < n, (cellAt c i).isSome = true := by
  suffices hs : ∀ start, cellsRising start c = true →
      ((cellRun start n c).isSome = true ↔ ∀ i < n, (cellAt c (start + i)).isSome = true) by
    simpa [firstCells] using hs 0 h
  intro start hstart
  induction n generalizing start c with
  | zero => simp [cellRun]
  | succ n ih =>
    cases c with
    | nil => simpa [cellRun, cellAt] using ⟨0, by omega⟩
    | cons head rest =>
      obtain ⟨a, x⟩ := head
      simp only [cellsRising, Bool.and_eq_true, decide_eq_true_eq] at hstart
      by_cases ha : a = start
      · subst ha
        have hrest : cellsRising 0 rest = true := cellsRising_mono hstart.2 (by omega)
        simp only [cellRun, if_true, Option.isSome_map, ih hrest (a + 1) hstart.2]
        constructor
        · intro hall i hi
          cases i with
          | zero => simp [cellAt]
          | succ i =>
            have hne : ¬ a = a + (i + 1) := by omega
            simpa [cellAt, hne, Nat.add_assoc, Nat.add_comm 1] using hall i (by omega)
        · intro hall i hi
          have hne : ¬ a = a + (i + 1) := by omega
          simpa [cellAt, hne, Nat.add_assoc, Nat.add_comm 1] using hall (i + 1) (by omega)
      · have hnone : cellAt rest start = none := cellAt_below hstart.2 (by omega)
        simp only [cellRun, ha, if_false, Option.isSome_none, Bool.false_eq_true, false_iff, not_forall]
        exact ⟨0, by omega, by simp [cellAt, ha, hnone]⟩

end Sys2Proof.Laws
end

