-- ==== Sys2Proof/Laws/Memory.lean ====
section
/-!
SUPPORT. What `MemRead` and `MemWrite` can do (R62), and that every operation on the memory keeps its canonical form.
-/

namespace Sys2Proof.Laws

open Sys2Proof.Machine

/-! ### `MemWrite` -/

/-- A store that is accepted fills no hole and stays inside the buffer (R62). -/
theorem storeOk_iff {n size idx : Nat} : storeOk n size idx = true ↔ idx ≤ n ∧ idx < size := by
  simp [storeOk]

/-- What an accepted store leaves, space by space (R62). -/
theorem memWrite_cases {p : Platform} {s t : State} {sp : Space} {idx : Nat} {v : BitVec 16}
    (h : memWrite p s sp idx v = some t) :
    (sp = .txt ∧ idx ≤ s.txtn.toNat ∧ idx < p.txtSize ∧
        t = { s with mem := { s.mem with txt := cellPut s.mem.txt idx v }, txtn := storeLength s.txtn idx }) ∨
      (sp = .dcw ∧ idx ≤ s.dcwn.toNat ∧ idx < dcwSize ∧
        t = { s with
          mem := { s.mem with dcw := cellPut s.mem.dcw idx (v.setWidth 8) }, dcwn := storeLength s.dcwn idx }) ∨
      (sp = .fcw ∧ idx ≤ s.fcwn.toNat ∧ idx < fcwSize ∧
        t = { s with
          mem := { s.mem with fcw := cellPut s.mem.fcw idx (v.setWidth 8) }, fcwn := storeLength s.fcwn idx }) := by
  cases sp <;> simp only [memWrite, Option.ite_none_right_eq_some, Option.some.injEq, storeOk_iff, reduceCtorEq] at h
  · exact .inl ⟨rfl, h.1.1, h.1.2, h.2.symm⟩
  · exact .inr (.inl ⟨rfl, h.1.1, h.1.2, h.2.symm⟩)
  · exact .inr (.inr ⟨rfl, h.1.1, h.1.2, h.2.symm⟩)

/-- A store that is refused is refused for a stated reason: a hole, an overrun, or a read-only space (R62). -/
theorem memWrite_eq_none_iff {p : Platform} {s : State} {sp : Space} {idx : Nat} {v : BitVec 16} :
    memWrite p s sp idx v = none ↔
      match sp with
      | .txt => s.txtn.toNat < idx ∨ p.txtSize ≤ idx
      | .dcw => s.dcwn.toNat < idx ∨ dcwSize ≤ idx
      | .fcw => s.fcwn.toNat < idx ∨ fcwSize ≤ idx
      | .mm => True
      | .qm => True := by
  cases sp <;> simp [memWrite, storeOk_iff, imp_iff_not_or]

/-! ### `MemRead` -/

/-- A read of a written cell below the valid length gives the cell (R62). -/
theorem readCell_of_cellAt {α : Type} {c : Cells α} {n idx : Nat} {x : α} (hi : idx < n) (hx : cellAt c idx = some x) :
    readCell c n idx = .value x := by
  simp [readCell, Nat.not_le.mpr hi, hx]

/-- A read at or above the valid length is refused (R62). -/
theorem readCell_of_le {α : Type} {c : Cells α} {n idx : Nat} (h : n ≤ idx) : readCell c n idx = .refused := by
  simp [readCell, h]

/-! ### The canonical form is kept by every operation -/

/-- The form, buffer by buffer. -/
theorem wf_iff {m : Memory} :
    m.wf = true ↔ cellsRising 0 m.txt = true ∧ cellsRising 0 m.dcw = true ∧ cellsRising 0 m.fcw = true ∧
      cellsRising 0 m.mm = true := by
  simp [Memory.wf, and_assoc]

/-- Memory right after reset is canonical. -/
theorem wf_reset : Memory.reset.wf = true := by decide

/-- `MemWrite` keeps the form. -/
theorem wf_memWrite {p : Platform} {s t : State} {sp : Space} {idx : Nat} {v : BitVec 16}
    (h : memWrite p s sp idx v = some t) (hs : s.mem.wf = true) : t.mem.wf = true := by
  obtain ⟨h1, h2, h3, h4⟩ := wf_iff.mp hs
  rcases memWrite_cases h with ⟨-, -, -, rfl⟩ | ⟨-, -, -, rfl⟩ | ⟨-, -, -, rfl⟩
  · exact wf_iff.mpr ⟨cellsRising_cellPut v h1 (Nat.zero_le _), h2, h3, h4⟩
  · exact wf_iff.mpr ⟨h1, cellsRising_cellPut _ h2 (Nat.zero_le _), h3, h4⟩
  · exact wf_iff.mpr ⟨h1, h2, cellsRising_cellPut _ h3 (Nat.zero_le _), h4⟩

/-- Opening a working context keeps the form. -/
theorem wf_openContext (s : State) (ver : BitVec 6) (ecl : EcLevel) (n : Nat) (ws : List Byte)
    (hs : s.mem.wf = true) : (openContext s ver ecl n ws).mem.wf = true :=
  wf_iff.mpr ⟨(wf_iff.mp hs).1, cellsRising_cellsFrom 0 ws, rfl, rfl⟩

/-- Storing a codeword stream keeps the form. -/
theorem wf_storeStream (s : State) (n : Nat) (ws : List Byte) (hs : s.mem.wf = true) :
    (storeStream s n ws).mem.wf = true := by
  obtain ⟨h1, h2, -, h4⟩ := wf_iff.mp hs
  exact wf_iff.mpr ⟨h1, h2, cellsRising_cellsFrom 0 ws, h4⟩

/-- Storing a matrix keeps the form. -/
theorem wf_storeMatrix (s : State) (kind : MatrixKind) (cells : List Module) (hs : s.mem.wf = true) :
    (storeMatrix s kind cells).mem.wf = true := by
  obtain ⟨h1, h2, h3, -⟩ := wf_iff.mp hs
  exact wf_iff.mpr ⟨h1, h2, h3, cellsRising_cellsFrom 0 cells⟩

end Sys2Proof.Laws
end

