-- ==== Sys2Proof/Laws/PerInstr.lean ====
section
/-!
SUPPORT. A statement about every instruction as syntax: its word is admitted by the opcode map's row of its mnemonic.
-/

namespace Sys2Proof.Laws.EncodesItsRow

/-- The word of a command matches the row of its own mnemonic, whatever its operands are (R93). -/
def Statement (i : Instr) : Prop :=
  ∃ row ∈ opcodeMap, row.mnemonic = i.mnemonic ∧ row.admits (encode i) = true

/-- A word that has the pattern's bits where the mask asks for them is admitted. -/
theorem admits_of_bits {row : OpcodeRow} {w : Word}
    (h : ∀ j : Fin 32, (row.mask.getLsbD j.val && w.getLsbD j.val) = row.pattern.getLsbD j.val) :
    row.admits w = true := by
  simp only [OpcodeRow.admits, beq_iff_eq]
  apply BitVec.eq_of_getLsbD_eq
  intro j hj
  rw [BitVec.getLsbD_and, Bool.and_comm]
  exact h ⟨j, hj⟩

theorem reset : Statement .reset := ⟨⟨"RESET", 0x01000000, 0xFFFFFFFF⟩, by decide, rfl, by decide⟩
theorem append : Statement .append := ⟨⟨"APPEND", 0x04000000, 0xFFFFFFFF⟩, by decide, rfl, by decide⟩
theorem rsenc : Statement .rsenc := ⟨⟨"RSENC", 0x07000000, 0xFFFFFFFF⟩, by decide, rfl, by decide⟩
theorem mplace : Statement .mplace := ⟨⟨"MPLACE", 0x08000000, 0xFFFFFFFF⟩, by decide, rfl, by decide⟩
theorem masksel : Statement .masksel := ⟨⟨"MASKSEL", 0x09000000, 0xFFFFFFFF⟩, by decide, rfl, by decide⟩
theorem ld : Statement .ld := ⟨⟨"LD", 0x0E000000, 0xFFFFFFFF⟩, by decide, rfl, by decide⟩

theorem cfg (ecl : EcLevel) (maxver : BitVec 6) (sa : Bool) (cs : BitVec 8) : Statement (.cfg ecl maxver sa cs) := by
  refine ⟨⟨"CFG", 0x02000000, 0xFF00007F⟩, by decide, rfl, admits_of_bits ?_⟩
  intro j
  simp only [encode, BitVec.getLsbD_append]
  fin_cases j <;> simp

theorem setlen (n : BitVec 16) : Statement (.setlen n) := by
  refine ⟨⟨"SETLEN", 0x03000000, 0xFFFF0000⟩, by decide, rfl, admits_of_bits ?_⟩
  intro j
  simp only [encode, BitVec.getLsbD_append]
  fin_cases j <;> simp

theorem render (k : BitVec 4) : Statement (.render k) := by
  refine ⟨⟨"RENDER", 0x05000000, 0xFFFFFFF0⟩, by decide, rfl, admits_of_bits ?_⟩
  intro j
  simp only [encode, BitVec.getLsbD_append]
  fin_cases j <;> simp

theorem bitasm (k : BitVec 4) : Statement (.bitasm k) := by
  refine ⟨⟨"BITASM", 0x06000000, 0xFFFFFFF0⟩, by decide, rfl, admits_of_bits ?_⟩
  intro j
  simp only [encode, BitVec.getLsbD_append]
  fin_cases j <;> simp

theorem setw (ver : BitVec 6) (ecl : EcLevel) : Statement (.setw ver ecl) := by
  refine ⟨⟨"SETW", 0x0A000000, 0xFFFFFF00⟩, by decide, rfl, admits_of_bits ?_⟩
  intro j
  simp only [encode, BitVec.getLsbD_append]
  fin_cases j <;> simp

theorem modesel (mode : BitVec 3) (ver : BitVec 6) (idx : BitVec 15) : Statement (.modesel mode ver idx) := by
  refine ⟨⟨"MODESEL", 0x0B000000, 0xFF000000⟩, by decide, rfl, admits_of_bits ?_⟩
  intro j
  simp only [encode, BitVec.getLsbD_append]
  fin_cases j <;> simp

theorem gfmul (a b : BitVec 8) : Statement (.gfmul a b) := by
  refine ⟨⟨"GFMUL", 0x0C000000, 0xFFFF0000⟩, by decide, rfl, admits_of_bits ?_⟩
  intro j
  simp only [encode, BitVec.getLsbD_append]
  fin_cases j <;> simp

theorem seta (space : BitVec 4) (idx : BitVec 20) : Statement (.seta space idx) := by
  refine ⟨⟨"SETA", 0x0D000000, 0xFF000000⟩, by decide, rfl, admits_of_bits ?_⟩
  intro j
  simp only [encode, BitVec.getLsbD_append]
  fin_cases j <;> simp

theorem st (v : BitVec 16) : Statement (.st v) := by
  refine ⟨⟨"ST", 0x0F000000, 0xFFFF0000⟩, by decide, rfl, admits_of_bits ?_⟩
  intro j
  simp only [encode, BitVec.getLsbD_append]
  fin_cases j <;> simp

theorem rdr (regno : BitVec 8) : Statement (.rdr regno) := by
  refine ⟨⟨"RDR", 0x10000000, 0xFFFFFF00⟩, by decide, rfl, admits_of_bits ?_⟩
  intro j
  simp only [encode, BitVec.getLsbD_append]
  fin_cases j <;> simp

end Sys2Proof.Laws.EncodesItsRow
end

