-- ==== Sys2Proof/Laws/Rom.lean ====
section
/-!
SUPPORT. The constant tables against the defining formulas the spec prints beside them (R93, R384, R391, R393, R397).
-/

namespace Sys2Proof.Laws

open Sys2Proof.Machine

/-- No two rows of the opcode map admit a common word (R93). -/
theorem opcodeMap_disjoint : opcodeMap.Pairwise fun a b => a.disjoint b = true := by decide

/-- Two disjoint rows never admit the same word. -/
theorem disjoint_sound {a b : OpcodeRow} (h : a.disjoint b = true) {w : Word} (ha : a.admits w = true) :
    b.admits w = false := by
  by_contra hb
  simp only [OpcodeRow.admits, beq_iff_eq, Bool.not_eq_false] at ha hb
  simp only [OpcodeRow.disjoint, bne_iff_ne, ne_eq] at h
  apply h
  rw [← ha, ← hb]
  ext i hi
  have hz : (0 : Word)[i] = false := BitVec.getElem_zero hi
  rw [hz, BitVec.getElem_and, BitVec.getElem_xor, BitVec.getElem_and, BitVec.getElem_and, BitVec.getElem_and]
  cases w[i] <;> cases a.mask[i] <;> cases b.mask[i] <;> rfl

/-- The two formulas of R384 give the codeword totals of the table. -/
theorem totalCW_eq_rawModules : ∀ v ∈ List.range' 1 40, totalCW v = rawModules v / 8 := by decide

/-- No symbol has more codewords than the buffers have cells (R7, R385). -/
theorem totalCW_le_fcwSize : ∀ v ∈ List.range 41, totalCW v ≤ fcwSize := by decide

/-- No symbol has more data codewords than the data buffer has cells (R7, R385). -/
theorem dataCW_le_dcwSize : ∀ ecl, ∀ v ∈ List.range 41, dataCW ecl v ≤ dcwSize := by
  intro ecl
  cases ecl <;> decide

/-- The remainder of R391: ten shifts by the degree-10 generator. -/
def formatRemainder : Nat → Nat → Nat
  | 0, r => r
  | n + 1, r => formatRemainder n ((r <<< 1) ^^^ ((r >>> 9) * 0x537))

/-- The 2-bit level indicator of the format information (R391); it is not the register code. -/
def levelInd : EcLevel → Nat
  | .l => 1
  | .m => 0
  | .q => 3
  | .h => 2

/-- The format table is the BCH code of R391 under its mask. -/
theorem formatBits_eq_bch : ∀ ecl, ∀ m ∈ List.range 8,
    (formatBits ecl m).toNat =
      (((levelInd ecl * 8 + m) <<< 10) ||| formatRemainder 10 (levelInd ecl * 8 + m)) ^^^ 0x5412 := by
  intro ecl
  cases ecl <;> decide

/-- The remainder of R393: twelve shifts by the degree-12 generator. -/
def versionRemainder : Nat → Nat → Nat
  | 0, r => r
  | n + 1, r => versionRemainder n ((r <<< 1) ^^^ ((r >>> 11) * 0x1F25))

/-- The version table is the code of R393. -/
theorem versionBits_eq_bch : ∀ v ∈ List.range' 7 34,
    (versionBits v).toNat = (v <<< 12) ||| versionRemainder 12 v := by decide

/-- Three of the generator polynomials R397 lists. -/
theorem gen_values :
    gen 7 = [1, 127, 122, 154, 164, 11, 68, 117] ∧
      gen 13 = [1, 137, 73, 227, 17, 177, 17, 52, 13, 46, 43, 83, 132, 120] ∧
      gen 17 = [1, 119, 66, 83, 120, 119, 22, 197, 83, 249, 41, 143, 134, 85, 53, 125, 99, 79] := by decide

/-- The longest generator polynomial R397 lists. -/
theorem gen_thirty : gen 30 =
    [1, 212, 246, 77, 73, 195, 192, 75, 98, 5, 70, 103, 177, 22, 217, 138, 51, 181, 246, 72, 25, 18, 46, 228, 74, 216,
      195, 11, 106, 130, 150] := by decide

end Sys2Proof.Laws
end

