-- ==== Sys2Proof/Laws/Stages.lean ====
section
/-!
SUPPORT. One lemma per command: every way it can end, and the state it then leaves. Later proofs cite these and never
unfold a command.
-/

namespace Sys2Proof.Laws

open Sys2Proof.Machine

/-! ### Session commands -/

/-- SETLEN ends in one of two ways (R133). -/
theorem setlen_cases (n : BitVec 16) (s : State) :
    (s.txtn.toNat < n.toNat ∧ setlen n s = argumentError s (n.setWidth 32)) ∨
      (n.toNat ≤ s.txtn.toNat ∧ setlen n s = .done { s with tlen := n } 0) := by
  by_cases h : s.txtn.toNat < n.toNat
  · exact .inl ⟨h, by simp [setlen, h]⟩
  · exact .inr ⟨Nat.le_of_not_lt h, by simp [setlen, h]⟩

/-- SETW ends in one of two ways (R134). -/
theorem setw_cases (ver : BitVec 6) (ecl : EcLevel) (s : State) :
    (versionOk ver.toNat = false ∧ setw ver ecl s = argumentError s (ver.setWidth 32)) ∨
      (versionOk ver.toNat = true ∧ setw ver ecl s = .done (openContext s ver ecl 0 []) 0) := by
  cases h : versionOk ver.toNat
  · exact .inl ⟨rfl, by simp [setw, h]⟩
  · exact .inr ⟨rfl, by simp [setw, h]⟩

/-- CFG ends in one of four ways, in the order of its checks (R132). -/
theorem cfg_cases (p : Platform) (ecl : EcLevel) (maxver : BitVec 6) (sa : Bool) (cs : BitVec 8) (s : State) :
    (cfgAccepted s.phase = false ∧ cfg p ecl maxver sa cs s = sequenceError s) ∨
      (cfgAccepted s.phase = true ∧ versionOk maxver.toNat = false ∧
        cfg p ecl maxver sa cs s = .raised s .config 1) ∨
      (cfgAccepted s.phase = true ∧ versionOk maxver.toNat = true ∧ p.csKnown cs = false ∧
        cfg p ecl maxver sa cs s = .raised s .config 2) ∨
      (cfgAccepted s.phase = true ∧ versionOk maxver.toNat = true ∧ p.csKnown cs = true ∧
        cfg p ecl maxver sa cs s =
          .done { newSymbol (openGroup ecl maxver sa cs s) with phase := .building } 0) := by
  cases h1 : cfgAccepted s.phase <;> cases h2 : versionOk maxver.toNat <;> cases h3 : p.csKnown cs <;>
    simp [cfg, h1, h2, h3]

/-! ### Stage commands -/

/-- BITASM ends in one of five ways (R241). -/
theorem bitasm_cases (k : BitVec 4) (s : State) :
    (renderAccepted s.phase = false ∧ bitasm k s = sequenceError s) ∨
      (renderAccepted s.phase = true ∧ symbolExists s k = false ∧ bitasm k s = argumentError s (k.setWidth 32)) ∨
      (renderAccepted s.phase = true ∧ symbolExists s k = true ∧ (s.slot k).segs = [] ∧
        bitasm k s = sequenceError s) ∨
      (renderAccepted s.phase = true ∧ symbolExists s k = true ∧ (s.slot k).segs ≠ [] ∧
        versionOk (s.slot k).ver.toNat = false ∧ bitasm k s = .stuck .versionOutsideTables) ∨
      (renderAccepted s.phase = true ∧ symbolExists s k = true ∧ (s.slot k).segs ≠ [] ∧
        versionOk (s.slot k).ver.toNat = true ∧
        bitasm k s = .done
          { openContext s (s.slot k).ver s.group.ecl (dataCW s.group.ecl (s.slot k).ver.toNat)
              (fillCodewords (dataCW s.group.ecl (s.slot k).ver.toNat) (usedBits s k)) with
            wsym := k, phase := .rendered }
          (BitVec.ofNat 32 (usedBits s k).length)) := by
  cases h1 : renderAccepted s.phase <;> cases h2 : symbolExists s k <;> by_cases h3 : (s.slot k).segs = [] <;>
    cases h4 : versionOk (s.slot k).ver.toNat <;> simp [bitasm, h1, h2, h3, h4]

/-- RSENC ends in one of five ways (R270). -/
theorem rsenc_cases (s : State) :
    (contextOpen s = false ∧ rsenc s = sequenceError s) ∨
      (contextOpen s = true ∧ versionOk s.wver.toNat = false ∧ rsenc s = .stuck .versionOutsideTables) ∨
      (contextOpen s = true ∧ versionOk s.wver.toNat = true ∧ dataComplete s = false ∧ rsenc s = sequenceError s) ∨
      (contextOpen s = true ∧ versionOk s.wver.toNat = true ∧ dataComplete s = true ∧
        firstCells s.mem.dcw s.dcwn.toNat = none ∧ rsenc s = .stuck .unwrittenRead) ∨
      (contextOpen s = true ∧ versionOk s.wver.toNat = true ∧ dataComplete s = true ∧
        ∃ d, firstCells s.mem.dcw s.dcwn.toNat = some d ∧
          rsenc s = .done (storeStream s (totalCW s.wver.toNat) (codewordStream s.wecl s.wver.toNat d))
            (BitVec.ofNat 32 (totalCW s.wver.toNat))) := by
  cases h1 : contextOpen s <;> cases h2 : versionOk s.wver.toNat <;> cases h3 : dataComplete s <;>
    cases h4 : firstCells s.mem.dcw s.dcwn.toNat <;> simp [rsenc, h1, h2, h3, h4]

/-- MPLACE ends in one of five ways (R291). -/
theorem mplace_cases (s : State) :
    (contextOpen s = false ∧ mplace s = sequenceError s) ∨
      (contextOpen s = true ∧ versionOk s.wver.toNat = false ∧ mplace s = .stuck .versionOutsideTables) ∨
      (contextOpen s = true ∧ versionOk s.wver.toNat = true ∧ streamComplete s = false ∧
        mplace s = sequenceError s) ∨
      (contextOpen s = true ∧ versionOk s.wver.toNat = true ∧ streamComplete s = true ∧
        firstCells s.mem.fcw s.fcwn.toNat = none ∧ mplace s = .stuck .unwrittenRead) ∨
      (contextOpen s = true ∧ versionOk s.wver.toNat = true ∧ streamComplete s = true ∧
        ∃ ws, firstCells s.mem.fcw s.fcwn.toNat = some ws ∧
          mplace s = .done (storeMatrix s .premask (premaskMatrix s.wver.toNat ws).flatten)
            (BitVec.ofNat 32 s.side)) := by
  cases h1 : contextOpen s <;> cases h2 : versionOk s.wver.toNat <;> cases h3 : streamComplete s <;>
    cases h4 : firstCells s.mem.fcw s.fcwn.toNat <;> simp [mplace, h1, h2, h3, h4]

/-- MASKSEL ends in one of four ways; when it succeeds, the matrix is the candidate of the mask it selected (R339). -/
theorem masksel_cases (s : State) :
    (s.mmv ≠ .premask ∧ masksel s = sequenceError s) ∨
      (s.mmv = .premask ∧ versionOk s.wver.toNat = false ∧ masksel s = .stuck .versionOutsideTables) ∨
      (s.mmv = .premask ∧ versionOk s.wver.toNat = true ∧ firstCells s.mem.mm (s.side * s.side) = none ∧
        masksel s = .stuck .unwrittenRead) ∨
      (s.mmv = .premask ∧ versionOk s.wver.toNat = true ∧
        ∃ cells penc, firstCells s.mem.mm (s.side * s.side) = some cells ∧
          (∀ m : Fin 8, penc[m] =
            penaltyTerms s.side (candidate (rowsOf s.side s.side cells) s.wecl s.wver.toNat m.val)) ∧
          masksel s = .done
            { storeMatrix s .final
                (candidate (rowsOf s.side s.side cells) s.wecl s.wver.toNat
                  (selectMask (penc.map penaltyTotal)).val).flatten with
              penc := penc, pen := penc.map penaltyTotal,
              maskref := BitVec.ofFin (selectMask (penc.map penaltyTotal)) }
            (BitVec.ofNat 32 (selectMask (penc.map penaltyTotal)).val)) := by
  by_cases h1 : s.mmv = .premask
  · cases h2 : versionOk s.wver.toNat
    · exact .inr (.inl ⟨h1, rfl, by simp [masksel, h1, h2]⟩)
    · cases h3 : firstCells s.mem.mm (s.side * s.side) with
      | none => exact .inr (.inr (.inl ⟨h1, rfl, rfl, by simp [masksel, h1, h2, h3]⟩))
      | some cells =>
        refine .inr (.inr (.inr ⟨h1, rfl, cells, _, rfl, ?_, by simp only [masksel, h1, h2, h3]; rfl⟩))
        intro m
        fin_cases m <;> rfl
  · exact .inl ⟨h1, by simp [masksel, h1]⟩

/-! ### Access commands -/

/-- LD ends in one of three ways (R362). -/
theorem load_cases (s : State) :
    (∃ v, memRead s s.aspace s.aidx.toNat = .value v ∧ load s = .done (advanceAidx s) v) ∨
      (memRead s s.aspace s.aidx.toNat = .refused ∧ load s = addressError s (s.aidx.setWidth 32)) ∨
      (memRead s s.aspace s.aidx.toNat = .unwritten ∧ load s = .stuck .unwrittenRead) := by
  cases h : memRead s s.aspace s.aidx.toNat <;> simp [load, h]

/-- ST ends in one of two ways (R363). -/
theorem store_cases (p : Platform) (v : BitVec 16) (s : State) :
    (∃ t, memWrite p s s.aspace s.aidx.toNat v = some t ∧ store p v s = .done (advanceAidx t) 0) ∨
      (memWrite p s s.aspace s.aidx.toNat v = none ∧ store p v s = addressError s (s.aidx.setWidth 32)) := by
  cases h : memWrite p s s.aspace s.aidx.toNat v <;> simp [store, h]

/-- SETA ends in one of two ways (R361). -/
theorem seta_cases (space : BitVec 4) (idx : BitVec 20) (s : State) :
    (∃ sp, spaceOfId space = some sp ∧ seta space idx s = .done { s with aspace := sp, aidx := idx } 0) ∨
      (spaceOfId space = none ∧ seta space idx s = addressError s (space.setWidth 32)) := by
  cases h : spaceOfId space <;> simp [seta, h]

/-- RDR ends in one of two ways (R364). -/
theorem readRegister_cases (regno : BitVec 8) (s : State) :
    (∃ v, registerValue s regno = some v ∧ readRegister regno s = .done s v) ∨
      (registerValue s regno = none ∧ readRegister regno s = argumentError s (regno.setWidth 32)) := by
  cases h : registerValue s regno <;> simp [readRegister, h]

/-- MODESEL leaves the state it found, whatever it answers (R190: "Writes: nothing"). -/
theorem modesel_state {p : Platform} {mode : BitVec 3} {ver : BitVec 6} {idx : BitVec 15} {s t : State}
    (h : stateOf (modesel p mode ver idx s) = some t) : t = s := by
  simp only [modesel] at h
  repeat' split at h
  all_goals simp_all

end Sys2Proof.Laws
end

