-- ==== Sys2Proof/Laws/Step.lean ====
section
/-!
SUPPORT. The dispatch, constructor by constructor, and what a step is made of (R8, R94).
-/

namespace Sys2Proof.Laws

open Sys2Proof.Machine

/-- The result of a command's rule, before it is turned into the response. -/
def resultOf (i : Instr) (s : State) : Result :=
  match i with
  | .reset => resetCommand s
  | .cfg ecl maxver sa cs => cfg Config.platform ecl maxver sa cs s
  | .setlen n => setlen n s
  | .append => append Config.platform s
  | .render k => render k s
  | .bitasm k => bitasm k s
  | .rsenc => rsenc s
  | .mplace => mplace s
  | .masksel => masksel s
  | .setw ver ecl => setw ver ecl s
  | .modesel mode ver idx => modesel Config.platform mode ver idx s
  | .gfmul a b => gfmulCommand a b s
  | .seta space idx => seta space idx s
  | .ld => load s
  | .st v => store Config.platform v s
  | .rdr regno => readRegister regno s

/-- Every command ends through the one shared operation `Result.finish` (R98, R410). -/
theorem exec_eq_finish (i : Instr) (s : State) : exec i s = (resultOf i s).finish := by
  cases i <;> rfl

/-- No command is refused. -/
theorem exec_ne_refused (i : Instr) (s : State) (x : Refusal) : exec i s ≠ .refused x := by
  rw [exec_eq_finish]
  exact finish_ne_refused _ x

/-- A command that completes leaves the state of its result, with one response more. -/
theorem exec_eq_next {i : Instr} {s t : State} (h : exec i s = .next t) :
    ∃ u res val, stateOf (resultOf i s) = some u ∧ t = respond u res val :=
  finish_eq_next (by rw [← exec_eq_finish]; exact h)

/-- A step that gives a next state took a word: an illegal one and answered it, or a command and executed it. -/
theorem step_eq_next {s t : State} (h : step s = .next t) :
    ∃ w rest, s.cmds = w :: rest ∧
      ((∃ i, decode w = .ok i ∧ exec i { s with cmds := rest } = .next t) ∨
        (∃ e, decode w = .error e ∧ t = respond { s with cmds := rest } .illegal w)) := by
  cases hc : s.cmds with
  | nil => simp [step, takeCommand, hc] at h
  | cons w rest =>
    refine ⟨w, rest, rfl, ?_⟩
    cases hd : decode w with
    | ok i => exact .inl ⟨i, rfl, by simpa [step, takeCommand, hc, hd] using h⟩
    | error e => exact .inr ⟨e, rfl, by simpa [step, takeCommand, hc, hd, illegalWord] using h.symm⟩

end Sys2Proof.Laws
end

