-- ==== Sys2Proof/Tests/Slice0.lean ====
section
/-!
SUPPORT. Named tests: words that are no command, words written out from the encodings, one or two steps per command
against the spec's own vectors (95_test_vectors.md and the rules' examples), and for every statement of the Obligations
a witness that its hypotheses can be met, clause by clause.
-/

namespace Sys2Proof.Tests

open Sys2Proof Sys2Proof.Machine Sys2Proof.Claims

/-! ### Words that are no command (R94): one for every check -/

theorem test_illegal_opcode_zero : decode 0x00000000 = .error .unknownOpcode := by decide
theorem test_illegal_opcode_above : decode 0x11000000 = .error .unknownOpcode := by decide
theorem test_illegal_opcode_ff : decode 0xFF000000 = .error .unknownOpcode := by decide
theorem test_illegal_reset : decode 0x01000001 = .error .reservedBits := by decide
theorem test_illegal_cfg : decode 0x0200A101 = .error .reservedBits := by decide
theorem test_illegal_setlen : decode 0x03010000 = .error .reservedBits := by decide
theorem test_illegal_append : decode 0x04800000 = .error .reservedBits := by decide
theorem test_illegal_render : decode 0x05000010 = .error .reservedBits := by decide
theorem test_illegal_bitasm : decode 0x06800000 = .error .reservedBits := by decide
theorem test_illegal_rsenc : decode 0x07000001 = .error .reservedBits := by decide
theorem test_illegal_mplace : decode 0x08000002 = .error .reservedBits := by decide
theorem test_illegal_masksel : decode 0x09000004 = .error .reservedBits := by decide
theorem test_illegal_setw : decode 0x0A000116 = .error .reservedBits := by decide
theorem test_illegal_gfmul : decode 0x0C010000 = .error .reservedBits := by decide
theorem test_illegal_ld : decode 0x0E000001 = .error .reservedBits := by decide
theorem test_illegal_st : decode 0x0F800048 = .error .reservedBits := by decide
theorem test_illegal_rdr : decode 0x10000100 = .error .reservedBits := by decide

/-- Every check above is the map's: these words match no row (R93). -/
theorem test_illegal_words_match_no_row :
    ([0x00000000, 0x11000000, 0x01000001, 0x0200A101, 0x03010000, 0x05000010, 0x0A000116, 0x0C010000, 0x10000100] :
      List Word).all (fun w => !wordWellFormed w) = true := by decide

/-! ### Words written out bit by bit from the encoding (R91, R93), a command per row -/

theorem test_decode_reset : decode 0b00000001_000000000000000000000000 = .ok .reset := by decide
/-- `cs = 0`, `maxver = 40`, `ecl = M`, `sa = 0` (the example of R96). -/
theorem test_decode_cfg : decode 0b00000010_00000000_101000_01_0_0000000 = .ok (.cfg .m 40 false 0) := by decide
theorem test_decode_cfg_high : decode 0b00000010_10000001_000001_11_1_0000000 = .ok (.cfg .h 1 true 0x81) := by decide
theorem test_decode_setlen : decode 0b00000011_00000000_1000000000000010 = .ok (.setlen 0x8002) := by decide
theorem test_decode_append : decode 0b00000100_000000000000000000000000 = .ok .append := by decide
theorem test_decode_render : decode 0b00000101_00000000000000000000_1001 = .ok (.render 9) := by decide
theorem test_decode_bitasm : decode 0b00000110_00000000000000000000_1111 = .ok (.bitasm 15) := by decide
theorem test_decode_rsenc : decode 0b00000111_000000000000000000000000 = .ok .rsenc := by decide
theorem test_decode_mplace : decode 0b00001000_000000000000000000000000 = .ok .mplace := by decide
theorem test_decode_masksel : decode 0b00001001_000000000000000000000000 = .ok .masksel := by decide
/-- `SETW 5, Q` (R134: 0x0A000016). -/
theorem test_decode_setw : decode 0b00001010_0000000000000000_000101_10 = .ok (.setw 5 .q) := by decide
/-- `MODESEL UNKNOWN, 5, 0` (R190: 0x0B028000). -/
theorem test_decode_modesel : decode 0b00001011_000_000101_000000000000000 = .ok (.modesel 0 5 0) := by decide
theorem test_decode_modesel_high : decode 0b00001011_100_101000_100000000000001 = .ok (.modesel 4 40 0x4001) := by decide
/-- `GFMUL 0x53, 0xCA` (R264). -/
theorem test_decode_gfmul : decode 0b00001100_00000000_01010011_11001010 = .ok (.gfmul 0x53 0xCA) := by decide
/-- `SETA QM, 0` (R361: 0x0D400000). -/
theorem test_decode_seta : decode 0b00001101_0100_00000000000000000000 = .ok (.seta 4 0) := by decide
theorem test_decode_seta_high : decode 0b00001101_0001_10000000000000000001 = .ok (.seta 1 0x80001) := by decide
theorem test_decode_ld : decode 0b00001110_000000000000000000000000 = .ok .ld := by decide
/-- `ST 0x0048` (R363). -/
theorem test_decode_st : decode 0b00001111_00000000_0000000001001000 = .ok (.st 0x48) := by decide
/-- `RDR S0.CAP` (R364: 0x10000081). -/
theorem test_decode_rdr : decode 0b00010000_0000000000000000_10000001 = .ok (.rdr 0x81) := by decide

/-! ### Small states -/

/-- A charset service as the vectors assume it: 0x20..0x7E to themselves, U+70B9 to `93 5F` in charset 0. -/
def platform : Platform where
  txtSize := 8192
  csKnown := fun cs => cs == 0 || cs == 1
  csBytes := fun cs ch =>
    if 0x20 ≤ ch.toNat && ch.toNat ≤ 0x7E then some (.one (ch.setWidth 8))
    else if cs == 0 && ch == 0x70B9 then some (.two 0x93 0x5F)
    else none

/-- A platform that knows no charset and encodes no character. -/
def silent : Platform := ⟨1, fun _ => false, fun _ _ => none⟩

/-- A string loaded into the text buffer, `TLEN` set. -/
def withText (s : State) (text : List CharCode) : State :=
  { s with
    mem := { s.mem with txt := cellsFrom 0 text }
    txtn := BitVec.ofNat 16 text.length, tlen := BitVec.ofNat 16 text.length }

/-- After `CFG M, 40, 0, 0` (R132's example). -/
def building : State :=
  { State.reset with
    phase := .building, group := ⟨.m, 40, false, 0, 1, 0, 1⟩
    slots := State.reset.slots.set 0 ⟨1, 128, 0, none, 0, 0, 0, 0, []⟩ }

/-- A group whose symbol 0 holds the ALPHANUMERIC segment `"AC-42"` (V-ENC-2). -/
def oneSymbol : State :=
  { building with
    slots := State.reset.slots.set 0
      ⟨1, 128, 41, some .alphanumeric, 0, 1, 0, 0, [⟨.alphanumeric, 5, [462, 1849, 2], 28⟩]⟩ }

/-- A group of two symbols with structured append: `"AC-42"`, and one that is still empty. -/
def twoSymbols : State :=
  { oneSymbol with
    group := ⟨.m, 40, true, 0, 1, 0x31, 2⟩
    slots := (State.reset.slots.set 0
      ⟨1, 108, 41, some .alphanumeric, 0, 1, 0, 0, [⟨.alphanumeric, 5, [462, 1849, 2], 28⟩]⟩).set 1
      ⟨1, 108, 0, none, 0, 0, 0, 0, []⟩ }

/-- A working context at version 1, level M, with all 16 data codewords 0. -/
def dataReady : State :=
  { State.reset with wver := 1, dcwn := 16, mem := { Memory.reset with dcw := cellsFrom 0 (List.replicate 16 0) } }

/-- A working context at version 1 with the whole stream of 26 codewords. -/
def streamReady : State :=
  { State.reset with wver := 1, fcwn := 26, mem := { Memory.reset with fcw := cellsFrom 0 (List.replicate 26 0) } }

/-- A matrix of 441 cells at version 1. -/
def matrixReady (kind : MatrixKind) : State :=
  { State.reset with wver := 1, mmv := kind, mem := { Memory.reset with mm := cellsFrom 0 (List.replicate 441 1) } }

/-- The same state with an access register pair. -/
def pointing (s : State) (space : Space) (idx : BitVec 20) : State := { s with aspace := space, aidx := idx }

/-! ### One step per command, against the spec's examples -/

/-- R131: RESET clears the group. -/
theorem test_reset_clears : exec .reset oneSymbol = .next (respond State.reset .ok 0) := by rfl

/-- R132's example: `CFG M, 40, 0, 0` from reset gives `S[0]` version 1 and capacity 128. -/
theorem test_cfg_example :
    (cfg platform .m 40 false 0 State.reset).finish = .next (respond building .ok 0) := by rfl

/-- R132's example: `CFG M, 41, 0, 0` answers `(ERR_CONFIG, 1)`. -/
theorem test_cfg_version : exec (.cfg .m 41 false 0) State.reset = .next (respond State.reset .config 1) := by rfl

/-- R133's example: two characters written, `SETLEN 3` answers `(ERR_ARGUMENT, 3)`. -/
theorem test_setlen_beyond :
    exec (.setlen 3) (withText building [0x48, 0x49]) =
      .next (respond (withText building [0x48, 0x49]) .argument 3) := by rfl

/-- R211, R216, R219: `"HI"` appended at 1-M is one ALPHANUMERIC segment: 4 + 9 + 11 bits, word `17·45 + 18`. -/
theorem test_append_two_letters :
    (match append platform (withText building [0x48, 0x49]) with
      | .done u val => (val, u.tpos, u.group.parity, u.cur.cnt, u.cur.segs)
      | _ => (99, 0, 0, 0, [])) = (1, 2, 0x01, 24, [⟨.alphanumeric, 2, [783], 11⟩]) := by decide

/-- R219: APPEND right after reset answers `(ERR_SEQUENCE, 0)` (R413's example). -/
theorem test_append_reset : exec .append State.reset = .next (respond State.reset .sequence 0) := by rfl

/-- V-ENC-2: BITASM of `"AC-42"` at 1-M. -/
theorem test_bitasm_ac42 :
    (match bitasm 0 oneSymbol with
      | .done u val => (val, u.mem.dcw.map Prod.snd)
      | _ => (0, [])) =
        (41, [0x20, 0x29, 0xCE, 0xE7, 0x21, 0x00, 0xEC, 0x11, 0xEC, 0x11, 0xEC, 0x11, 0xEC, 0x11, 0xEC, 0x11]) := by
  decide

/-- R269's example: the EC codewords of "HELLO WORLD" at 1-M. -/
theorem test_rs_hello_world :
    rsRemainder [0x20, 0x5B, 0x0B, 0x78, 0xD1, 0x72, 0xDC, 0x4D, 0x43, 0x40, 0xEC, 0x11, 0xEC, 0x11, 0xEC, 0x11] 10 =
      [0xC4, 0x23, 0x27, 0x77, 0xEB, 0xD7, 0xE7, 0xE2, 0x5D, 0x17] := by decide +kernel

/-- R270's example: `SETW 5, Q` and the 62 codewords `1 … 62`: the stream begins `01 10 1F 2F 02 11`. -/
theorem test_rsenc_interleave :
    (columns (slices (blockLengths .q 5) ((List.range' 1 62).map (BitVec.ofNat 8))) 16).take 8 =
      [0x01, 0x10, 0x1F, 0x2F, 0x02, 0x11, 0x20, 0x30] := by decide

/-- R302's example: where the traversal of version 1 starts and ends. -/
theorem test_mplace_traversal :
    (traversal 21).take 4 = [(20, 20), (20, 19), (19, 20), (19, 19)] ∧
      (traversal 21).drop 416 = [(19, 1), (19, 0), (20, 1), (20, 0)] := by
  decide +kernel

/-- R309's example: version 1 has 208 data cells and 233 function cells. -/
theorem test_mplace_free_cells : (functionPatterns 1).flatten.count 0 = 208 := by decide +kernel

/-- R331's examples. -/
theorem test_mask_conditions :
    maskCond 0 20 20 = true ∧ maskCond 4 5 7 = true ∧ maskCond 5 3 4 = true := by decide

/-- R334's and R336's examples: a line scores 8; a finder line scores one match, and none without the `4k` of light. -/
theorem test_masksel_lines :
    runPenalty ([true, true, true, true, true] ++ List.replicate 7 false) = 8 ∧
      ratioMatches ([false, false, false, false, true, false, true, true, true, false, true, false, false, false,
        false]) = 1 ∧
      ratioMatches ([false, false, false, true, false, true, true, true, false, true, false, false, false]) = 0 := by
  decide

/-- R134: SETW empties the stages' buffers. -/
theorem test_setw_empties :
    exec (.setw 40 .h) streamReady =
      .next (respond { State.reset with wver := 40, wecl := .h } .ok 0) := by rfl

/-- R191: the 23 digits at version 5 are NUMERIC from UNKNOWN. -/
theorem test_modesel_digits :
    (modesel platform 0 5 0 (withText State.reset (List.replicate 23 0x31))).finish =
      .next (respond (withText State.reset (List.replicate 23 0x31)) .ok 1) := by rfl

/-- R184's example: `"AB" + "a"` at tier 0 is BYTE. -/
theorem test_modesel_byte :
    (modesel platform 0 9 0 (withText State.reset [0x41, 0x42, 0x61])).finish =
      .next (respond (withText State.reset [0x41, 0x42, 0x61]) .ok 3) := by rfl

/-- R263's examples. -/
theorem test_gfmul_values :
    gfmul 2 0x80 = 0x1D ∧ gfmul 0x53 0xCA = 0x8F ∧ gfmul 0xFF 0xFF = 0xE2 ∧ gfmul 3 3 = 5 ∧ gfmul 0x8E 2 = 1 := by
  decide

/-- R361: space 5 is refused. -/
theorem test_seta_reserved : exec (.seta 5 0) State.reset = .next (respond State.reset .address 5) := by rfl

/-- R362: a matrix cell −3 is returned as 0xFFFFFFFD, and `AIDX` moves. -/
theorem test_ld_sign :
    exec .ld { pointing (matrixReady .final) .mm 0 with mem := { Memory.reset with mm := [(0, 0xD)] } } =
      .next (respond { pointing (matrixReady .final) .mm 1 with mem := { Memory.reset with mm := [(0, 0xD)] } } .ok
        0xFFFFFFFD) := by rfl

/-- R362: LD of an unwritten cell answers `(ERR_ADDRESS, AIDX)`. -/
theorem test_ld_unwritten :
    exec .ld (pointing State.reset .dcw 7) = .next (respond (pointing State.reset .dcw 7) .address 7) := by rfl

/-- R363: a store to `DCW` keeps the low 8 bits and extends the buffer. -/
theorem test_st_low_byte :
    exec (.st 0x1234) (pointing State.reset .dcw 0) =
      .next (respond { pointing State.reset .dcw 1 with dcwn := 1, mem := { Memory.reset with dcw := [(0, 0x34)] } }
        .ok 0) := by rfl

/-- R364's example: `RDR S0.CAP` is 128 after `CFGD`. -/
theorem test_rdr_cap : exec (.rdr 0x81) building = .next (respond building .ok 128) := by rfl

/-- R364's example: `RDR 0x40` answers `(ERR_ARGUMENT, 0x40)`. -/
theorem test_rdr_undefined : exec (.rdr 0x40) building = .next (respond building .argument 0x40) := by rfl

/-- R135's check order: `RENDER 3` with one empty symbol answers `(ERR_ARGUMENT, 3)` (R420's example). -/
theorem test_render_order : exec (.render 3) building = .next (respond building .argument 3) := by rfl

/-- P1 step 5 (95_test_vectors.md): candidate 0 of "HELLO WORLD" at 1-M scores 1031. -/
theorem test_masksel_hello_world :
    penaltyTotal (penaltyTerms 21 (candidate (premaskMatrix 1
      [0x20, 0x5B, 0x0B, 0x78, 0xD1, 0x72, 0xDC, 0x4D, 0x43, 0x40, 0xEC, 0x11, 0xEC, 0x11, 0xEC, 0x11,
        0xC4, 0x23, 0x27, 0x77, 0xEB, 0xD7, 0xE7, 0xE2, 0x5D, 0x17]) .m 1 0)) = 1031 := by decide +kernel

/-! ### Witnesses: every statement's hypotheses can be met, clause by clause -/

/-- DecodeIsTheMap: a word that is a command. -/
theorem test_witness_DecodeIsTheMap : ∃ i, decode 0x0D400000 = .ok i := ⟨.seta 4 0, by decide⟩

/-- IllegalWordChangesNothing: an unknown opcode at either end, and a known opcode with a reserved bit. -/
theorem test_witness_IllegalWordChangesNothing :
    { State.reset with cmds := [0x00000000] }.cmds = 0x00000000 :: [] ∧
      (∀ row ∈ opcodeMap, (0x00000000 : Word) &&& row.mask ≠ row.pattern) ∧
      field 0x00000000 24 8 = 0 ∧ 0x11 ≤ (field 0x11000000 24 8).toNat ∧
      ⟨"RESET", 0x01000000, 0xFFFFFFFF⟩ ∈ opcodeMap ∧ field 0x01000001 24 8 = field 0x01000000 24 8 := by decide

/-- StepRunsDecoded: a presented word that decodes; and no word presented. -/
theorem test_witness_StepRunsDecoded :
    { State.reset with cmds := [0x0E000000] }.cmds = 0x0E000000 :: [] ∧ decode 0x0E000000 = .ok .ld ∧
      State.reset.cmds = [] := by decide

/-- OneResponse: a step that gives a next state. -/
theorem test_witness_OneResponse :
    step { State.reset with cmds := [0x0E000000] } = .next (respond State.reset .address 0) := by rfl

/-- CfgOpensGroup: the success at both ends of the version range, and each refusal. -/
theorem test_witness_CfgOpensGroup :
    State.reset.phase = .unconfigured ∧ 1 ≤ (1 : BitVec 6).toNat ∧ (1 : BitVec 6).toNat ≤ 40 ∧
      1 ≤ (40 : BitVec 6).toNat ∧ (40 : BitVec 6).toNat ≤ 40 ∧ Config.platform.csKnown 0 = true ∧
      building.phase ≠ .unconfigured ∧ (0 : BitVec 6).toNat = 0 ∧ 40 < (41 : BitVec 6).toNat ∧
      silent.csKnown 0 = false :=
  ⟨rfl, by decide, by decide, by decide, by decide, rfl, by decide, rfl, by decide, rfl⟩

/-- The buffers agree after reset with one text cell written. -/
theorem test_buffers_agree :
    BuffersAgree Config.platform
      { State.reset with mem := { Memory.reset with txt := cellsFrom 0 [0x31] }, txtn := 1, tlen := 1 } where
  txt := by decide
  dcw := by decide
  fcw := by decide
  mm := by decide
  txtSize := Nat.succ_le_succ (Nat.zero_le _)
  dcwSize := by decide
  fcwSize := by decide
  string := by decide
  version := by decide
  matrix := by decide

/-- SetlenSets: the boundary `n = TXTN`, the first refused `n`, the buffer invariant, and a store. -/
theorem test_witness_SetlenSets :
    (1 : BitVec 16).toNat ≤ (withText building [0x31]).txtn.toNat ∧
      (withText building [0x31]).txtn.toNat < (2 : BitVec 16).toNat ∧
      (∃ s, BuffersAgree Config.platform s ∧ (1 : BitVec 16).toNat ≤ s.txtn.toNat) ∧
      exec (.st 5) (pointing State.reset .dcw 0) =
        .next (respond { pointing State.reset .dcw 1 with dcwn := 1, mem := { Memory.reset with dcw := [(0, 5)] } }
          .ok 0) :=
  ⟨by decide, by decide, ⟨_, test_buffers_agree, by decide⟩, rfl⟩

/-- SetwOpens: both ends of the range and both first values outside it. -/
theorem test_witness_SetwOpens :
    1 ≤ (1 : BitVec 6).toNat ∧ (40 : BitVec 6).toNat ≤ 40 ∧ (0 : BitVec 6).toNat = 0 ∧ 40 < (41 : BitVec 6).toNat := by
  decide

/-- RenderBitasmRefuse: no group; the first index that is no symbol; a symbol without a segment. -/
theorem test_witness_RenderBitasmRefuse :
    State.reset.phase = .unconfigured ∧ oneSymbol.phase ≠ .unconfigured ∧
      oneSymbol.group.symcnt.toNat ≤ (1 : BitVec 4).toNat ∧ building.phase ≠ .unconfigured ∧
      (0 : BitVec 4).toNat < building.group.symcnt.toNat ∧ (building.slot 0).segs = [] := by decide

/-- RenderIsFourStages, RenderTwice, BitasmCompletes: a group, a symbol of it with a segment, a version of the tables. -/
theorem test_witness_RenderIsFourStages :
    oneSymbol.phase ≠ .unconfigured ∧ (0 : BitVec 4).toNat < oneSymbol.group.symcnt.toNat ∧
      (oneSymbol.slot 0).segs ≠ [] ∧ 1 ≤ (oneSymbol.slot 0).ver.toNat ∧ (oneSymbol.slot 0).ver.toNat ≤ 40 := by decide

theorem test_witness_RenderTwice :
    oneSymbol.phase ≠ .unconfigured ∧ (0 : BitVec 4).toNat < oneSymbol.group.symcnt.toNat ∧
      (oneSymbol.slot 0).segs ≠ [] ∧ 1 ≤ (oneSymbol.slot 0).ver.toNat ∧ (oneSymbol.slot 0).ver.toNat ≤ 40 :=
  test_witness_RenderIsFourStages

theorem test_witness_BitasmCompletes :
    oneSymbol.phase ≠ .unconfigured ∧ (0 : BitVec 4).toNat < oneSymbol.group.symcnt.toNat ∧
      (oneSymbol.slot 0).segs ≠ [] ∧ 1 ≤ (oneSymbol.slot 0).ver.toNat ∧ (oneSymbol.slot 0).ver.toNat ≤ 40 ∧
      (usedBits oneSymbol 0).length ≤ 8 * 16 := by decide

/-- StageRefusals: no context, one codeword short, one over, and both matrices MASKSEL refuses. -/
theorem test_witness_StageRefusals :
    State.reset.wver = 0 ∧ 1 ≤ dataReady.wver.toNat ∧ dataReady.wver.toNat ≤ 40 ∧
      { dataReady with dcwn := 15 }.dcwn.toNat ≠ dataCW dataReady.wecl dataReady.wver.toNat ∧
      { dataReady with dcwn := 17 }.dcwn.toNat ≠ dataCW dataReady.wecl dataReady.wver.toNat ∧
      { streamReady with fcwn := 25 }.fcwn.toNat ≠ totalCW streamReady.wver.toNat ∧
      State.reset.mmv = .empty ∧ (matrixReady .final).mmv = .final := by decide

/-- The three stages after BITASM succeed on the small states. -/
theorem test_rsenc_runs : ∃ t, exec .rsenc dataReady = .next t := by
  rcases Laws.rsenc_cases dataReady with h | h | h | h | ⟨-, -, -, d, -, h⟩
  · exact absurd h.1 (by decide)
  · exact absurd h.2.1 (by decide)
  · exact absurd h.2.2.1 (by decide)
  · exact absurd h.2.2.2.1 (by decide)
  · exact ⟨_, by rw [exec, execRsenc, h, Laws.finish_done]⟩

theorem test_mplace_runs : ∃ t, exec .mplace streamReady = .next t := by
  rcases Laws.mplace_cases streamReady with h | h | h | h | ⟨-, -, -, ws, -, h⟩
  · exact absurd h.1 (by decide)
  · exact absurd h.2.1 (by decide)
  · exact absurd h.2.2.1 (by decide)
  · exact absurd h.2.2.2.1 (by decide)
  · exact ⟨_, by rw [exec, execMplace, h, Laws.finish_done]⟩

/-- The cells of the small matrix can all be read. -/
theorem test_matrix_readable (kind : MatrixKind) :
    firstCells (matrixReady kind).mem.mm ((matrixReady kind).side * (matrixReady kind).side) =
      some (List.replicate 441 1) := by
  have h : (List.replicate 441 (1 : Module)).length = (matrixReady kind).side * (matrixReady kind).side := by
    rw [List.length_replicate]; rfl
  rw [← h]
  exact Laws.firstCells_cellsFrom _

theorem test_masksel_runs : ∃ t, exec .masksel (matrixReady .premask) = .next t := by
  rcases Laws.masksel_cases (matrixReady .premask) with h | h | h | ⟨-, -, cells, penc, -, -, h⟩
  · exact absurd rfl h.1
  · exact absurd h.2.1 (by decide)
  · rw [test_matrix_readable] at h
    exact absurd h.2.2.1 (Option.some_ne_none _)
  · exact ⟨_, by rw [exec, execMasksel, h, Laws.finish_done]⟩

theorem test_bitasm_runs : ∃ t, exec (.bitasm 0) oneSymbol = .next t := by
  rcases Laws.bitasm_cases 0 oneSymbol with h | h | h | h | h
  · exact absurd h.1 (by decide)
  · exact absurd h.2.1 (by decide)
  · exact absurd h.2.2.1 (by decide)
  · exact absurd h.2.2.2.1 (by decide)
  · exact ⟨_, by rw [exec, execBitasm, h.2.2.2.2, Laws.finish_done]⟩

/-- StageFrames: each of the five gives a next state somewhere. -/
theorem test_witness_StageFrames :
    (∃ t, exec (.bitasm 0) oneSymbol = .next t) ∧ (∃ t, exec .rsenc dataReady = .next t) ∧
      (∃ t, exec .mplace streamReady = .next t) ∧ (∃ t, exec .masksel (matrixReady .premask) = .next t) ∧
      ∃ t, exec (.render 0) building = .next t :=
  ⟨test_bitasm_runs, test_rsenc_runs, test_mplace_runs, test_masksel_runs, ⟨_, rfl⟩⟩

/-- StagesArePure: two equal states that complete each stage. -/
theorem test_witness_StagesArePure :
    dataComplete dataReady = true ∧ dataReady.wver ≠ 0 ∧ (∃ t, exec .rsenc dataReady = .next t) ∧
      streamComplete streamReady = true ∧ streamReady.wver ≠ 0 ∧ (∃ t, exec .mplace streamReady = .next t) ∧
      (matrixReady .premask).mmv = .premask ∧ ∃ t, exec .masksel (matrixReady .premask) = .next t :=
  ⟨by decide, by decide, test_rsenc_runs, by decide, by decide, test_mplace_runs, rfl, test_masksel_runs⟩

/-- AppendRefusals: another phase; and BUILDING with an empty string. -/
theorem test_witness_AppendRefusals :
    State.reset.phase ≠ .building ∧ building.phase = .building ∧ building.tlen = 0 := by decide

/-- AppendCompletes, AppendParity: a state APPEND starts from. -/
theorem test_append_ready : AppendReady (withText building [0x48, 0x49]) [0x48, 0x49] where
  phase := rfl
  string := by decide
  nonempty := by decide
  symbol := by decide
  version := by decide
  minver := by decide
  maxver := by decide
  mode := by decide

theorem test_witness_AppendCompletes : ∃ s text, AppendReady s text := ⟨_, _, test_append_ready⟩

/-- AppendTakesWholeText: two supported letters and room for them. -/
theorem test_witness_AppendTakesWholeText :
    AppendReady (withText building [0x48, 0x49]) [0x48, 0x49] ∧
      (∀ ch ∈ ([0x48, 0x49] : List CharCode),
        supported platform (withText building [0x48, 0x49]).group.charset ch = true) ∧
      (withText building [0x48, 0x49]).cur.cnt.toNat + 52 * ([0x48, 0x49] : List CharCode).length ≤
        (withText building [0x48, 0x49]).cur.cap.toNat :=
  ⟨test_append_ready, List.all_eq_true.mp (by decide), by decide⟩

/-- Whether a command answers. -/
def answers (r : Result) : Bool :=
  match r with
  | .done _ _ => true
  | .raised _ _ _ => true
  | .stuck _ => false

/-- A command that answers gives a next state. -/
theorem test_answers_runs {r : Result} (h : answers r = true) : ∃ t, r.finish = .next t := by
  cases r with
  | done s v => exact ⟨_, rfl⟩
  | raised s e v => exact ⟨_, rfl⟩
  | stuck f => exact Bool.noConfusion h

/-- The two small APPENDs answer. -/
theorem test_append_answers :
    answers (append platform (withText building [0x48, 0x49])) = true ∧
      answers (append platform (withText twoSymbols [0x31])) = true := by decide

/-- AppendFrame, AppendParity: an APPEND that gives a next state, and one in a group with an earlier symbol. -/
theorem test_witness_AppendFrame :
    (∃ t, (append platform (withText building [0x48, 0x49])).finish = .next t) ∧
      (∃ t, (append platform (withText twoSymbols [0x31])).finish = .next t) ∧
      (0 : BitVec 4).toNat + 1 < (withText twoSymbols [0x31]).group.symcnt.toNat :=
  ⟨test_answers_runs test_append_answers.1, test_answers_runs test_append_answers.2, by decide⟩

/-- The state the small APPEND starts from meets the invariants of the group and of its counters. -/
theorem test_append_shape : GroupShape (withText building [0x48, 0x49]) where
  exists_iff := by decide
  count := by decide
  single := by decide
  minver := by decide
  maxver := by decide
  table := by decide
  version := by decide
  current := by decide
  mode := by unfold Slot.modeAgrees; decide
  uncreated := by decide

theorem test_append_counters : CountersAgree (withText building [0x48, 0x49]) := by
  intro k h
  obtain rfl : k = 0 := BitVec.eq_of_toNat_eq (Nat.lt_one_iff.mp h)
  exact
    { cap := by decide
      room := by decide
      count := by decide
      segn := by intro m; cases m <;> decide
      segments := by intro seg hseg; cases hseg }

/-- AppendParity, both parts. -/
theorem test_witness_AppendParity :
    AppendReady (withText building [0x48, 0x49]) [0x48, 0x49] ∧ GroupShape (withText building [0x48, 0x49]) ∧
      CountersAgree (withText building [0x48, 0x49]) ∧
      ∃ t, (append platform (withText building [0x48, 0x49])).finish = .next t :=
  ⟨test_append_ready, test_append_shape, test_append_counters, test_answers_runs test_append_answers.1⟩

/-- The read-back against the examples of R160, R163 and R167: `"0123"`, `"AC-"`, and the code 0x935F. -/
theorem test_read_back_examples :
    readBack ⟨.numeric, 4, [12, 3], 14⟩ = [0, 1, 2, 3] ∧ readBack ⟨.alphanumeric, 3, [462, 41], 17⟩ = [10, 12, 41] ∧
      valuesIn platform 0 0x70B9 .kanji = [0x0D9F] ∧ valuesIn platform 0 0x2D .alphanumeric = [41] := by decide

/-- EnsureLeastVersion: each of its three outcomes happens (R213's example 1; the ceiling; a tier crossed in vain). -/
theorem test_witness_EnsureLeastVersion :
    findRoom .l false { Slot.reset with segnNumeric := 1 } (fun _ => 3) 39 ⟨1, 152, 151, 1⟩ =
        .fit ⟨2, 272, 151, 2⟩ ∧
      findRoom .l false { Slot.reset with segnNumeric := 1 } (fun _ => 3) 0 ⟨1, 152, 151, 1⟩ =
        .exhausted ⟨1, 152, 151, 1⟩ ∧
      findRoom .h true { Slot.reset with segnByte := 40 } (fun _ => 1000) 1 ⟨9, 780, 780, 9⟩ = .discarded := by decide

/-- A group of one symbol has the shape the rules give it. -/
theorem test_group_shape : GroupShape oneSymbol where
  exists_iff := by decide
  count := by decide
  single := by decide
  minver := by decide
  maxver := by decide
  table := by decide
  version := by decide
  current := by decide
  mode := by unfold Slot.modeAgrees; decide
  uncreated := by decide

/-- The counters of the small symbol agree with its segment (V-ENC-2). -/
theorem test_slot_counts (k : BitVec 4) (h : k.toNat < oneSymbol.group.symcnt.toNat) :
    SlotCounts oneSymbol.group.ecl oneSymbol.group.sa (oneSymbol.slot k) := by
  obtain rfl : k = 0 := BitVec.eq_of_toNat_eq (Nat.lt_one_iff.mp h)
  exact
    { cap := by decide
      room := by decide
      count := by decide
      segn := by intro m; cases m <;> decide
      segments := by
        intro seg hseg
        obtain rfl : seg = ⟨.alphanumeric, 5, [462, 1849, 2], 28⟩ := List.mem_singleton.mp hseg
        exact ⟨by decide, by decide⟩ }

/-- R221's example after 17 digits: `CFG H, 1, 0, 0`, and a symbol with one bit of its 72 left. -/
def fullSymbol : State :=
  { State.reset with
    phase := .building, group := ⟨.h, 1, false, 0, 1, 0, 1⟩
    slots := State.reset.slots.set 0
      ⟨1, 72, 71, some .numeric, 1, 0, 0, 0, [⟨.numeric, 17, [123, 456, 789, 12, 345, 67], 57⟩]⟩ }

/-- The group of `fullSymbol` has the shape the rules give it, with a one-digit string loaded too. -/
theorem test_full_shape : GroupShape (withText fullSymbol [0x38]) where
  exists_iff := by decide
  count := by decide
  single := by decide
  minver := by decide
  maxver := by decide
  table := by decide
  version := by decide
  current := by decide
  mode := by unfold Slot.modeAgrees; decide
  uncreated := by decide

theorem test_full_counters : CountersAgree (withText fullSymbol [0x38]) := by
  intro k h
  obtain rfl : k = 0 := BitVec.eq_of_toNat_eq (Nat.lt_one_iff.mp h)
  exact
    { cap := by decide
      room := by decide
      count := by decide
      segn := by intro m; cases m <;> decide
      segments := by
        intro seg hseg
        obtain rfl : seg = ⟨.numeric, 17, [123, 456, 789, 12, 345, 67], 57⟩ := List.mem_singleton.mp hseg
        exact ⟨by decide, by decide⟩ }

/-- AppendCompletes, the last clause: the 18th digit of R221's example is answered `(ERR_INPUT_TOO_LONG, …)`. -/
theorem test_witness_AppendCompletes_full :
    AppendReady (withText fullSymbol [0x38]) [0x38] ∧ GroupShape (withText fullSymbol [0x38]) ∧
      CountersAgree (withText fullSymbol [0x38]) ∧
      append platform (withText fullSymbol [0x38]) = .raised (withText fullSymbol [0x38]) .inputTooLong 0 :=
  ⟨⟨rfl, by decide, by decide, by decide, by decide, by decide, by decide, by decide⟩,
    test_full_shape, test_full_counters, by rfl⟩

/-- A symbol of 39 one-byte segments at version 9, full at 780 bits: at version 10 the wider indicators alone overflow
(the corner of R213's outcome 3). -/
def crowdedSymbol : State :=
  { State.reset with
    phase := .building, group := ⟨.h, 10, true, 0, 9, 0, 1⟩
    slots := State.reset.slots.set 0
      ⟨9, 780, 780, some .byte, 0, 0, 39, 0, List.replicate 39 ⟨.byte, 1, [0x61], 8⟩⟩ }

theorem test_crowded_shape : GroupShape crowdedSymbol where
  exists_iff := by decide
  count := by decide
  single := by decide
  minver := by decide
  maxver := by decide
  table := by decide
  version := by decide
  current := by decide
  mode := by unfold Slot.modeAgrees; decide
  uncreated := by decide

theorem test_crowded_counters : CountersAgree crowdedSymbol := by
  intro k h
  obtain rfl : k = 0 := BitVec.eq_of_toNat_eq (Nat.lt_one_iff.mp h)
  exact
    { cap := by decide
      room := by decide
      count := by decide
      segn := by intro m; cases m <;> decide
      segments := by
        intro seg hseg
        obtain rfl : seg = ⟨.byte, 1, [0x61], 8⟩ := List.eq_of_mem_replicate hseg
        exact ⟨by decide, by decide⟩ }

/-- EnsureLeastVersion, `Ensure` itself: 100 bits more take the small symbol to version 2 (128 and 224 bits); 36000 fit
no version and leave it grown to version 40; 8 bits more fit the crowded symbol nowhere and leave it as it is. -/
theorem test_witness_EnsureLeastVersion_ensure :
    GroupShape oneSymbol ∧ CountersAgree oneSymbol ∧ oneSymbol.group.symcnt ≠ 0 ∧
      (ensure (fun _ => 100) oneSymbol = .fit (grownState oneSymbol 2) ∧
        curCountAt oneSymbol 2 = 41 ∧ capOfGroup oneSymbol 2 = 224) ∧
      ensure (fun _ => 36000) oneSymbol = .exhausted (grownState oneSymbol 40) ∧
      GroupShape crowdedSymbol ∧ CountersAgree crowdedSymbol ∧ crowdedSymbol.group.symcnt ≠ 0 ∧
      curCountAt crowdedSymbol 10 = 1092 ∧ capOfGroup crowdedSymbol 10 = 956 ∧
      ensure (fun _ => 8) crowdedSymbol = .exhausted crowdedSymbol :=
  ⟨test_group_shape, test_slot_counts, by decide, ⟨by rfl, by decide, by decide⟩, by rfl, test_crowded_shape,
    test_crowded_counters, by decide, by decide, by decide, by rfl⟩

/-- Loading a string changes no group and no symbol. -/
theorem test_withText_shape {s : State} (h : GroupShape s) (text : List CharCode) : GroupShape (withText s text) :=
  ⟨h.exists_iff, h.count, h.single, h.minver, h.maxver, h.table, h.version, h.current, h.mode, h.uncreated⟩

/-- AppendCompletes, one character: it fits at once; it fits nowhere without structured append (the 18th digit of R221's
example); it fits nowhere with structured append and a slot left (the crowded symbol). -/
theorem test_witness_AppendCompletes_one :
    (AppendReady (withText oneSymbol [0x48]) [0x48] ∧ GroupShape (withText oneSymbol [0x48]) ∧
        CountersAgree (withText oneSymbol [0x48]) ∧ supported platform 0 0x48 = true ∧
        fitsAt (withText oneSymbol [0x48]) (pendingBits platform (withText oneSymbol [0x48]) .alphanumeric 0x48) 1) ∧
      (modeSelect platform 0 (some .numeric) 1 0x38 [] = some .numeric ∧ supported platform 0 0x38 = true ∧
        fitsNowhere (withText fullSymbol [0x38]) (pendingBits platform (withText fullSymbol [0x38]) .numeric 0x38) ∧
        (withText fullSymbol [0x38]).group.sa = false) ∧
      (AppendReady (withText crowdedSymbol [0x61]) [0x61] ∧ GroupShape (withText crowdedSymbol [0x61]) ∧
        CountersAgree (withText crowdedSymbol [0x61]) ∧ supported platform 0 0x61 = true ∧
        modeSelect platform 0 (some .byte) 9 0x61 [] = some .byte ∧
        fitsNowhere (withText crowdedSymbol [0x61]) (pendingBits platform (withText crowdedSymbol [0x61]) .byte 0x61) ∧
        (withText crowdedSymbol [0x61]).group.sa = true ∧ (withText crowdedSymbol [0x61]).group.symcnt ≠ 16) := by
  refine ⟨⟨⟨rfl, by decide, by decide, by decide, by decide, by decide, by decide, by decide⟩,
      test_withText_shape test_group_shape _, test_slot_counts, by decide, by unfold fitsAt; decide⟩,
    ⟨by decide, by decide, ?_, rfl⟩,
    ⟨⟨rfl, by decide, by decide, by decide, by decide, by decide, by decide, by decide⟩,
      test_withText_shape test_crowded_shape _, test_crowded_counters, by decide, by decide, ?_, rfl, by decide⟩⟩
  · intro v (h1 : 1 ≤ v) (h2 : v ≤ 1)
    obtain rfl : v = 1 := Nat.le_antisymm h2 h1
    unfold fitsAt
    decide
  · intro v (h1 : 9 ≤ v) (h2 : v ≤ 10)
    obtain rfl | rfl : v = 9 ∨ v = 10 := by omega
    all_goals
      unfold fitsAt
      decide

/-- ModeselDecides: every refusal at its boundary, and a character that is supported on one platform and not on another. -/
theorem test_witness_ModeselDecides :
    4 < (5 : BitVec 3).toNat ∧ (4 : BitVec 3).toNat ≤ 4 ∧ (0 : BitVec 6).toNat = 0 ∧ 40 < (41 : BitVec 6).toNat ∧
      1 ≤ (1 : BitVec 6).toNat ∧ (40 : BitVec 6).toNat ≤ 40 ∧
      (withText building [0x48, 0x49]).tlen.toNat ≤ (2 : BitVec 15).toNat ∧
      (1 : BitVec 15).toNat < (withText building [0x48, 0x49]).tlen.toNat ∧
      inputText (withText building [0x48, 0x49]) = some [0x48, 0x49] ∧
      supported platform 0 0x49 = true ∧ supported silent 0 0x49 = false := by decide

/-- ModeSelectFits: a supported character that is kanji-eligible and one that is not. -/
theorem test_witness_ModeSelectFits :
    supported platform 0 0x70B9 = true ∧ isKan platform 0 0x70B9 = true ∧ supported platform 0 0x41 = true ∧
      isKan platform 0 0x41 = false := by decide

/-- DigitString: two digits. -/
theorem test_witness_DigitString :
    (∀ c ∈ ([0x30, 0x39] : List CharCode), isNum c = true) ∧ supported platform 0 0x30 = true ∧
      isKan platform 0 0x30 = false :=
  ⟨List.all_eq_true.mp (by decide), by decide, by decide⟩

/-- Lookahead: a digit, which is not byte-exclusive; and thirteen digits before a lower-case letter (R186's example). -/
theorem test_witness_Lookahead :
    supported platform 0 0x31 = true ∧ isKan platform 0 0x31 = false ∧ isBytX platform 0 0x31 = false ∧
      modeSelect platform 0 (some .alphanumeric) 1 0x31 (List.replicate 12 0x31 ++ [0x61]) = some .numeric ∧
      modeSelect platform 0 (some .alphanumeric) 1 0x31 (List.replicate 12 0x31 ++ [0x41]) = some .alphanumeric := by
  decide

/-- Lookahead, from no mode and from KANJI: a letter, a byte-exclusive character and a digit (R184's examples:
`"ABa"`, `"ABCDEFa"`; three digits before a byte-exclusive character and before a letter). -/
theorem test_witness_Lookahead_initial :
    (supported platform 0 0x41 = true ∧ isKan platform 0 0x41 = false ∧ isAlnX 0x41 = true) ∧
      (supported platform 0 0x61 = true ∧ isKan platform 0 0x61 = false ∧ isBytX platform 0 0x61 = true) ∧
      isNum 0x31 = true ∧
      modeSelect platform 0 none 1 0x41 [0x42, 0x61] = some .byte ∧
      modeSelect platform 0 (some .kanji) 1 0x41 [0x42, 0x43, 0x44, 0x45, 0x46, 0x61] = some .alphanumeric ∧
      modeSelect platform 0 none 1 0x31 [0x32, 0x33, 0x61] = some .byte ∧
      modeSelect platform 0 none 1 0x31 [0x32, 0x33, 0x41] = some .alphanumeric := by decide

/-- DataCodewordBits: a string that fills its codewords exactly, and the empty one. -/
theorem test_witness_DataCodewordBits :
    (List.replicate 8 true).length ≤ 8 * 1 ∧ ([] : List Bool).length ≤ 8 * 0 := by decide

/-- UsedBitsCount: the small symbol. -/
theorem test_witness_UsedBitsCount :
    SlotCounts oneSymbol.group.ecl oneSymbol.group.sa (oneSymbol.slot 0) ∧ 1 ≤ (oneSymbol.slot 0).ver.toNat ∧
      (oneSymbol.slot 0).ver.toNat ≤ 40 ∧ (oneSymbol.group.sa = false → oneSymbol.group.symcnt.toNat ≤ 1) :=
  ⟨test_slot_counts 0 (by decide), by decide, by decide, by decide⟩

/-- The counters of symbol 0 of a group of two agree with its segment. -/
theorem test_slot_counts_two : SlotCounts twoSymbols.group.ecl twoSymbols.group.sa (twoSymbols.slot 0) where
  cap := by decide
  room := by decide
  count := by decide
  segn := by intro m; cases m <;> decide
  segments := by
    intro seg hseg
    obtain rfl : seg = ⟨.alphanumeric, 5, [462, 1849, 2], 28⟩ := List.mem_singleton.mp hseg
    exact ⟨by decide, by decide⟩

/-- UsedBitsCount, the header and the segment clauses: a group of two symbols, and the words of its segment. -/
theorem test_witness_UsedBitsCount_fields :
    SlotCounts twoSymbols.group.ecl twoSymbols.group.sa (twoSymbols.slot 0) ∧ 1 < twoSymbols.group.symcnt.toNat ∧
      twoSymbols.group.symcnt.toNat ≤ 16 ∧
      (twoSymbols.slot 0).segs = [] ++ ⟨.alphanumeric, 5, [462, 1849, 2], 28⟩ :: [] ∧
      ([462, 1849, 2] : List Nat)[2]? = some 2 :=
  ⟨test_slot_counts_two, by decide, by decide, rfl, rfl⟩

/-- The bits of symbol 0 of that group, worked out from R243, R244 and V-ENC-2. -/
theorem test_used_bits_fields :
    usedBits twoSymbols 0 =
      [false, false, true, true, false, false, false, false, false, false, false, true] ++
      [false, false, true, true, false, false, false, true] ++
      [false, false, true, false, false, false, false, false, false, false, true, false, true] ++
      [false, false, true, true, true, false, false, true, true, true, false] ++
      [true, true, true, false, false, true, true, true, false, false, true] ++
      [false, false, false, false, true, false] := by decide

/-- FieldLaws, FieldTables: a non-zero element. -/
theorem test_witness_FieldLaws : (0xFF : Byte) ≠ 0 := by decide

/-- RsCodewordRoots: the bound and its last root. -/
theorem test_witness_RsCodewordRoots : 255 ≤ 255 ∧ 254 < 255 := by decide

/-- RsLinear: two blocks of one length. -/
theorem test_witness_RsLinear : ([1, 2] : List Byte).length = ([3, 4] : List Byte).length := by decide

/-- BlockPlan, InterleaveLayout: both ends of the versions, and a plan with longer blocks (5-Q). -/
theorem test_witness_BlockPlan :
    (List.replicate 16 (0 : Byte)).length = dataCW .m 1 ∧ (List.replicate 62 (0 : Byte)).length = dataCW .q 5 ∧
      dataCW .l 40 = 2956 := by decide

theorem test_witness_InterleaveLayout :
    (List.replicate 62 (0 : Byte)).length = dataCW .q 5 ∧ 3 < blocks .q 5 ∧ 14 < dataCW .q 5 / blocks .q 5 ∧
      blocks .q 5 - dataCW .q 5 % blocks .q 5 ≤ 2 ∧ 2 < blocks .q 5 ∧ 17 < ecPerBlock .q 5 := by decide

/-- RsencCompletes: all data codewords there. -/
theorem test_witness_RsencCompletes :
    1 ≤ dataReady.wver.toNat ∧ dataReady.wver.toNat ≤ 40 ∧
      dataReady.dcwn.toNat = dataCW dataReady.wecl dataReady.wver.toNat ∧
      firstCells dataReady.mem.dcw dataReady.dcwn.toNat = some (List.replicate 16 0) := by decide

/-- MplaceCompletes: the whole stream there. -/
theorem test_witness_MplaceCompletes :
    1 ≤ streamReady.wver.toNat ∧ streamReady.wver.toNat ≤ 40 ∧
      streamReady.fcwn.toNat = totalCW streamReady.wver.toNat ∧
      firstCells streamReady.mem.fcw streamReady.fcwn.toNat = some (List.replicate 26 0) := by decide

/-- The cells the rules give, at the spec's examples: the alignment pattern of version 2 is centred on (18, 18) (R296),
the dark module's cell, a version cell, and a timing cell that an alignment pattern of version 7 crosses. -/
theorem test_pattern_cells :
    patternCell 2 18 18 = 2 ∧ patternCell 2 17 18 = -2 ∧ patternCell 2 16 20 = 2 ∧ patternCell 2 15 18 = 0 ∧
      patternCell 1 13 8 = -4 ∧ patternCell 7 0 34 = -7 ∧ patternCell 7 6 22 = 6 ∧ patternCell 7 6 23 = -6 ∧
      patternCell 1 7 7 = -5 := by decide

/-- PremaskKeepsPatterns: a finder cell and a free cell of version 1. -/
theorem test_witness_PremaskKeepsPatterns :
    20 < side 1 ∧ gridAt (functionPatterns 1) 0 0 ≠ 0 ∧ gridAt (functionPatterns 1) 20 20 = 0 := by decide +kernel

/-- DataFollowsTraversal: the first free cell of version 1 (R302's example). -/
theorem test_witness_DataFollowsTraversal :
    ((traversal (side 1)).filter fun rc => gridAt (functionPatterns 1) rc.1 rc.2 = 0)[0]? = some (20, 20) := by
  decide +kernel

/-- FindersSurvive: the last mask and the last cell of a finder. -/
theorem test_witness_FindersSurvive : 1 ≤ 40 ∧ 40 ≤ 40 ∧ 7 < 8 ∧ 6 < 7 := by decide

/-- ApplyMask: a cell of a matrix. -/
theorem test_witness_ApplyMask :
    ([[1, 3]] : Grid)[0]? = some [1, 3] ∧ ([1, 3] : List Module)[1]? = some 3 := by decide

/-- MaskselSelects: a pre-mask matrix, all of it written. -/
theorem test_witness_MaskselSelects :
    (matrixReady .premask).mmv = .premask ∧ 1 ≤ (matrixReady .premask).wver.toNat ∧
      (matrixReady .premask).wver.toNat ≤ 40 ∧
      firstCells (matrixReady .premask).mem.mm ((matrixReady .premask).side * (matrixReady .premask).side) =
        some (List.replicate 441 1) :=
  ⟨rfl, by decide, by decide, test_matrix_readable .premask⟩

/-- A blank matrix is square. -/
theorem test_blank_square (n : Nat) : isSquare n (blankGrid n) :=
  ⟨List.length_replicate, fun row h => by rw [List.eq_of_mem_replicate h]; exact List.length_replicate⟩

/-- InfoCells: a square matrix; a format cell, a version cell, and a cell that is neither. -/
theorem test_witness_InfoCells :
    isSquare (side 7) (blankGrid (side 7)) ∧ (44, 8) ∈ formatPos (side 7) 14 ∧ (5, 36) ∈ versionPos (side 7) 17 ∧
      (∀ i < 15, (20, 20) ∉ formatPos (side 7) i) ∧ ((20, 20) : Nat × Nat) ≠ (side 7 - 8, 8) ∧
      ∀ i < 18, (20, 20) ∉ versionPos (side 7) i :=
  ⟨test_blank_square _, by decide, by decide, by decide, by decide, by decide⟩

/-- PenaltyWindows: a square colouring of side at least 1. -/
theorem test_witness_PenaltyWindows : isSquare 2 [[true, true], [true, true]] ∧ 1 ≤ 2 ∧
    penaltyBlock [[true, true], [true, true]] = 3 := ⟨⟨rfl, by decide⟩, by decide, by decide⟩

/-- The maximal runs of R334's example, `DDDDDLLLLLLL`. -/
theorem test_maximal_runs :
    maximalRun (List.replicate 5 true ++ List.replicate 7 false) 0 5 = true ∧
      maximalRun (List.replicate 5 true ++ List.replicate 7 false) 5 7 = true ∧
      maximalRun (List.replicate 5 true ++ List.replicate 7 false) 0 4 = false := by decide

/-- The centre of R336's two examples, `LLLLDLDDDLDLLLL` and `LLLDLDDDLDLLL`. -/
theorem test_ratio_centres :
    ratioAt (List.replicate 4 false ++ [true, false, true, true, true, false, true] ++ List.replicate 4 false) 6 1 =
        true ∧
      ratioAt (List.replicate 3 false ++ [true, false, true, true, true, false, true] ++ List.replicate 3 false) 5 1 =
        false := by decide

/-- SetaSelects: the last space and the first reserved id. -/
theorem test_witness_SetaSelects : (4 : BitVec 4).toNat ≤ 4 ∧ 4 < (5 : BitVec 4).toNat := by decide

/-- LdReads: a readable cell of each space, at its last index where the space is small, and each refusal. -/
theorem test_witness_LdReads :
    cellAt (withText building [0x48, 0x49]).mem.txt 1 = some 0x49 ∧ 1 < (withText building [0x48, 0x49]).txtn.toNat ∧
      cellAt dataReady.mem.dcw 15 = some 0 ∧ 15 < dataReady.dcwn.toNat ∧
      cellAt streamReady.mem.fcw 25 = some 0 ∧ 25 < streamReady.fcwn.toNat ∧
      (pointing (matrixReady .premask) .mm 440).aidx.toNat = 20 * (matrixReady .premask).side + 20 ∧
      20 < (matrixReady .premask).side ∧ (matrixReady .premask).mmv ≠ .empty ∧
      (pointing (matrixReady .final) .qm 120).aidx.toNat = (0 + 4) * ((matrixReady .final).side + 8) + (0 + 4) ∧
      (pointing (matrixReady .final) .qm 840).aidx.toNat = 28 * ((matrixReady .final).side + 8) + 28 ∧
      28 < (matrixReady .final).side + 8 ∧ (matrixReady .final).side + 4 ≤ 28 ∧
      (withText building [0x48, 0x49]).txtn.toNat ≤ (2 : BitVec 20).toNat ∧
      (matrixReady .final).side * (matrixReady .final).side ≤ (441 : BitVec 20).toNat ∧
      ((matrixReady .final).side + 8) * ((matrixReady .final).side + 8) ≤ (841 : BitVec 20).toNat ∧
      State.reset.mmv = .empty ∧ (matrixReady .premask).mmv ≠ .final ∧
      cellAt (matrixReady .final).mem.mm (0 * (matrixReady .final).side + 0) = some 1 := by decide

/-- LdReads, the matrix clause: the last cell is written. -/
theorem test_witness_LdReads_matrix :
    cellAt (matrixReady .premask).mem.mm (20 * (matrixReady .premask).side + 20) = some 1 := by
  rw [show (matrixReady .premask).mem.mm = cellsFrom 0 (List.replicate 441 1) from rfl, Laws.cellAt_cellsFrom_zero]
  rw [show 20 * (matrixReady .premask).side + 20 = 440 from rfl, List.getElem?_replicate]
  rfl

/-- StStores: the first cell of each buffer, the end of a full one, and each refusal. -/
theorem test_witness_StStores :
    (pointing State.reset .txt 0).aidx.toNat ≤ State.reset.txtn.toNat ∧
      (pointing State.reset .txt 0).aidx.toNat < Config.platform.txtSize ∧
      (pointing dataReady .dcw 16).aidx.toNat ≤ dataReady.dcwn.toNat ∧ (2955 : BitVec 20).toNat < 2956 ∧
      (pointing streamReady .fcw 26).aidx.toNat ≤ streamReady.fcwn.toNat ∧ (3705 : BitVec 20).toNat < 3706 ∧
      dataReady.dcwn.toNat < (17 : BitVec 20).toNat ∧ 2956 ≤ (2956 : BitVec 20).toNat ∧
      streamReady.fcwn.toNat < (27 : BitVec 20).toNat ∧ 3706 ≤ (3706 : BitVec 20).toNat ∧
      State.reset.txtn.toNat < (1 : BitVec 20).toNat ∧ Config.platform.txtSize ≤ (0xFFFFF : BitVec 20).toNat :=
  ⟨by decide, Nat.succ_pos _, by decide, by decide, by decide, by decide, by decide, by decide, by decide, by decide,
    by decide, Nat.le_trans (Nat.succ_le_of_lt Config.txtSizePred.isLt) (by decide)⟩

/-- RdrReads: a listed number, the ends of the undefined ranges, and a slot that was never created. -/
theorem test_witness_RdrReads :
    ((0x81 : BitVec 8).toNat ≠ 0 ∧ 0x1C ≤ (0x1C : BitVec 8).toNat ∧ (0x1F : BitVec 8).toNat ≤ 0x1F ∧
        0x40 ≤ (0x40 : BitVec 8).toNat ∧ (0x7F : BitVec 8).toNat ≤ 0x7F) ∧
      GroupShape oneSymbol ∧ oneSymbol.group.symcnt.toNat ≤ (1 : Fin 16).val :=
  ⟨by decide, test_group_shape, by decide⟩

/-- AccessOnly: each of the four gives a next state. -/
theorem test_witness_AccessOnly :
    (∃ t, exec (.seta 1 0) State.reset = .next t) ∧ (∃ t, exec .ld State.reset = .next t) ∧
      (∃ t, exec (.st 7) (pointing State.reset .dcw 0) = .next t) ∧ ∃ t, exec (.rdr 0x02) State.reset = .next t :=
  ⟨⟨_, rfl⟩, ⟨_, rfl⟩, ⟨_, rfl⟩, ⟨_, rfl⟩⟩

/-- WhoWrites: commands of several kinds give a next state. -/
theorem test_witness_WhoWrites :
    (∃ t, exec .reset oneSymbol = .next t) ∧ (∃ t, exec (.rdr 0) oneSymbol = .next t) ∧
      (∃ t, exec (.bitasm 0) oneSymbol = .next t) ∧ ∃ t, exec (.setlen 0) oneSymbol = .next t :=
  ⟨⟨_, rfl⟩, ⟨_, rfl⟩, test_bitasm_runs, ⟨_, rfl⟩⟩

/-- FailureChangesNothing: a failed LD. -/
theorem test_witness_FailureChangesNothing :
    Instr.ld ≠ .append ∧ exec .ld State.reset = .next (respond State.reset .address 0) ∧
      (respond State.reset .address 0).resps = State.reset.resps ++ [⟨.address, 0⟩] ∧ ResCode.address ≠ .ok :=
  ⟨by decide, rfl, rfl, by decide⟩

/-- A state with a symbol, one written text cell and a presented command, for the invariants. -/
def invariantState : State :=
  { oneSymbol with
    mem := { Memory.reset with txt := cellsFrom 0 [0x31] }, txtn := 1, tlen := 1, cmds := [0x10000081] }

/-- Its step gives a next state: `RDR S0.CAP` answers 128. -/
theorem test_invariant_step :
    step invariantState = .next (respond { invariantState with cmds := [] } .ok 128) := by rfl

theorem test_invariant_buffers : BuffersAgree Config.platform invariantState where
  txt := by decide
  dcw := by decide
  fcw := by decide
  mm := by decide
  txtSize := Nat.succ_le_succ (Nat.zero_le _)
  dcwSize := by decide
  fcwSize := by decide
  string := by decide
  version := by decide
  matrix := by decide

theorem test_invariant_group : GroupShape invariantState where
  exists_iff := by decide
  count := by decide
  single := by decide
  minver := by decide
  maxver := by decide
  table := by decide
  version := by decide
  current := by decide
  mode := by unfold Slot.modeAgrees; decide
  uncreated := by decide

/-- StepKeepsMemoryForm. -/
theorem test_witness_StepKeepsMemoryForm :
    invariantState.mem.wf = true ∧ ∃ t, step invariantState = .next t := ⟨by decide, _, test_invariant_step⟩

/-- StepKeepsBuffers. -/
theorem test_witness_StepKeepsBuffers :
    BuffersAgree Config.platform invariantState ∧ PenaltiesAgree invariantState ∧ ∃ t, step invariantState = .next t :=
  ⟨test_invariant_buffers, ⟨by decide, by decide, by decide⟩, _, test_invariant_step⟩

/-- StepKeepsGroup. -/
theorem test_witness_StepKeepsGroup : GroupShape invariantState ∧ ∃ t, step invariantState = .next t :=
  ⟨test_invariant_group, _, test_invariant_step⟩

/-- StepKeepsCounters. -/
theorem test_witness_StepKeepsCounters :
    GroupShape invariantState ∧ CountersAgree invariantState ∧ ∃ t, step invariantState = .next t :=
  ⟨test_invariant_group, test_slot_counts, _, test_invariant_step⟩

/-- StepKeepsNonempty. -/
theorem test_witness_StepKeepsNonempty : NoEmptySegment invariantState ∧ ∃ t, step invariantState = .next t :=
  ⟨by unfold NoEmptySegment; decide, _, test_invariant_step⟩

/-- StepAnswers. -/
theorem test_witness_StepAnswers : Safe invariantState ∧ invariantState.cmds ≠ [] :=
  ⟨⟨test_invariant_buffers, test_invariant_group⟩, by decide⟩

/-- SetlenKeepsCursorInRange: a cursor inside its range and a SETLEN that completes. -/
theorem test_witness_SetlenKeepsCursorInRange :
    invariantState.tpos.toNat ≤ invariantState.tlen.toNat ∧ ∃ t, exec (.setlen 0) invariantState = .next t :=
  ⟨by decide, _, rfl⟩

end Sys2Proof.Tests
end

