-- ==== Sys2Proof/Proofs/Scope.lean ====
section
/-!
PROOFS. The scope family: what one step does with the word at the head of the host's stream (R8, R69).
-/

namespace Sys2Proof.Proofs

open Sys2Proof.Machine

/-! ### The command port -/

/-- Taking from an empty stream gives nothing (R446; log 2). -/
theorem takeCommand_of_empty {s : State} (hc : s.cmds = []) : takeCommand s = none := by
  simp [takeCommand, hc]

/-- Taking gives the head of the stream and changes only the stream (R69). -/
theorem takeCommand_of_cons {s : State} {w : Word} {rest : List Word} (hc : s.cmds = w :: rest) :
    takeCommand s = some (w, { s with cmds := rest }) := by
  simp [takeCommand, hc]

/-- A word just presented is the one taken, and what is left is the state it was presented to (log 2). -/
@[simp] theorem takeCommand_presentCommand (s : State) (w : Word) :
    takeCommand (presentCommand s w) = some (w, s) :=
  takeCommand_of_cons (Laws.presentCommand_cmds s w)

/-- A table word of full width is the command word itself (R90). -/
@[simp] theorem tableWord_toNat (w : Word) : tableWord 32 w.toNat = w := by
  rw [tableWord, Nat.mod_eq_of_lt w.isLt, BitVec.ofNat_toNat, BitVec.setWidth_eq]

/-- `withFetchWord` at full width presents exactly the word (log 2). -/
theorem withFetchWord_toNat (s : State) (w : Word) : s.withFetchWord 32 w.toNat = presentCommand s w := by
  rw [State.withFetchWord, tableWord_toNat]

/-! ### The step, by what it takes and what that decodes to -/

/-- With nothing to take, the step is refused. -/
theorem step_of_takeCommand_none {s : State} (ht : takeCommand s = none) : step s = .refused .noCommand := by
  simp [step, ht]

/-- A step that takes a word of the command `i` is the execution of `i` in the state without that word (R8). -/
theorem step_of_decode_ok {s t : State} {w : Word} {i : Instr} (ht : takeCommand s = some (w, t))
    (hd : decode w = .ok i) : step s = exec i t := by
  simp [step, ht, hd]

/-- Settles O5: a case of the command port for each clause, then the step by what it takes. -/
theorem stepRunsDecoded : Obligations.StepRunsDecoded := by
  intro s w rest i
  refine ⟨fun hc hd => ?_, fun hd => ?_, fun hc => ?_⟩
  · exact step_of_decode_ok (takeCommand_of_cons hc) hd
  · rw [withFetchWord_toNat]
    exact step_of_decode_ok (takeCommand_presentCommand s w) hd
  · exact step_of_takeCommand_none (takeCommand_of_empty hc)

end Sys2Proof.Proofs
end

