-- ==== Sys2Proof/Proofs/State.lean ====
section
/-!
PROOFS. The state family: what every command leaves, said once, and from it the invariants of the registers, the
buffers, the group and the counters (R20–R35).
-/

namespace Sys2Proof.Proofs

open Sys2Proof.Machine Sys2Proof.Claims Sys2Proof.Laws

/-! ### What every command leaves -/

/-- What one of the stages after BITASM writes (R270, R291, R339). -/
inductive StageWrites : State → State → Prop where
  | stream (s : State) (d : List Byte) (version : versionOk s.wver.toNat = true)
      (whole : d.length = dataCW s.wecl s.wver.toNat) :
      StageWrites s (storeStream s (totalCW s.wver.toNat) (codewordStream s.wecl s.wver.toNat d))
  | premask (s : State) (ws : List Byte) (version : versionOk s.wver.toNat = true) :
      StageWrites s (storeMatrix s .premask (premaskMatrix s.wver.toNat ws).flatten)
  | final (s : State) (cells : List Module) (m : Nat) (version : versionOk s.wver.toNat = true)
      (whole : cells.length = s.side * s.side) (penc : Vector (Vector (BitVec 32) 4) 8) :
      StageWrites s
        { storeMatrix s .final (candidate (rowsOf s.side s.side cells) s.wecl s.wver.toNat m).flatten with
          penc := penc, pen := penc.map penaltyTotal
          maskref := BitVec.ofFin (selectMask (penc.map penaltyTotal)) }

/-- The state after a successful BITASM (R241). -/
def bitasmState (k : BitVec 4) (s : State) : State :=
  { openContext s (s.slot k).ver s.group.ecl (dataCW s.group.ecl (s.slot k).ver.toNat)
      (fillCodewords (dataCW s.group.ecl (s.slot k).ver.toNat) (usedBits s k)) with
    wsym := k, phase := .rendered }

/-- Every state a command can leave, before its response, with what its checks have established. -/
inductive Effect : Instr → State → State → Prop where
  /-- A refusal of any command, and the commands that only read. -/
  | nothing (i : Instr) (s : State) : Effect i s s
  | reset (s : State) : Effect .reset s { State.reset with cmds := s.cmds, resps := s.resps }
  | cfg (s : State) (ecl : EcLevel) (maxver : BitVec 6) (sa : Bool) (cs : BitVec 8) (phase : s.phase = .unconfigured)
      (version : versionOk maxver.toNat = true) :
      Effect (.cfg ecl maxver sa cs) s { newSymbol (openGroup ecl maxver sa cs s) with phase := .building }
  | setlen (s : State) (n : BitVec 16) (written : n.toNat ≤ s.txtn.toNat) : Effect (.setlen n) s { s with tlen := n }
  | append (s t : State) (text : List CharCode) (obstacle : appendObstacle s = none)
      (loop : stateOf (appendLoop Config.platform text { s with tpos := 0 }) = some t) : Effect .append s t
  /-- BITASM, or RENDER as far as its stages go. -/
  | assemble (i : Instr) (s t : State) (k : BitVec 4) (command : i = .bitasm k ∨ i = .render k)
      (phase : s.phase ≠ .unconfigured) (version : versionOk (s.slot k).ver.toNat = true)
      (stages : Relation.ReflTransGen StageWrites (bitasmState k s) t) : Effect i s t
  | stage (i : Instr) (s t : State) (write : StageWrites s t) : Effect i s t
  | setw (s : State) (ver : BitVec 6) (ecl : EcLevel) (version : versionOk ver.toNat = true) :
      Effect (.setw ver ecl) s (openContext s ver ecl 0 [])
  | seta (s : State) (space : BitVec 4) (idx : BitVec 20) (sp : Space) :
      Effect (.seta space idx) s { s with aspace := sp, aidx := idx }
  | ld (s : State) : Effect .ld s (advanceAidx s)
  | st (s t : State) (v : BitVec 16) (write : memWrite Config.platform s s.aspace s.aidx.toNat v = some t) :
      Effect (.st v) s (advanceAidx t)

/-- CFG passes its phase check in UNCONFIGURED only (R132). -/
theorem cfgAccepted_iff {ph : Phase} : cfgAccepted ph = true ↔ ph = .unconfigured := by
  simp [cfgAccepted]

/-- RENDER and BITASM pass their phase check outside UNCONFIGURED (R135, R241). -/
theorem renderAccepted_iff {ph : Phase} : renderAccepted ph = true ↔ ph ≠ .unconfigured := by
  simp [renderAccepted]

/-- The versions the tables have rows for (R6, R380). -/
theorem versionOk_iff {v : Nat} : versionOk v = true ↔ 1 ≤ v ∧ v ≤ 40 := by
  simp [versionOk]

/-- What RSENC leaves (R270). -/
theorem rsenc_writes {s t : State} (h : stateOf (rsenc s) = some t) : t = s ∨ StageWrites s t := by
  rcases rsenc_cases s with ⟨-, he⟩ | ⟨-, -, he⟩ | ⟨-, -, -, he⟩ | ⟨-, -, -, -, he⟩ | ⟨-, hv, hc, d, hd, he⟩ <;>
    rw [he] at h <;> cases h
  · exact .inl rfl
  · exact .inl rfl
  · refine .inr (.stream s d hv ?_)
    rw [cellRun_length hd]
    simpa [dataComplete] using hc

/-- What MPLACE leaves (R291). -/
theorem mplace_writes {s t : State} (h : stateOf (mplace s) = some t) : t = s ∨ StageWrites s t := by
  rcases mplace_cases s with ⟨-, he⟩ | ⟨-, -, he⟩ | ⟨-, -, -, he⟩ | ⟨-, -, -, -, he⟩ | ⟨-, hv, -, ws, -, he⟩ <;>
    rw [he] at h <;> cases h
  · exact .inl rfl
  · exact .inl rfl
  · exact .inr (.premask s ws hv)

/-- What MASKSEL leaves (R339). -/
theorem masksel_writes {s t : State} (h : stateOf (masksel s) = some t) : t = s ∨ StageWrites s t := by
  rcases masksel_cases s with ⟨-, he⟩ | ⟨-, -, he⟩ | ⟨-, -, -, he⟩ | ⟨-, hv, cells, penc, hc, -, he⟩ <;>
    rw [he] at h <;> cases h
  · exact .inl rfl
  · exact .inr (.final s cells _ hv (cellRun_length hc) penc)

/-- What BITASM leaves (R241). -/
theorem bitasm_writes {k : BitVec 4} {s t : State} (h : stateOf (bitasm k s) = some t) :
    t = s ∨ (s.phase ≠ .unconfigured ∧ versionOk (s.slot k).ver.toNat = true ∧ t = bitasmState k s) := by
  rcases bitasm_cases k s with ⟨-, he⟩ | ⟨-, -, he⟩ | ⟨-, -, -, he⟩ | ⟨-, -, -, -, he⟩ | ⟨hp, -, -, hv, he⟩ <;>
    rw [he] at h <;> cases h
  · exact .inl rfl
  · exact .inl rfl
  · exact .inl rfl
  · exact .inr ⟨renderAccepted_iff.mp hp, hv, rfl⟩

/-- A stage run after another one leaves what the first left, or writes once more (R135). -/
theorem stages_andThen {r : Result} {f : State → Result} {s t : State}
    (hr : ∀ u, stateOf r = some u → Relation.ReflTransGen StageWrites s u)
    (hf : ∀ u v, stateOf (f u) = some v → v = u ∨ StageWrites u v) (h : stateOf (r.andThen f) = some t) :
    Relation.ReflTransGen StageWrites s t := by
  rcases stateOf_andThen h with ⟨u, v, rfl, ht⟩ | ⟨e, v, rfl⟩
  · rcases hf u t ht with rfl | hw
    · exact hr _ rfl
    · exact (hr u rfl).tail hw
  · exact hr t rfl

/-- What RENDER leaves: BITASM's refusal, or BITASM's state and what its later stages write (R135). -/
theorem render_writes {k : BitVec 4} {s t : State} (h : stateOf (render k s) = some t) :
    t = s ∨ (s.phase ≠ .unconfigured ∧ versionOk (s.slot k).ver.toNat = true ∧
      Relation.ReflTransGen StageWrites (bitasmState k s) t) := by
  rw [render] at h
  split at h
  · exact .inl (by simpa using h.symm)
  split at h
  · exact .inl (by simpa using h.symm)
  split at h
  · exact .inl (by simpa using h.symm)
  rcases bitasm_cases k s with ⟨-, he⟩ | ⟨-, -, he⟩ | ⟨-, -, -, he⟩ | ⟨-, -, -, -, he⟩ | ⟨hp, -, -, hv, he⟩ <;>
    rw [he] at h
  · cases h; exact .inl rfl
  · cases h; exact .inl rfl
  · cases h; exact .inl rfl
  · cases h
  · refine .inr ⟨renderAccepted_iff.mp hp, hv, ?_⟩
    have hrs : ∀ u, stateOf (rsenc (bitasmState k s)) = some u →
        Relation.ReflTransGen StageWrites (bitasmState k s) u := by
      intro u hu
      rcases rsenc_writes hu with rfl | hw
      · exact .refl
      · exact .single hw
    have hmp := fun u => stages_andThen (t := u) hrs fun _ _ => mplace_writes
    have hms := fun u => stages_andThen (t := u) hmp fun _ _ => masksel_writes
    exact stages_andThen hms (fun u v hu => .inl (by simpa [respondMask] using hu.symm)) h

/-- An APPEND that leaves a state refused, or ran its loop over the input string from `TPOS = 0` (R219). -/
theorem append_loop {p : Platform} {s t : State} (h : stateOf (append p s) = some t) :
    t = s ∨ (appendObstacle s = none ∧ ∃ text, stateOf (appendLoop p text { s with tpos := 0 }) = some t) := by
  rw [append] at h
  split at h
  · exact .inl (by simpa using h.symm)
  split at h
  · exact .inl (by simpa using h.symm)
  split at h
  · simp at h
  next hobs =>
    split at h
    · simp at h
    next text _ => exact .inr ⟨hobs, text, h⟩

/-- Every command that leaves a state has one of the effects. -/
theorem effect_of_stateOf {i : Instr} {s t : State} (h : stateOf (resultOf i s) = some t) : Effect i s t := by
  cases i with
  | reset => cases h; exact .reset s
  | cfg ecl maxver sa cs =>
    rcases cfg_cases Config.platform ecl maxver sa cs s with ⟨-, he⟩ | ⟨-, -, he⟩ | ⟨-, -, -, he⟩ | ⟨hp, hv, -, he⟩ <;>
      rw [resultOf, he] at h <;> cases h
    · exact .nothing _ s
    · exact .nothing _ s
    · exact .nothing _ s
    · exact .cfg s ecl maxver sa cs (cfgAccepted_iff.mp hp) hv
  | setlen n =>
    rcases setlen_cases n s with ⟨-, he⟩ | ⟨hn, he⟩ <;> rw [resultOf, he] at h <;> cases h
    · exact .nothing _ s
    · exact .setlen s n hn
  | append =>
    rcases append_loop h with rfl | ⟨hobs, text, hloop⟩
    · exact .nothing _ _
    · exact .append s t text hobs hloop
  | render k =>
    rcases render_writes h with rfl | ⟨hp, hv, hs⟩
    · exact .nothing _ _
    · exact .assemble _ s t k (.inr rfl) hp hv hs
  | bitasm k =>
    rcases bitasm_writes h with rfl | ⟨hp, hv, rfl⟩
    · exact .nothing _ _
    · exact .assemble _ s _ k (.inl rfl) hp hv .refl
  | rsenc => exact (rsenc_writes h).elim (fun he => he ▸ .nothing _ _) (.stage _ s t)
  | mplace => exact (mplace_writes h).elim (fun he => he ▸ .nothing _ _) (.stage _ s t)
  | masksel => exact (masksel_writes h).elim (fun he => he ▸ .nothing _ _) (.stage _ s t)
  | setw ver ecl =>
    rcases setw_cases ver ecl s with ⟨-, he⟩ | ⟨hv, he⟩ <;> rw [resultOf, he] at h <;> cases h
    · exact .nothing _ s
    · exact .setw s ver ecl hv
  | modesel mode ver idx => exact modesel_state h ▸ .nothing _ _
  | gfmul a b => cases h; exact .nothing _ s
  | seta space idx =>
    rcases seta_cases space idx s with ⟨sp, -, he⟩ | ⟨-, he⟩ <;> rw [resultOf, he] at h <;> cases h
    · exact .seta s space idx sp
    · exact .nothing _ s
  | ld =>
    rcases load_cases s with ⟨v, -, he⟩ | ⟨-, he⟩ | ⟨-, he⟩ <;> rw [resultOf, he] at h <;> cases h
    · exact .ld s
    · exact .nothing _ s
  | st v =>
    rcases store_cases Config.platform v s with ⟨u, hu, he⟩ | ⟨-, he⟩ <;> rw [resultOf, he] at h <;> cases h
    · exact .st s u v hu
    · exact .nothing _ s
  | rdr regno =>
    rcases readRegister_cases regno s with ⟨v, -, he⟩ | ⟨-, he⟩ <;> rw [resultOf, he] at h <;> cases h <;>
      exact .nothing _ s

/-- A command that gives a next state has one of the effects, and answers once (R98). -/
theorem effect_of_exec {i : Instr} {s t : State} (h : exec i s = .next t) :
    ∃ u res val, Effect i s u ∧ t = respond u res val := by
  obtain ⟨u, res, val, hu, ht⟩ := exec_eq_next h
  exact ⟨u, res, val, effect_of_stateOf hu, ht⟩

/-- What ignores the host's side of the port and what every effect keeps, a step keeps. -/
theorem step_keeps {Inv : State → Prop}
    (port : ∀ (s : State) (cmds : List Word) (resps : List Response), Inv s →
      Inv { s with cmds := cmds, resps := resps })
    (command : ∀ i s t, Effect i s t → Inv s → Inv t) {s t : State} (h : step s = .next t) (hs : Inv s) : Inv t := by
  obtain ⟨w, rest, -, ⟨i, -, hi⟩ | ⟨e, -, rfl⟩⟩ := step_eq_next h
  · obtain ⟨u, res, val, hu, rfl⟩ := effect_of_exec hi
    exact port u u.cmds _ (command i _ u hu (port s rest s.resps hs))
  · exact port s rest _ hs

/-! ### Who writes what (R21, R22, R30, R68) -/

/-- The later stages write no group register, no slot, no text and no phase. -/
structure StageFrame (s t : State) : Prop where
  phase : t.phase = s.phase
  group : t.group = s.group
  slots : t.slots = s.slots
  tpos : t.tpos = s.tpos
  txt : t.mem.txt = s.mem.txt
  txtn : t.txtn = s.txtn

/-- Each of the later stages keeps the frame. -/
theorem StageWrites.frame {s t : State} (h : StageWrites s t) : StageFrame s t := by
  cases h <;> constructor <;> rfl

/-- The later stages together keep the frame. -/
theorem stages_frame {s t : State} (h : Relation.ReflTransGen StageWrites s t) : StageFrame s t := by
  induction h with
  | refl => constructor <;> rfl
  | tail _ hw ih =>
    obtain ⟨hphase, hgroup, hslots, htpos, htxt, htxtn⟩ := hw.frame
    exact ⟨hphase.trans ih.phase, hgroup.trans ih.group, hslots.trans ih.slots, htpos.trans ih.tpos,
      htxt.trans ih.txt, htxtn.trans ih.txtn⟩

/-- A store writes no phase, no group register, no slot and no cursor (R62). -/
theorem memWrite_frame {p : Platform} {s t : State} {sp : Space} {idx : Nat} {v : BitVec 16}
    (h : memWrite p s sp idx v = some t) :
    t.phase = s.phase ∧ t.group = s.group ∧ t.slots = s.slots ∧ t.tpos = s.tpos := by
  rcases memWrite_cases h with ⟨-, -, -, rfl⟩ | ⟨-, -, -, rfl⟩ | ⟨-, -, -, rfl⟩ <;> exact ⟨rfl, rfl, rfl, rfl⟩

/-- Settles O51: the four clauses, effect by effect. -/
theorem whoWrites : Obligations.WhoWrites := by
  intro i s t h
  obtain ⟨u, res, val, hu, rfl⟩ := effect_of_exec h
  simp only [respond_phase, respond_group, respond_slots, respond_tpos, respond_mem, respond_txtn]
  cases hu with
  | nothing => simp
  | reset => exact ⟨.inr (.inl ⟨rfl, rfl⟩), .inl rfl, .inl rfl, .inl rfl⟩
  | cfg _ ecl maxver sa cs hphase _ =>
    exact ⟨.inr (.inr (.inl ⟨⟨ecl, maxver, sa, cs, rfl⟩, hphase, rfl⟩)), .inr (.inl ⟨ecl, maxver, sa, cs, rfl⟩),
      .inr (.inl ⟨ecl, maxver, sa, cs, rfl⟩), .inr (.inr ⟨rfl, rfl⟩)⟩
  | setlen => simp
  | append _ _ text _ hloop =>
    have hf := (appendLoop_path hloop).frame
    exact ⟨.inl hf.phase, .inr (.inr ⟨hf.ecl, hf.maxver, hf.sa, hf.charset⟩), .inr (.inr (.inl rfl)),
      .inr (.inr ⟨by rw [hf.mem], hf.txtn⟩)⟩
  | assemble _ _ _ k hcommand hphase _ hstages =>
    have hf := stages_frame hstages
    exact ⟨.inr (.inr (.inr ⟨⟨k, hcommand⟩, hphase, hf.phase⟩)), .inr (.inr (by simp [hf.group, bitasmState])),
      .inr (.inr (.inr ⟨hf.group, hf.slots, hf.tpos⟩)), .inr (.inr ⟨hf.txt, hf.txtn⟩)⟩
  | stage _ _ _ hw =>
    have hf := hw.frame
    exact ⟨.inl hf.phase, .inr (.inr (by simp [hf.group])), .inr (.inr (.inr ⟨hf.group, hf.slots, hf.tpos⟩)),
      .inr (.inr ⟨hf.txt, hf.txtn⟩)⟩
  | setw => simp
  | seta => simp
  | ld => simp
  | st _ w v hw =>
    obtain ⟨hphase, hgroup, hslots, htpos⟩ := memWrite_frame hw
    simp [hphase, hgroup, hslots, htpos]

/-! ### Reset (R35, R131, R440) -/

/-- Every slot is at its reset value after reset (R35). -/
@[simp] theorem slot_reset (k : BitVec 4) : State.reset.slot k = .reset := by
  simp [State.slot, State.reset]

/-- Every buffer is empty after reset, and so is the string (R35). -/
theorem reset_buffersAgree (p : Platform) : BuffersAgree p State.reset where
  txt := rfl
  dcw := rfl
  fcw := rfl
  mm := rfl
  txtSize := Nat.zero_le _
  dcwSize := Nat.zero_le _
  fcwSize := Nat.zero_le _
  string := Nat.zero_le _
  version := Nat.zero_le _
  matrix := fun h => absurd rfl h

/-- All penalties are 0 after reset, and mask 0 is selected (R35). -/
theorem reset_penaltiesAgree : PenaltiesAgree State.reset where
  sums := by decide
  least := by decide
  first := by decide

/-- There is no group after reset, and no slot is created (R35). -/
theorem reset_groupShape : GroupShape State.reset where
  exists_iff := by decide
  count := by decide
  single := by decide
  minver := by decide
  maxver := by decide
  table := by decide
  version := fun _ hk => absurd hk (Nat.not_lt_zero _)
  current := fun h => absurd rfl h
  mode := fun k => by rw [slot_reset]; rfl
  uncreated := fun k _ => slot_reset k

/-- With no symbol there is no counter to agree. -/
theorem countersAgree_of_symcnt_eq_zero {s : State} (h : s.group.symcnt = 0) : CountersAgree s := by
  intro k hk
  simp [h] at hk

/-- Settles O59: each invariant of the reset state in turn. -/
theorem resetMeetsInvariants : Obligations.ResetMeetsInvariants :=
  ⟨wf_reset, reset_buffersAgree _, reset_penaltiesAgree, reset_groupShape, countersAgree_of_symcnt_eq_zero rfl,
    fun k seg hseg => by simp [Slot.reset] at hseg, reset_buffersAgree _, reset_groupShape⟩

/-- Settles O7: RESET runs to its result, and the reset state is read field by field. -/
theorem resetLeaves : Obligations.ResetLeaves := by
  refine ⟨fun s => rfl, rfl, rfl, rfl, rfl, rfl, rfl, rfl, rfl, rfl, rfl, rfl, rfl, rfl, rfl, rfl, rfl, ?_, rfl, rfl,
    rfl, rfl, ?_, fun i => ⟨rfl, rfl, rfl, rfl⟩⟩
  · intro m
    simp [State.reset]
  · intro k
    simp [State.reset, Slot.reset]

/-- Refutes O60: a string of one character with the cursor past it, as an APPEND leaves it; SETLEN 0 lowers `TLEN` to 0
and leaves `TPOS` at 1 (R133). -/
theorem not_setlenKeepsCursorInRange : ¬ Obligations.SetlenKeepsCursorInRange := by
  intro h
  have hrun :
      exec (.setlen 0)
          { State.reset with mem := { Memory.reset with txt := [(0, 0x31)] }, txtn := 1, tlen := 1, tpos := 1 } =
        .next (respond
          { State.reset with mem := { Memory.reset with txt := [(0, 0x31)] }, txtn := 1, tlen := 0, tpos := 1 }
          .ok 0) := rfl
  exact absurd (h 0 _ _ (by decide) hrun) (by decide)

/-! ### How long the stages' buffers are -/

/-- BITASM fills exactly the `d` data codewords (R248). -/
@[simp] theorem length_fillCodewords (d : Nat) (b : List Bool) : (fillCodewords d b).length = d := by
  simp [fillCodewords, padCodewords]
  omega

/-- XORing onto the front keeps the length (R269). -/
@[simp] theorem length_xorFront (u w : List Byte) : (xorFront u w).length = w.length := by
  induction u generalizing w with
  | nil => cases w <;> rfl
  | cons x xs ih => cases w <;> simp [xorFront, ih]

/-- Each round of the division drops the leading entry (R269). -/
@[simp] theorem length_divideRounds (g : List Byte) (m : Nat) (w : List Byte) :
    (divideRounds g m w).length = w.length - m := by
  induction m generalizing w with
  | zero => rfl
  | succ m ih => cases w <;> simp [divideRounds, ih]

/-- A block has `n` EC codewords (R267). -/
@[simp] theorem length_rsRemainder (d : List Byte) (n : Nat) : (rsRemainder d n).length = n := by
  simp [rsRemainder]

/-- The slices have the lengths asked for, as far as the data goes (R268). -/
theorem map_length_slices {ns : List Nat} {d : List Byte} (h : ns.sum ≤ d.length) :
    (slices ns d).map List.length = ns := by
  induction ns generalizing d with
  | nil => rfl
  | cons n ns ih =>
    rw [List.sum_cons] at h
    rw [slices, List.map_cons, ih (by rw [List.length_drop]; omega), List.length_take, Nat.min_eq_left (by omega)]

/-- A first block adds to a column the cell it has there (R271). -/
theorem column_cons (b : List Byte) (bs : List (List Byte)) (c : Nat) :
    column (b :: bs) c = b[c]?.toList ++ column bs c := by
  cases h : b[c]? <;> simp [column, h]

/-- The first `n` cells of a list, one by one. -/
theorem sum_length_getElem? (b : List Byte) (n : Nat) :
    ((List.range n).map fun c => b[c]?.toList.length).sum = min n b.length := by
  induction n with
  | zero => simp
  | succ n ih =>
    rw [List.range_succ, List.map_append, List.sum_append, ih]
    by_cases h : n < b.length
    · simp [h]; omega
    · have hle := Nat.not_lt.mp h
      simp [hle, hle.trans (Nat.le_succ n)]

/-- The columns of blocks no longer than `n` hold all their codewords (R271). -/
theorem length_columns {bs : List (List Byte)} {n : Nat} (h : ∀ b ∈ bs, b.length ≤ n) :
    (columns bs n).length = (bs.map List.length).sum := by
  rw [columns, List.length_flatMap]
  induction bs with
  | nil => simp [column]
  | cons b bs ih =>
    obtain ⟨hb, hbs⟩ := List.forall_mem_cons.mp h
    simp only [column_cons, List.length_append, List.sum_map_add, sum_length_getElem?, ih hbs, List.map_cons,
      List.sum_cons, Nat.min_eq_right hb]

/-- The block lengths tile the data (R268). -/
theorem sum_blockLengths {ecl : EcLevel} {v : Nat} (h : 0 < blocks ecl v) :
    (blockLengths ecl v).sum = dataCW ecl v := by
  have hlt := Nat.mod_lt (dataCW ecl v) h
  have hdiv := Nat.div_add_mod (dataCW ecl v) (blocks ecl v)
  simp only [blockLengths, List.sum_append, List.sum_replicate, smul_eq_mul]
  obtain ⟨k, hk⟩ := Nat.exists_eq_add_of_le hlt.le
  generalize dataCW ecl v / blocks ecl v = q at *
  generalize dataCW ecl v % blocks ecl v = r at *
  rw [← hdiv, hk]
  simp only [Nat.add_sub_cancel_left]
  ring

/-- There are as many block lengths as blocks (R268). -/
theorem length_blockLengths {ecl : EcLevel} {v : Nat} (h : 0 < blocks ecl v) :
    (blockLengths ecl v).length = blocks ecl v := by
  have hlt := Nat.mod_lt (dataCW ecl v) h
  simp only [blockLengths, List.length_append, List.length_replicate]
  omega

/-- No block is longer than the shorter ones by more than one codeword (R268). -/
theorem le_of_mem_blockLengths {ecl : EcLevel} {v n : Nat} (h : n ∈ blockLengths ecl v) :
    n ≤ dataCW ecl v / blocks ecl v + 1 := by
  rcases List.mem_append.mp h with h | h <;> rw [List.eq_of_mem_replicate h]
  exact Nat.le_succ _

/-- Every version has blocks at every level, and data and EC codewords make up the total (R268, R385, R386). -/
theorem blocks_tile_totalCW : ∀ ecl, ∀ v ∈ List.range' 1 40,
    0 < blocks ecl v ∧ dataCW ecl v + blocks ecl v * ecPerBlock ecl v = totalCW v := by
  intro ecl
  cases ecl <;> decide

/-- RSENC makes exactly `TotalCW` codewords (R270). -/
theorem length_codewordStream {ecl : EcLevel} {v : Nat} {d : List Byte} (hv : versionOk v = true)
    (hd : d.length = dataCW ecl v) : (codewordStream ecl v d).length = totalCW v := by
  obtain ⟨h1, h2⟩ := versionOk_iff.mp hv
  obtain ⟨hpos, htotal⟩ := blocks_tile_totalCW ecl v (by rw [List.mem_range'_1]; omega)
  have hslices := map_length_slices (ns := blockLengths ecl v) (d := d) (by rw [sum_blockLengths hpos, hd])
  have hdata : ∀ b ∈ slices (blockLengths ecl v) d, b.length ≤ dataCW ecl v / blocks ecl v + 1 := fun b hb =>
    le_of_mem_blockLengths (hslices ▸ List.mem_map_of_mem hb)
  have hcount : (slices (blockLengths ecl v) d).length = blocks ecl v := by
    rw [← List.length_map (f := List.length), hslices, length_blockLengths hpos]
  rw [codewordStream, interleave, List.length_append, length_columns hdata, hslices, sum_blockLengths hpos,
    length_columns (by simp), List.map_map]
  simp [Function.comp_def, hcount, htotal]

/-! ### Matrices are square at every stage -/

/-- The blank matrix is square (R291). -/
theorem isSquare_blankGrid (n : Nat) : isSquare n (blankGrid n) := by
  simp [isSquare, blankGrid]

/-- Writing a cell keeps the shape. -/
theorem isSquare_gridSet {n : Nat} {g : Grid} (h : isSquare n g) (r c : Nat) (v : Module) :
    isSquare n (gridSet g r c v) := by
  refine ⟨by simp [gridSet, h.1], fun row hrow => ?_⟩
  obtain ⟨i, hi, rfl⟩ := List.mem_iff_getElem.mp hrow
  simp only [gridSet, List.getElem_modify]
  split <;> simp [h.2 _ (List.getElem_mem _)]

/-- Writes in order keep the shape (R293, R333). -/
theorem isSquare_setAll {n : Nat} {g : Grid} (h : isSquare n g) (xs : List Placement) : isSquare n (setAll g xs) := by
  induction xs generalizing g with
  | nil => exact h
  | cons x xs ih => exact ih (isSquare_gridSet h _ _ _)

/-- A claim keeps the shape, whether it writes or not (R292). -/
theorem isSquare_claim {n : Nat} {g : Grid} (h : isSquare n g) (x : Placement) : isSquare n (claim g x) := by
  rw [claim]
  split
  · exact isSquare_gridSet h _ _ _
  · exact h

/-- Claims in order keep the shape (R292). -/
theorem isSquare_claimAll {n : Nat} {g : Grid} (h : isSquare n g) (xs : List Placement) :
    isSquare n (claimAll g xs) := by
  induction xs generalizing g with
  | nil => exact h
  | cons x xs ih => exact ih (isSquare_claim h x)

/-- Placing the data keeps the shape (R302). -/
theorem isSquare_fillData {n : Nat} {g : Grid} (h : isSquare n g) (path : List (Nat × Nat)) (bs : List Bool) :
    isSquare n (fillData path bs g) := by
  induction path generalizing bs g with
  | nil => cases bs <;> exact h
  | cons rc path ih =>
    cases bs with
    | nil => exact h
    | cons b bs =>
      rw [fillData]
      split
      · exact ih (isSquare_gridSet h _ _ _) bs
      · exact ih h _

/-- Filling the remainder keeps the shape (R304). -/
theorem isSquare_placeRemainder {n : Nat} {g : Grid} (h : isSquare n g) : isSquare n (placeRemainder g) := by
  refine ⟨by simp [placeRemainder, h.1], ?_⟩
  simpa [placeRemainder] using h.2

/-- The function patterns are a matrix of the version's side (R290). -/
theorem isSquare_functionPatterns (v : Nat) : isSquare (side v) (functionPatterns v) :=
  isSquare_claimAll (isSquare_setAll (isSquare_blankGrid _) _) _

/-- The pre-mask matrix is a matrix of the version's side (R291). -/
theorem isSquare_premaskMatrix (v : Nat) (ws : List Byte) : isSquare (side v) (premaskMatrix v ws) :=
  isSquare_placeRemainder (isSquare_fillData (isSquare_functionPatterns v) _ _)

/-- Masking keeps the shape (R332). -/
theorem isSquare_applyMask {n : Nat} {g : Grid} (h : isSquare n g) (m : Nat) : isSquare n (applyMask g m) := by
  refine ⟨by simp [applyMask, h.1], fun row hrow => ?_⟩
  obtain ⟨⟨r, i⟩, hri, rfl⟩ := List.mem_map.mp hrow
  simpa using h.2 r (List.fst_mem_of_mem_zipIdx hri)

/-- A candidate has the shape of the pre-mask matrix (R338). -/
theorem isSquare_candidate {n : Nat} {g : Grid} (h : isSquare n g) (ecl : EcLevel) (v m : Nat) :
    isSquare n (candidate g ecl v m) :=
  isSquare_setAll (isSquare_applyMask h m) _

/-- Cutting `k·n` cells gives `k` rows of `n` (R75). -/
theorem rowsOf_shape {n k : Nat} {cells : List Module} (h : cells.length = k * n) :
    (rowsOf n k cells).length = k ∧ ∀ row ∈ rowsOf n k cells, row.length = n := by
  induction k generalizing cells with
  | zero => simp [rowsOf]
  | succ k ih =>
    rw [Nat.succ_mul] at h
    obtain ⟨hlen, hrows⟩ := ih (cells := cells.drop n) (by rw [List.length_drop]; omega)
    refine ⟨by rw [rowsOf, List.length_cons, hlen], ?_⟩
    rw [rowsOf, List.forall_mem_cons]
    exact ⟨by rw [List.length_take]; omega, hrows⟩

/-- A square matrix has `n·n` cells. -/
theorem length_flatten_of_isSquare {n : Nat} {g : Grid} (h : isSquare n g) : g.flatten.length = n * n := by
  rw [List.length_flatten, List.map_congr_left h.2, List.map_const', List.sum_replicate, h.1, smul_eq_mul]

/-! ### The selected mask is the first of least total (R339) -/

/-- `b` has the least total of the masks of a list, and is the first that has it. -/
def FirstLeast (pen : Vector (BitVec 32) 8) (seen : List (Fin 8)) (b : Fin 8) : Prop :=
  ∀ m ∈ seen, pen[b] ≤ pen[m] ∧ (m < b → pen[b] < pen[m])

/-- One comparison extends the masks seen by one. -/
theorem firstLeast_concat {pen : Vector (BitVec 32) 8} {seen : List (Fin 8)} {b m : Fin 8}
    (h : FirstLeast pen seen b) (hb : b < m) :
    FirstLeast pen (seen ++ [m]) (if pen[m] < pen[b] then m else b) := by
  intro k hk
  rw [List.mem_append, List.mem_singleton] at hk
  by_cases hlt : pen[m] < pen[b]
  · rw [if_pos hlt]
    rcases hk with hk | rfl
    · have hkb : pen[m] < pen[k] := Nat.lt_of_lt_of_le hlt (h k hk).1
      exact ⟨BitVec.le_of_lt hkb, fun _ => hkb⟩
    · exact ⟨BitVec.le_refl _, fun hkk => absurd hkk (lt_irrefl _)⟩
  · rw [if_neg hlt]
    rcases hk with hk | rfl
    · exact h k hk
    · exact ⟨BitVec.not_lt.mp hlt, fun hkb => absurd hkb (not_lt.mpr hb.le)⟩

/-- Comparing the masks of a rising list in turn. -/
theorem firstLeast_foldl {pen : Vector (BitVec 32) 8} {l seen : List (Fin 8)} {b : Fin 8}
    (h : FirstLeast pen seen b) (hl : (b :: l).Pairwise (· < ·)) :
    FirstLeast pen (seen ++ l) (l.foldl (fun best m => if pen[m] < pen[best] then m else best) b) := by
  induction l generalizing seen b with
  | nil => simpa using h
  | cons m l ih =>
    obtain ⟨hb, hml⟩ := List.pairwise_cons.mp hl
    obtain ⟨hbm, hbl⟩ := List.forall_mem_cons.mp hb
    rw [List.foldl_cons, List.append_cons]
    refine ih (firstLeast_concat h hbm) (List.pairwise_cons.mpr ⟨?_, (List.pairwise_cons.mp hml).2⟩)
    split
    · exact (List.pairwise_cons.mp hml).1
    · exact hbl

/-- MASKSEL selects the first mask of least total (R339, R452). -/
theorem selectMask_spec (pen : Vector (BitVec 32) 8) (m : Fin 8) :
    pen[selectMask pen] ≤ pen[m] ∧ (m < selectMask pen → pen[selectMask pen] < pen[m]) := by
  have hzero : FirstLeast pen [0] 0 := by
    intro k hk
    rw [List.mem_singleton.mp hk]
    exact ⟨BitVec.le_refl _, fun h => absurd h (lt_irrefl _)⟩
  exact firstLeast_foldl hzero (l := [1, 2, 3, 4, 5, 6, 7]) (by decide) m (by fin_cases m <;> decide)

/-! ### The buffer and penalty invariants (R27, R28, R63, R339) -/

/-- The buffer invariant depends on the buffers, their lengths, the string and the version only. -/
theorem buffersAgree_congr {p : Platform} {s t : State} (h : BuffersAgree p s) (mem : t.mem = s.mem)
    (tlen : t.tlen = s.tlen) (txtn : t.txtn = s.txtn) (dcwn : t.dcwn = s.dcwn) (fcwn : t.fcwn = s.fcwn)
    (mmv : t.mmv = s.mmv) (wver : t.wver = s.wver) : BuffersAgree p t := by
  obtain ⟨h1, h2, h3, h4, h5, h6, h7, h8, h9, h10⟩ := h
  rw [State.matrixCells, State.side] at h4
  constructor <;> simp only [State.matrixCells, State.side, mem, tlen, txtn, dcwn, fcwn, mmv, wver] <;> assumption

/-- The penalty invariant depends on the penalty registers only. -/
theorem penaltiesAgree_congr {s t : State} (h : PenaltiesAgree s) (pen : t.pen = s.pen) (penc : t.penc = s.penc)
    (maskref : t.maskref = s.maskref) : PenaltiesAgree t := by
  obtain ⟨h1, h2, h3⟩ := h
  constructor <;> simpa only [pen, penc, maskref]

/-- Cells made from a list are dense (R63). -/
theorem dense_cellsFrom {α : Type} (l : List α) : dense (cellsFrom 0 l) l.length := by
  rw [dense, cellsFrom_keys, List.range_eq_range']

/-- A stream that is written whole, and its length narrowed to a register that can hold it (R28). -/
theorem dense_cellsFrom_ofNat {α : Type} {l : List α} {n w : Nat} (hl : l.length = n) (hn : n < 2 ^ w) :
    dense (cellsFrom 0 l) (BitVec.ofNat w n).toNat := by
  rw [BitVec.toNat_ofNat, Nat.mod_eq_of_lt hn, ← hl]
  exact dense_cellsFrom l

/-- A store below or at the end of a dense buffer keeps it dense, and its length within the buffer's size (R62). -/
theorem dense_store {α : Type} {c : Cells α} {w size idx : Nat} {n : BitVec w} (v : α) (h : dense c n.toNat)
    (hsize : n.toNat ≤ size) (hw : size < 2 ^ w) (hidx : idx ≤ n.toNat) (hlt : idx < size) :
    dense (cellPut c idx v) (storeLength n idx).toNat ∧ n.toNat ≤ (storeLength n idx).toNat ∧
      (storeLength n idx).toNat ≤ size := by
  rw [dense, List.range_eq_range'] at h ⊢
  by_cases hend : idx = n.toNat
  · have hnext : (n + 1).toNat = n.toNat + 1 := by
      rw [BitVec.toNat_add, BitVec.ofNat_eq_ofNat, BitVec.toNat_ofNat, Nat.add_mod_mod]
      exact Nat.mod_eq_of_lt (show n.toNat + 1 < 2 ^ w by omega)
    rw [storeLength, if_pos hend, hnext]
    have hput := cellPut_keys_end v h
    rw [Nat.zero_add, ← hend] at hput
    exact ⟨hend ▸ hput, by omega, by omega⟩
  · rw [storeLength, if_neg hend]
    exact ⟨cellPut_keys_inside v h (Nat.zero_le _) (by omega), le_rfl, hsize⟩

/-- Opening a context with `n` codewords keeps the buffer invariant (R134, R241). -/
theorem buffersAgree_openContext {p : Platform} {s : State} (h : BuffersAgree p s) {ver : BitVec 6} (ecl : EcLevel)
    {n : Nat} {ws : List Byte} (hver : ver.toNat ≤ 40) (hws : ws.length = n) (hn : n ≤ dcwSize) :
    BuffersAgree p (openContext s ver ecl n ws) := by
  have hsmall : n < 2 ^ 12 := hn.trans_lt (by decide)
  exact
    { txt := h.txt
      dcw := dense_cellsFrom_ofNat hws hsmall
      fcw := rfl
      mm := rfl
      txtSize := h.txtSize
      dcwSize := by rwa [openContext_dcwn, BitVec.toNat_ofNat, Nat.mod_eq_of_lt hsmall]
      fcwSize := Nat.zero_le _
      string := h.string
      version := hver
      matrix := fun hm => absurd rfl hm }

/-- No version has more data codewords than `DCW` has cells (R7). -/
theorem dataCW_le {v : Nat} (ecl : EcLevel) (hv : v ≤ 40) : dataCW ecl v ≤ dcwSize :=
  dataCW_le_dcwSize ecl v (List.mem_range.mpr (by omega))

/-- BITASM keeps the buffer invariant (R241, R248). -/
theorem buffersAgree_bitasmState {p : Platform} {s : State} (h : BuffersAgree p s) {k : BitVec 4}
    (hver : versionOk (s.slot k).ver.toNat = true) : BuffersAgree p (bitasmState k s) :=
  have hle := (versionOk_iff.mp hver).2
  have hopen := buffersAgree_openContext h s.group.ecl hle (length_fillCodewords _ (usedBits s k)) (dataCW_le _ hle)
  buffersAgree_congr hopen rfl rfl rfl rfl rfl rfl rfl

/-- Storing a whole matrix keeps the buffer invariant (R291, R339). -/
theorem buffersAgree_storeMatrix {p : Platform} {s : State} (h : BuffersAgree p s) {kind : MatrixKind}
    {cells : List Module} (hkind : kind ≠ .empty) (hver : versionOk s.wver.toNat = true)
    (hcells : cells.length = s.side * s.side) : BuffersAgree p (storeMatrix s kind cells) where
  txt := h.txt
  dcw := h.dcw
  fcw := h.fcw
  mm := by
    rw [State.matrixCells, storeMatrix_mmv, if_neg hkind, storeMatrix_mm]
    exact hcells ▸ dense_cellsFrom cells
  txtSize := h.txtSize
  dcwSize := h.dcwSize
  fcwSize := h.fcwSize
  string := h.string
  version := h.version
  matrix := fun _ h0 => by
    rw [storeMatrix_wver] at h0
    simp [h0, versionOk] at hver

/-- The later stages keep the buffer invariant (R270, R291, R339). -/
theorem StageWrites.buffersAgree {p : Platform} {s t : State} (hw : StageWrites s t) (h : BuffersAgree p s) :
    BuffersAgree p t := by
  cases hw with
  | stream d hver hd =>
    have hsize : totalCW s.wver.toNat ≤ fcwSize :=
      totalCW_le_fcwSize _ (List.mem_range.mpr (Nat.lt_succ_of_le (versionOk_iff.mp hver).2))
    have hsmall : totalCW s.wver.toNat < 2 ^ 12 := hsize.trans_lt (by decide)
    exact
      { txt := h.txt
        dcw := h.dcw
        fcw := dense_cellsFrom_ofNat (length_codewordStream hver hd) hsmall
        mm := h.mm
        txtSize := h.txtSize
        dcwSize := h.dcwSize
        fcwSize := by rwa [storeStream_fcwn, BitVec.toNat_ofNat, Nat.mod_eq_of_lt hsmall]
        string := h.string
        version := h.version
        matrix := h.matrix }
  | premask ws hver =>
    exact buffersAgree_storeMatrix h (by decide) hver (length_flatten_of_isSquare (isSquare_premaskMatrix _ ws))
  | final cells m hver hcells penc =>
    have hsquare := isSquare_candidate (rowsOf_shape hcells) s.wecl s.wver.toNat m
    exact buffersAgree_congr
      (buffersAgree_storeMatrix h (kind := .final) (by decide) hver (length_flatten_of_isSquare hsquare))
      rfl rfl rfl rfl rfl rfl rfl

/-- The later stages keep the penalty invariant: only MASKSEL writes the registers, and it selects (R339). -/
theorem StageWrites.penaltiesAgree {s t : State} (hw : StageWrites s t) (h : PenaltiesAgree s) : PenaltiesAgree t := by
  cases hw with
  | stream => exact penaltiesAgree_congr h rfl rfl rfl
  | premask => exact penaltiesAgree_congr h rfl rfl rfl
  | final cells m hver hcells penc =>
    exact
      { sums := fun m => by simp [penaltyTotal]
        least := fun m => (selectMask_spec _ m).1
        first := fun m => (selectMask_spec _ m).2 }

/-- `TXT_SIZE` is at most 32768 (R7). -/
theorem txtSize_le : Config.platform.txtSize ≤ 32768 := Config.txtSizePred.isLt

/-- A store keeps the buffer invariant (R62, R363). -/
theorem buffersAgree_memWrite {s t : State} {sp : Space} {idx : Nat} {v : BitVec 16}
    (hw : memWrite Config.platform s sp idx v = some t) (h : BuffersAgree Config.platform s) :
    BuffersAgree Config.platform t := by
  rcases memWrite_cases hw with ⟨-, hi, hlt, rfl⟩ | ⟨-, hi, hlt, rfl⟩ | ⟨-, hi, hlt, rfl⟩
  · obtain ⟨hd, hle, hs⟩ := dense_store v h.txt h.txtSize (txtSize_le.trans_lt (by decide)) hi hlt
    exact { h with txt := hd, txtSize := hs, string := h.string.trans hle }
  · obtain ⟨hd, -, hs⟩ := dense_store (v.setWidth 8) h.dcw h.dcwSize (by decide) hi hlt
    exact { h with dcw := hd, dcwSize := hs }
  · obtain ⟨hd, -, hs⟩ := dense_store (v.setWidth 8) h.fcw h.fcwSize (by decide) hi hlt
    exact { h with fcw := hd, fcwSize := hs }

/-- A store writes no penalty register (R62). -/
theorem penaltiesAgree_memWrite {p : Platform} {s t : State} {sp : Space} {idx : Nat} {v : BitVec 16}
    (hw : memWrite p s sp idx v = some t) (h : PenaltiesAgree s) : PenaltiesAgree t := by
  rcases memWrite_cases hw with ⟨-, -, -, rfl⟩ | ⟨-, -, -, rfl⟩ | ⟨-, -, -, rfl⟩ <;>
    exact penaltiesAgree_congr h rfl rfl rfl

/-- Every command keeps the buffer invariant. -/
theorem Effect.buffersAgree {i : Instr} {s t : State} (he : Effect i s t) (h : BuffersAgree Config.platform s) :
    BuffersAgree Config.platform t := by
  cases he with
  | nothing => exact h
  | reset => exact buffersAgree_congr (reset_buffersAgree _) rfl rfl rfl rfl rfl rfl rfl
  | cfg => exact buffersAgree_congr h rfl rfl rfl rfl rfl rfl rfl
  | setlen _ n hn => exact { h with string := hn }
  | append _ _ text _ hloop =>
    have hf := (appendLoop_path hloop).frame
    exact buffersAgree_congr h hf.mem hf.tlen hf.txtn hf.dcwn hf.fcwn hf.mmv hf.wver
  | assemble _ _ _ k _ _ hver hstages =>
    induction hstages with
    | refl => exact buffersAgree_bitasmState h hver
    | tail _ hw ih => exact hw.buffersAgree ih
  | stage _ _ _ hw => exact hw.buffersAgree h
  | setw _ ver ecl hver =>
    exact buffersAgree_openContext h ecl (versionOk_iff.mp hver).2 rfl (Nat.zero_le _)
  | seta => exact buffersAgree_congr h rfl rfl rfl rfl rfl rfl rfl
  | ld => exact buffersAgree_congr h rfl rfl rfl rfl rfl rfl rfl
  | st _ u v hw => exact buffersAgree_congr (buffersAgree_memWrite hw h) rfl rfl rfl rfl rfl rfl rfl

/-- Every command keeps the penalty invariant. -/
theorem Effect.penaltiesAgree {i : Instr} {s t : State} (he : Effect i s t) (h : PenaltiesAgree s) :
    PenaltiesAgree t := by
  cases he with
  | nothing => exact h
  | reset => exact penaltiesAgree_congr reset_penaltiesAgree rfl rfl rfl
  | cfg => exact penaltiesAgree_congr h rfl rfl rfl
  | setlen => exact penaltiesAgree_congr h rfl rfl rfl
  | append _ _ text _ hloop =>
    have hf := (appendLoop_path hloop).frame
    exact penaltiesAgree_congr h hf.pen hf.penc hf.maskref
  | assemble _ _ _ k _ _ hver hstages =>
    induction hstages with
    | refl => exact penaltiesAgree_congr h rfl rfl rfl
    | tail _ hw ih => exact hw.penaltiesAgree ih
  | stage _ _ _ hw => exact hw.penaltiesAgree h
  | setw => exact penaltiesAgree_congr h rfl rfl rfl
  | seta => exact penaltiesAgree_congr h rfl rfl rfl
  | ld => exact penaltiesAgree_congr h rfl rfl rfl
  | st _ u v hw => exact penaltiesAgree_congr (penaltiesAgree_memWrite hw h) rfl rfl rfl

/-- Settles O54: both invariants are kept by every effect, and neither sees the command port. -/
theorem stepKeepsBuffers : Obligations.StepKeepsBuffers := by
  intro s t hb hp h
  constructor
  · exact step_keeps (fun _ _ _ hs => buffersAgree_congr hs rfl rfl rfl rfl rfl rfl rfl)
      (fun _ _ _ he => he.buffersAgree) h hb
  · exact step_keeps (fun _ _ _ hs => penaltiesAgree_congr hs rfl rfl rfl) (fun _ _ _ he => he.penaltiesAgree) h hp

/-! ### The shape of the group (R22, R30, R213, R218) -/

/-- The shape of the group depends on the group registers, the slots and whether the phase is UNCONFIGURED only. -/
theorem groupShape_congr {s t : State} (h : GroupShape s) (phase : t.phase = .unconfigured ↔ s.phase = .unconfigured)
    (group : t.group = s.group) (slots : t.slots = s.slots) : GroupShape t := by
  obtain ⟨h1, h2, h3, h4, h5, h6, h7, h8, h9, h10⟩ := h
  simp only [State.cur, State.curIdx, State.slot] at h7 h8 h9 h10
  constructor <;> simp only [State.cur, State.curIdx, State.slot, phase, group, slots] <;> assumption

/-- A group with a current symbol: what APPEND works on (R21, R22). -/
structure GroupOpen (s : State) : Prop where
  shape : GroupShape s
  symbol : s.group.symcnt ≠ 0

/-- The index of the current symbol is one less than their number (R21). -/
theorem GroupOpen.curIdx_toNat {s : State} (h : GroupOpen s) : s.curIdx.toNat + 1 = s.group.symcnt.toNat := by
  have hcount : s.group.symcnt.toNat ≤ 16 := h.shape.count
  have hpos : s.group.symcnt.toNat ≠ 0 := fun h0 => h.symbol (BitVec.eq_of_toNat_eq h0)
  have hsub : (s.group.symcnt - 1).toNat = s.group.symcnt.toNat - 1 :=
    BitVec.toNat_sub_of_le (BitVec.le_def.mpr (Nat.one_le_iff_ne_zero.mpr hpos))
  rw [State.curIdx, BitVec.toNat_setWidth, hsub, Nat.mod_eq_of_lt (by omega)]
  omega

/-- The current symbol is one of the group's (R21). -/
theorem GroupOpen.curIdx_lt {s : State} (h : GroupOpen s) : s.curIdx.toNat < s.group.symcnt.toNat := by
  have := h.curIdx_toNat
  omega

/-- The version of the current symbol is `MINVER` (R213, R218). -/
theorem GroupOpen.cur_ver {s : State} (h : GroupOpen s) : s.cur.ver = s.group.minver := h.shape.current h.symbol

/-- Writing the current symbol, with `MINVER` as its version, keeps the shape (R30, R213). -/
theorem GroupOpen.writeCur {s : State} (h : GroupOpen s) {x : Slot} {minver : BitVec 6} {parity : BitVec 8}
    (hver : x.ver = minver) (hlow : s.group.minver.toNat ≤ minver.toNat)
    (hhigh : minver.toNat ≤ s.group.maxver.toNat) (hmode : x.modeAgrees) :
    GroupOpen { s.setCur x with group := { s.group with minver := minver, parity := parity } } := by
  have hslot : ∀ k, State.slot { s.setCur x with group := { s.group with minver := minver, parity := parity } } k =
      if s.curIdx = k then x else s.slot k := fun k => slot_setSlot s s.curIdx k x
  refine ⟨⟨h.shape.exists_iff, h.shape.count, h.shape.single, h.shape.minver.trans hlow, hhigh, h.shape.table, ?_, ?_,
    ?_, ?_⟩, h.symbol⟩
  · intro k hk
    rw [hslot]
    split
    · rw [hver]
      exact ⟨h.shape.minver.trans hlow, le_rfl⟩
    · obtain ⟨h1, h2⟩ := h.shape.version k hk
      exact ⟨h1, h2.trans hlow⟩
  · intro _
    exact (congrArg Slot.ver (cur_setCur s x)).trans hver
  · intro k
    rw [hslot]
    split
    · exact hmode
    · exact h.shape.mode k
  · intro k hk
    have hlt := h.curIdx_lt
    rw [hslot, if_neg (by rintro rfl; exact absurd hlt (Nat.not_lt.mpr hk))]
    exact h.shape.uncreated k hk

/-- Growth starts at a version within `MAXVER` and does not pass it (R213). -/
theorem GroupOpen.grown_ver {s : State} (h : GroupOpen s) {g : Growth}
    (grown : Grown s.group.ecl s.group.sa s.cur (growthOf s) g)
    (bound : g.ver ≤ s.cur.ver.toNat + (s.group.maxver.toNat - s.cur.ver.toNat)) :
    s.group.minver.toNat ≤ g.ver ∧ g.ver ≤ s.group.maxver.toNat ∧ g.minver = g.ver := by
  have hver : s.group.minver.toNat ≤ g.ver := h.cur_ver ▸ grown.ver_le
  have hmax := h.shape.maxver
  rw [h.cur_ver] at bound
  refine ⟨hver, by omega, ?_⟩
  rcases grown.settled with rfl | ⟨-, hm⟩
  · rw [growthOf, h.cur_ver]
  · exact hm

/-- Committing growth keeps the shape (R213). -/
theorem GroupOpen.commitGrowth {s : State} (h : GroupOpen s) {g : Growth}
    (grown : Grown s.group.ecl s.group.sa s.cur (growthOf s) g)
    (bound : g.ver ≤ s.cur.ver.toNat + (s.group.maxver.toNat - s.cur.ver.toNat)) :
    GroupOpen (commitGrowth s g) := by
  obtain ⟨hlow, hhigh, hminver⟩ := h.grown_ver grown bound
  have htable := h.shape.table
  have hfit : (BitVec.ofNat 6 g.minver).toNat = g.ver := by
    rw [hminver, BitVec.toNat_ofNat, Nat.mod_eq_of_lt (by omega)]
  exact h.writeCur (congrArg (BitVec.ofNat 6) hminver.symm) (hfit ▸ hlow) (hfit ▸ hhigh) (h.shape.mode s.curIdx)

/-- Opening a segment keeps the shape: the active mode is the new segment's (R214). -/
theorem GroupOpen.openSegment {s : State} (h : GroupOpen s) (mode : EncMode) : GroupOpen (openSegment mode s) :=
  h.writeCur (by cases mode <;> exact h.cur_ver) le_rfl h.shape.maxver (by simp [Slot.modeAgrees])

/-- An encoder keeps the mode of its segment (R150). -/
@[simp] theorem segAppend_mode (p : Platform) (cs : BitVec 8) (seg : Segment) (ch : CharCode) :
    (segAppend p cs seg ch).mode = seg.mode := by
  rw [segAppend]
  split <;> rfl

/-- Committing a character to the last segment keeps the shape (R216). -/
theorem GroupOpen.commitChar {p : Platform} {s : State} (h : GroupOpen s) {seg : Segment}
    (last : s.cur.segs.getLast? = some seg) (ch : CharCode) (b : Nat) : GroupOpen (commitChar p seg ch b s) := by
  have hmode : s.cur.mode = some seg.mode := by
    exact (h.shape.mode s.curIdx).trans (congrArg (Option.map Segment.mode) last)
  exact h.writeCur h.cur_ver le_rfl h.shape.maxver (by simpa [Slot.modeAgrees] using hmode)

/-- The index `NewSymbol` writes to is the number of symbols so far (R218). -/
theorem symcnt_setWidth_toNat {s : State} (room : s.group.symcnt.toNat < symMax) :
    (s.group.symcnt.setWidth 4).toNat = s.group.symcnt.toNat := by
  rw [BitVec.toNat_setWidth, Nat.mod_eq_of_lt (show _ < 2 ^ 4 from room)]

/-- There is one symbol more after `NewSymbol` (R218). -/
theorem symcnt_newSymbol_toNat {s : State} (room : s.group.symcnt.toNat < symMax) :
    (newSymbol s).group.symcnt.toNat = s.group.symcnt.toNat + 1 := by
  have hlt : s.group.symcnt.toNat < 16 := room
  rw [newSymbol_symcnt]
  bv_omega

/-- A new symbol keeps the shape, in any phase that has a group (R22, R218). -/
theorem groupOpen_newSymbol {s : State} (h : GroupShape s) {ph : Phase} (hph : ph ≠ .unconfigured)
    (allowed : s.group.sa = true ∨ s.group.symcnt = 0) (room : s.group.symcnt.toNat < symMax) :
    GroupOpen { newSymbol s with phase := ph } := by
  have hindex := symcnt_setWidth_toNat room
  have hcount := symcnt_newSymbol_toNat room
  have hne : (newSymbol s).group.symcnt ≠ 0 := by
    intro h0
    rw [h0] at hcount
    exact absurd hcount (Nat.zero_ne_add_one _)
  have hslot := slot_newSymbol s
  refine ⟨⟨?_, ?_, ?_, h.minver, h.maxver, h.table, ?_, ?_, ?_, ?_⟩, hne⟩
  · exact ⟨fun h0 => absurd h0 hph, fun h0 => absurd h0 hne⟩
  · exact hcount.trans_le room
  · intro hsa
    rcases allowed with hsa' | h0
    · exact absurd hsa (by simp [hsa'])
    · exact hcount.le.trans (by simp [h0])
  · intro k hk
    rw [show State.slot { newSymbol s with phase := ph } k = _ from hslot k]
    split
    · exact ⟨h.minver, le_rfl⟩
    next hne =>
      have hk' : k.toNat ≠ s.group.symcnt.toNat := fun h0 => hne (BitVec.eq_of_toNat_eq (hindex.trans h0.symm))
      have hlt : k.toNat < (newSymbol s).group.symcnt.toNat := hk
      exact h.version k (by omega)
  · intro _
    exact congrArg Slot.ver ((hslot _).trans (if_pos (curIdx_newSymbol s).symm))
  · intro k
    rw [show State.slot { newSymbol s with phase := ph } k = _ from hslot k]
    split
    · rfl
    · exact h.mode k
  · intro k hk
    have hk' : (newSymbol s).group.symcnt.toNat ≤ k.toNat := hk
    rw [show State.slot { newSymbol s with phase := ph } k = _ from hslot k,
      if_neg (by rintro rfl; omega)]
    exact h.uncreated k (by omega)

/-- Every elementary update of an APPEND keeps an open group (R213–R219). -/
theorem GroupOpen.move {p : Platform} {s t : State} (hm : AppendMove p s t) (h : GroupOpen s) : GroupOpen t := by
  cases hm with
  | grow _ g grown bound => exact h.commitGrowth grown bound
  | openSeg u g mode => exact h.openSegment mode
  | commit u g seg ch last => exact h.commitChar (by simpa using last) ch _
  | newSym _ allowed room =>
    exact groupOpen_newSymbol h.shape (fun h0 => h.symbol (h.shape.exists_iff.mp h0)) (.inl allowed) room
  | advance => exact ⟨groupShape_congr h.shape .rfl rfl rfl, h.symbol⟩

/-- An append path keeps an open group. -/
theorem GroupOpen.path {p : Platform} {s t : State} (hp : AppendPath p s t) (h : GroupOpen s) : GroupOpen t :=
  hp.keeps (fun _ _ => GroupOpen.move) h

/-- APPEND gets past its checks only with a current symbol (R21). -/
theorem groupOpen_of_appendObstacle {s : State} (h : GroupShape s) (hobs : appendObstacle s = none) : GroupOpen s := by
  refine ⟨h, fun h0 => ?_⟩
  simp [appendObstacle, h0] at hobs

/-- CFG opens a group of the shape the rules give it (R132). -/
theorem groupShape_openGroup {s : State} (h : GroupShape s) (hphase : s.phase = .unconfigured) {maxver : BitVec 6}
    (hver : versionOk maxver.toNat = true) (ecl : EcLevel) (sa : Bool) (cs : BitVec 8) :
    GroupShape (openGroup ecl maxver sa cs s) where
  exists_iff := by simp [hphase]
  count := Nat.zero_le _
  single := fun _ => Nat.zero_le _
  minver := le_rfl
  maxver := (versionOk_iff.mp hver).1
  table := (versionOk_iff.mp hver).2
  version := fun _ hk => absurd hk (Nat.not_lt_zero _)
  current := fun h0 => absurd rfl h0
  mode := h.mode
  uncreated := fun k _ => h.uncreated k (by simp [h.exists_iff.mp hphase])

/-- Every command keeps the shape of the group. -/
theorem Effect.groupShape {i : Instr} {s t : State} (he : Effect i s t) (h : GroupShape s) : GroupShape t := by
  cases he with
  | nothing => exact h
  | reset => exact groupShape_congr reset_groupShape .rfl rfl rfl
  | cfg _ ecl maxver sa cs hphase hver =>
    exact (groupOpen_newSymbol (groupShape_openGroup h hphase hver ecl sa cs) (by simp) (.inr rfl)
      (Nat.zero_lt_succ _)).shape
  | setlen => exact groupShape_congr h .rfl rfl rfl
  | append _ _ text hobs hloop =>
    have hopen : GroupOpen { s with tpos := 0 } :=
      ⟨groupShape_congr h .rfl rfl rfl, (groupOpen_of_appendObstacle h hobs).symbol⟩
    exact (hopen.path (appendLoop_path hloop)).shape
  | assemble _ _ _ k _ hphase _ hstages =>
    have hf := stages_frame hstages
    have ht : t.phase ≠ .unconfigured := by simp [hf.phase, bitasmState]
    exact groupShape_congr h (iff_of_false ht hphase) hf.group hf.slots
  | stage _ _ _ hw =>
    have hf := hw.frame
    exact groupShape_congr h (by rw [hf.phase]) hf.group hf.slots
  | setw => exact groupShape_congr h .rfl rfl rfl
  | seta => exact groupShape_congr h .rfl rfl rfl
  | ld => exact groupShape_congr h .rfl rfl rfl
  | st _ u v hw =>
    obtain ⟨hphase, hgroup, hslots, -⟩ := memWrite_frame hw
    exact groupShape_congr h (by rw [advanceAidx_phase, hphase]) hgroup hslots

/-- Settles O55: every effect keeps the shape, and it does not see the command port. -/
theorem stepKeepsGroup : Obligations.StepKeepsGroup := fun _ _ hs h =>
  step_keeps (fun _ _ _ hs => groupShape_congr hs .rfl rfl rfl) (fun _ _ _ he => he.groupShape) h hs

/-! ### Segments and what they cost (R30, R159, R170, R212) -/

/-- No capacity of the tables exceeds the 23648 bits of version 40 at level L (R211). -/
theorem capOf_le {v : Nat} (ecl : EcLevel) (sa : Bool) (hv : v ≤ 40) : capOf ecl sa v ≤ 23648 := by
  have hdata : dataCW ecl v ≤ 2956 := dataCW_le ecl hv
  rw [capOf]
  omega

/-- An entry of a three-column row, by version (R181). -/
theorem byTier_tier (v a b c : Nat) : byTier (tier v) a b c = if v ≤ 9 then a else if v ≤ 26 then b else c := by
  rw [tier]
  split_ifs <;> rfl

/-- A count indicator never narrows as the version grows (R388). -/
theorem ccw_le_succ (v : Nat) (m : EncMode) : ccw v m ≤ ccw (v + 1) m := by
  cases m <;> simp only [ccw, byTier_tier] <;> split_ifs <;> omega

/-- A count indicator has at least 8 bits (R388). -/
theorem eight_le_ccw (v : Nat) (m : EncMode) : 8 ≤ ccw v m := by
  cases m <;> simp only [ccw, byTier_tier] <;> split_ifs <;> decide

/-- A segment costs at least 12 bits: indicator and count (R30). -/
theorem twelve_le_segmentCost (v : Nat) (seg : Segment) : 12 ≤ segmentCost v seg := by
  have := eight_le_ccw v seg.mode
  rw [segmentCost]
  omega

/-- A segment costs more at version `v + 1` by what its count indicator widens (R212). -/
theorem segmentCost_succ (v : Nat) (seg : Segment) :
    segmentCost (v + 1) seg = segmentCost v seg + (ccw (v + 1) seg.mode - ccw v seg.mode) := by
  have hle := ccw_le_succ v seg.mode
  rw [segmentCost, segmentCost]
  omega

/-- `Adjust(v)` is what the segments cost more at version `v + 1` (R212). -/
theorem sum_segmentCost_succ {x : Slot} (segn : ∀ m, (x.segn m).toNat = x.segs.countP (·.mode = m)) (v : Nat) :
    (x.segs.map (segmentCost (v + 1))).sum = (x.segs.map (segmentCost v)).sum + adjust x v := by
  simp only [adjust, adjustMode, segn]
  induction x.segs with
  | nil => simp
  | cons seg segs ih =>
    rw [List.map_cons, List.sum_cons, ih, List.map_cons, List.sum_cons, segmentCost_succ]
    cases hm : seg.mode <;> simp [hm, Nat.succ_mul] <;> omega

/-- Growth keeps the copies in agreement with the segments (R211, R212). -/
theorem grown_counts {ecl : EcLevel} {sa : Bool} {x : Slot} {g g' : Growth} (h : Grown ecl sa x g g')
    (segn : ∀ m, (x.segn m).toNat = x.segs.countP (·.mode = m)) (cap : g.cap = capOf ecl sa g.ver)
    (cnt : g.cnt = (x.segs.map (segmentCost g.ver)).sum) :
    g'.cap = capOf ecl sa g'.ver ∧ g'.cnt = (x.segs.map (segmentCost g'.ver)).sum := by
  induction h with
  | refl => exact ⟨cap, cnt⟩
  | up _ ih => exact ih rfl (by simp only [cnt, sum_segmentCost_succ segn])

/-- A word list that is extended keeps its length (R160, R163). -/
theorem length_extendLast {words : List Nat} (h : words ≠ []) (m d : Nat) :
    (extendLast words m d).length = words.length := by
  have hpos := List.length_pos_of_ne_nil h
  simp [extendLast]
  omega

/-- `NumAppend` keeps a segment's bits and words those of its count (R160, R161, R170). -/
theorem numAppend_agrees {seg : Segment} (hm : seg.mode = .numeric) (h : SegmentAgrees seg) (ch : CharCode) :
    SegmentAgrees (numAppend seg ch) := by
  obtain ⟨hbits, hwords⟩ := h
  simp only [hm, segmentBits, wordCount] at hbits hwords
  constructor
  · simp only [numAppend, hm, segmentBits, hbits]
    split_ifs <;> omega
  · simp only [numAppend, hm, wordCount]
    by_cases hc : seg.count % 3 = 0
    · simp only [hc, if_true, List.length_append, List.length_singleton]
      omega
    · rw [if_neg hc, length_extendLast (by rintro h0; simp [h0] at hwords; omega)]
      omega

/-- `AlnAppend` keeps a segment's bits and words those of its count (R163, R164, R170). -/
theorem alnAppend_agrees {seg : Segment} (hm : seg.mode = .alphanumeric) (h : SegmentAgrees seg) (ch : CharCode) :
    SegmentAgrees (alnAppend seg ch) := by
  obtain ⟨hbits, hwords⟩ := h
  simp only [hm, segmentBits, wordCount] at hbits hwords
  constructor
  · simp only [alnAppend, hm, segmentBits, hbits]
    split_ifs <;> omega
  · simp only [alnAppend, hm, wordCount]
    by_cases hc : seg.count % 2 = 0
    · simp only [hc, if_true, List.length_append, List.length_singleton]
      omega
    · rw [if_neg hc, length_extendLast (by rintro h0; simp [h0] at hwords; omega)]
      omega

/-- Every encoder keeps a segment's bits and words those of its count (R170). -/
theorem segAppend_agrees {p : Platform} {cs : BitVec 8} {seg : Segment} (h : SegmentAgrees seg) (ch : CharCode) :
    SegmentAgrees (segAppend p cs seg ch) := by
  rw [segAppend]
  split
  next hm => exact numAppend_agrees hm h ch
  next hm => exact alnAppend_agrees hm h ch
  next hm =>
    obtain ⟨hbits, hwords⟩ := h
    simp only [hm, segmentBits, wordCount] at hbits hwords
    constructor <;> simp [bytAppend, hm, segmentBits, wordCount, hbits, hwords, Nat.mul_add]
  next hm =>
    obtain ⟨hbits, hwords⟩ := h
    simp only [hm, segmentBits, wordCount] at hbits hwords
    constructor <;> simp [kanAppend, hm, segmentBits, wordCount, hbits, hwords, Nat.mul_add]

/-- An encoder adds the bits `CharBits` says (R159). -/
theorem segAppend_bits (p : Platform) (cs : BitVec 8) (seg : Segment) (ch : CharCode) :
    (segAppend p cs seg ch).bits = seg.bits + charBits p cs seg.mode seg.count ch := by
  rw [segAppend]
  split <;> next hm => rw [hm]; rfl

/-! ### The counters of one symbol (R30) -/

/-- The register a bumped mode is counted in, and no other (R214). -/
theorem segn_bumpSegn (x : Slot) (mode m : EncMode) :
    (x.bumpSegn mode).segn m = if mode = m then x.segn m + 1 else x.segn m := by
  cases mode <;> cases m <;> rfl

/-- An agreeing symbol has at most 1970 segments, so the 11 bits of `SEGN` never overflow (R30, log 16). -/
theorem slotCounts_length_segs_le {ecl : EcLevel} {sa : Bool} {x : Slot} (h : SlotCounts ecl sa x) :
    12 * x.segs.length ≤ x.cnt.toNat := by
  rw [h.count, mul_comm, ← smul_eq_mul, ← List.length_map (segmentCost x.ver.toNat)]
  refine List.card_nsmul_le_sum _ _ fun c hc => ?_
  obtain ⟨seg, -, rfl⟩ := List.mem_map.mp hc
  exact twelve_le_segmentCost _ seg

/-- A symbol that was just created has nothing to count (R218). -/
theorem slotCounts_fresh (ecl : EcLevel) (sa : Bool) {ver : BitVec 6} (hver : ver.toNat ≤ 40) :
    SlotCounts ecl sa { Slot.reset with ver := ver, cap := BitVec.ofNat 15 (capOf ecl sa ver.toNat) } where
  cap := by
    have := capOf_le ecl sa hver
    rw [BitVec.toNat_ofNat, Nat.mod_eq_of_lt (by omega)]
  room := Nat.zero_le _
  count := rfl
  segn := fun m => by cases m <;> rfl
  segments := fun seg hseg => by simp [Slot.reset] at hseg

/-- The narrowing of the copies to the registers changes nothing (R213; log 16). -/
theorem growth_narrowed {ecl : EcLevel} {sa : Bool} {g : Growth} (hver : g.ver ≤ 40)
    (cap : g.cap = capOf ecl sa g.ver) (room : g.cnt ≤ g.cap) :
    (BitVec.ofNat 6 g.ver).toNat = g.ver ∧ (BitVec.ofNat 15 g.cap).toNat = g.cap ∧
      (BitVec.ofNat 15 g.cnt).toNat = g.cnt := by
  have hcap := capOf_le ecl sa hver
  rw [← cap] at hcap
  simp only [BitVec.toNat_ofNat]
  exact ⟨Nat.mod_eq_of_lt (by omega), Nat.mod_eq_of_lt (by omega), Nat.mod_eq_of_lt (by omega)⟩

/-- Committed growth keeps the counters (R213). -/
theorem slotCounts_grow {ecl : EcLevel} {sa : Bool} {x : Slot} (h : SlotCounts ecl sa x) {g : Growth}
    (hver : g.ver ≤ 40) (cap : g.cap = capOf ecl sa g.ver) (cnt : g.cnt = (x.segs.map (segmentCost g.ver)).sum)
    (room : g.cnt ≤ g.cap) :
    SlotCounts ecl sa
      { x with ver := BitVec.ofNat 6 g.ver, cap := BitVec.ofNat 15 g.cap, cnt := BitVec.ofNat 15 g.cnt } := by
  obtain ⟨hv, hc, hn⟩ := growth_narrowed hver cap room
  exact
    { cap := by simp only [hv, hc]; exact cap
      room := by simpa only [hc, hn] using room
      count := by simp only [hv, hn]; exact cnt
      segn := fun m => (by cases m <;> rfl : _ = (x.segn m).toNat).trans (h.segn m)
      segments := h.segments }

/-- A segment opened where its header fits keeps the counters (R214). -/
theorem slotCounts_openSegment {ecl : EcLevel} {sa : Bool} {x : Slot} (h : SlotCounts ecl sa x) (mode : EncMode)
    (hver : x.ver.toNat ≤ 40) (room : x.cnt.toNat + (4 + ccw x.ver.toNat mode) ≤ x.cap.toNat) :
    SlotCounts ecl sa
      { x.bumpSegn mode with
        cnt := BitVec.ofNat 15 (x.cnt.toNat + (4 + ccw x.ver.toNat mode))
        segs := x.segs ++ [⟨mode, 0, [], 0⟩]
        mode := some mode } := by
  have hver' : (x.bumpSegn mode).ver = x.ver := by cases mode <;> rfl
  have hcap' : (x.bumpSegn mode).cap = x.cap := by cases mode <;> rfl
  have hcap : x.cap.toNat ≤ 23648 := h.cap ▸ capOf_le ecl sa hver
  have hcnt : (BitVec.ofNat 15 (x.cnt.toNat + (4 + ccw x.ver.toNat mode))).toNat =
      x.cnt.toNat + (4 + ccw x.ver.toNat mode) := by
    rw [BitVec.toNat_ofNat, Nat.mod_eq_of_lt (by omega)]
  refine ⟨?_, ?_, ?_, fun m => ?_, ?_⟩
  · simp only [hver', hcap', h.cap]
  · simpa only [hcap', hcnt] using room
  · simp only [hcnt, hver', List.map_append, List.sum_append, ← h.count]
    simp [segmentCost]
  · have hsegs : (x.segn m).toNat ≤ x.segs.length := h.segn m ▸ List.countP_le_length
    have hlen := slotCounts_length_segs_le h
    have hroom := h.room
    have hbump : (x.segn m + 1).toNat = (x.segn m).toNat + 1 := by bv_omega
    rw [show Slot.segn _ m = (x.bumpSegn mode).segn m by cases m <;> rfl, segn_bumpSegn, List.countP_append,
      ← h.segn m]
    by_cases hm : mode = m
    · rw [if_pos hm, hbump, List.countP_singleton, if_pos (decide_eq_true hm)]
    · rw [if_neg hm, List.countP_singleton, if_neg (by simpa using hm), Nat.add_zero]
  · simp only [List.mem_append, List.mem_singleton]
    rintro seg (hseg | rfl)
    · exact h.segments seg hseg
    · cases mode <;> exact ⟨rfl, rfl⟩

/-- A character committed to the last segment where its bits fit keeps the counters (R216). -/
theorem slotCounts_commitChar {ecl : EcLevel} {sa : Bool} {x : Slot} (h : SlotCounts ecl sa x) {p : Platform}
    {cs : BitVec 8} {seg : Segment} {ch : CharCode} (last : x.segs.getLast? = some seg)
    (room : x.cnt.toNat + charBits p cs seg.mode seg.count ch ≤ x.cap.toNat) :
    SlotCounts ecl sa
      { x with
        segs := x.segs.dropLast ++ [segAppend p cs seg ch]
        cnt := BitVec.ofNat 15 (x.cnt.toNat + charBits p cs seg.mode seg.count ch) } := by
  have hsegs : x.segs = x.segs.dropLast ++ [seg] := (List.dropLast_append_getLast? seg last).symm
  have hcnt : (BitVec.ofNat 15 (x.cnt.toNat + charBits p cs seg.mode seg.count ch)).toNat =
      x.cnt.toNat + charBits p cs seg.mode seg.count ch := by
    rw [BitVec.toNat_ofNat, Nat.mod_eq_of_lt (room.trans_lt x.cap.isLt)]
  refine ⟨h.cap, ?_, ?_, fun m => ?_, ?_⟩
  · simpa only [hcnt] using room
  · have hcount := h.count
    rw [hsegs, List.map_append, List.sum_append] at hcount
    simp only [hcnt, List.map_append, List.sum_append, List.map_singleton, List.sum_singleton, segmentCost,
      segAppend_mode, segAppend_bits] at hcount ⊢
    omega
  · have hsegn := h.segn m
    rw [hsegs, List.countP_append] at hsegn
    rw [show Slot.segn _ m = x.segn m by cases m <;> rfl, hsegn, List.countP_append]
    simp
  · have hold := h.segments
    rw [hsegs] at hold
    simp only [List.mem_append, List.mem_singleton] at hold ⊢
    rintro seg' (hseg' | rfl)
    · exact hold seg' (.inl hseg')
    · exact segAppend_agrees (hold seg (.inr rfl)) ch

/-! ### The counters of the group (R30, R213–R218) -/

/-- The counters depend on the level, the flag, the number of symbols and the slots only. -/
theorem countersAgree_congr {s t : State} (h : CountersAgree s) (ecl : t.group.ecl = s.group.ecl)
    (sa : t.group.sa = s.group.sa) (symcnt : t.group.symcnt = s.group.symcnt) (slots : t.slots = s.slots) :
    CountersAgree t := by
  intro k hk
  rw [symcnt] at hk
  rw [ecl, sa, State.slot, slots]
  exact h k hk

/-- An open group whose counters agree: what the append machine works on. -/
structure Counted (s : State) : Prop where
  group : GroupOpen s
  counters : CountersAgree s

/-- The counters of the current symbol agree. -/
theorem Counted.cur {s : State} (h : Counted s) : SlotCounts s.group.ecl s.group.sa s.cur :=
  h.counters s.curIdx h.group.curIdx_lt

/-- The current symbol's version is one of the tables'. -/
theorem Counted.cur_ver_le {s : State} (h : Counted s) : s.cur.ver.toNat ≤ 40 := by
  rw [h.group.cur_ver]
  exact h.group.shape.maxver.trans h.group.shape.table

/-- Writing an agreeing current symbol keeps the counters (R30). -/
theorem Counted.countersAgree_setCur {s : State} (h : Counted s) {x : Slot} (hx : SlotCounts s.group.ecl s.group.sa x) :
    CountersAgree (s.setCur x) := by
  intro k hk
  rw [show (s.setCur x).slot k = _ from slot_setSlot s s.curIdx k x]
  split
  · exact hx
  · exact h.counters k hk

/-- Committed growth keeps the counters, and the registers hold the copies (R213). -/
theorem Counted.commitGrowth {s : State} (h : Counted s) {g : Growth}
    (grown : Grown s.group.ecl s.group.sa s.cur (growthOf s) g)
    (bound : g.ver ≤ s.cur.ver.toNat + (s.group.maxver.toNat - s.cur.ver.toNat)) (room : g.cnt ≤ g.cap) :
    Counted (commitGrowth s g) ∧ (commitGrowth s g).cur.ver.toNat = g.ver ∧
      (commitGrowth s g).cur.cap.toNat = g.cap ∧ (commitGrowth s g).cur.cnt.toNat = g.cnt := by
  obtain ⟨cap, cnt⟩ := grown_counts grown h.cur.segn h.cur.cap h.cur.count
  have hver : g.ver ≤ 40 := (h.group.grown_ver grown bound).2.1.trans h.group.shape.table
  have hcur := slotCounts_grow h.cur hver cap cnt room
  refine ⟨⟨h.group.commitGrowth grown bound, countersAgree_congr (h.countersAgree_setCur hcur) rfl rfl rfl rfl⟩, ?_⟩
  rw [cur_commitGrowth]
  exact growth_narrowed hver cap room

/-- An opened segment whose header fits keeps the counters (R214). -/
theorem Counted.openSegment {s : State} (h : Counted s) {mode : EncMode}
    (room : s.cur.cnt.toNat + (4 + ccw s.cur.ver.toNat mode) ≤ s.cur.cap.toNat) : Counted (openSegment mode s) :=
  ⟨h.group.openSegment mode, h.countersAgree_setCur (slotCounts_openSegment h.cur mode h.cur_ver_le room)⟩

/-- A committed character whose bits fit keeps the counters (R216). -/
theorem Counted.commitChar {s : State} (h : Counted s) {p : Platform} {seg : Segment} {ch : CharCode}
    (last : s.cur.segs.getLast? = some seg)
    (room : s.cur.cnt.toNat + charBits p s.group.charset seg.mode seg.count ch ≤ s.cur.cap.toNat) :
    Counted (commitChar p seg ch (charBits p s.group.charset seg.mode seg.count ch) s) :=
  ⟨h.group.commitChar last ch _,
    countersAgree_congr (h.countersAgree_setCur (slotCounts_commitChar h.cur last room)) rfl rfl rfl rfl⟩

/-- A new symbol keeps the counters (R218). -/
theorem countersAgree_newSymbol {s : State} (hg : GroupShape s) (h : CountersAgree s)
    (room : s.group.symcnt.toNat < symMax) : CountersAgree (newSymbol s) := by
  intro k hk
  rw [symcnt_newSymbol_toNat room] at hk
  rw [slot_newSymbol]
  split
  · exact slotCounts_fresh _ _ (hg.maxver.trans hg.table)
  next hne =>
    have hk' : k.toNat ≠ s.group.symcnt.toNat := fun h0 =>
      hne (BitVec.eq_of_toNat_eq ((symcnt_setWidth_toNat room).trans h0.symm))
    exact h k (by omega)

/-! ### What the steps of the append machine keep, an APPEND keeps -/

/-- A property that the two attempts, a new symbol and the moving cursor keep (R214, R215, R218, R219). -/
structure AppendKeeps (p : Platform) (Inv : State → Prop) : Prop where
  setMode : ∀ {mode ch s t}, stateOfFit (trySetMode p mode ch s) = some t → Inv s → Inv t
  addChar : ∀ {ch s t}, stateOfFit (tryAppend p ch s) = some t → Inv s → Inv t
  newSym : ∀ {s}, s.group.sa = true → s.group.symcnt.toNat < symMax → Inv s → Inv (newSymbol s)
  advance : ∀ {s : State}, Inv s → Inv { s with tpos := s.tpos + 1 }

section
variable {p : Platform} {Inv : State → Prop}

/-- Both attempts one after the other keep it (R217). -/
theorem AppendKeeps.openAndAppend (hk : AppendKeeps p Inv) {mode : EncMode} {ch : CharCode} {s t : State}
    (h : stateOfFit (openAndAppend p mode ch s) = some t) (hs : Inv s) : Inv t := by
  rw [Machine.openAndAppend] at h
  cases hf : trySetMode p mode ch s with
  | fit u => rw [hf] at h; exact hk.addChar h (hk.setMode (congrArg stateOfFit hf) hs)
  | exhausted u => rw [hf] at h; exact hk.setMode ((congrArg stateOfFit hf).trans h) hs
  | broken f => rw [hf] at h; cases h

/-- Putting a character keeps it (R220). -/
theorem AppendKeeps.putChar (hk : AppendKeeps p Inv) {mode : EncMode} {ch : CharCode} {s t : State}
    (h : stateOfFit (putChar p mode ch s) = some t) (hs : Inv s) : Inv t := by
  rw [Machine.putChar] at h
  split at h
  · exact hk.addChar h hs
  · exact hk.openAndAppend h hs

/-- The retry keeps it, from the new symbol on (R220). -/
theorem AppendKeeps.retryInNewSymbol (hk : AppendKeeps p Inv) {ch : CharCode} {rest : List CharCode} {s t : State}
    (h : stateOf (retryInNewSymbol p ch rest s) = some t) (hs : Inv (newSymbol s)) : Inv t := by
  simp only [Machine.retryInNewSymbol] at h
  split at h
  · cases h; exact hs
  next mode _ =>
    cases hf : Machine.openAndAppend p mode ch (newSymbol s) with
    | fit u => rw [hf] at h; exact hk.openAndAppend ((congrArg stateOfFit hf).trans h) hs
    | exhausted u => rw [hf] at h; exact hk.openAndAppend ((congrArg stateOfFit hf).trans h) hs
    | broken f => rw [hf] at h; cases h

/-- One character keeps it (R220). -/
theorem AppendKeeps.appendChar (hk : AppendKeeps p Inv) {ch : CharCode} {rest : List CharCode} {s t : State}
    (h : stateOf (appendChar p ch rest s) = some t) (hs : Inv s) : Inv t := by
  rw [Machine.appendChar] at h
  split at h
  · cases h; exact hs
  next mode _ =>
    cases hf : Machine.putChar p mode ch s with
    | fit u => rw [hf] at h; exact hk.putChar ((congrArg stateOfFit hf).trans h) hs
    | broken f => rw [hf] at h; cases h
    | exhausted u =>
      have hu : Inv u := hk.putChar (congrArg stateOfFit hf) hs
      simp only [hf] at h
      split at h
      · cases h; exact hu
      next hcond =>
        simp only [Bool.not_eq_true, Bool.or_eq_false_iff, Bool.not_eq_false', decide_eq_false_iff_not, not_le] at hcond
        exact hk.retryInNewSymbol h (hk.newSym hcond.1 hcond.2 hu)

/-- All characters that are left keep it (R219). -/
theorem AppendKeeps.appendLoop (hk : AppendKeeps p Inv) {text : List CharCode} {s t : State}
    (h : stateOf (appendLoop p text s) = some t) (hs : Inv s) : Inv t := by
  induction text generalizing s with
  | nil => cases h; exact hs
  | cons ch rest ih =>
    rw [Machine.appendLoop] at h
    rcases stateOf_andThen h with ⟨u, v, hu, ht⟩ | ⟨e, v, hr⟩
    · exact ih ht (hk.advance (hk.appendChar (congrArg stateOf hu) hs))
    · exact hk.appendChar (congrArg stateOf hr) hs

end

/-- `Ensure` keeps the counters; where it fits, the current symbol has the room it asked for (R213). -/
theorem Counted.ensure {need : Nat → Nat} {s : State} (h : Counted s) :
    (∃ g, Machine.ensure need s = .fit (Machine.commitGrowth s g) ∧ Counted (Machine.commitGrowth s g) ∧
      (Machine.commitGrowth s g).cur.cnt.toNat + need (Machine.commitGrowth s g).cur.ver.toNat ≤
        (Machine.commitGrowth s g).cur.cap.toNat) ∨
    (∃ u, Machine.ensure need s = .exhausted u ∧ Counted u) := by
  rcases ensure_cases need s with ⟨g, he, grown, bound, room⟩ | ⟨g, he, grown, bound, room⟩ | he
  · obtain ⟨hg, hver, hcap, hcnt⟩ := h.commitGrowth grown bound (by omega)
    exact .inl ⟨g, he, hg, by rwa [hver, hcap, hcnt]⟩
  · exact .inr ⟨_, he, (h.commitGrowth grown bound.le room).1⟩
  · exact .inr ⟨s, he, h⟩

/-- `TrySetMode` keeps the counters (R214). -/
theorem Counted.trySetMode {p : Platform} {mode : EncMode} {ch : CharCode} {s t : State}
    (ht : stateOfFit (trySetMode p mode ch s) = some t) (h : Counted s) : Counted t := by
  rw [Machine.trySetMode] at ht
  rcases h.ensure (need := fun v => 4 + ccw v mode + charBits p s.group.charset mode 0 ch) with
    ⟨g, he, hg, room⟩ | ⟨u, he, hu⟩ <;> simp only [he] at ht <;> cases ht
  · exact hg.openSegment (by omega)
  · exact hu

/-- `TryAppend` keeps the counters (R215). -/
theorem Counted.tryAppend {p : Platform} {ch : CharCode} {s t : State}
    (ht : stateOfFit (tryAppend p ch s) = some t) (h : Counted s) : Counted t := by
  rw [Machine.tryAppend] at ht
  split at ht
  · cases ht
  next seg last =>
    rcases h.ensure (need := fun _ => charBits p s.group.charset seg.mode seg.count ch) with
      ⟨g, he, hg, room⟩ | ⟨u, he, hu⟩ <;> simp only [he] at ht <;> cases ht
    · exact hg.commitChar (by simpa using last) room
    · exact hu

/-- The append machine keeps the counters (R213–R219). -/
theorem appendKeeps_counted (p : Platform) : AppendKeeps p Counted where
  setMode := Counted.trySetMode
  addChar := Counted.tryAppend
  newSym := fun {s} allowed room h =>
    ⟨h.group.move (p := p) (.newSym s allowed room), countersAgree_newSymbol h.group.shape h.counters room⟩
  advance := fun {s} h => ⟨h.group.move (p := p) (.advance s), countersAgree_congr h.counters rfl rfl rfl rfl⟩

/-- Every command keeps the counters of a group of the right shape. -/
theorem Effect.countersAgree {i : Instr} {s t : State} (he : Effect i s t) (hg : GroupShape s) (h : CountersAgree s) :
    CountersAgree t := by
  cases he with
  | nothing => exact h
  | reset => exact countersAgree_of_symcnt_eq_zero rfl
  | cfg _ ecl maxver sa cs hphase hver =>
    have hnew := countersAgree_newSymbol (groupShape_openGroup hg hphase hver ecl sa cs)
      (countersAgree_of_symcnt_eq_zero rfl) (Nat.zero_lt_succ _)
    exact countersAgree_congr hnew rfl rfl rfl rfl
  | setlen => exact countersAgree_congr h rfl rfl rfl rfl
  | append _ _ text hobs hloop =>
    have hopen := (groupOpen_of_appendObstacle hg hobs)
    have hcounted : Counted { s with tpos := 0 } :=
      ⟨⟨groupShape_congr hg .rfl rfl rfl, hopen.symbol⟩, countersAgree_congr h rfl rfl rfl rfl⟩
    exact ((appendKeeps_counted _).appendLoop hloop hcounted).counters
  | assemble _ _ _ k _ _ _ hstages =>
    have hf := stages_frame hstages
    exact countersAgree_congr h (by rw [hf.group]; rfl) (by rw [hf.group]; rfl) (by rw [hf.group]; rfl) hf.slots
  | stage _ _ _ hw =>
    have hf := hw.frame
    exact countersAgree_congr h (by rw [hf.group]) (by rw [hf.group]) (by rw [hf.group]) hf.slots
  | setw => exact countersAgree_congr h rfl rfl rfl rfl
  | seta => exact countersAgree_congr h rfl rfl rfl rfl
  | ld => exact countersAgree_congr h rfl rfl rfl rfl
  | st _ u v hw =>
    obtain ⟨-, hgroup, hslots, -⟩ := memWrite_frame hw
    exact countersAgree_congr h (by simp [hgroup]) (by simp [hgroup]) (by simp [hgroup]) hslots

/-- Settles O56: shape and counters together are kept by every effect. -/
theorem stepKeepsCounters : Obligations.StepKeepsCounters := fun _ _ hg hc h =>
  (step_keeps (Inv := fun s => GroupShape s ∧ CountersAgree s)
    (fun _ _ _ hs => ⟨groupShape_congr hs.1 .rfl rfl rfl, countersAgree_congr hs.2 rfl rfl rfl rfl⟩)
    (fun _ _ _ he hs => ⟨he.groupShape hs.1, he.countersAgree hs.1 hs.2⟩) h ⟨hg, hc⟩).2

end Sys2Proof.Proofs
end

