-- ==== Sys2Proof/Proofs/Memory.lean ====
section
/-!
PROOFS. The memory family: every command keeps the canonical form of the buffers, and in a state the rules describe
every read finds a written cell, every version has its tables and every segment store its segment, so that every
command answers (R60, R63, R217, R220, R380).
-/

namespace Sys2Proof.Proofs

open Sys2Proof.Machine Sys2Proof.Laws

/-! ### The canonical form (R60, R63; log 8) -/

/-- The later stages keep the form (R270, R291, R339). -/
theorem StageWrites.wf {s t : State} (hw : StageWrites s t) (h : s.mem.wf = true) : t.mem.wf = true := by
  cases hw with
  | stream => exact wf_storeStream s _ _ h
  | premask => exact wf_storeMatrix s _ _ h
  | final => exact wf_storeMatrix s .final _ h

/-- BITASM keeps the form (R241). -/
theorem wf_bitasmState {s : State} (h : s.mem.wf = true) (k : BitVec 4) : (bitasmState k s).mem.wf = true :=
  wf_openContext s (s.slot k).ver s.group.ecl (dataCW s.group.ecl (s.slot k).ver.toNat)
    (fillCodewords (dataCW s.group.ecl (s.slot k).ver.toNat) (usedBits s k)) h

/-- Every command keeps the form: most leave the memory alone, the others write it by operations that keep the form. -/
theorem Effect.wf {i : Instr} {s t : State} (he : Effect i s t) (h : s.mem.wf = true) : t.mem.wf = true := by
  cases he with
  | nothing => exact h
  | reset => exact wf_reset
  | cfg => exact h
  | setlen => exact h
  | append _ _ text _ hloop =>
    rw [(appendLoop_path hloop).frame.mem]
    exact h
  | assemble _ _ _ k _ _ _ hstages =>
    induction hstages with
    | refl => exact wf_bitasmState h k
    | tail _ hw ih => exact hw.wf ih
  | stage _ _ _ hw => exact hw.wf h
  | setw => exact wf_openContext s _ _ _ _ h
  | seta => exact h
  | ld => exact h
  | st _ u v hw =>
    rw [advanceAidx_mem]
    exact wf_memWrite hw h

/-- Settles O53: every effect keeps the form, and it does not see the command port. -/
theorem stepKeepsMemoryForm : Obligations.StepKeepsMemoryForm := fun _ _ hs h =>
  step_keeps (Inv := fun s => s.mem.wf = true) (fun _ _ _ hs => hs) (fun _ _ _ he => he.wf) h hs

/-! ### Reads below a valid length (R62, R63) -/

/-- The first cells of a dense buffer, up to its length, read as a whole. -/
theorem firstCells_of_dense {α : Type} {c : Cells α} {n k : Nat} (h : dense c n) (hk : k ≤ n) :
    ∃ l, firstCells c k = some l := by
  rw [dense, List.range_eq_range'] at h
  exact ⟨_, cellRun_prefix (cellRun_of_keys h) hk⟩

/-- A dense buffer has no unwritten cell below its length. -/
theorem readCell_ne_unwritten {α : Type} {c : Cells α} {n : Nat} (h : dense c n) (idx : Nat) :
    readCell c n idx ≠ .unwritten := by
  by_cases hidx : n ≤ idx
  · simp [readCell_of_le hidx]
  · obtain ⟨l, hl⟩ := firstCells_of_dense h le_rfl
    have hlt : idx < l.length := by rw [cellRun_length hl]; omega
    have hcell := cellAt_of_cellRun hl (Nat.lt_of_not_le hidx)
    rw [Nat.zero_add, List.getElem?_eq_getElem hlt] at hcell
    simp [readCell_of_cellAt (Nat.lt_of_not_le hidx) hcell]

/-- Widening does not make a cell unwritten. -/
@[simp] theorem zextRead_eq_unwritten {w : Nat} {r : ReadResult (BitVec w)} :
    zextRead r = .unwritten ↔ r = .unwritten := by
  cases r <;> simp [zextRead]

/-- Widening with the sign does not make a cell unwritten. -/
@[simp] theorem sextRead_eq_unwritten {w : Nat} {r : ReadResult (BitVec w)} :
    sextRead r = .unwritten ↔ r = .unwritten := by
  cases r <;> simp [sextRead]

/-- A matrix that is there has all its cells (R28, R60). -/
theorem dense_matrix {p : Platform} {s : State} (h : BuffersAgree p s) (hm : s.mmv ≠ .empty) :
    dense s.mem.mm (s.side * s.side) := by
  have hcells := h.mm
  rwa [State.matrixCells, if_neg hm] at hcells

/-- The quiet-zone view has no unwritten cell: it is 0 on the border and the matrix inside (R74). -/
theorem readQuiet_ne_unwritten {p : Platform} {s : State} (h : BuffersAgree p s) (idx : Nat) :
    readQuiet s idx ≠ .unwritten := by
  simp only [readQuiet]
  split
  next hfinal =>
    split
    · exact readCell_ne_unwritten (dense_matrix h (by simp [hfinal.1])) _
    · simp
  · simp

/-- No read of a state whose valid lengths are truthful meets an unwritten cell (R63). -/
theorem memRead_ne_unwritten {p : Platform} {s : State} (h : BuffersAgree p s) (sp : Space) (idx : Nat) :
    memRead s sp idx ≠ .unwritten := by
  cases sp with
  | txt => simpa [memRead] using readCell_ne_unwritten h.txt idx
  | dcw => simpa [memRead] using readCell_ne_unwritten h.dcw idx
  | fcw => simpa [memRead] using readCell_ne_unwritten h.fcw idx
  | mm =>
    by_cases hm : s.mmv = .empty
    · simp [memRead, hm]
    · simpa [memRead, hm] using readCell_ne_unwritten (dense_matrix h hm) idx
  | qm => simpa [memRead] using readQuiet_ne_unwritten h idx

/-- The whole input string can be read (R23, R133). -/
theorem inputText_eq_some {p : Platform} {s : State} (h : BuffersAgree p s) :
    ∃ text, inputText s = some text ∧ text.length = s.tlen.toNat := by
  obtain ⟨text, ht⟩ := firstCells_of_dense h.txt h.string
  exact ⟨text, ht, cellRun_length ht⟩

/-! ### The stages answer (R134, R241, R270, R291, R339) -/

/-- A version register that is not 0 names a version of the tables (R26, R380). -/
theorem versionOk_wver {p : Platform} {s : State} (h : BuffersAgree p s) (hw : s.wver ≠ 0) :
    versionOk s.wver.toNat = true :=
  versionOk_iff.mpr ⟨Nat.one_le_iff_ne_zero.mpr fun h0 => hw (BitVec.eq_of_toNat_eq h0), h.version⟩

/-- An open working context has a version of the tables (R134). -/
theorem versionOk_of_contextOpen {p : Platform} {s : State} (h : BuffersAgree p s) (hc : contextOpen s = true) :
    versionOk s.wver.toNat = true :=
  versionOk_wver h (by simpa [contextOpen] using hc)

/-- Every symbol of the group has a version of the tables (R30). -/
theorem versionOk_slot {s : State} (h : GroupShape s) {k : BitVec 4} (hk : symbolExists s k = true) :
    versionOk (s.slot k).ver.toNat = true := by
  obtain ⟨hlow, hhigh⟩ := h.version k (by simpa [symbolExists] using hk)
  exact versionOk_iff.mpr ⟨hlow, hhigh.trans (h.maxver.trans h.table)⟩

/-- BITASM answers. -/
theorem bitasm_answers {s : State} (h : GroupShape s) (k : BitVec 4) : (stateOf (bitasm k s)).isSome = true := by
  rcases bitasm_cases k s with
    ⟨-, he⟩ | ⟨-, -, he⟩ | ⟨-, -, -, he⟩ | ⟨-, hk, -, hv, -⟩ | ⟨-, -, -, -, he⟩
  · simp [he]
  · simp [he]
  · simp [he]
  · simp [versionOk_slot h hk] at hv
  · simp [he]

/-- RSENC answers. -/
theorem rsenc_answers {p : Platform} {s : State} (h : BuffersAgree p s) : (stateOf (rsenc s)).isSome = true := by
  obtain ⟨d, hd⟩ := firstCells_of_dense h.dcw le_rfl
  rcases rsenc_cases s with ⟨-, he⟩ | ⟨hc, hv, -⟩ | ⟨-, -, -, he⟩ | ⟨-, -, -, hnone, -⟩ | ⟨-, -, -, _, -, he⟩
  · simp [he]
  · simp [versionOk_of_contextOpen h hc] at hv
  · simp [he]
  · simp [hd] at hnone
  · simp [he]

/-- MPLACE answers. -/
theorem mplace_answers {p : Platform} {s : State} (h : BuffersAgree p s) : (stateOf (mplace s)).isSome = true := by
  obtain ⟨ws, hws⟩ := firstCells_of_dense h.fcw le_rfl
  rcases mplace_cases s with ⟨-, he⟩ | ⟨hc, hv, -⟩ | ⟨-, -, -, he⟩ | ⟨-, -, -, hnone, -⟩ | ⟨-, -, -, _, -, he⟩
  · simp [he]
  · simp [versionOk_of_contextOpen h hc] at hv
  · simp [he]
  · simp [hws] at hnone
  · simp [he]

/-- MASKSEL answers. -/
theorem masksel_answers {p : Platform} {s : State} (h : BuffersAgree p s) : (stateOf (masksel s)).isSome = true := by
  rcases masksel_cases s with ⟨-, he⟩ | ⟨hm, hv, -⟩ | ⟨hm, -, hnone, -⟩ | ⟨-, -, _, _, -, -, he⟩
  · simp [he]
  · simp [versionOk_wver h (h.matrix (by simp [hm]))] at hv
  · obtain ⟨cells, hcells⟩ := firstCells_of_dense (dense_matrix h (by simp [hm])) le_rfl
    simp [hcells] at hnone
  · simp [he]

/-- A composition answers if its first stage does and its second does in whatever state the first leaves (R135). -/
theorem andThen_answers {r : Result} {f : State → Result} (hr : (stateOf r).isSome = true)
    (hf : ∀ u, stateOf r = some u → (stateOf (f u)).isSome = true) : (stateOf (r.andThen f)).isSome = true := by
  cases r with
  | done u v => exact hf u rfl
  | raised u e v => rfl
  | stuck why => cases hr

/-- What a composition leaves meets an invariant that each stage keeps (R135). -/
theorem andThen_keeps {Inv : State → Prop} {r : Result} {f : State → Result}
    (hr : ∀ u, stateOf r = some u → Inv u) (hf : ∀ u v, stateOf (f u) = some v → Inv u → Inv v) :
    ∀ t, stateOf (r.andThen f) = some t → Inv t := by
  intro t h
  rcases stateOf_andThen h with ⟨u, v, rfl, ht⟩ | ⟨e, v, rfl⟩
  · exact hf u t ht (hr u rfl)
  · exact hr t rfl

/-- A stage that leaves the state or writes once keeps the buffer invariant. -/
theorem buffersAgree_of_writes {p : Platform} {s t : State} (h : t = s ∨ StageWrites s t) (hs : BuffersAgree p s) :
    BuffersAgree p t := by
  rcases h with rfl | hw
  · exact hs
  · exact hw.buffersAgree hs

/-- BITASM keeps the buffer invariant, whatever it answers (R241). -/
theorem buffersAgree_bitasm {p : Platform} {s t : State} (h : BuffersAgree p s) {k : BitVec 4}
    (ht : stateOf (bitasm k s) = some t) : BuffersAgree p t := by
  rcases bitasm_writes ht with rfl | ⟨-, hv, rfl⟩
  · exact h
  · exact buffersAgree_bitasmState h hv

/-- RENDER answers: each of its stages answers in the state the stages before it leave (R135). -/
theorem render_answers {p : Platform} {s : State} (hb : BuffersAgree p s) (hg : GroupShape s) (k : BitVec 4) :
    (stateOf (render k s)).isSome = true := by
  have hbit := fun u => buffersAgree_bitasm (t := u) hb (k := k)
  have hrs := andThen_keeps hbit fun _ _ ht => buffersAgree_of_writes (rsenc_writes ht)
  have hmp := andThen_keeps hrs fun _ _ ht => buffersAgree_of_writes (mplace_writes ht)
  rw [render]
  split
  · rfl
  split
  · rfl
  split
  · rfl
  exact andThen_answers
    (andThen_answers
      (andThen_answers
        (andThen_answers (bitasm_answers hg k) fun u hu => rsenc_answers (hbit u hu))
        fun u hu => mplace_answers (hrs u hu))
      fun u hu => masksel_answers (hmp u hu))
    fun _ _ => rfl

/-! ### The append machine answers (R213–R220) -/

/-- `Ensure` never breaks off (R213). -/
theorem ensure_fit_or_exhausted (need : Nat → Nat) (s : State) :
    (∃ t, ensure need s = .fit t) ∨ ∃ t, ensure need s = .exhausted t := by
  rcases ensure_cases need s with ⟨g, he, -⟩ | ⟨g, he, -⟩ | he
  · exact .inl ⟨_, he⟩
  · exact .inr ⟨_, he⟩
  · exact .inr ⟨_, he⟩

/-- `TrySetMode` never breaks off; where it fits, the current symbol has a segment (R214). -/
theorem trySetMode_fit_or_exhausted (p : Platform) (mode : EncMode) (ch : CharCode) (s : State) :
    (∃ t, trySetMode p mode ch s = .fit t ∧ t.cur.segs ≠ []) ∨ ∃ t, trySetMode p mode ch s = .exhausted t := by
  rcases ensure_fit_or_exhausted (fun v => 4 + ccw v mode + charBits p s.group.charset mode 0 ch) s with
    ⟨u, he⟩ | ⟨u, he⟩
  · exact .inl ⟨openSegment mode u, by simp [trySetMode, he], by simp⟩
  · exact .inr ⟨u, by simp [trySetMode, he]⟩

/-- `TryAppend` ends where the current symbol has a segment (R215). -/
theorem tryAppend_answers (p : Platform) (ch : CharCode) {s : State} (h : s.cur.segs ≠ []) :
    (stateOfFit (tryAppend p ch s)).isSome = true := by
  have hlast : s.cur.segs.getLast? = some (s.cur.segs.getLast h) := List.getLast?_eq_some_getLast h
  rcases ensure_fit_or_exhausted
    (fun _ => charBits p s.group.charset (s.cur.segs.getLast h).mode (s.cur.segs.getLast h).count ch) s with
    ⟨u, he⟩ | ⟨u, he⟩
  · simp [tryAppend, hlast, he, stateOfFit]
  · simp [tryAppend, hlast, he, stateOfFit]

/-- Opening a segment and putting a character in it ends (R217). -/
theorem openAndAppend_answers (p : Platform) (mode : EncMode) (ch : CharCode) (s : State) :
    (stateOfFit (openAndAppend p mode ch s)).isSome = true := by
  rcases trySetMode_fit_or_exhausted p mode ch s with ⟨u, he, hu⟩ | ⟨u, he⟩
  · simpa [openAndAppend, he] using tryAppend_answers p ch hu
  · simp [openAndAppend, he, stateOfFit]

/-- A symbol with an active mode has a segment (R30). -/
theorem segs_ne_nil_of_mode {x : Slot} (h : x.modeAgrees) {mode : EncMode} (hm : x.mode = some mode) :
    x.segs ≠ [] := by
  rw [Slot.modeAgrees, hm] at h
  intro h0
  simp [h0] at h

/-- Putting a character into a symbol whose mode is that of its last segment ends (R220). -/
theorem putChar_answers (p : Platform) (mode : EncMode) (ch : CharCode) {s : State} (h : s.cur.modeAgrees) :
    (stateOfFit (putChar p mode ch s)).isSome = true := by
  rw [putChar]
  split
  next hm => exact tryAppend_answers p ch (segs_ne_nil_of_mode h hm)
  · exact openAndAppend_answers p mode ch s

/-- The retry in a new symbol answers: the symbol gets its segment first (R220). -/
theorem retryInNewSymbol_answers (p : Platform) (ch : CharCode) (rest : List CharCode) (s : State) :
    (stateOf (retryInNewSymbol p ch rest s)).isSome = true := by
  simp only [retryInNewSymbol]
  split
  · rfl
  next mode _ =>
    have hopen := openAndAppend_answers p mode ch (newSymbol s)
    split
    · rfl
    · rfl
    next he => simp [he, stateOfFit] at hopen

/-- One character is answered (R220). -/
theorem appendChar_answers (p : Platform) (ch : CharCode) (rest : List CharCode) {s : State} (h : s.cur.modeAgrees) :
    (stateOf (appendChar p ch rest s)).isSome = true := by
  rw [appendChar]
  split
  · rfl
  next mode _ =>
    have hput := putChar_answers p mode ch h
    split
    · rfl
    next he => simp [he, stateOfFit] at hput
    · split
      · rfl
      · exact retryInNewSymbol_answers p ch rest _

/-- All characters that are left are answered, from an open group on (R219). -/
theorem appendLoop_answers (p : Platform) (text : List CharCode) {s : State} (h : GroupOpen s) :
    (stateOf (appendLoop p text s)).isSome = true := by
  induction text generalizing s with
  | nil => rfl
  | cons ch rest ih =>
    refine andThen_answers (appendChar_answers p ch rest (h.shape.mode s.curIdx)) fun u hu => ih ?_
    exact (h.path (appendChar_path hu)).move (p := p) (.advance u)

/-- In BUILDING there is a current symbol, and every version is one of the tables' (R21, R22, R30). -/
theorem appendObstacle_eq_none {s : State} (h : GroupOpen s) : appendObstacle s = none := by
  have hcount : s.group.symcnt.toNat ≠ 0 := by have := h.curIdx_lt; omega
  have hsymMax : ¬ symMax < s.group.symcnt.toNat := Nat.not_lt.mpr h.shape.count
  have hmin : versionOk s.group.minver.toNat = true :=
    versionOk_iff.mpr ⟨h.shape.minver, h.shape.maxver.trans h.shape.table⟩
  have hmax : versionOk s.group.maxver.toNat = true :=
    versionOk_iff.mpr ⟨h.shape.minver.trans h.shape.maxver, h.shape.table⟩
  simp [appendObstacle, hcount, hsymMax, h.cur_ver, hmin, hmax]

/-- APPEND answers (R219). -/
theorem append_answers {p : Platform} {s : State} (hb : BuffersAgree p s) (hg : GroupShape s) :
    (stateOf (append p s)).isSome = true := by
  obtain ⟨text, htext, -⟩ := inputText_eq_some hb
  rw [append]
  split
  · rfl
  next haccepted =>
    have hphase : s.phase = .building := by simpa [appendAccepted] using haccepted
    have hsymbol : s.group.symcnt ≠ 0 := fun h0 => by simp [hg.exists_iff.mpr h0] at hphase
    have hopen : GroupOpen { s with tpos := 0 } := ⟨groupShape_congr hg .rfl rfl rfl, hsymbol⟩
    split
    · rfl
    · rw [appendObstacle_eq_none ⟨hg, hsymbol⟩, htext]
      exact appendLoop_answers p text hopen

/-! ### Every command answers -/

/-- MODESEL answers: the index it accepts lies in the string (R190). -/
theorem modesel_answers {p : Platform} {s : State} (h : BuffersAgree p s) (mode : BitVec 3) (ver : BitVec 6)
    (idx : BitVec 15) : (stateOf (modesel p mode ver idx s)).isSome = true := by
  obtain ⟨text, htext, hlength⟩ := inputText_eq_some h
  rw [modesel]
  split
  · rfl
  split
  · rfl
  split
  · rfl
  next hidx =>
    rw [htext]
    have hdrop : text.drop idx.toNat ≠ [] := by
      rw [Ne, List.drop_eq_nil_iff]
      omega
    split
    next hnone => simp at hnone
    next htext' =>
      cases htext'
      split
      next hnil => exact absurd hnil hdrop
      · split <;> rfl

/-- LD answers (R362). -/
theorem load_answers {p : Platform} {s : State} (h : BuffersAgree p s) : (stateOf (load s)).isSome = true := by
  rcases load_cases s with ⟨v, -, he⟩ | ⟨-, he⟩ | ⟨hr, -⟩
  · simp [he]
  · simp [he]
  · exact absurd hr (memRead_ne_unwritten h _ _)

/-- In a state the rules describe, the rule of every command ends in a response (R8). -/
theorem resultOf_answers {s : State} (h : Safe s) (i : Instr) : (stateOf (resultOf i s)).isSome = true := by
  cases i with
  | reset => rfl
  | cfg ecl maxver sa cs =>
    rcases cfg_cases Config.platform ecl maxver sa cs s with ⟨-, he⟩ | ⟨-, -, he⟩ | ⟨-, -, -, he⟩ | ⟨-, -, -, he⟩ <;>
      simp [resultOf, he]
  | setlen n => rcases setlen_cases n s with ⟨-, he⟩ | ⟨-, he⟩ <;> simp [resultOf, he]
  | append => exact append_answers h.buffers h.group
  | render k => exact render_answers h.buffers h.group k
  | bitasm k => exact bitasm_answers h.group k
  | rsenc => exact rsenc_answers h.buffers
  | mplace => exact mplace_answers h.buffers
  | masksel => exact masksel_answers h.buffers
  | setw ver ecl => rcases setw_cases ver ecl s with ⟨-, he⟩ | ⟨-, he⟩ <;> simp [resultOf, he]
  | modesel mode ver idx => exact modesel_answers h.buffers mode ver idx
  | gfmul a b => rfl
  | seta space idx => rcases seta_cases space idx s with ⟨_, -, he⟩ | ⟨-, he⟩ <;> simp [resultOf, he]
  | ld => exact load_answers h.buffers
  | st v => rcases store_cases Config.platform v s with ⟨_, -, he⟩ | ⟨-, he⟩ <;> simp [resultOf, he]
  | rdr regno => rcases readRegister_cases regno s with ⟨_, -, he⟩ | ⟨-, he⟩ <;> simp [resultOf, he]

/-- A result that is not stuck is responded to with a next state (R98). -/
theorem finish_answers {r : Result} (h : (stateOf r).isSome = true) : ∃ t, r.finish = .next t := by
  cases r with
  | done s v => exact ⟨_, rfl⟩
  | raised s e v => exact ⟨_, rfl⟩
  | stuck why => cases h

/-- What the rules describe of a state does not depend on the words still presented (log 1). -/
theorem safe_of_cmds {s : State} (h : Safe s) (rest : List Word) : Safe { s with cmds := rest } :=
  ⟨buffersAgree_congr h.buffers rfl rfl rfl rfl rfl rfl rfl, groupShape_congr h.group .rfl rfl rfl⟩

/-- A step that takes an illegal word answers it itself (R94). -/
theorem step_of_decode_error {s t : State} {w : Word} {e : DecodeError} (ht : takeCommand s = some (w, t))
    (hd : decode w = .error e) : step s = .next (respond t .illegal w) := by
  simp [step, ht, hd, illegalWord]

/-- Settles O58: an illegal word is answered by the step, and every command by its rule. -/
theorem stepAnswers : Obligations.StepAnswers := by
  intro s hs hcmds
  obtain ⟨w, rest, hc⟩ := List.exists_cons_of_ne_nil hcmds
  have ht := takeCommand_of_cons hc
  cases hd : decode w with
  | ok i =>
    rw [step_of_decode_ok ht hd, exec_eq_finish]
    exact finish_answers (resultOf_answers (safe_of_cmds hs rest) i)
  | error e => exact ⟨_, step_of_decode_error ht hd⟩

end Sys2Proof.Proofs
end

