-- ==== Sys2Proof/Proofs/Encoding.lean ====
section
/-!
PROOFS. The encoding family: a word is a command's word exactly when the fields of its format are the opcode, the
operands and zeros, so that decoding inverts encoding and the opcode map says which words are commands; and every step
takes one word and gives one response (R90–R94, R98).
-/

namespace Sys2Proof.Proofs

open Sys2Proof.Machine Sys2Proof.Laws

/-! ### Fields -/

/-- The field of all 32 bits is the word. -/
theorem field_whole (w : Word) : field w 0 32 = w := BitVec.extractLsb'_eq_self

/-- A field is the concatenation of two values exactly when they are its upper and its lower part. -/
theorem field_eq_append {w : Word} {lo m n : Nat} {x : BitVec m} {y : BitVec n} :
    field w lo (m + n) = x ++ y ↔ field w (lo + n) m = x ∧ field w lo n = y := by
  have hsplit : field w lo (m + n) = field w (lo + n) m ++ field w lo n :=
    (BitVec.extractLsb'_append_extractLsb'_eq_extractLsb' rfl).symm
  refine ⟨fun h => ?_, fun ⟨hx, hy⟩ => by rw [hsplit, hx, hy]⟩
  rw [hsplit] at h
  constructor
  · simpa only [BitVec.extractLsb'_append_eq_left] using congrArg (BitVec.extractLsb' n m) h
  · simpa only [BitVec.extractLsb'_append_eq_right] using congrArg (BitVec.extractLsb' 0 n) h

/-- Where a row's mask asks for every bit of a field, an admitted word has the row's value there (R93). -/
theorem field_of_mask {w mask pattern : Word} (h : w &&& mask = pattern) {lo len : Nat} {v : BitVec len}
    (hrow : field mask lo len = BitVec.allOnes len ∧ field pattern lo len = v := by decide) : field w lo len = v := by
  obtain ⟨hmask, hpattern⟩ := hrow
  rw [field] at hmask
  rw [← hpattern, ← h, field, field, BitVec.extractLsb'_and, hmask, BitVec.and_allOnes]

/-! ### The nine formats, field by field (R91) -/

/-- Format `Z`: no operand. -/
theorem eq_formatZ_iff {w : Word} {op : BitVec 8} :
    w = op ++ 0#24 ↔ field w 24 8 = op ∧ field w 0 24 = 0 := by
  rw [← field_eq_append (n := 24)]
  exact Eq.congr_left (field_whole w).symm

/-- Format `C`: `cs`, `maxver`, `ecl`, `sa`, seven reserved bits. -/
theorem eq_formatC_iff {w : Word} {op cs : BitVec 8} {maxver : BitVec 6} {ecl : BitVec 2} {sa : BitVec 1} :
    w = op ++ cs ++ maxver ++ ecl ++ sa ++ 0#7 ↔
      ((((field w 24 8 = op ∧ field w 16 8 = cs) ∧ field w 10 6 = maxver) ∧ field w 8 2 = ecl) ∧
        field w 7 1 = sa) ∧ field w 0 7 = 0 := by
  rw [← field_eq_append (n := 8), ← field_eq_append (n := 6), ← field_eq_append (n := 2),
    ← field_eq_append (n := 1), ← field_eq_append (n := 7)]
  exact Eq.congr_left (field_whole w).symm

/-- Format `I`: eight reserved bits, a 16-bit operand. -/
theorem eq_formatI_iff {w : Word} {op : BitVec 8} {imm : BitVec 16} :
    w = op ++ 0#8 ++ imm ↔ (field w 24 8 = op ∧ field w 16 8 = 0) ∧ field w 0 16 = imm := by
  rw [← field_eq_append (n := 8), ← field_eq_append (n := 16)]
  exact Eq.congr_left (field_whole w).symm

/-- Format `K`: twenty reserved bits, a 4-bit operand. -/
theorem eq_formatK_iff {w : Word} {op : BitVec 8} {k : BitVec 4} :
    w = op ++ 0#20 ++ k ↔ (field w 24 8 = op ∧ field w 4 20 = 0) ∧ field w 0 4 = k := by
  rw [← field_eq_append (n := 20), ← field_eq_append (n := 4)]
  exact Eq.congr_left (field_whole w).symm

/-- Format `W`: sixteen reserved bits, `ver`, `ecl`. -/
theorem eq_formatW_iff {w : Word} {op : BitVec 8} {ver : BitVec 6} {ecl : BitVec 2} :
    w = op ++ 0#16 ++ ver ++ ecl ↔
      ((field w 24 8 = op ∧ field w 8 16 = 0) ∧ field w 2 6 = ver) ∧ field w 0 2 = ecl := by
  rw [← field_eq_append (n := 16), ← field_eq_append (n := 6), ← field_eq_append (n := 2)]
  exact Eq.congr_left (field_whole w).symm

/-- Format `M`: `mode`, `ver`, `idx`. -/
theorem eq_formatM_iff {w : Word} {op : BitVec 8} {mode : BitVec 3} {ver : BitVec 6} {idx : BitVec 15} :
    w = op ++ mode ++ ver ++ idx ↔
      ((field w 24 8 = op ∧ field w 21 3 = mode) ∧ field w 15 6 = ver) ∧ field w 0 15 = idx := by
  rw [← field_eq_append (n := 3), ← field_eq_append (n := 6), ← field_eq_append (n := 15)]
  exact Eq.congr_left (field_whole w).symm

/-- Format `G`: eight reserved bits, `a`, `b`. -/
theorem eq_formatG_iff {w : Word} {op a b : BitVec 8} :
    w = op ++ 0#8 ++ a ++ b ↔ ((field w 24 8 = op ∧ field w 16 8 = 0) ∧ field w 8 8 = a) ∧ field w 0 8 = b := by
  rw [← field_eq_append (n := 8), ← field_eq_append (n := 8), ← field_eq_append (n := 8)]
  exact Eq.congr_left (field_whole w).symm

/-- Format `A`: `space`, `idx`. -/
theorem eq_formatA_iff {w : Word} {op : BitVec 8} {space : BitVec 4} {idx : BitVec 20} :
    w = op ++ space ++ idx ↔ (field w 24 8 = op ∧ field w 20 4 = space) ∧ field w 0 20 = idx := by
  rw [← field_eq_append (n := 4), ← field_eq_append (n := 20)]
  exact Eq.congr_left (field_whole w).symm

/-- Format `R`: sixteen reserved bits, `regno`. -/
theorem eq_formatR_iff {w : Word} {op regno : BitVec 8} :
    w = op ++ 0#16 ++ regno ↔ (field w 24 8 = op ∧ field w 8 16 = 0) ∧ field w 0 8 = regno := by
  rw [← field_eq_append (n := 16), ← field_eq_append (n := 8)]
  exact Eq.congr_left (field_whole w).symm

/-! ### The codes of the operands (R99) -/

/-- A level is read back from its code. -/
@[simp] theorem ecOfCode_ecCode (ecl : EcLevel) : ecOfCode (ecCode ecl) = ecl := by cases ecl <;> rfl

/-- Every code is that of the level it names. -/
@[simp] theorem ecCode_ecOfCode : ∀ c : BitVec 2, ecCode (ecOfCode c) = c := by decide

/-- A flag bit is read back from the bit of a flag. -/
@[simp] theorem beq_one_ofBool (b : Bool) : (BitVec.ofBool b == 1#1) = b := by cases b <;> rfl

/-- Every bit is that of the flag it says. -/
@[simp] theorem ofBool_beq_one : ∀ c : BitVec 1, BitVec.ofBool (c == 1) = c := by decide

/-! ### The decoder against the encoder (R93, R94) -/

/-- A command is read only where the reserved bits are zero (R94). -/
theorem ifReservedZero_eq_ok {n : Nat} {zero : BitVec n} {i j : Instr} :
    ifReservedZero zero i = .ok j ↔ zero = 0 ∧ i = j := by
  rw [ifReservedZero]
  split
  · next hz => simp [hz]
  · next hz => exact ⟨nofun, fun h => absurd h.1 hz⟩

/-- The word of a command decodes to it: each format's fields are what the decoder reads. -/
theorem decode_of_eq_encode {w : Word} {i : Instr} (h : w = encode i) : decode w = .ok i := by
  cases i with
  | reset | append | rsenc | mplace | masksel | ld =>
    obtain ⟨hop, hz⟩ := eq_formatZ_iff.mp h
    simp [decode, ifReservedZero, hop, hz]
  | cfg ecl maxver sa cs =>
    obtain ⟨⟨⟨⟨⟨hop, hcs⟩, hmaxver⟩, hecl⟩, hsa⟩, hz⟩ := eq_formatC_iff.mp h
    simp [decode, ifReservedZero, hop, hcs, hmaxver, hecl, hsa, hz]
  | setlen v | st v =>
    obtain ⟨⟨hop, hz⟩, hv⟩ := eq_formatI_iff.mp h
    simp [decode, ifReservedZero, hop, hz, hv]
  | render k | bitasm k =>
    obtain ⟨⟨hop, hz⟩, hk⟩ := eq_formatK_iff.mp h
    simp [decode, ifReservedZero, hop, hz, hk]
  | setw ver ecl =>
    obtain ⟨⟨⟨hop, hz⟩, hver⟩, hecl⟩ := eq_formatW_iff.mp h
    simp [decode, ifReservedZero, hop, hz, hver, hecl]
  | modesel mode ver idx =>
    obtain ⟨⟨⟨hop, hmode⟩, hver⟩, hidx⟩ := eq_formatM_iff.mp h
    simp [decode, hop, hmode, hver, hidx]
  | gfmul a b =>
    obtain ⟨⟨⟨hop, hz⟩, ha⟩, hb⟩ := eq_formatG_iff.mp h
    simp [decode, ifReservedZero, hop, hz, ha, hb]
  | seta space idx =>
    obtain ⟨⟨hop, hspace⟩, hidx⟩ := eq_formatA_iff.mp h
    simp [decode, hop, hspace, hidx]
  | rdr regno =>
    obtain ⟨⟨hop, hz⟩, hregno⟩ := eq_formatR_iff.mp h
    simp [decode, ifReservedZero, hop, hz, hregno]

/-- Settles O1: every command is read back from its word, constructor by constructor through its format. -/
theorem decodeOfEncode : Obligations.DecodeOfEncode := fun _ => decode_of_eq_encode rfl

/-- A word that decodes to a command is that command's word: what the decoder has read is all there is in it. -/
theorem eq_encode_of_decode {w : Word} {i : Instr} (h : decode w = .ok i) : w = encode i := by
  rw [decode] at h
  split at h
  case h_1 hop | h_4 hop | h_7 hop | h_8 hop | h_9 hop | h_14 hop =>
    obtain ⟨hz, rfl⟩ := ifReservedZero_eq_ok.mp h
    exact eq_formatZ_iff.mpr ⟨BitVec.eq_of_toNat_eq hop, hz⟩
  case h_2 hop =>
    obtain ⟨hz, rfl⟩ := ifReservedZero_eq_ok.mp h
    exact eq_formatC_iff.mpr
      ⟨⟨⟨⟨⟨BitVec.eq_of_toNat_eq hop, rfl⟩, rfl⟩, (ecCode_ecOfCode _).symm⟩, (ofBool_beq_one _).symm⟩, hz⟩
  case h_3 hop | h_15 hop =>
    obtain ⟨hz, rfl⟩ := ifReservedZero_eq_ok.mp h
    exact eq_formatI_iff.mpr ⟨⟨BitVec.eq_of_toNat_eq hop, hz⟩, rfl⟩
  case h_5 hop | h_6 hop =>
    obtain ⟨hz, rfl⟩ := ifReservedZero_eq_ok.mp h
    exact eq_formatK_iff.mpr ⟨⟨BitVec.eq_of_toNat_eq hop, hz⟩, rfl⟩
  case h_10 hop =>
    obtain ⟨hz, rfl⟩ := ifReservedZero_eq_ok.mp h
    exact eq_formatW_iff.mpr ⟨⟨⟨BitVec.eq_of_toNat_eq hop, hz⟩, rfl⟩, (ecCode_ecOfCode _).symm⟩
  case h_11 hop =>
    cases h
    exact eq_formatM_iff.mpr ⟨⟨⟨BitVec.eq_of_toNat_eq hop, rfl⟩, rfl⟩, rfl⟩
  case h_12 hop =>
    obtain ⟨hz, rfl⟩ := ifReservedZero_eq_ok.mp h
    exact eq_formatG_iff.mpr ⟨⟨⟨BitVec.eq_of_toNat_eq hop, hz⟩, rfl⟩, rfl⟩
  case h_13 hop =>
    cases h
    exact eq_formatA_iff.mpr ⟨⟨BitVec.eq_of_toNat_eq hop, rfl⟩, rfl⟩
  case h_16 hop =>
    obtain ⟨hz, rfl⟩ := ifReservedZero_eq_ok.mp h
    exact eq_formatR_iff.mpr ⟨⟨BitVec.eq_of_toNat_eq hop, hz⟩, rfl⟩
  case h_17 => cases h

/-- A word decodes to a command exactly when it is that command's word (R90–R94). -/
theorem decode_eq_ok_iff {w : Word} {i : Instr} : decode w = .ok i ↔ w = encode i :=
  ⟨eq_encode_of_decode, decode_of_eq_encode⟩

/-! ### The opcode map (R93) -/

/-- A word that a row of the map admits is the word of the command of that row with the operands it holds: the row's
mask covers the opcode and the format's reserved bits. -/
theorem exists_eq_encode_of_mask (w : Word) :
    ∀ row ∈ opcodeMap, w &&& row.mask = row.pattern → ∃ i, w = encode i := by
  have hcode : ∀ {lo}, field w lo 2 = ecCode (ecOfCode (field w lo 2)) := (ecCode_ecOfCode _).symm
  have hflag : field w 7 1 = BitVec.ofBool (field w 7 1 == 1) := (ofBool_beq_one _).symm
  simp only [opcodeMap, List.forall_mem_cons]
  exact ⟨fun h => ⟨.reset, eq_formatZ_iff.mpr ⟨field_of_mask h, field_of_mask h⟩⟩,
    fun h => ⟨.cfg (ecOfCode (field w 8 2)) (field w 10 6) (field w 7 1 == 1) (field w 16 8),
      eq_formatC_iff.mpr ⟨⟨⟨⟨⟨field_of_mask h, rfl⟩, rfl⟩, hcode⟩, hflag⟩, field_of_mask h⟩⟩,
    fun h => ⟨.setlen (field w 0 16), eq_formatI_iff.mpr ⟨⟨field_of_mask h, field_of_mask h⟩, rfl⟩⟩,
    fun h => ⟨.append, eq_formatZ_iff.mpr ⟨field_of_mask h, field_of_mask h⟩⟩,
    fun h => ⟨.render (field w 0 4), eq_formatK_iff.mpr ⟨⟨field_of_mask h, field_of_mask h⟩, rfl⟩⟩,
    fun h => ⟨.bitasm (field w 0 4), eq_formatK_iff.mpr ⟨⟨field_of_mask h, field_of_mask h⟩, rfl⟩⟩,
    fun h => ⟨.rsenc, eq_formatZ_iff.mpr ⟨field_of_mask h, field_of_mask h⟩⟩,
    fun h => ⟨.mplace, eq_formatZ_iff.mpr ⟨field_of_mask h, field_of_mask h⟩⟩,
    fun h => ⟨.masksel, eq_formatZ_iff.mpr ⟨field_of_mask h, field_of_mask h⟩⟩,
    fun h => ⟨.setw (field w 2 6) (ecOfCode (field w 0 2)),
      eq_formatW_iff.mpr ⟨⟨⟨field_of_mask h, field_of_mask h⟩, rfl⟩, hcode⟩⟩,
    fun h => ⟨.modesel (field w 21 3) (field w 15 6) (field w 0 15),
      eq_formatM_iff.mpr ⟨⟨⟨field_of_mask h, rfl⟩, rfl⟩, rfl⟩⟩,
    fun h => ⟨.gfmul (field w 8 8) (field w 0 8),
      eq_formatG_iff.mpr ⟨⟨⟨field_of_mask h, field_of_mask h⟩, rfl⟩, rfl⟩⟩,
    fun h => ⟨.seta (field w 20 4) (field w 0 20), eq_formatA_iff.mpr ⟨⟨field_of_mask h, rfl⟩, rfl⟩⟩,
    fun h => ⟨.ld, eq_formatZ_iff.mpr ⟨field_of_mask h, field_of_mask h⟩⟩,
    fun h => ⟨.st (field w 0 16), eq_formatI_iff.mpr ⟨⟨field_of_mask h, field_of_mask h⟩, rfl⟩⟩,
    fun h => ⟨.rdr (field w 0 8), eq_formatR_iff.mpr ⟨⟨field_of_mask h, field_of_mask h⟩, rfl⟩⟩,
    List.forall_mem_nil _⟩

/-- The word of every command is admitted by the row of its mnemonic. -/
theorem encodesItsRow (i : Instr) : EncodesItsRow.Statement i := by
  cases i with
  | reset => exact EncodesItsRow.reset
  | cfg ecl maxver sa cs => exact EncodesItsRow.cfg ecl maxver sa cs
  | setlen n => exact EncodesItsRow.setlen n
  | append => exact EncodesItsRow.append
  | render k => exact EncodesItsRow.render k
  | bitasm k => exact EncodesItsRow.bitasm k
  | rsenc => exact EncodesItsRow.rsenc
  | mplace => exact EncodesItsRow.mplace
  | masksel => exact EncodesItsRow.masksel
  | setw ver ecl => exact EncodesItsRow.setw ver ecl
  | modesel mode ver idx => exact EncodesItsRow.modesel mode ver idx
  | gfmul a b => exact EncodesItsRow.gfmul a b
  | seta space idx => exact EncodesItsRow.seta space idx
  | ld => exact EncodesItsRow.ld
  | st v => exact EncodesItsRow.st v
  | rdr regno => exact EncodesItsRow.rdr regno

/-- The word of every command is admitted by the row of its mnemonic, mask and match written out (R93). -/
theorem exists_row_of_encode (i : Instr) :
    ∃ row ∈ opcodeMap, row.mnemonic = i.mnemonic ∧ encode i &&& row.mask = row.pattern := by
  obtain ⟨row, hrow, hname, hadmits⟩ := encodesItsRow i
  exact ⟨row, hrow, hname, by simpa [OpcodeRow.admits] using hadmits⟩

/-- Settles O2: a decoded word is its command's word and so admitted by its row, and an admitted word is the word of a
command. -/
theorem decodeIsTheMap : Obligations.DecodeIsTheMap := by
  intro w
  simp only [decode_eq_ok_iff]
  refine ⟨⟨?_, fun ⟨row, hrow, hmask⟩ => exists_eq_encode_of_mask w row hrow hmask⟩, ?_⟩
  · rintro ⟨i, rfl⟩
    obtain ⟨row, hrow, -, hmask⟩ := exists_row_of_encode i
    exact ⟨row, hrow, hmask⟩
  · rintro i rfl
    exact ⟨rfl, exists_row_of_encode i⟩

/-- Settles O4: nine words of commands, one word of an unknown opcode, two with a reserved bit set. -/
theorem specWordsDecode : Obligations.SpecWordsDecode := by
  rw [Obligations.SpecWordsDecode]
  decide

/-! ### One word, one response (R69, R98) -/

/-- The later stages leave the host's side of the port alone. -/
theorem stages_port {s t : State} (h : Relation.ReflTransGen StageWrites s t) : t.cmds = s.cmds ∧ t.resps = s.resps := by
  induction h with
  | refl => exact ⟨rfl, rfl⟩
  | tail _ hw ih => cases hw <;> exact ih

/-- No command writes the host's side of the port before its response, RESET included (log 1). -/
theorem Effect.port {i : Instr} {s t : State} (h : Effect i s t) : t.cmds = s.cmds ∧ t.resps = s.resps := by
  cases h with
  | nothing | reset | cfg | setlen | setw | seta | ld => exact ⟨rfl, rfl⟩
  | append _ _ text _ hloop =>
    have hf := (appendLoop_path hloop).frame
    exact ⟨hf.cmds, hf.resps⟩
  | assemble _ _ _ k _ _ _ hstages =>
    obtain ⟨hcmds, hresps⟩ := stages_port hstages
    exact ⟨hcmds, hresps⟩
  | stage _ _ _ hw => exact stages_port (.single hw)
  | st _ u v hw => rcases memWrite_cases hw with ⟨-, -, -, rfl⟩ | ⟨-, -, -, rfl⟩ | ⟨-, -, -, rfl⟩ <;> exact ⟨rfl, rfl⟩

/-- Settles O6: the step takes the head of the stream, and what then answers leaves the port alone but for one
response. -/
theorem oneResponse : Obligations.OneResponse := by
  intro s t h
  obtain ⟨w, rest, hc, ⟨i, -, hi⟩ | ⟨e, -, rfl⟩⟩ := step_eq_next h
  · obtain ⟨u, res, val, hu, rfl⟩ := effect_of_exec hi
    obtain ⟨hcmds, hresps⟩ := hu.port
    exact ⟨w, ⟨res, val⟩, by rw [hc, respond_cmds, hcmds], by rw [respond_resps, hresps]⟩
  · exact ⟨w, ⟨.illegal, w⟩, hc, rfl⟩

end Sys2Proof.Proofs
end

