-- ==== Sys2Proof/Proofs/SessionCommands.lean ====
section
/-!
PROOFS. The family of the session commands: the exact ends of CFG, SETLEN and SETW (R132–R134), the checks RENDER shares
with BITASM, RENDER as the four stages in a row with the state each of them leaves, and what the stages leave unchanged
(R135, R241, R270, R291, R339).
-/

namespace Sys2Proof.Proofs

open Sys2Proof.Machine Sys2Proof.Claims Sys2Proof.Laws

/-! ### From the result of a command's rule to its execution (R98) -/

/-- A command whose rule responds leaves the rule's state with the response `OK`. -/
theorem exec_of_done {i : Instr} {s t : State} {v : Word} (h : resultOf i s = .done t v) :
    exec i s = .next (respond t .ok v) := by
  rw [exec_eq_finish, h, finish_done]

/-- A command whose rule raises leaves the rule's state with the error as its response. -/
theorem exec_of_raised {i : Instr} {s t : State} {e : ResCode} {v : Word} (h : resultOf i s = .raised t e v) :
    exec i s = .next (respond t e v) := by
  rw [exec_eq_finish, h, finish_raised]

/-! ### BITASM by its checks (R241), and RENDER behind them (R135) -/

/-- With no group there is nothing to assemble. -/
theorem bitasm_of_unconfigured {k : BitVec 4} {s : State} (hp : s.phase = .unconfigured) :
    bitasm k s = sequenceError s := by
  simpa [renderAccepted, hp] using bitasm_cases k s

/-- A position outside the group names no symbol. -/
theorem bitasm_of_no_symbol {k : BitVec 4} {s : State} (hp : s.phase ≠ .unconfigured)
    (hk : s.group.symcnt.toNat ≤ k.toNat) : bitasm k s = argumentError s (k.setWidth 32) := by
  simpa [renderAccepted, hp, symbolExists, hk.not_gt] using bitasm_cases k s

/-- A symbol without a segment has nothing to assemble. -/
theorem bitasm_of_no_segment {k : BitVec 4} {s : State} (hp : s.phase ≠ .unconfigured)
    (hk : k.toNat < s.group.symcnt.toNat) (hseg : (s.slot k).segs = []) : bitasm k s = sequenceError s := by
  simpa [renderAccepted, hp, symbolExists, hk, hseg] using bitasm_cases k s

/-- What RENDER and BITASM ask of a state before they start: a group, a symbol of it, a segment in that symbol, and a
version of the tables (R135, R241). -/
structure Renderable (k : BitVec 4) (s : State) : Prop where
  phase : s.phase ≠ .unconfigured
  symbol : k.toNat < s.group.symcnt.toNat
  segment : (s.slot k).segs ≠ []
  version : versionOk (s.slot k).ver.toNat = true

/-- A renderable symbol is assembled. -/
theorem bitasm_eq_done {k : BitVec 4} {s : State} (h : Renderable k s) :
    bitasm k s = .done (bitasmState k s) (BitVec.ofNat 32 (usedBits s k).length) := by
  simpa [renderAccepted, h.phase, symbolExists, h.symbol, h.segment, h.version, bitasmState] using
    bitasm_cases k s

/-- RENDER is its four stages in a row: its own checks are the ones its first stage makes again (R135, D35). -/
theorem render_eq_stages (k : BitVec 4) (s : State) :
    render k s = ((((bitasm k s).andThen rsenc).andThen mplace).andThen masksel).andThen respondMask := by
  rcases bitasm_cases k s with
    ⟨hp, he⟩ | ⟨hp, hk, he⟩ | ⟨hp, hk, hseg, he⟩ | ⟨hp, hk, hseg, -, -⟩ | ⟨hp, hk, hseg, -, -⟩
  · simp [render, hp, he, sequenceError]
  · simp [render, hp, hk, he, argumentError]
  · simp [render, hp, hk, hseg, he, sequenceError]
  · simp [render, hp, hk, hseg]
  · simp [render, hp, hk, hseg]

/-- RENDER passes on an error of BITASM (R135). -/
theorem render_of_bitasm_raised {k : BitVec 4} {s t : State} {e : ResCode} {v : Word}
    (h : bitasm k s = .raised t e v) : render k s = .raised t e v := by
  rw [render_eq_stages, h]
  simp only [andThen_raised]

/-- RENDER and BITASM answer an error of BITASM's checks alike. -/
theorem exec_of_bitasm_raised {k : BitVec 4} {s t : State} {e : ResCode} {v : Word} (h : bitasm k s = .raised t e v) :
    exec (.render k) s = .next (respond t e v) ∧ exec (.bitasm k) s = .next (respond t e v) :=
  ⟨exec_of_raised (render_of_bitasm_raised h), exec_of_raised h⟩

/-- Settles O11: the three checks in turn are BITASM's, and RENDER passes their errors on. -/
theorem renderBitasmRefuse : Obligations.RenderBitasmRefuse := by
  intro k s
  refine ⟨fun hp => ?_, fun hp hk => ?_, fun hp hk hseg => ?_⟩
  · have hzero : (phaseCode s.phase).setWidth 32 = (0 : Word) := by rw [hp]; rfl
    exact exec_of_bitasm_raised ((bitasm_of_unconfigured hp).trans (by rw [sequenceError, hzero]))
  · exact exec_of_bitasm_raised (bitasm_of_no_symbol hp hk)
  · exact exec_of_bitasm_raised (bitasm_of_no_segment hp hk hseg)

/-! ### The stages complete on whole buffers (R270, R291, R339) -/

/-- A stream written whole reads back through a length register that can hold its length (R28, R63). -/
theorem firstCells_cellsFrom_ofNat {α : Type} {l : List α} {n w : Nat} (hl : l.length = n) (hn : n < 2 ^ w) :
    firstCells (cellsFrom 0 l) (BitVec.ofNat w n).toNat = some l := by
  rw [BitVec.toNat_ofNat, Nat.mod_eq_of_lt hn, ← hl, firstCells_cellsFrom]

/-- A version of the tables is an open working context (R26, R134). -/
theorem contextOpen_of_versionOk {s : State} (hv : versionOk s.wver.toNat = true) : contextOpen s = true := by
  have hne : s.wver ≠ 0 := fun h0 => by simp [h0, versionOk] at hv
  simpa [contextOpen] using hne

/-- RSENC completes when all data codewords are there (R270). -/
theorem rsenc_eq_done {s : State} {d : List Byte} (hv : versionOk s.wver.toNat = true) (hc : dataComplete s = true)
    (hd : firstCells s.mem.dcw s.dcwn.toNat = some d) :
    rsenc s = .done (storeStream s (totalCW s.wver.toNat) (codewordStream s.wecl s.wver.toNat d))
      (BitVec.ofNat 32 (totalCW s.wver.toNat)) := by
  simpa [contextOpen_of_versionOk hv, hv, hc, hd] using rsenc_cases s

/-- MPLACE completes when the whole stream is there (R291). -/
theorem mplace_eq_done {s : State} {ws : List Byte} (hv : versionOk s.wver.toNat = true)
    (hc : streamComplete s = true) (hws : firstCells s.mem.fcw s.fcwn.toNat = some ws) :
    mplace s = .done (storeMatrix s .premask (premaskMatrix s.wver.toNat ws).flatten) (BitVec.ofNat 32 s.side) := by
  simpa [contextOpen_of_versionOk hv, hv, hc, hws] using mplace_cases s

/-- The penalty terms of the eight candidates of the matrix `cells` (R338, R339). -/
def maskPenalties (s : State) (cells : List Module) : Vector (Vector (BitVec 32) 4) 8 :=
  .ofFn fun m : Fin 8 => penaltyTerms s.side (candidate (rowsOf s.side s.side cells) s.wecl s.wver.toNat m.val)

/-- The mask MASKSEL selects for the matrix `cells` (R339). -/
def bestMask (s : State) (cells : List Module) : Fin 8 := selectMask ((maskPenalties s cells).map penaltyTotal)

/-- The state after a successful MASKSEL on the matrix `cells` (R339). -/
def maskselState (s : State) (cells : List Module) : State :=
  { storeMatrix s .final
      (candidate (rowsOf s.side s.side cells) s.wecl s.wver.toNat (bestMask s cells).val).flatten with
    penc := maskPenalties s cells
    pen := (maskPenalties s cells).map penaltyTotal
    maskref := BitVec.ofFin (bestMask s cells) }

/-- MASKSEL completes when a whole pre-mask matrix is there (R339). -/
theorem masksel_eq_done {s : State} {cells : List Module} (hv : versionOk s.wver.toNat = true)
    (hm : s.mmv = .premask) (hc : firstCells s.mem.mm (s.side * s.side) = some cells) :
    masksel s = .done (maskselState s cells) (BitVec.ofNat 32 (bestMask s cells).val) := by
  rcases masksel_cases s with ⟨hne, -⟩ | ⟨-, hv', -⟩ | ⟨-, -, hnone, -⟩ | ⟨-, -, cells', penc, hc', hpenc, he⟩
  · exact absurd hm hne
  · simp [hv] at hv'
  · simp [hc] at hnone
  · obtain rfl : cells = cells' := by simpa [hc] using hc'
    obtain rfl : penc = maskPenalties s cells := Vector.ext fun m hm => by
      simpa [maskPenalties] using hpenc ⟨m, hm⟩
    exact he

/-! ### The states RENDER passes through (R135) -/

/-- The data codewords of symbol `k` (R240–R248). -/
def symbolData (k : BitVec 4) (s : State) : List Byte :=
  fillCodewords (dataCW s.group.ecl (s.slot k).ver.toNat) (usedBits s k)

/-- The codeword stream of symbol `k` (R268–R271). -/
def symbolStream (k : BitVec 4) (s : State) : List Byte :=
  codewordStream s.group.ecl (s.slot k).ver.toNat (symbolData k s)

/-- The cells of the pre-mask matrix of symbol `k` (R291). -/
def symbolCells (k : BitVec 4) (s : State) : List Module :=
  (premaskMatrix (s.slot k).ver.toNat (symbolStream k s)).flatten

/-- RENDER after its second stage. -/
def streamState (k : BitVec 4) (s : State) : State :=
  storeStream (bitasmState k s) (totalCW (s.slot k).ver.toNat) (symbolStream k s)

/-- RENDER after its third stage. -/
def premaskState (k : BitVec 4) (s : State) : State := storeMatrix (streamState k s) .premask (symbolCells k s)

/-- RENDER after its fourth stage. -/
def renderState (k : BitVec 4) (s : State) : State := maskselState (premaskState k s) (symbolCells k s)

section
variable {k : BitVec 4} {s : State} (hv : versionOk (s.slot k).ver.toNat = true) (rs : List Response)
include hv

/-- RSENC completes after BITASM, whatever has been responded so far. -/
theorem rsenc_bitasmState : ∃ v, rsenc { bitasmState k s with resps := rs } =
    .done { streamState k s with resps := rs } v := by
  have hsmall : dataCW s.group.ecl (s.slot k).ver.toNat < 2 ^ 12 :=
    (dataCW_le _ (versionOk_iff.mp hv).2).trans_lt (by decide)
  have hcount : dataComplete { bitasmState k s with resps := rs } = true := by
    simpa [dataComplete, bitasmState] using hsmall
  exact ⟨_, rsenc_eq_done hv hcount (firstCells_cellsFrom_ofNat (length_fillCodewords _ _) hsmall)⟩

/-- MPLACE completes after RSENC, whatever has been responded so far. -/
theorem mplace_streamState : ∃ v, mplace { streamState k s with resps := rs } =
    .done { premaskState k s with resps := rs } v := by
  have hsmall : totalCW (s.slot k).ver.toNat < 2 ^ 12 :=
    (totalCW_le_fcwSize _ (List.mem_range.mpr (Nat.lt_succ_of_le (versionOk_iff.mp hv).2))).trans_lt (by decide)
  have hcount : streamComplete { streamState k s with resps := rs } = true := by
    simpa [streamComplete, streamState, bitasmState] using hsmall
  exact ⟨_, mplace_eq_done hv hcount
    (firstCells_cellsFrom_ofNat (length_codewordStream hv (length_fillCodewords _ _)) hsmall)⟩

/-- MASKSEL completes after MPLACE, whatever has been responded so far. -/
theorem masksel_premaskState : ∃ v, masksel { premaskState k s with resps := rs } =
    .done { renderState k s with resps := rs } v := by
  have hread : firstCells (cellsFrom 0 (symbolCells k s)) (side (s.slot k).ver.toNat * side (s.slot k).ver.toNat) =
      some (symbolCells k s) := by
    rw [← length_flatten_of_isSquare (isSquare_premaskMatrix _ (symbolStream k s))]
    exact firstCells_cellsFrom _
  exact ⟨_, masksel_eq_done hv rfl hread⟩

end

/-- A renderable symbol is rendered, and the response is the selected mask (R135). -/
theorem render_eq_done {k : BitVec 4} {s : State} (h : Renderable k s) :
    render k s = .done (renderState k s) ((renderState k s).maskref.setWidth 32) := by
  obtain ⟨_, hrs⟩ : ∃ v, rsenc (bitasmState k s) = .done (streamState k s) v := rsenc_bitasmState h.version s.resps
  obtain ⟨_, hmp⟩ : ∃ v, mplace (streamState k s) = .done (premaskState k s) v := mplace_streamState h.version s.resps
  obtain ⟨_, hms⟩ : ∃ v, masksel (premaskState k s) = .done (renderState k s) v :=
    masksel_premaskState h.version s.resps
  rw [render_eq_stages, bitasm_eq_done h, andThen_done, hrs, andThen_done, hmp, andThen_done, hms, andThen_done,
    respondMask]

/-- Settles O12: each stage completes on what the one before it left, and RENDER runs through the same states. -/
theorem renderIsFourStages : Obligations.RenderIsFourStages := by
  intro k s hp hk hseg hlow hhigh
  have h : Renderable k s := ⟨hp, hk, hseg, versionOk_iff.mpr ⟨hlow, hhigh⟩⟩
  obtain ⟨v1, h1⟩ : ∃ v, bitasm k s = .done (bitasmState k s) v := ⟨_, bitasm_eq_done h⟩
  obtain ⟨v2, h2⟩ := rsenc_bitasmState h.version (s.resps ++ [⟨.ok, v1⟩])
  obtain ⟨v3, h3⟩ := mplace_streamState h.version (s.resps ++ [⟨.ok, v1⟩] ++ [⟨.ok, v2⟩])
  obtain ⟨v4, h4⟩ := masksel_premaskState h.version (s.resps ++ [⟨.ok, v1⟩] ++ [⟨.ok, v2⟩] ++ [⟨.ok, v3⟩])
  exact ⟨_, _, _, _, exec_of_done h1, exec_of_done h2, exec_of_done h3, exec_of_done h4,
    ⟨v1, v2, v3, v4, by simp⟩, exec_of_done (i := .render k) (render_eq_done h)⟩

/-- Rendering reads only what it does not write, but for what it writes first: a second time changes nothing. -/
theorem renderState_renderState (k : BitVec 4) (s : State) (res : ResCode) (val : Word) :
    renderState k (respond (renderState k s) res val) = respond (renderState k s) res val := rfl

/-- Settles O13: RENDER leaves the symbol renderable, and renders it to the same state. -/
theorem renderTwice : Obligations.RenderTwice := by
  intro k s hp hk hseg hlow hhigh
  have h : Renderable k s := ⟨hp, hk, hseg, versionOk_iff.mpr ⟨hlow, hhigh⟩⟩
  have hagain : Renderable k (respond (renderState k s) .ok ((renderState k s).maskref.setWidth 32)) :=
    ⟨by simp [renderState, maskselState, premaskState, streamState, bitasmState], hk, hseg, h.version⟩
  refine ⟨_, exec_of_done (i := .render k) (render_eq_done h), ?_⟩
  rw [exec_of_done (i := .render k) (render_eq_done hagain), renderState_renderState]

/-! ### What the stages leave unchanged (R135, R241, R270, R291, R339) -/

/-- Everything RENDER and its stages never write is as it was: the group registers but `PHASE`, the slots, the string
and the cursors of the host (R135: "Writes"). -/
def RenderFrame (s t : State) : Prop :=
  t = { s with
    phase := t.phase, wver := t.wver, wecl := t.wecl, wsym := t.wsym, maskref := t.maskref, pen := t.pen
    penc := t.penc, dcwn := t.dcwn, fcwn := t.fcwn, mmv := t.mmv
    mem := { t.mem with txt := s.mem.txt }, resps := t.resps }

/-- A later stage keeps the frame of what ran before it. -/
theorem RenderFrame.stageWrites {s t u : State} (h : RenderFrame s t) (hw : StageWrites t u) : RenderFrame s u := by
  rw [RenderFrame] at h
  cases hw <;> rw [h] <;> rfl

/-- So do any number of them. -/
theorem RenderFrame.stages {s t u : State} (h : RenderFrame s t) (hw : Relation.ReflTransGen StageWrites t u) :
    RenderFrame s u := by
  induction hw with
  | refl => exact h
  | tail _ hw ih => exact ih.stageWrites hw

/-- So does the response. -/
theorem RenderFrame.respond {s t : State} (h : RenderFrame s t) (res : ResCode) (val : Word) :
    RenderFrame s (respond t res val) := by
  rw [RenderFrame] at h
  rw [h]
  rfl

/-- RENDER keeps the frame. -/
theorem render_frame {k : BitVec 4} {s t : State} (h : exec (.render k) s = .next t) : RenderFrame s t := by
  obtain ⟨u, res, val, hu, rfl⟩ := exec_eq_next h
  refine RenderFrame.respond ?_ res val
  rcases render_writes hu with rfl | ⟨-, -, hstages⟩
  · rfl
  · exact RenderFrame.stages (t := bitasmState k s) rfl hstages

/-- Settles O15: each stage by the ends it can have, RENDER by the writes of its stages. -/
theorem stageFrames : Obligations.StageFrames := by
  intro k s t
  refine ⟨fun h => ?_, fun h => ?_, fun h => ?_, fun h => ?_, render_frame⟩ <;>
    obtain ⟨u, res, val, hu, rfl⟩ := exec_eq_next h
  · rcases bitasm_writes hu with rfl | ⟨-, -, rfl⟩ <;> rfl
  · rcases rsenc_cases s with ⟨-, he⟩ | ⟨-, -, he⟩ | ⟨-, -, -, he⟩ | ⟨-, -, -, -, he⟩ | ⟨-, -, -, d, -, he⟩ <;>
      rw [resultOf, he] at hu <;> cases hu <;> rfl
  · rcases mplace_cases s with ⟨-, he⟩ | ⟨-, -, he⟩ | ⟨-, -, -, he⟩ | ⟨-, -, -, -, he⟩ | ⟨-, -, -, ws, -, he⟩ <;>
      rw [resultOf, he] at hu <;> cases hu <;> rfl
  · rcases masksel_cases s with ⟨-, he⟩ | ⟨-, -, he⟩ | ⟨-, -, -, he⟩ | ⟨-, -, cells, penc, -, -, he⟩ <;>
      rw [resultOf, he] at hu <;> cases hu <;> rfl

/-! ### CFG (R132, R218) -/

/-- A group just opened and its first symbol: version 1 and the capacity of that version (R211, R218). -/
theorem newSymbol_openGroup (ecl : EcLevel) (maxver : BitVec 6) (sa : Bool) (cs : BitVec 8) (s : State) :
    newSymbol (openGroup ecl maxver sa cs s) =
      { s with
        group := ⟨ecl, maxver, sa, cs, 1, 0, 1⟩
        slots := s.slots.set 0
          ⟨1, BitVec.ofNat 15 (8 * dataCW ecl 1 - if sa then 20 else 0), 0, none, 0, 0, 0, 0, []⟩ } := rfl

section
variable {p : Platform} {ecl : EcLevel} {maxver : BitVec 6} {sa : Bool} {cs : BitVec 8} {s : State}

/-- CFG opens a group with one symbol when it passes its three checks. -/
theorem cfg_eq_done (hp : s.phase = .unconfigured) (hv : versionOk maxver.toNat = true) (hcs : p.csKnown cs = true) :
    cfg p ecl maxver sa cs s = .done { newSymbol (openGroup ecl maxver sa cs s) with phase := .building } 0 := by
  simpa [cfgAccepted, hp, hv, hcs] using cfg_cases p ecl maxver sa cs s

/-- CFG is out of sequence where there is a group. -/
theorem cfg_of_configured (hp : s.phase ≠ .unconfigured) : cfg p ecl maxver sa cs s = sequenceError s := by
  simpa [cfgAccepted, hp] using cfg_cases p ecl maxver sa cs s

/-- CFG refuses a version bound that is no version of the tables. -/
theorem cfg_of_bad_version (hp : s.phase = .unconfigured) (hv : ¬ versionOk maxver.toNat = true) :
    cfg p ecl maxver sa cs s = .raised s .config 1 := by
  simpa [cfgAccepted, hp, hv] using cfg_cases p ecl maxver sa cs s

/-- CFG refuses a charset the service does not know. -/
theorem cfg_of_unknown_charset (hp : s.phase = .unconfigured) (hv : versionOk maxver.toNat = true)
    (hcs : p.csKnown cs = false) : cfg p ecl maxver sa cs s = .raised s .config 2 := by
  simpa [cfgAccepted, hp, hv, hcs] using cfg_cases p ecl maxver sa cs s

end

/-- A number outside 1..40 is no version of the tables (R6, R380). -/
theorem not_versionOk {v : Nat} (h : v = 0 ∨ 40 < v) : ¬ versionOk v = true := by
  rw [versionOk_iff]
  omega

/-- Settles O8: the success and the three refusals are CFG's own four ends. -/
theorem cfgOpensGroup : Obligations.CfgOpensGroup := by
  intro ecl maxver sa cs s
  refine ⟨fun hp hlow hhigh hcs => ?_, fun hp => ?_, fun hp hv => ?_, exec_eq_finish _ s, fun p hp hlow hhigh hcs => ?_⟩
  · rw [exec_of_done (i := .cfg ecl maxver sa cs) (cfg_eq_done hp (versionOk_iff.mpr ⟨hlow, hhigh⟩) hcs),
      newSymbol_openGroup]
  · exact exec_of_raised (i := .cfg ecl maxver sa cs) (cfg_of_configured hp)
  · exact exec_of_raised (i := .cfg ecl maxver sa cs) (cfg_of_bad_version hp (not_versionOk hv))
  · rw [cfg_of_unknown_charset hp (versionOk_iff.mpr ⟨hlow, hhigh⟩) hcs, finish_raised]

/-! ### SETLEN (R133) -/

/-- A store leaves `TLEN` alone (R62). -/
theorem memWrite_tlen {p : Platform} {s t : State} {sp : Space} {idx : Nat} {v : BitVec 16}
    (h : memWrite p s sp idx v = some t) : t.tlen = s.tlen := by
  rcases memWrite_cases h with ⟨-, -, -, rfl⟩ | ⟨-, -, -, rfl⟩ | ⟨-, -, -, rfl⟩ <;> rfl

/-- So does ST, whether it stores or refuses (R133, R363). -/
theorem st_tlen {v : BitVec 16} {s t : State} (h : exec (.st v) s = .next t) : t.tlen = s.tlen := by
  obtain ⟨u, res, val, hu, rfl⟩ := exec_eq_next h
  rcases store_cases Config.platform v s with ⟨w, hw, he⟩ | ⟨-, he⟩ <;> rw [resultOf, he] at hu <;> cases hu
  · exact (memWrite_tlen hw :)
  · rfl

/-- SETLEN sets the string's length when its cells are written. -/
theorem setlen_eq_done {n : BitVec 16} {s : State} (hn : n.toNat ≤ s.txtn.toNat) :
    setlen n s = .done { s with tlen := n } 0 := by
  simpa [hn, hn.not_gt] using setlen_cases n s

/-- SETLEN refuses a string that reaches beyond the written cells. -/
theorem setlen_of_unwritten {n : BitVec 16} {s : State} (hn : s.txtn.toNat < n.toNat) :
    setlen n s = argumentError s (n.setWidth 32) := by
  simpa [hn, hn.not_ge] using setlen_cases n s

/-- Settles O9: SETLEN by its one check, the bound by the buffer invariant, and ST by what a store writes. -/
theorem setlenSets : Obligations.SetlenSets := by
  intro n s
  refine ⟨fun hn => ?_, fun hn => ?_, fun hb hn => hn.trans hb.txtSize, fun v t => st_tlen⟩
  · exact exec_of_done (i := .setlen n) (setlen_eq_done hn)
  · exact exec_of_raised (i := .setlen n) (setlen_of_unwritten hn)

/-! ### SETW (R134) -/

/-- SETW opens a context for a version of the tables. -/
theorem setw_eq_done {ver : BitVec 6} {ecl : EcLevel} {s : State} (hv : versionOk ver.toNat = true) :
    setw ver ecl s = .done (openContext s ver ecl 0 []) 0 := by
  simpa [hv] using setw_cases ver ecl s

/-- SETW refuses any other version. -/
theorem setw_of_bad_version {ver : BitVec 6} {ecl : EcLevel} {s : State} (hv : ¬ versionOk ver.toNat = true) :
    setw ver ecl s = argumentError s (ver.setWidth 32) := by
  simpa [hv] using setw_cases ver ecl s

/-- Settles O10: SETW by its one check. -/
theorem setwOpens : Obligations.SetwOpens := by
  intro ver ecl s
  refine ⟨fun hlow hhigh => ?_, fun hv => ?_⟩
  · exact exec_of_done (i := .setw ver ecl) (setw_eq_done (versionOk_iff.mpr ⟨hlow, hhigh⟩))
  · exact exec_of_raised (i := .setw ver ecl) (setw_of_bad_version (not_versionOk hv))

end Sys2Proof.Proofs
end

