-- ==== Sys2Proof/Proofs/ModeEncoders.lean ====
section
/-!
PROOFS. The family of the mode encoders: the character classes and their partition of the supported characters
(R151–R158), and the rules of the state machine, each of which decides for a mode whose encoder takes the character
(R184–R188).
-/

namespace Sys2Proof.Proofs

open Sys2Proof.Machine Sys2Proof.Claims

/-! ### The character classes (R151–R158) -/

/-- The alphanumeric characters are the 45 codes (R152, R389). -/
theorem isAln_iff {ch : CharCode} : isAln ch = true ↔ ch.toNat ∈ alnCodes := by
  rw [isAln, alnVal?, Option.isSome_iff_ne_none, ne_eq, List.idxOf?_eq_none_iff, not_not]

/-- Every digit is alphanumeric (R151, R152). -/
theorem isAln_of_isNum {ch : CharCode} (h : isNum ch = true) : isAln ch = true := by
  have hrange : 0x30 ≤ ch.toNat ∧ ch.toNat ≤ 0x39 := by simpa [isNum] using h
  rw [isAln_iff]
  simp only [alnCodes, List.mem_cons]
  omega

/-- Every alphanumeric-exclusive character is alphanumeric (R153). -/
theorem isAln_of_isAlnX {ch : CharCode} (h : isAlnX ch = true) : isAln ch = true :=
  (Bool.and_eq_true_iff.mp h).1

/-- The active charset encodes a supported character (R158). -/
theorem isByt_of_supported {p : Platform} {cs : BitVec 8} {ch : CharCode} (h : supported p cs ch = true) :
    isByt p cs ch = true :=
  (Bool.and_eq_true_iff.mp h).2

/-- A supported character that is not kanji-eligible is byte-exclusive exactly if it is not alphanumeric (R155, R158). -/
theorem isBytX_eq_not_isAln {p : Platform} {cs : BitVec 8} {ch : CharCode} (h : supported p cs ch = true)
    (hk : isKan p cs ch = false) : isBytX p cs ch = !isAln ch := by
  simp [isBytX, isByt_of_supported h, hk]

/-- A supported character that is not kanji-eligible is in exactly one of the other exclusive classes (R151, R153,
R155): by whether it is alphanumeric, and then by whether it is a digit. -/
theorem exclusive_class {p : Platform} {cs : BitVec 8} {ch : CharCode} (h : supported p cs ch = true)
    (hk : isKan p cs ch = false) :
    (isBytX p cs ch = true ∧ isAlnX ch = false ∧ isNum ch = false) ∨
      (isBytX p cs ch = false ∧ isAlnX ch = true ∧ isNum ch = false) ∨
      (isBytX p cs ch = false ∧ isAlnX ch = false ∧ isNum ch = true) := by
  rw [isBytX_eq_not_isAln h hk]
  by_cases hn : isNum ch = true
  · simp [isAlnX, hn, isAln_of_isNum hn]
  · by_cases ha : isAln ch = true <;> simp [isAlnX, hn, ha]

/-! ### Runs (R182, R183) -/

/-- A non-empty run starts with a character of its class (R183). -/
theorem pred_of_run_pos {pred : CharCode → Bool} {ch : CharCode} {rest : List CharCode}
    (h : 0 < run pred (ch :: rest)) : pred ch = true := by
  by_contra hp
  simp [run, hp] at h

/-- A run as long as a positive threshold starts with a character of its class, whatever the tier (R182, R183). -/
theorem pred_of_byTier_le_run {pred : CharCode → Bool} {ch : CharCode} {rest : List CharCode} {t : Fin 3} {a b c : Nat}
    (h : byTier t (a + 1) (b + 1) (c + 1) ≤ run pred (ch :: rest)) : pred ch = true := by
  have hpos : 0 < byTier t (a + 1) (b + 1) (c + 1) := by
    rw [byTier]
    split_ifs <;> exact Nat.succ_pos _
  exact pred_of_run_pos (hpos.trans_le h)

/-! ### The rules decide for a mode that takes the character (R184–R188) -/

/-- The mode's subset holds the character, and the mode is KANJI exactly if the character is kanji-eligible. -/
structure ModeFits (p : Platform) (cs : BitVec 8) (ch : CharCode) (m : EncMode) : Prop where
  subset : inSubset p cs ch m = true
  kanji : m = .kanji ↔ isKan p cs ch = true

section
variable {p : Platform} {cs : BitVec 8} {ver : Nat} {ch : CharCode} {rest : List CharCode}

/-- Every rule answers KANJI first; its other answers need their subset only for the rest (R157). -/
theorem modeFits_ite_isKan {m : EncMode}
    (h : isKan p cs ch = false → m ≠ .kanji ∧ inSubset p cs ch m = true) :
    ModeFits p cs ch (if isKan p cs ch then .kanji else m) := by
  split
  next hk => exact ⟨hk, by simp [hk]⟩
  next hk =>
    obtain ⟨hm, hin⟩ := h (by simpa using hk)
    exact ⟨hin, by simp [hm, hk]⟩

variable (hs : supported p cs ch = true)
include hs

/-- From no mode and from KANJI: BYTE for any encodable character, else the character's own class, or ALPHANUMERIC for
a digit (R184). -/
theorem selectInitial_fits : ModeFits p cs ch (selectInitial p cs ver ch rest) := by
  refine modeFits_ite_isKan fun hk => ?_
  have hbyt := isByt_of_supported hs
  split
  next => exact ⟨nofun, hbyt⟩
  next hx =>
    have haln : isAln ch = true := by simpa [isBytX_eq_not_isAln hs hk] using hx
    split
    next =>
      dsimp only
      split_ifs
      · exact ⟨nofun, hbyt⟩
      · exact ⟨nofun, haln⟩
    next hax =>
      have hnum : isNum ch = true := by simpa [isAlnX, haln] using hax
      dsimp only
      split_ifs
      · exact ⟨nofun, hbyt⟩
      · exact ⟨nofun, haln⟩
      · exact ⟨nofun, hnum⟩

/-- From NUMERIC: the character's own exclusive class (R185). -/
theorem selectFromNumeric_fits : ModeFits p cs ch (selectFromNumeric p cs ch) := by
  refine modeFits_ite_isKan fun hk => ?_
  obtain ⟨hx, hax, hn⟩ | ⟨hx, hax, hn⟩ | ⟨hx, hax, hn⟩ := exclusive_class hs hk
  · simp [hx, inSubset, isByt_of_supported hs]
  · simp [hx, hax, inSubset, isAln_of_isAlnX hax]
  · simp [hx, hax, inSubset, hn]

/-- From ALPHANUMERIC: a character that is not byte-exclusive is alphanumeric, and a digit where a digit run starts
(R186). -/
theorem selectFromAlphanumeric_fits : ModeFits p cs ch (selectFromAlphanumeric p cs ver ch rest) := by
  refine modeFits_ite_isKan fun hk => ?_
  split
  next => exact ⟨nofun, isByt_of_supported hs⟩
  next hx =>
    have haln : isAln ch = true := by simpa [isBytX_eq_not_isAln hs hk] using hx
    dsimp only
    split
    next hrun =>
      have hlong := of_decide_eq_true (Bool.and_eq_true_iff.mp hrun).1
      exact ⟨nofun, pred_of_byTier_le_run hlong⟩
    next => exact ⟨nofun, haln⟩

/-- From BYTE: the class whose run starts here and is long enough, else BYTE for any encodable character (R187). -/
theorem selectFromByte_fits : ModeFits p cs ch (selectFromByte p cs ver ch rest) := by
  refine modeFits_ite_isKan fun _ => ?_
  split
  next hlong => exact ⟨nofun, pred_of_byTier_le_run hlong⟩
  next =>
    split
    next hlong => exact ⟨nofun, isAln_of_isAlnX (pred_of_byTier_le_run hlong)⟩
    next => exact ⟨nofun, isByt_of_supported hs⟩

/-- A supported character is decided, by the rule of the current mode, for a mode that takes it (R188). -/
theorem modeSelect_fits (mode : Option EncMode) :
    ∃ new, modeSelect p cs mode ver ch rest = some new ∧ ModeFits p cs ch new := by
  unfold modeSelect
  rw [if_pos hs]
  match mode with
  | none => exact ⟨_, rfl, selectInitial_fits hs⟩
  | some .kanji => exact ⟨_, rfl, selectInitial_fits hs⟩
  | some .numeric => exact ⟨_, rfl, selectFromNumeric_fits hs⟩
  | some .alphanumeric => exact ⟨_, rfl, selectFromAlphanumeric_fits hs⟩
  | some .byte => exact ⟨_, rfl, selectFromByte_fits hs⟩

end

/-- Settles O23: the rule of each mode decides for a mode that fits, and the exclusive classes partition the rest. -/
theorem modeSelectFits : Obligations.ModeSelectFits := by
  intro p cs mode ver ch rest hs
  obtain ⟨new, hnew, hsub, hkan⟩ := modeSelect_fits (ver := ver) (rest := rest) hs mode
  refine ⟨new, hnew, ?_, ?_, ?_, hkan, exclusive_class hs⟩ <;> rintro rfl <;> exact hsub

end Sys2Proof.Proofs
end

