-- ==== Sys2Proof/Proofs/Segmentation.lean ====
section
/-!
PROOFS. The segmentation family: what the lookahead sees of a run and of the character after it (R182, R183), the
decision of each mode's rule in those terms (R184–R188), and MODESEL, which answers it (R190).
-/

namespace Sys2Proof.Proofs

open Sys2Proof.Machine Sys2Proof.Claims Sys2Proof.Laws

/-! ### Runs, and the character after a run (R182, R183) -/

/-- The threshold of a version is the one of its tier (R181, R182). -/
theorem byTier_tier_eq_byVersion (v a b c : Nat) : byTier (tier v) a b c = byVersion v a b c :=
  byTier_tier v a b c

/-- A non-empty start of a string is its first character and a start of the rest. -/
theorem startsWith_cons_succ {pred : CharCode → Bool} {ch : CharCode} {rest : List CharCode} {n : Nat} :
    startsWith pred (ch :: rest) (n + 1) ↔ pred ch = true ∧ startsWith pred rest n := by
  rw [startsWith, Nat.forall_lt_succ_left]
  simp [startsWith]

/-- A run is at least `n` long exactly if the first `n` characters are of its class (R183). -/
theorem le_run_iff {pred : CharCode → Bool} {l : List CharCode} {n : Nat} : n ≤ run pred l ↔ startsWith pred l n := by
  induction l generalizing n with
  | nil =>
    cases n with
    | zero => simp [startsWith]
    | succ n => simpa [run, startsWith] using ⟨0, n.zero_le⟩
  | cons ch rest ih =>
    cases n with
    | zero => simp [startsWith]
    | succ n =>
      rw [startsWith_cons_succ, ← ih]
      by_cases h : pred ch = true <;> simp [run, h]

/-- The character `n` places on exists and is of the class (R183). -/
theorem nextIs_iff {pred : CharCode → Bool} {l : List CharCode} {n : Nat} :
    nextIs pred l n = true ↔ ∃ c, l[n]? = some c ∧ pred c = true := by
  rw [nextIs]
  cases l[n]? <;> simp

/-- A run that meets no other character is the whole string (R183). -/
theorem run_of_forall {pred : CharCode → Bool} {l : List CharCode} (h : ∀ c ∈ l, pred c = true) :
    run pred l = l.length := by
  rw [run, List.takeWhile_eq_self_iff.mpr h]

/-- Nothing follows a run that is the whole string (R183). -/
theorem nextIs_run_of_forall {pred : CharCode → Bool} {l : List CharCode} (h : ∀ c ∈ l, pred c = true)
    (next : CharCode → Bool) : nextIs next l (run pred l) = false := by
  simp [nextIs, run_of_forall h]

section
variable {pred next : CharCode → Bool} {l : List CharCode} (hdisj : ∀ c, next c = true → pred c = false)
include hdisj

/-- Characters of a class with one of a disjoint class after them are a whole run (R183). -/
theorem startsWith_before_iff {n : Nat} :
    (startsWith pred l n ∧ ∃ c, l[n]? = some c ∧ next c = true) ↔
      n = run pred l ∧ nextIs next l (run pred l) = true := by
  rw [nextIs_iff]
  constructor
  · rintro ⟨hstart, c, hc, hnext⟩
    have hn : n = run pred l := by
      refine le_antisymm (le_run_iff.mpr hstart) (Nat.le_of_not_lt fun hlt => ?_)
      obtain ⟨d, hd, hpred⟩ := le_run_iff.mp hlt n n.lt_succ_self
      obtain rfl : c = d := Option.some.inj (hc.symm.trans hd)
      exact absurd hpred (by simp [hdisj c hnext])
    exact ⟨hn, hn ▸ ⟨c, hc, hnext⟩⟩
  · rintro ⟨rfl, hnext⟩
    exact ⟨le_run_iff.mp le_rfl, hnext⟩

/-- A short run before a character of a disjoint class is what R184 tests. -/
theorem shortRunBefore_iff {bound : Nat} :
    shortRunBefore pred next l bound ↔ run pred l < bound ∧ nextIs next l (run pred l) = true := by
  simp only [shortRunBefore, exists_and_left, startsWith_before_iff hdisj]
  exact ⟨fun ⟨n, hn, hrun, hnext⟩ => ⟨hrun ▸ hn, hnext⟩, fun ⟨hrun, hnext⟩ => ⟨_, hrun, rfl, hnext⟩⟩

/-- A long run before a character of a disjoint class is what R186 tests. -/
theorem longRunBefore_iff {bound : Nat} :
    longRunBefore pred next l bound ↔ bound ≤ run pred l ∧ nextIs next l (run pred l) = true := by
  simp only [longRunBefore, exists_and_left, startsWith_before_iff hdisj]
  exact ⟨fun ⟨n, hn, hrun, hnext⟩ => ⟨hrun ▸ hn, hnext⟩, fun ⟨hrun, hnext⟩ => ⟨_, hrun, rfl, hnext⟩⟩

end

/-! ### The classes exclude one another (R151–R155) -/

/-- A byte-exclusive character is not alphanumeric (R155). -/
theorem not_isAln_of_isBytX {p : Platform} {cs : BitVec 8} {ch : CharCode} (h : isBytX p cs ch = true) :
    isAln ch = false := by
  simp only [isBytX, Bool.and_eq_true, Bool.not_eq_true'] at h
  exact h.1.2

/-- A character that is not alphanumeric is not alphanumeric-exclusive (R153). -/
theorem not_isAlnX_of_not_isAln {ch : CharCode} (h : isAln ch = false) : isAlnX ch = false := by
  simp [isAlnX, h]

/-- A character that is not alphanumeric is no digit (R151, R152). -/
theorem not_isNum_of_not_isAln {ch : CharCode} (h : isAln ch = false) : isNum ch = false :=
  Bool.eq_false_iff.mpr fun hn => by simp [isAln_of_isNum hn] at h

/-- An alphanumeric-exclusive character is no digit (R153). -/
theorem not_isNum_of_isAlnX {ch : CharCode} (h : isAlnX ch = true) : isNum ch = false := by
  simpa using (Bool.and_eq_true_iff.mp h).2

/-- A digit is not alphanumeric-exclusive (R153). -/
theorem not_isAlnX_of_isNum {ch : CharCode} (h : isNum ch = true) : isAlnX ch = false := by
  simp [isAlnX, h]

/-- An alphanumeric character is not byte-exclusive (R155). -/
theorem not_isBytX_of_isAln {p : Platform} {cs : BitVec 8} {ch : CharCode} (h : isAln ch = true) :
    isBytX p cs ch = false := by
  simp [isBytX, h]

/-- A string cannot start with a digit and with a letter (R153). -/
theorem not_startsWith_isNum_of_isAlnX {l : List CharCode} {m n : Nat} (hm : 0 < m) (hn : 0 < n)
    (h : startsWith isAlnX l n) : ¬ startsWith isNum l m := fun hnum => by
  obtain ⟨c, hc, hletter⟩ := h 0 hn
  obtain ⟨d, hd, hdigit⟩ := hnum 0 hm
  obtain rfl : c = d := Option.some.inj (hc.symm.trans hd)
  simp [not_isNum_of_isAlnX hletter] at hdigit

/-- No threshold of R182 is 0. -/
theorem byVersion_pos (v a b c : Nat) : 0 < byVersion v (a + 1) (b + 1) (c + 1) := by
  rw [byVersion]
  split_ifs <;> exact Nat.succ_pos _

/-! ### The decision of each rule, for a character that is not kanji-eligible (R184–R187) -/

section
variable {p : Platform} {cs : BitVec 8} {ver : Nat} {ch : CharCode} {rest : List CharCode}

/-- A short letter run before a byte-exclusive character (R184). -/
theorem letters_before_isBytX_iff {l : List CharCode} {bound : Nat} :
    shortRunBefore isAlnX (isBytX p cs) l bound ↔
      run isAlnX l < bound ∧ nextIs (isBytX p cs) l (run isAlnX l) = true :=
  shortRunBefore_iff fun _ h => not_isAlnX_of_not_isAln (not_isAln_of_isBytX h)

/-- A short digit run before a byte-exclusive character (R184). -/
theorem digits_before_isBytX_iff {l : List CharCode} {bound : Nat} :
    shortRunBefore isNum (isBytX p cs) l bound ↔
      run isNum l < bound ∧ nextIs (isBytX p cs) l (run isNum l) = true :=
  shortRunBefore_iff fun _ h => not_isNum_of_not_isAln (not_isAln_of_isBytX h)

/-- A short digit run before a letter (R184). -/
theorem digits_before_isAlnX_iff {l : List CharCode} {bound : Nat} :
    shortRunBefore isNum isAlnX l bound ↔ run isNum l < bound ∧ nextIs isAlnX l (run isNum l) = true :=
  shortRunBefore_iff fun _ => not_isNum_of_isAlnX

/-- A long digit run before a character outside the ALPHANUMERIC subset (R186). -/
theorem digits_before_not_isAln_iff {l : List CharCode} {bound : Nat} :
    longRunBefore isNum (fun c => !isAln c) l bound ↔
      bound ≤ run isNum l ∧ nextIs (fun c => !isAln c) l (run isNum l) = true :=
  longRunBefore_iff fun c h => not_isNum_of_not_isAln (by simpa using h)

/-- One digit run cannot end both at a byte-exclusive character and at a letter (R153, R155, R183). -/
theorem not_digits_before_isAlnX {l : List CharCode} {m n : Nat} (h : shortRunBefore isNum (isBytX p cs) l m) :
    ¬ shortRunBefore isNum isAlnX l n := fun hletter => by
  obtain ⟨c, hc, hbyte⟩ := nextIs_iff.mp (digits_before_isBytX_iff.mp h).2
  obtain ⟨d, hd, halnx⟩ := nextIs_iff.mp (digits_before_isAlnX_iff.mp hletter).2
  obtain rfl : c = d := Option.some.inj (hc.symm.trans hd)
  simp [not_isAlnX_of_not_isAln (not_isAln_of_isBytX hbyte)] at halnx

variable (hk : isKan p cs ch = false)
include hk

/-- From no mode and from KANJI: BYTE for a byte-exclusive character (R184). -/
theorem selectInitial_of_isBytX (h : isBytX p cs ch = true) : selectInitial p cs ver ch rest = .byte := by
  simp [selectInitial, hk, h]

open Classical in
/-- From no mode and from KANJI, at a letter: the letter run decides (R184). -/
theorem selectInitial_of_isAlnX (h : isAlnX ch = true) :
    selectInitial p cs ver ch rest =
      if shortRunBefore isAlnX (isBytX p cs) (ch :: rest) (byVersion ver 6 7 8) then .byte else .alphanumeric := by
  simp [selectInitial, hk, not_isBytX_of_isAln (isAln_of_isAlnX h), h, letters_before_isBytX_iff, thInitAlnByte,
    byTier_tier_eq_byVersion]

open Classical in
/-- From no mode and from KANJI, at a digit: the digit run decides (R184). -/
theorem selectInitial_of_isNum (h : isNum ch = true) :
    selectInitial p cs ver ch rest =
      if shortRunBefore isNum (isBytX p cs) (ch :: rest) (byVersion ver 4 4 5) then .byte
      else if shortRunBefore isNum isAlnX (ch :: rest) (byVersion ver 7 8 9) then .alphanumeric
      else .numeric := by
  simp [selectInitial, hk, not_isBytX_of_isAln (isAln_of_isNum h), not_isAlnX_of_isNum h, digits_before_isBytX_iff,
    digits_before_isAlnX_iff, thInitNumByte, thInitNumAln, byTier_tier_eq_byVersion]

/-- From NUMERIC: the exclusive class of the character decides (R185). -/
theorem selectFromNumeric_of_class :
    (isBytX p cs ch = true → selectFromNumeric p cs ch = .byte) ∧
      (isAlnX ch = true → selectFromNumeric p cs ch = .alphanumeric) ∧
      (isNum ch = true → selectFromNumeric p cs ch = .numeric) := by
  refine ⟨fun h => ?_, fun h => ?_, fun h => ?_⟩
  · simp [selectFromNumeric, hk, h]
  · simp [selectFromNumeric, hk, not_isBytX_of_isAln (isAln_of_isAlnX h), h]
  · simp [selectFromNumeric, hk, not_isBytX_of_isAln (isAln_of_isNum h), not_isAlnX_of_isNum h]

open Classical in
/-- From ALPHANUMERIC: BYTE for a byte-exclusive character, and otherwise the digit run decides (R186). -/
theorem selectFromAlphanumeric_eq :
    selectFromAlphanumeric p cs ver ch rest =
      if isBytX p cs ch then .byte
      else if longRunBefore isNum (fun c => !isAln c) (ch :: rest) (byVersion ver 13 15 17) then .numeric
      else .alphanumeric := by
  simp [selectFromAlphanumeric, hk, digits_before_not_isAln_iff, thAlnNum, byTier_tier_eq_byVersion]

open Classical in
/-- From BYTE: the lengths of the two runs decide (R187). -/
theorem selectFromByte_eq :
    selectFromByte p cs ver ch rest =
      if startsWith isNum (ch :: rest) (byVersion ver 6 8 9) then .numeric
      else if startsWith isAlnX (ch :: rest) (byVersion ver 11 15 16) then .alphanumeric
      else .byte := by
  simp [selectFromByte, hk, ← le_run_iff, thByteNum, thByteAln, byTier_tier_eq_byVersion]

end

/-! ### The mode decided is the answer of the current mode's rule (R188) -/

section
variable {p : Platform} {cs : BitVec 8} {ver : Nat} {ch : CharCode} {rest : List CharCode}
  (hs : supported p cs ch = true)
include hs

/-- No mode and KANJI share a rule (R184). -/
theorem modeSelect_initial {old : Option EncMode} (hold : old = none ∨ old = some .kanji) :
    modeSelect p cs old ver ch rest = some (selectInitial p cs ver ch rest) := by
  rcases hold with rfl | rfl <;> exact if_pos hs

/-- The rule of NUMERIC (R185). -/
theorem modeSelect_numeric : modeSelect p cs (some .numeric) ver ch rest = some (selectFromNumeric p cs ch) :=
  if_pos hs

/-- The rule of ALPHANUMERIC (R186). -/
theorem modeSelect_alphanumeric :
    modeSelect p cs (some .alphanumeric) ver ch rest = some (selectFromAlphanumeric p cs ver ch rest) :=
  if_pos hs

/-- The rule of BYTE (R187). -/
theorem modeSelect_byte : modeSelect p cs (some .byte) ver ch rest = some (selectFromByte p cs ver ch rest) :=
  if_pos hs

end

/-! ### The lookahead decisions, and strings of digits (R184–R187, R191) -/

/-- Settles O25: each rule's decision is a chain of lookahead conditions, and no later one holds with an earlier. -/
theorem lookahead : Obligations.Lookahead := by
  intro p cs ver ch rest hs hk
  obtain ⟨hbyte, hletter, hdigit⟩ := selectFromNumeric_of_class hk
  simp only [modeSelect_numeric hs, modeSelect_alphanumeric hs, modeSelect_byte hs, Option.some.injEq]
  refine ⟨fun old hold => ?initial, ⟨fun hx => ⟨hbyte hx, ?byteExclusive⟩, hletter, hdigit⟩, fun hx => ?toNumeric,
    ?staysAlphanumeric, ?byte⟩
  case initial =>
    simp only [modeSelect_initial hs hold, Option.some.injEq]
    refine ⟨selectInitial_of_isBytX hk, fun hax => ?_, fun hn => ?_⟩
    · simp [selectInitial_of_isAlnX hk hax]
    · rw [selectInitial_of_isNum hk hn]
      by_cases hb : shortRunBefore isNum (isBytX p cs) (ch :: rest) (byVersion ver 4 4 5)
      · simp [hb, not_digits_before_isAlnX hb]
      · by_cases ha : shortRunBefore isNum isAlnX (ch :: rest) (byVersion ver 7 8 9) <;> simp [hb, ha]
  case byteExclusive => simp [selectFromAlphanumeric_eq hk, hx]
  case toNumeric => simp [selectFromAlphanumeric_eq hk, hx]
  case staysAlphanumeric =>
    by_cases hx : isBytX p cs ch = true <;> simp [selectFromAlphanumeric_eq hk, hx]
  case byte =>
    rw [selectFromByte_eq hk]
    by_cases ha : startsWith isAlnX (ch :: rest) (byVersion ver 11 15 16)
    · simp [ha, not_startsWith_isNum_of_isAlnX (byVersion_pos ver 5 7 8) (byVersion_pos ver 10 14 15) ha]
    · by_cases hn : startsWith isNum (ch :: rest) (byVersion ver 6 8 9) <;> simp [ha, hn]

/-- Settles O24: a digit run to the end of the string is followed by nothing, and is as long as the string. -/
theorem digitString : Obligations.DigitString := by
  intro p cs ver ch rest hall hs hk
  have hn : isNum ch = true := hall ch List.mem_cons_self
  obtain ⟨-, -, hnumeric⟩ := selectFromNumeric_of_class hk
  have hend : ∀ next, nextIs next (ch :: rest) (run isNum (ch :: rest)) = false := nextIs_run_of_forall hall
  have hinitial : selectInitial p cs ver ch rest = .numeric := by
    simp [selectInitial_of_isNum hk hn, digits_before_isBytX_iff, digits_before_isAlnX_iff, hend]
  refine ⟨?none, ?kanji, ?numeric, ?alphanumeric, ?byte⟩
  case none => rw [modeSelect_initial hs (.inl rfl), hinitial]
  case kanji => rw [modeSelect_initial hs (.inr rfl), hinitial]
  case numeric => rw [modeSelect_numeric hs, hnumeric hn]
  case alphanumeric =>
    simp [modeSelect_alphanumeric hs, selectFromAlphanumeric_eq hk, not_isBytX_of_isAln (isAln_of_isNum hn),
      digits_before_not_isAln_iff, hend]
  case byte =>
    have hletters : ¬ startsWith isAlnX (ch :: rest) (byVersion ver 11 15 16) := fun h => by
      have hone : startsWith isNum (ch :: rest) 1 := le_run_iff.mp (by simp [run_of_forall hall])
      exact not_startsWith_isNum_of_isAlnX Nat.one_pos (byVersion_pos ver 10 14 15) h hone
    rw [modeSelect_byte hs, selectFromByte_eq hk, if_neg hletters]
    simp only [← le_run_iff, run_of_forall hall, byVersion]

/-! ### MODESEL (R190) -/

/-- The codes above 4 are no modes (R100). -/
theorem modeOfCode_eq_none {c : BitVec 3} (h : 4 < c.toNat) : modeOfCode c = none := by
  revert c
  decide

/-- The codes up to 4 are the codes of the modes (R100). -/
theorem exists_modeOfCode {c : BitVec 3} (h : c.toNat ≤ 4) : ∃ m, modeOfCode c = some m ∧ modeCode m = c := by
  obtain hc | hc | hc | hc | hc : c = 0 ∨ c = 1 ∨ c = 2 ∨ c = 3 ∨ c = 4 := by
    revert c
    decide
  all_goals exact ⟨_, by rw [hc]; rfl, by rw [hc]; rfl⟩

section
variable {p : Platform} {mode : BitVec 3} {ver : BitVec 6} {idx : BitVec 15} {s : State}

/-- A code that is no mode is refused first. -/
theorem modesel_of_no_mode (hm : modeOfCode mode = none) :
    modesel p mode ver idx s = argumentError s (mode.setWidth 32) := by
  simp [modesel, hm]

variable {m : Option EncMode} (hm : modeOfCode mode = some m)
include hm

/-- A number that is no version is refused next. -/
theorem modesel_of_bad_version (hv : ¬ versionOk ver.toNat = true) :
    modesel p mode ver idx s = argumentError s (ver.setWidth 32) := by
  simp [modesel, hm, hv]

variable (hv : versionOk ver.toNat = true)
include hv

/-- An index outside the string is refused last. -/
theorem modesel_of_bad_index (hidx : s.tlen.toNat ≤ idx.toNat) :
    modesel p mode ver idx s = argumentError s (idx.setWidth 32) := by
  simp [modesel, hm, hv, hidx]

variable (hidx : idx.toNat < s.tlen.toNat) {text : List CharCode} (htext : inputText s = some text)
  {ch : CharCode} {rest : List CharCode} (hdrop : text.drop idx.toNat = ch :: rest)
include hidx htext hdrop

/-- At a character of the string that has a decision, MODESEL answers its code. -/
theorem modesel_eq_done {new : EncMode} (hnew : modeSelect p s.group.charset m ver.toNat ch rest = some new) :
    modesel p mode ver idx s = .done s ((modeCode (some new)).setWidth 32) := by
  simp [modesel, hm, hv, hidx.not_ge, htext, hdrop, hnew]

/-- At a character that is not supported, MODESEL reports it with its index. -/
theorem modesel_of_unsupported (hs : supported p s.group.charset ch = false) :
    modesel p mode ver idx s = .raised s .unsupportedChar (ch ++ idx.setWidth 16) := by
  have hnone : modeSelect p s.group.charset m ver.toNat ch rest = none := by simp [modeSelect, hs]
  simp [modesel, hm, hv, hidx.not_ge, htext, hdrop, hnone, unsupportedError]

end

/-- An index below the string's length names a character of it (R23, R190). -/
theorem exists_drop_inputText {s : State} {text : List CharCode} (htext : inputText s = some text) {i : Nat}
    (hi : i < s.tlen.toNat) : ∃ ch rest, text.drop i = ch :: rest := by
  refine List.exists_cons_of_ne_nil ?_
  rwa [Ne, List.drop_eq_nil_iff, Nat.not_le, cellRun_length htext]

/-- Settles O22: the three refusals in their order, then the decision or its absence, on any platform. -/
theorem modeselDecides : Obligations.ModeselDecides := by
  intro mode ver idx s
  refine ⟨fun hmode => ?_, fun hmode hver => ?_, fun hmode hlow hhigh hidx => ?_,
    fun text hmode hlow hhigh hidx htext => ?_⟩
  · exact exec_of_raised (i := .modesel mode ver idx) (modesel_of_no_mode (modeOfCode_eq_none hmode))
  · obtain ⟨m, hm, -⟩ := exists_modeOfCode hmode
    exact exec_of_raised (i := .modesel mode ver idx) (modesel_of_bad_version hm (not_versionOk hver))
  · obtain ⟨m, hm, -⟩ := exists_modeOfCode hmode
    exact exec_of_raised (i := .modesel mode ver idx) (modesel_of_bad_index hm (versionOk_iff.mpr ⟨hlow, hhigh⟩) hidx)
  · obtain ⟨m, hm, hcode⟩ := exists_modeOfCode hmode
    obtain ⟨ch, rest, hdrop⟩ := exists_drop_inputText htext hidx
    have hv := versionOk_iff.mpr ⟨hlow, hhigh⟩
    have hdone : ∀ p, supported p s.group.charset ch = true →
        ∃ new, modeSelect p s.group.charset m ver.toNat ch rest = some new ∧
          modesel p mode ver idx s = .done s ((modeCode (some new)).setWidth 32) := by
      intro p hs
      obtain ⟨new, hnew, -⟩ := modeSelect_fits hs m
      exact ⟨new, hnew, modesel_eq_done hm hv hidx htext hdrop hnew⟩
    have hraised := fun p => modesel_of_unsupported (p := p) hm hv hidx htext hdrop
    refine ⟨?_, ch, rest, hdrop, fun p => ⟨fun hs => ?_, fun hs => ?_⟩⟩
    · cases hs : supported Config.platform s.group.charset ch with
      | false =>
        exact ⟨_, _, exec_of_raised (i := .modesel mode ver idx) (hraised _ hs), exec_eq_finish _ s⟩
      | true =>
        obtain ⟨new, -, he⟩ := hdone _ hs
        exact ⟨_, _, exec_of_done (i := .modesel mode ver idx) he, exec_eq_finish _ s⟩
    · obtain ⟨new, hnew, he⟩ := hdone p hs
      exact ⟨m, new, hcode, hnew, by rw [he, finish_done]⟩
    · rw [hraised p hs, finish_raised]

end Sys2Proof.Proofs
end

