-- ==== Sys2Proof/Proofs/CapacityAppend.lean ====
section
/-!
PROOFS. The family of the capacity negotiator and APPEND: the search for the least version that fits (R211–R213), the
ways one character of an APPEND can end and the loop over them (R214–R220), and what a whole APPEND leaves (R219).
-/

namespace Sys2Proof.Proofs

open Sys2Proof.Machine Sys2Proof.Claims Sys2Proof.Laws

/-! ### APPEND's own checks (R219) -/

/-- Settles O16: the two checks in turn, each by its own refusal. -/
theorem appendRefusals : Obligations.AppendRefusals := by
  refine fun s => ⟨fun hphase => ?_, fun hphase hlen => ?_⟩
  · have hrefused : append Config.platform s = sequenceError s := by simp [append, appendAccepted, hphase]
    exact exec_of_raised (i := .append) hrefused
  · have hempty : append Config.platform s = argumentError s 0 := by simp [append, appendAccepted, hphase, hlen]
    exact exec_of_raised (i := .append) hempty

/-! ### The copies of the negotiator at a version (R211–R213) -/

/-- A count indicator is no narrower at a later version (R388). -/
theorem ccw_mono {v w : Nat} (h : v ≤ w) (m : EncMode) : ccw v m ≤ ccw w m :=
  monotone_nat_of_le_succ (fun n => ccw_le_succ n m) h

/-- At the version it is counted at, the counter is the counter (R212). -/
@[simp] theorem countAt_self (x : Slot) (cnt v : Nat) : countAt x cnt v v = cnt := by
  simp [countAt]

/-- What a mode's indicators widen from `ver` to `v`, they widen from `ver` to `ver + 1` and from there to `v` (R212). -/
theorem widening_add (n : Nat) {ver v : Nat} (h : ver < v) (m : EncMode) :
    n * (ccw (ver + 1) m - ccw ver m) + n * (ccw v m - ccw (ver + 1) m) = n * (ccw v m - ccw ver m) := by
  have hfirst := ccw_le_succ ver m
  have hrest := ccw_mono (v := ver + 1) h m
  rw [← Nat.mul_add]
  congr 1
  omega

/-- One round's `Adjust` and the growth from there on is the whole growth (R212). -/
theorem countAt_succ (x : Slot) (cnt : Nat) {ver v : Nat} (h : ver < v) :
    countAt x (cnt + adjust x ver) (ver + 1) v = countAt x cnt ver v := by
  have hsum := fun n => widening_add n h
  simp only [countAt, adjust, adjustMode, Slot.segn, ← hsum]
  omega

/-- At the version it stands at, a symbol's capacity is the register's (R211). -/
@[simp] theorem capAt_self (ecl : EcLevel) (sa : Bool) (cap v : Nat) : capAt ecl sa cap v v = cap := by
  simp [capAt]

/-- At a later version the capacity is the table's, whichever version the growth is counted from (R211). -/
theorem capAt_succ (ecl : EcLevel) (sa : Bool) (cap : Nat) {ver v : Nat} (h : ver < v) :
    capAt ecl sa (capOf ecl sa (ver + 1)) (ver + 1) v = capAt ecl sa cap ver v := by
  rw [capAt, capAt, if_neg h.ne']
  split
  next hv => rw [hv]
  next => rfl

/-- The copies at their own version are the copies. -/
@[simp] theorem grownTo_self (ecl : EcLevel) (sa : Bool) (x : Slot) (g : Growth) : grownTo ecl sa x g g.ver = g := by
  simp [grownTo]

/-- The copies after one round of growth (R213). -/
def nextGrowth (ecl : EcLevel) (sa : Bool) (x : Slot) (g : Growth) : Growth :=
  ⟨g.ver + 1, capOf ecl sa (g.ver + 1), g.cnt + adjust x g.ver, g.ver + 1⟩

/-- Where a write does not fit, the search goes on with the next version (R213). -/
theorem findRoom_succ {ecl : EcLevel} {sa : Bool} {x : Slot} {need : Nat → Nat} {left : Nat} {g : Growth}
    (h : ¬ g.cnt + need g.ver ≤ g.cap) :
    findRoom ecl sa x need (left + 1) g = findRoom ecl sa x need left (nextGrowth ecl sa x g) := by
  simp [findRoom, nextGrowth, h]

/-- Growing one round and then to a later version is growing to that version (R213). -/
theorem grownTo_nextGrowth (ecl : EcLevel) (sa : Bool) (x : Slot) {g : Growth} {v : Nat} (h : g.ver < v) :
    grownTo ecl sa x (nextGrowth ecl sa x g) v = grownTo ecl sa x g v := by
  simp only [grownTo, nextGrowth, countAt_succ x g.cnt h, capAt_succ ecl sa g.cap h, if_neg h.ne', Growth.mk.injEq,
    true_and]
  exact ite_eq_right_iff.mpr fun hv => hv.symm

/-- A write fits the copies grown to version `v` (R213). -/
def fitsGrown (ecl : EcLevel) (sa : Bool) (x : Slot) (need : Nat → Nat) (g : Growth) (v : Nat) : Prop :=
  countAt x g.cnt g.ver v + need v ≤ capAt ecl sa g.cap g.ver v

/-- Whether it fits a later version does not depend on where the growth is counted from (R213). -/
theorem fitsGrown_nextGrowth {ecl : EcLevel} {sa : Bool} {x : Slot} {need : Nat → Nat} {g : Growth} {v : Nat}
    (h : g.ver < v) :
    fitsGrown ecl sa x need (nextGrowth ecl sa x g) v ↔ fitsGrown ecl sa x need g v := by
  rw [fitsGrown, fitsGrown, nextGrowth, countAt_succ x g.cnt h, capAt_succ ecl sa g.cap h]

/-- What the search answers, in terms of the versions that fit: the least of them; or, when there is none up to the last
one, whether the counter is within capacity there (R213). -/
def SearchAnswer (ecl : EcLevel) (sa : Bool) (x : Slot) (need : Nat → Nat) (g : Growth) (last : Nat) : Room → Prop
  | .fit g' => g' = grownTo ecl sa x g g'.ver ∧ g.ver ≤ g'.ver ∧ g'.ver ≤ last ∧ fitsGrown ecl sa x need g g'.ver ∧
      ∀ v, g.ver ≤ v → v < g'.ver → ¬ fitsGrown ecl sa x need g v
  | .exhausted g' => g' = grownTo ecl sa x g last ∧ g'.cnt ≤ g'.cap ∧
      ∀ v, g.ver ≤ v → v ≤ last → ¬ fitsGrown ecl sa x need g v
  | .discarded => capAt ecl sa g.cap g.ver last < countAt x g.cnt g.ver last ∧
      ∀ v, g.ver ≤ v → v ≤ last → ¬ fitsGrown ecl sa x need g v

section
variable {ecl : EcLevel} {sa : Bool} {x : Slot} {need : Nat → Nat} {g : Growth}

/-- A write that fits the copies as they are: the search ends at once (R213). -/
theorem searchAnswer_fit {last : Nat} (hlast : g.ver ≤ last) (h : g.cnt + need g.ver ≤ g.cap) :
    SearchAnswer ecl sa x need g last (.fit g) :=
  ⟨by simp, le_rfl, hlast, by simpa [fitsGrown] using h, fun _ hlow hhigh => absurd hlow hhigh.not_ge⟩

/-- What the search answers from the next version on is its answer from this one, if the write does not fit here (R213). -/
theorem searchAnswer_nextGrowth (h : ¬ g.cnt + need g.ver ≤ g.cap) {last : Nat} (hlast : g.ver < last) {r : Room}
    (hr : SearchAnswer ecl sa x need (nextGrowth ecl sa x g) last r) : SearchAnswer ecl sa x need g last r := by
  have hnone : ∀ v, g.ver ≤ v → (g.ver < v → ¬ fitsGrown ecl sa x need (nextGrowth ecl sa x g) v) →
      ¬ fitsGrown ecl sa x need g v := by
    intro v hv hlater
    rcases hv.eq_or_lt with rfl | hlt
    · simpa [fitsGrown] using h
    · exact (fitsGrown_nextGrowth hlt).not.mp (hlater hlt)
  cases r with
  | fit g' =>
    obtain ⟨hg, hlow, hhigh, hfit, hleast⟩ := hr
    have hlt : g.ver < g'.ver := hlow
    rw [grownTo_nextGrowth ecl sa x hlt] at hg
    exact ⟨hg, hlt.le, hhigh, (fitsGrown_nextGrowth hlt).mp hfit,
      fun v hv hv' => hnone v hv fun hlater => hleast v hlater hv'⟩
  | exhausted g' =>
    obtain ⟨hg, hroom, hleast⟩ := hr
    rw [grownTo_nextGrowth ecl sa x hlast] at hg
    exact ⟨hg, hroom, fun v hv hv' => hnone v hv fun hlater => hleast v hlater hv'⟩
  | discarded =>
    obtain ⟨hover, hleast⟩ := hr
    simp only [nextGrowth, capAt_succ ecl sa g.cap hlast, countAt_succ x g.cnt hlast] at hover
    exact ⟨hover, fun v hv hv' => hnone v hv fun hlater => hleast v hlater hv'⟩

/-- The search over the versions from the current one on, by induction on how many are left (R213). -/
theorem findRoom_answer (left : Nat) :
    SearchAnswer ecl sa x need g (g.ver + left) (findRoom ecl sa x need left g) := by
  induction left generalizing g with
  | zero =>
    by_cases hfit : g.cnt + need g.ver ≤ g.cap
    · simpa [findRoom, hfit] using searchAnswer_fit le_rfl hfit
    · have hnone : ∀ v, g.ver ≤ v → v ≤ g.ver → ¬ fitsGrown ecl sa x need g v := by
        intro v hlow hhigh
        obtain rfl := hhigh.antisymm hlow
        simpa [fitsGrown] using hfit
      by_cases hroom : g.cnt ≤ g.cap
      · simpa [findRoom, hfit, hroom, SearchAnswer] using hnone
      · simpa [findRoom, hfit, hroom, SearchAnswer] using ⟨Nat.lt_of_not_le hroom, hnone⟩
  | succ left ih =>
    by_cases hfit : g.cnt + need g.ver ≤ g.cap
    · simpa [findRoom, hfit] using searchAnswer_fit (Nat.le_add_right _ _) hfit
    · have hlast : (nextGrowth ecl sa x g).ver + left = g.ver + (left + 1) := Nat.add_right_comm g.ver 1 left
      rw [findRoom_succ hfit]
      exact searchAnswer_nextGrowth hfit (by omega) (hlast ▸ ih)

end

/-! ### `Ensure` on the current symbol of a group the rules describe (R213) -/

/-- The copies of the current symbol at version `v` (R213). -/
def curGrowth (s : State) (v : Nat) : Growth := grownTo s.group.ecl s.group.sa s.cur (growthOf s) v

/-- The capacity register of the current symbol is the table's entry for its version (R30, R211). -/
theorem Counted.capAt_cur {s : State} (h : Counted s) (v : Nat) :
    capAt s.group.ecl s.group.sa s.cur.cap.toNat s.cur.ver.toNat v = capOfGroup s v := by
  rw [capAt, capOfGroup]
  split
  next hv => rw [hv, h.cur.cap]
  next => rfl

/-- For a group the rules describe, a write fits the copies at a version exactly as it fits the grown symbol (R213). -/
theorem Counted.fitsGrown_iff {s : State} (h : Counted s) {need : Nat → Nat} {v : Nat} :
    fitsGrown s.group.ecl s.group.sa s.cur need (growthOf s) v ↔ fitsAt s need v := by
  rw [fitsGrown, fitsAt, curCountAt, ← h.capAt_cur v]
  rfl

/-- Committing the copies at version `v` is growing the current symbol, and with it `MINVER`, to that version (R213). -/
theorem Counted.commitGrowth_curGrowth {s : State} (h : Counted s) (v : Nat) :
    Machine.commitGrowth s (curGrowth s v) = grownState s v := by
  have hminver : BitVec.ofNat 6 (curGrowth s v).minver = BitVec.ofNat 6 v := by
    simp only [curGrowth, grownTo, growthOf, h.group.cur_ver]
    split
    next hv => rw [hv]
    next => rfl
  have hcap : (curGrowth s v).cap = capOfGroup s v := h.capAt_cur v
  rw [Machine.commitGrowth, grownState, hminver, hcap]
  rfl

/-- What a grown symbol holds, where its counter is within capacity: the registers are wide enough (R213; log 16). -/
theorem Counted.grownState_registers {s : State} (h : Counted s) {v : Nat} (hv : v ≤ s.group.maxver.toNat)
    (hroom : curCountAt s v ≤ capOfGroup s v) :
    (grownState s v).cur.ver.toNat = v ∧ (grownState s v).cur.cap.toNat = capOfGroup s v ∧
      (grownState s v).cur.cnt.toNat = curCountAt s v ∧ (grownState s v).group.minver.toNat = v := by
  obtain ⟨hver, hcap, hcnt⟩ :=
    growth_narrowed (g := ⟨v, capOfGroup s v, curCountAt s v, v⟩) (hv.trans h.group.shape.table) rfl hroom
  have hcur : (grownState s v).cur = _ := cur_setCur s _
  rw [hcur]
  exact ⟨hver, hcap, hcnt, hver⟩

/-- `Ensure` answers by the search from `VER` to `MAXVER` (R213). -/
theorem Counted.search {s : State} (h : Counted s) (need : Nat → Nat) :
    SearchAnswer s.group.ecl s.group.sa s.cur need (growthOf s) s.group.maxver.toNat
      (findRoom s.group.ecl s.group.sa s.cur need (s.group.maxver.toNat - s.cur.ver.toNat) (growthOf s)) := by
  have hver : s.cur.ver.toNat ≤ s.group.maxver.toNat := h.group.cur_ver ▸ h.group.shape.maxver
  have hlast : (growthOf s).ver + (s.group.maxver.toNat - s.cur.ver.toNat) = s.group.maxver.toNat :=
    Nat.add_sub_of_le hver
  have hanswer := findRoom_answer (ecl := s.group.ecl) (sa := s.group.sa) (x := s.cur) (need := need)
    (g := growthOf s) (s.group.maxver.toNat - s.cur.ver.toNat)
  rwa [hlast] at hanswer

/-- The least version from the current one to `MAXVER` that a write fits (R213). -/
structure LeastFit (s : State) (need : Nat → Nat) (v : Nat) : Prop where
  low : s.cur.ver.toNat ≤ v
  high : v ≤ s.group.maxver.toNat
  fits : fitsAt s need v
  least : ∀ w, s.cur.ver.toNat ≤ w → w < v → ¬ fitsAt s need w

/-- There is one least version. -/
theorem LeastFit.unique {s : State} {need : Nat → Nat} {v w : Nat} (hv : LeastFit s need v) (hw : LeastFit s need w) :
    v = w := by
  have hle : ¬ v < w := fun hlt => hw.least v hv.low hlt hv.fits
  have hge : ¬ w < v := fun hlt => hv.least w hw.low hlt hw.fits
  omega

/-- `Ensure` fits at the least version that does, and is exhausted when there is none (R213). -/
theorem Counted.ensure_spec {s : State} (h : Counted s) (need : Nat → Nat) :
    (∃ v, Machine.ensure need s = .fit (grownState s v) ∧ LeastFit s need v) ∨
      (Machine.ensure need s = .exhausted (exhaustedState s) ∧ fitsNowhere s need) := by
  have hsearch := h.search need
  rw [Machine.ensure]
  cases hroom : findRoom s.group.ecl s.group.sa s.cur need (s.group.maxver.toNat - s.cur.ver.toNat) (growthOf s) with
  | fit g =>
    rw [hroom] at hsearch
    obtain ⟨hg, hlow, hhigh, hfit, hleast⟩ := hsearch
    refine .inl ⟨g.ver, ?_, hlow, hhigh, h.fitsGrown_iff.mp hfit,
      fun w hw hw' => h.fitsGrown_iff.not.mp (hleast w hw hw')⟩
    rw [← h.commitGrowth_curGrowth, curGrowth, ← hg]
  | exhausted g =>
    rw [hroom] at hsearch
    obtain ⟨hg, hcons, hnone⟩ := hsearch
    refine .inr ⟨?_, fun v hv hv' => h.fitsGrown_iff.not.mp (hnone v hv hv')⟩
    have hg' : g = curGrowth s s.group.maxver.toNat := hg
    have hcons' : curCountAt s s.group.maxver.toNat ≤ capOfGroup s s.group.maxver.toNat := by
      rw [← h.capAt_cur]
      rw [hg'] at hcons
      exact hcons
    simp only [exhaustedState, if_pos hcons', hg', h.commitGrowth_curGrowth]
  | discarded =>
    rw [hroom] at hsearch
    obtain ⟨hover, hnone⟩ := hsearch
    refine .inr ⟨?_, fun v hv hv' => h.fitsGrown_iff.not.mp (hnone v hv hv')⟩
    have hover' : capOfGroup s s.group.maxver.toNat < curCountAt s s.group.maxver.toNat := by
      rw [← h.capAt_cur]
      exact hover
    simp only [exhaustedState, if_neg hover'.not_ge]

/-- The least version that fits is the one `Ensure` grows to (R213). -/
theorem Counted.ensure_of_leastFit {s : State} (h : Counted s) {need : Nat → Nat} {v : Nat} (hv : LeastFit s need v) :
    Machine.ensure need s = .fit (grownState s v) := by
  rcases h.ensure_spec need with ⟨w, he, hw⟩ | ⟨-, hnone⟩
  · rwa [hv.unique hw]
  · exact absurd hv.fits (hnone v hv.low hv.high)

/-- Where nothing fits, `Ensure` is exhausted (R213). -/
theorem Counted.ensure_of_fitsNowhere {s : State} (h : Counted s) {need : Nat → Nat} (hnone : fitsNowhere s need) :
    Machine.ensure need s = .exhausted (exhaustedState s) := by
  rcases h.ensure_spec need with ⟨v, -, hv⟩ | ⟨he, -⟩
  · exact absurd hv.fits (hnone v hv.low hv.high)
  · exact he

/-- Settles O21: the search by its answer, and `Ensure` by the search on the current symbol. -/
theorem ensureLeastVersion : Obligations.EnsureLeastVersion := by
  refine ⟨fun ecl sa x need left g => findRoom_answer left, fun need s hg hc hsym => ?_⟩
  have h : Counted s := ⟨⟨hg, hsym⟩, hc⟩
  refine ⟨fun v hlow hhigh hfit hleast => ⟨h.ensure_of_leastFit ⟨hlow, hhigh, hfit, hleast⟩, ?_⟩,
    h.ensure_of_fitsNowhere⟩
  exact h.grownState_registers hhigh ((Nat.le_add_right _ _).trans hfit)

/-! ### The states APPEND works on (R21, R30) -/

/-- The new symbol is the current one, and holds nothing yet (R218). -/
theorem cur_newSymbol (s : State) :
    (newSymbol s).cur =
      { Slot.reset with
        ver := s.group.minver
        cap := BitVec.ofNat 15 (capOf s.group.ecl s.group.sa s.group.minver.toNat) } :=
  (slot_newSymbol s _).trans (if_pos (curIdx_newSymbol s).symm)

/-- What APPEND checks before its loop: a current symbol, and versions the tables have rows for (R21, R30, R380). -/
structure Workable (s : State) : Prop where
  symbol : 1 ≤ s.group.symcnt.toNat ∧ s.group.symcnt.toNat ≤ 16
  version : 1 ≤ s.cur.ver.toNat ∧ s.cur.ver.toNat ≤ 40
  minver : 1 ≤ s.group.minver.toNat ∧ s.group.minver.toNat ≤ 40
  maxver : 1 ≤ s.group.maxver.toNat ∧ s.group.maxver.toNat ≤ 40

/-- These are exactly APPEND's own checks (R219). -/
theorem appendObstacle_eq_none_iff {s : State} : appendObstacle s = none ↔ Workable s := by
  rw [appendObstacle]
  constructor
  · intro h
    split at h
    · cases h
    next hsymbol =>
      split at h
      next hversions =>
        simp only [Bool.and_eq_true, versionOk_iff] at hversions
        obtain ⟨⟨hver, hmin⟩, hmax⟩ := hversions
        simp only [symMax] at hsymbol
        exact ⟨by omega, hver, hmin, hmax⟩
      · cases h
  · rintro ⟨hsymbol, hver, hmin, hmax⟩
    have hcount : ¬ (s.group.symcnt.toNat = 0 ∨ symMax < s.group.symcnt.toNat) := by
      simp only [symMax]
      omega
    simp [hcount, versionOk_iff.mpr hver, versionOk_iff.mpr hmin, versionOk_iff.mpr hmax]

/-- Growth stays at versions the tables have rows for (R213). -/
theorem Workable.growth_versions {s : State} (h : Workable s) {g : Growth}
    (grown : Grown s.group.ecl s.group.sa s.cur (growthOf s) g)
    (bound : g.ver ≤ s.cur.ver.toNat + (s.group.maxver.toNat - s.cur.ver.toNat)) :
    (1 ≤ g.ver ∧ g.ver ≤ 40) ∧ 1 ≤ g.minver ∧ g.minver ≤ 40 := by
  have hlow : s.cur.ver.toNat ≤ g.ver := grown.ver_le
  have hver := h.version
  have hmax := h.maxver
  have hg : 1 ≤ g.ver ∧ g.ver ≤ 40 := by omega
  refine ⟨hg, ?_⟩
  rcases grown.settled with rfl | ⟨-, hminver⟩
  · exact h.minver
  · rwa [hminver]

/-- What the registers hold after growth is committed: they are wide enough for the copies (R213; log 16). -/
theorem Workable.commitGrowth_registers {s : State} (h : Workable s) {g : Growth}
    (grown : Grown s.group.ecl s.group.sa s.cur (growthOf s) g)
    (bound : g.ver ≤ s.cur.ver.toNat + (s.group.maxver.toNat - s.cur.ver.toNat)) (room : g.cnt ≤ g.cap) :
    (commitGrowth s g).cur.ver.toNat = g.ver ∧ (commitGrowth s g).cur.cap.toNat = g.cap ∧
      (commitGrowth s g).cur.cnt.toNat = g.cnt ∧ (commitGrowth s g).group.minver.toNat = g.minver := by
  obtain ⟨hver, hminver⟩ := h.growth_versions grown bound
  have hcap : g.cap < 2 ^ 15 := by
    rcases grown.settled with rfl | ⟨hcap, -⟩
    · exact s.cur.cap.isLt
    · have hle := capOf_le s.group.ecl s.group.sa hver.2
      omega
  rw [cur_commitGrowth]
  simp only [commitGrowth_minver, BitVec.toNat_ofNat]
  refine ⟨?_, ?_, ?_, ?_⟩ <;> apply Nat.mod_eq_of_lt <;> omega

/-- Every elementary update keeps what APPEND checks (R213–R219). -/
theorem Workable.move {p : Platform} {s t : State} (hm : AppendMove p s t) (h : Workable s) : Workable t := by
  obtain ⟨hsymbol, hver, hmin, hmax⟩ := h
  cases hm with
  | grow _ g grown bound room =>
    obtain ⟨hg, hg'⟩ := Workable.growth_versions ⟨hsymbol, hver, hmin, hmax⟩ grown bound
    obtain ⟨hv, -, -, hm⟩ := Workable.commitGrowth_registers ⟨hsymbol, hver, hmin, hmax⟩ grown bound room
    exact ⟨hsymbol, hv ▸ hg, hm ▸ hg', hmax⟩
  | openSeg u g mode => exact ⟨hsymbol, by rw [cur_openSegment]; cases mode <;> exact hver, hmin, hmax⟩
  | commit u g seg ch => exact ⟨hsymbol, by rw [cur_commitChar]; exact hver, hmin, hmax⟩
  | newSym _ _ room =>
    have hcount := symcnt_newSymbol_toNat room
    have hroom : s.group.symcnt.toNat < 16 := room
    exact ⟨by omega, by rw [cur_newSymbol]; exact hmin, hmin, hmax⟩
  | advance => exact ⟨hsymbol, hver, hmin, hmax⟩

/-- An append path keeps what APPEND checks. -/
theorem Workable.path {p : Platform} {s t : State} (hp : AppendPath p s t) (h : Workable s) : Workable t :=
  hp.keeps (fun _ _ => Workable.move) h

/-! ### What a write takes, and when it needs no growth (R158, R159, R211, R214) -/

/-- A character has at most four bytes (R104). -/
theorem length_charBytes_le (p : Platform) (cs : BitVec 8) (ch : CharCode) : (charBytes p cs ch).length ≤ 4 := by
  rw [charBytes]
  split
  next b _ => cases b <;> simp [byteList]
  · simp

/-- A character takes at most 32 bits (R159). -/
theorem charBits_le (p : Platform) (cs : BitVec 8) (mode : EncMode) (count : Nat) (ch : CharCode) :
    charBits p cs mode count ch ≤ 32 := by
  have hbytes := length_charBytes_le p cs ch
  cases mode <;> simp only [charBits]
  · split <;> omega
  · split <;> omega
  · omega
  · omega

/-- No header and character together take more than 52 bits (R220). -/
theorem headerBits_le (p : Platform) (cs : BitVec 8) (mode : EncMode) (v : Nat) (ch : CharCode) :
    4 + ccw v mode + charBits p cs mode 0 ch ≤ 52 := by
  have hccw : ccw v mode ≤ 16 := by cases mode <;> simp only [ccw, byTier_tier] <;> split_ifs <;> decide
  have hbits := charBits_le p cs mode 0 ch
  omega

/-- Every symbol has at least the 9 data codewords of version 1 at level H (R385). -/
theorem nine_le_dataCW : ∀ ecl, ∀ v ∈ List.range' 1 40, 9 ≤ dataCW ecl v := by
  intro ecl
  cases ecl <;> decide

/-- Every version's capacity holds 52 bits, structured append or not (R211). -/
theorem le_capOf {v : Nat} (ecl : EcLevel) (sa : Bool) (hv : 1 ≤ v ∧ v ≤ 40) : 52 ≤ capOf ecl sa v := by
  have hdata := nine_le_dataCW ecl v (List.mem_range'_1.mpr (by omega))
  rw [capOf]
  split <;> omega

/-- Where `Ensure` fits, the registers hold the room it asked for (R213). -/
theorem Workable.room_of_ensure {s u : State} (h : Workable s) {need : Nat → Nat} (he : ensure need s = .fit u) :
    u.cur.cnt.toNat + need u.cur.ver.toNat ≤ u.cur.cap.toNat := by
  rcases ensure_cases need s with ⟨g, he', grown, bound, room⟩ | ⟨g, he', -⟩ | he' <;> rw [he'] at he <;> cases he
  obtain ⟨hver, hcap, hcnt, -⟩ := h.commitGrowth_registers grown bound (by omega)
  rwa [hver, hcap, hcnt]

/-- A write that fits as the symbol stands changes nothing before it (R213). -/
theorem ensure_eq_self {need : Nat → Nat} {s : State}
    (h : s.cur.cnt.toNat + need s.cur.ver.toNat ≤ s.cur.cap.toNat) : ensure need s = .fit s := by
  rw [ensure_of_fits h, commitGrowth_growthOf]

/-! ### One character put into the current symbol (R214–R217, R220) -/

/-- How a character is written once there is room: committed to the last segment while its mode stays, or a segment
opened and the character committed to it (R214–R216, R220). -/
inductive Writes (p : Platform) (mode : EncMode) (ch : CharCode) (u : State) : State → Prop where
  | stay {seg : Segment} (active : u.cur.mode = some mode) (last : u.cur.segs.getLast? = some seg) :
      Writes p mode ch u (commitChar p seg ch (charBits p u.group.charset seg.mode seg.count ch) u)
  | opened : Writes p mode ch u
      (commitChar p ⟨mode, 0, [], 0⟩ ch (charBits p u.group.charset mode 0 ch) (openSegment mode u))

/-- What an attempt answers whose write takes `need` bits: the write in the symbol as `Ensure` has grown it, or exhausted
(R213–R215). -/
def Attempts (p : Platform) (mode : EncMode) (ch : CharCode) (s : State) (need : Nat → Nat) (r : Fit) : Prop :=
  (∃ g t, ensure need s = .fit (commitGrowth s g) ∧ Writes p mode ch (commitGrowth s g) t ∧ r = .fit t) ∨
    ∃ g, ensure need s = .exhausted (commitGrowth s g) ∧ r = .exhausted (commitGrowth s g)

/-- `Ensure` fits or is exhausted; a discarded growth is the growth to where the symbol already is (R213). -/
theorem ensure_eq (need : Nat → Nat) (s : State) :
    (∃ g, ensure need s = .fit (commitGrowth s g)) ∨ ∃ g, ensure need s = .exhausted (commitGrowth s g) := by
  rcases ensure_cases need s with ⟨g, he, -⟩ | ⟨g, he, -⟩ | he
  · exact .inl ⟨g, he⟩
  · exact .inr ⟨g, he⟩
  · exact .inr ⟨growthOf s, by rw [commitGrowth_growthOf, he]⟩

/-- `TryAppend` writes to the last segment (R215). -/
theorem tryAppend_attempts (p : Platform) {mode : EncMode} (ch : CharCode) {s : State} {seg : Segment}
    (active : s.cur.mode = some mode) (last : s.cur.segs.getLast? = some seg) :
    Attempts p mode ch s (fun _ => charBits p s.group.charset seg.mode seg.count ch) (tryAppend p ch s) := by
  rcases ensure_eq (fun _ => charBits p s.group.charset seg.mode seg.count ch) s with ⟨g, he⟩ | ⟨g, he⟩
  · exact .inl ⟨g, _, he, .stay (by simpa using active) (by simpa using last), by simp [tryAppend, last, he]⟩
  · exact .inr ⟨g, he, by simp [tryAppend, last, he]⟩

/-- A segment just opened has room for the character it was opened for (R214, R217). -/
theorem tryAppend_openSegment {p : Platform} {mode : EncMode} {ch : CharCode} {u : State}
    (room : u.cur.cnt.toNat + (4 + ccw u.cur.ver.toNat mode + charBits p u.group.charset mode 0 ch) ≤ u.cur.cap.toNat) :
    tryAppend p ch (openSegment mode u) =
      .fit (commitChar p ⟨mode, 0, [], 0⟩ ch (charBits p u.group.charset mode 0 ch) (openSegment mode u)) := by
  have hcap : (openSegment mode u).cur.cap = u.cur.cap := by rw [cur_openSegment]; cases mode <;> rfl
  have hcnt : (openSegment mode u).cur.cnt.toNat ≤ u.cur.cnt.toNat + (4 + ccw u.cur.ver.toNat mode) := by
    rw [cur_openSegment]
    exact (BitVec.toNat_ofNat _ _).trans_le (Nat.mod_le _ _)
  have hfits : ensure (fun _ => charBits p u.group.charset mode 0 ch) (openSegment mode u) = .fit (openSegment mode u) :=
    ensure_eq_self (by rw [hcap]; omega)
  simp [tryAppend, hfits]

/-- `TrySetMode` and `TryAppend` together open a segment and write to it, or are exhausted before (R214, R217). -/
theorem openAndAppend_attempts (p : Platform) (mode : EncMode) (ch : CharCode) {s : State} (h : Workable s) :
    Attempts p mode ch s (fun v => 4 + ccw v mode + charBits p s.group.charset mode 0 ch)
      (openAndAppend p mode ch s) := by
  rcases ensure_eq (fun v => 4 + ccw v mode + charBits p s.group.charset mode 0 ch) s with ⟨g, he⟩ | ⟨g, he⟩
  · exact .inl ⟨g, _, he, .opened,
      by simp only [openAndAppend, trySetMode, he]; exact tryAppend_openSegment (h.room_of_ensure he)⟩
  · exact .inr ⟨g, he, by simp [openAndAppend, trySetMode, he]⟩

/-- The bits a write takes: at most 52, and the pending bits where the active mode is that of the last segment. -/
structure WriteNeed (p : Platform) (s : State) (mode : EncMode) (ch : CharCode) (need : Nat → Nat) : Prop where
  le : ∀ v, need v ≤ 52
  pending : s.cur.modeAgrees → need = pendingBits p s mode ch

/-- Putting a character into the current symbol attempts a write that takes the bits it needs (R220). -/
theorem putChar_attempts (p : Platform) (mode : EncMode) (ch : CharCode) {s : State} (h : Workable s)
    (hsegs : s.cur.mode = some mode → s.cur.segs ≠ []) :
    ∃ need, WriteNeed p s mode ch need ∧ Attempts p mode ch s need (putChar p mode ch s) := by
  rw [putChar]
  split
  next hm =>
    obtain ⟨seg, last⟩ : ∃ seg, s.cur.segs.getLast? = some seg := ⟨_, List.getLast?_eq_some_getLast (hsegs hm)⟩
    refine ⟨_, ⟨fun _ => (charBits_le p _ _ _ ch).trans (by decide), fun hagrees => ?_⟩,
      tryAppend_attempts p ch hm last⟩
    have hmode : seg.mode = mode := by simpa [Slot.modeAgrees, hm, last] using hagrees.symm
    funext v
    simp [pendingBits, hm, last, hmode]
  next hm =>
    refine ⟨_, ⟨fun v => headerBits_le p _ mode v ch, fun _ => ?_⟩, openAndAppend_attempts p mode ch h⟩
    funext v
    simp [pendingBits, hm]

/-! ### One character of an APPEND (R220) -/

/-- How a character is committed: written to the current symbol, or to a new one when the current one has no room
(R218, R220). -/
inductive Commits (p : Platform) (ch : CharCode) (rest : List CharCode) (s : State) : State → Prop where
  | placed {mode : EncMode} {need : Nat → Nat} {g : Growth} {t : State}
      (decided : modeSelect p s.group.charset s.cur.mode s.cur.ver.toNat ch rest = some mode)
      (fits : ModeFits p s.group.charset ch mode) (bits : WriteNeed p s mode ch need)
      (room : ensure need s = .fit (commitGrowth s g)) (write : Writes p mode ch (commitGrowth s g) t) :
      Commits p ch rest s t
  | moved {mode mode' : EncMode} {need : Nat → Nat} {g : Growth} {t : State}
      (decided : modeSelect p s.group.charset s.cur.mode s.cur.ver.toNat ch rest = some mode)
      (bits : WriteNeed p s mode ch need) (full : ensure need s = .exhausted (commitGrowth s g))
      (allowed : s.group.sa = true) (few : s.group.symcnt.toNat < symMax)
      (fits : ModeFits p s.group.charset ch mode') (write : Writes p mode' ch (newSymbol (commitGrowth s g)) t) :
      Commits p ch rest s t

/-- Every way `AppendChar` can end without committing the character (R158, R217, R220). -/
inductive Stops (p : Platform) (ch : CharCode) (rest : List CharCode) (s : State) : Result → Prop where
  | unsupported (hs : supported p s.group.charset ch = false) :
      Stops p ch rest s (.raised s .unsupportedChar (ch ++ s.tpos))
  | tooLong {mode : EncMode} {need : Nat → Nat} {g : Growth}
      (decided : modeSelect p s.group.charset s.cur.mode s.cur.ver.toNat ch rest = some mode)
      (bits : WriteNeed p s mode ch need) (full : ensure need s = .exhausted (commitGrowth s g))
      (limit : s.group.sa = false ∨ s.group.symcnt = 16) :
      Stops p ch rest s (.raised (commitGrowth s g) .inputTooLong (s.tpos.setWidth 32))
  | broken (active : s.cur.mode ≠ none) (empty : s.cur.segs = []) : Stops p ch rest s (.stuck .noSegment)

/-- A new symbol has room for any character as it stands (R211, R218, R220). -/
theorem Workable.newSymbol_room {s : State} (h : Workable s) {need : Nat → Nat} (hneed : ∀ v, need v ≤ 52) :
    ensure need (newSymbol s) = .fit (newSymbol s) := by
  have hlow := le_capOf s.group.ecl s.group.sa h.minver
  have hhigh := capOf_le s.group.ecl s.group.sa h.minver.2
  apply ensure_eq_self
  have hle := hneed (newSymbol s).cur.ver.toNat
  have hcnt : (newSymbol s).cur.cnt.toNat = 0 := by rw [cur_newSymbol]; rfl
  have hcap : (newSymbol s).cur.cap.toNat = capOf s.group.ecl s.group.sa s.group.minver.toNat := by
    rw [cur_newSymbol, BitVec.toNat_ofNat]
    exact Nat.mod_eq_of_lt (by omega)
  omega

/-- The retry writes the character to the new symbol (R218, R220). -/
theorem retryInNewSymbol_writes {p : Platform} {ch : CharCode} {s : State}
    (h : Workable s) (few : s.group.symcnt.toNat < symMax) (allowed : s.group.sa = true)
    (hs : supported p s.group.charset ch = true) (rest : List CharCode) :
    ∃ mode t, ModeFits p s.group.charset ch mode ∧ Writes p mode ch (newSymbol s) t ∧
      retryInNewSymbol p ch rest s = .done t 0 := by
  have hnew : Workable (newSymbol s) := h.move (p := p) (.newSym s allowed few)
  have hs' : supported p (newSymbol s).group.charset ch = true := hs
  obtain ⟨mode, hmode, hfits⟩ := modeSelect_fits (ver := (newSymbol s).cur.ver.toNat) (rest := rest) hs' none
  have hroom := h.newSymbol_room (headerBits_le p s.group.charset mode · ch)
  rcases openAndAppend_attempts p mode ch hnew with ⟨g, t, he, hwrite, hput⟩ | ⟨g, he, -⟩
  · have hg : newSymbol s = commitGrowth (newSymbol s) g := Fit.fit.inj (hroom.symm.trans he)
    rw [← hg] at hwrite
    exact ⟨mode, t, hfits, hwrite, by simp only [retryInNewSymbol, hmode, hput]⟩
  · cases hroom.symm.trans he

section
variable {p : Platform} {ch : CharCode} {rest : List CharCode} {s : State} {mode : EncMode}
  (decided : modeSelect p s.group.charset s.cur.mode s.cur.ver.toNat ch rest = some mode)
include decided

/-- A character without room ends in the error or in the retry, by whether a new symbol is allowed (R217, R220). -/
theorem appendChar_of_exhausted {g : Growth} (hput : putChar p mode ch s = .exhausted (commitGrowth s g)) :
    appendChar p ch rest s =
      if !s.group.sa || symMax ≤ s.group.symcnt.toNat then tooLongError (commitGrowth s g) s.tpos
      else retryInNewSymbol p ch rest (commitGrowth s g) := by
  simp only [appendChar, decided, hput]
  rfl

/-- A character without room in the current symbol is too long, or is committed to a new one (R217, R218, R220). -/
theorem appendChar_full (h : Workable s) (hs : supported p s.group.charset ch = true) {need : Nat → Nat} {g : Growth}
    (bits : WriteNeed p s mode ch need) (full : ensure need s = .exhausted (commitGrowth s g))
    (hput : putChar p mode ch s = .exhausted (commitGrowth s g)) :
    (∃ t, Commits p ch rest s t ∧ appendChar p ch rest s = .done t 0) ∨
      Stops p ch rest s (appendChar p ch rest s) := by
  rw [appendChar_of_exhausted decided hput]
  split
  next hlimit =>
    refine .inr (.tooLong decided bits full ?_)
    simp only [Bool.or_eq_true, Bool.not_eq_true', decide_eq_true_eq] at hlimit
    exact hlimit.imp_right fun hcount => BitVec.eq_of_toNat_eq (h.symbol.2.antisymm hcount)
  next hlimit =>
    have hroom : s.group.sa = true ∧ s.group.symcnt.toNat < symMax := by simpa using hlimit
    obtain ⟨allowed, few⟩ := hroom
    have hgrown : Workable (commitGrowth s g) := h.path (ensure_path p (congrArg stateOfFit full))
    obtain ⟨mode', t, fits, hwrite, hretry⟩ := retryInNewSymbol_writes hgrown few allowed hs rest
    exact .inl ⟨t, .moved decided bits full allowed few fits hwrite, hretry⟩

end

/-- `AppendChar` commits a supported character, or stops (R220). -/
theorem appendChar_cases (p : Platform) (ch : CharCode) (rest : List CharCode) {s : State} (h : Workable s) :
    (supported p s.group.charset ch = true ∧ ∃ t, Commits p ch rest s t ∧ appendChar p ch rest s = .done t 0) ∨
      Stops p ch rest s (appendChar p ch rest s) := by
  by_cases hs : supported p s.group.charset ch = true
  · obtain ⟨mode, hmode, hfits⟩ := modeSelect_fits (ver := s.cur.ver.toNat) (rest := rest) hs s.cur.mode
    by_cases hbroken : s.cur.mode = some mode ∧ s.cur.segs = []
    · obtain ⟨hactive, hempty⟩ := hbroken
      have hput : putChar p mode ch s = .broken .noSegment := by simp [putChar, tryAppend, hactive, hempty]
      simp only [appendChar, hmode, hput]
      exact .inr (.broken (by simp [hactive]) hempty)
    · obtain ⟨need, bits, ⟨g, t, he, hwrite, hput⟩ | ⟨g, he, hput⟩⟩ :=
        putChar_attempts p mode ch h fun hactive hempty => hbroken ⟨hactive, hempty⟩
      · exact .inl ⟨hs, t, .placed hmode hfits bits he hwrite, by simp only [appendChar, hmode, hput]⟩
      · exact (appendChar_full hmode h hs bits he hput).imp_left fun hcommits => ⟨hs, hcommits⟩
  · have hnone : modeSelect p s.group.charset s.cur.mode s.cur.ver.toNat ch rest = none := by simp [modeSelect, hs]
    simp only [appendChar, hnone]
    exact .inr (.unsupported (by simpa using hs))

/-! ### The loop (R219) -/

/-- The characters of the first list are committed one by one, those of the second are still ahead (R219). -/
inductive Run (p : Platform) : State → List CharCode → List CharCode → State → Prop where
  | nil (s : State) (rest : List CharCode) : Run p s [] rest s
  | cons {s u w : State} {ch : CharCode} {done rest : List CharCode} (work : Workable s)
      (char : appendChar p ch (done ++ rest) s = .done u 0) (next : Run p { u with tpos := u.tpos + 1 } done rest w) :
      Run p s (ch :: done) rest w

/-- A committed character is supported, and is committed in one of the two ways. -/
theorem commits_of_appendChar {p : Platform} {ch : CharCode} {rest : List CharCode} {s t : State} (h : Workable s)
    (hc : appendChar p ch rest s = .done t 0) : supported p s.group.charset ch = true ∧ Commits p ch rest s t := by
  rcases appendChar_cases p ch rest h with ⟨hs, u, hu, he⟩ | hstops
  · cases hc.symm.trans he
    exact ⟨hs, hu⟩
  · rw [hc] at hstops
    cases hstops

/-- A run is a chain of elementary updates. -/
theorem Run.path {p : Platform} {s w : State} {done rest : List CharCode} (h : Run p s done rest w) :
    AppendPath p s w := by
  induction h with
  | nil => exact .refl
  | cons _ char _ ih => exact ((appendChar_path (congrArg stateOf char)).tail (.advance _)).trans ih

/-- A character that is not committed ends the loop (R219). -/
theorem appendLoop_of_stops {p : Platform} {ch : CharCode} {rest : List CharCode} {s : State}
    (h : Stops p ch rest s (appendChar p ch rest s)) : Stops p ch rest s (appendLoop p (ch :: rest) s) := by
  have hend : (appendChar p ch rest s).andThen (fun u => appendLoop p rest { u with tpos := u.tpos + 1 }) =
      appendChar p ch rest s := by
    generalize appendChar p ch rest s = r at h
    cases h <;> rfl
  rwa [appendLoop, hend]

/-- A committed character, and the cursor past it, leave what APPEND checks as it was. -/
theorem Workable.next {p : Platform} {ch : CharCode} {rest : List CharCode} {s u : State} (h : Workable s)
    (hc : appendChar p ch rest s = .done u 0) : Workable { u with tpos := u.tpos + 1 } :=
  (h.path (appendChar_path (congrArg stateOf hc))).move (p := p) (.advance u)

/-- The loop runs over some characters; it ends when none is left, or with a character that is not committed (R219). -/
theorem appendLoop_run (p : Platform) (text : List CharCode) {s : State} (h : Workable s) :
    ∃ done rest w, text = done ++ rest ∧ Run p s done rest w ∧
      ((rest = [] ∧ appendLoop p text s = .done w (w.group.symcnt.setWidth 32)) ∨
        ∃ ch rest', rest = ch :: rest' ∧ Stops p ch rest' w (appendLoop p text s)) := by
  induction text generalizing s with
  | nil => exact ⟨[], [], s, rfl, .nil s [], .inl ⟨rfl, rfl⟩⟩
  | cons ch text ih =>
    rcases appendChar_cases p ch text h with ⟨-, u, -, hu⟩ | hstops
    · obtain ⟨done, rest, w, rfl, hrun, hend⟩ := ih (h.next hu)
      rw [appendLoop, hu, andThen_done]
      exact ⟨ch :: done, rest, w, rfl, .cons h hu hrun, hend⟩
    · exact ⟨[], ch :: text, s, rfl, .nil s _, .inr ⟨ch, text, rfl, appendLoop_of_stops hstops⟩⟩

/-- However the loop ends, what it leaves is what its last committed character left, grown or not (R213, R219). -/
theorem appendLoop_leaves {p : Platform} {text : List CharCode} {s t : State} (h : Workable s)
    (ht : stateOf (appendLoop p text s) = some t) :
    ∃ done rest w g, text = done ++ rest ∧ Run p s done rest w ∧ t = commitGrowth w g := by
  obtain ⟨done, rest, w, htext, hrun, hend⟩ := appendLoop_run p text h
  have hw : ∃ g, t = commitGrowth w g := by
    have hself : w = commitGrowth w (growthOf w) := (commitGrowth_growthOf w).symm
    rcases hend with ⟨-, he⟩ | ⟨ch, rest', -, hstops⟩
    · rw [he] at ht
      exact ⟨growthOf w, (Option.some.inj ht).symm.trans hself⟩
    · generalize appendLoop p text s = r at hstops ht
      cases hstops with
      | unsupported => exact ⟨growthOf w, (Option.some.inj ht).symm.trans hself⟩
      | tooLong => exact ⟨_, (Option.some.inj ht).symm⟩
      | broken => cases ht
  obtain ⟨g, hg⟩ := hw
  exact ⟨done, rest, w, g, htext, hrun, hg⟩

/-- What every committed character keeps and the moving cursor does not see, a run keeps. -/
theorem Run.keeps {p : Platform} {Inv : State → Prop}
    (cursor : ∀ (s : State) (i : BitVec 16), Inv s → Inv { s with tpos := i })
    (char : ∀ {ch rest s t}, Workable s → Commits p ch rest s t → Inv s → Inv t)
    {s w : State} {done rest : List CharCode} (h : Run p s done rest w) (hs : Inv s) : Inv w := by
  induction h with
  | nil => exact hs
  | cons work hc _ ih => exact ih (cursor _ _ (char work (commits_of_appendChar work hc).2 hs))

/-! ### No segment stays empty (R217) -/

/-- A character takes at least one byte in a charset that encodes it (R104). -/
theorem length_charBytes_pos {p : Platform} {cs : BitVec 8} {ch : CharCode} (h : isByt p cs ch = true) :
    1 ≤ (charBytes p cs ch).length := by
  obtain ⟨b, hb⟩ := Option.isSome_iff_exists.mp h
  cases b <;> simp [charBytes, hb, byteList]

/-- An encoder counts up, and by at least one for a character of its subset (R160–R168). -/
theorem segAppend_count {p : Platform} {cs : BitVec 8} (seg : Segment) (ch : CharCode) :
    seg.count ≤ (segAppend p cs seg ch).count ∧
      (inSubset p cs ch seg.mode = true → seg.count + 1 ≤ (segAppend p cs seg ch).count) := by
  rw [segAppend]
  split
  next => exact ⟨Nat.le_succ _, fun _ => le_rfl⟩
  next => exact ⟨Nat.le_succ _, fun _ => le_rfl⟩
  next hm =>
    refine ⟨Nat.le_add_right _ _, fun hin => Nat.add_le_add_left (length_charBytes_pos ?_) _⟩
    rwa [hm] at hin
  next => exact ⟨Nat.le_succ _, fun _ => le_rfl⟩

/-- Only the slot of the current symbol may differ, and it is still the current one (R30). -/
structure OnlyCurrent (s t : State) : Prop where
  curIdx : t.curIdx = s.curIdx
  slots : ∃ x, t.slots = s.slots.set s.curIdx.toNat x

/-- Every other slot is as it was. -/
theorem OnlyCurrent.slot {s t : State} (h : OnlyCurrent s t) {k : BitVec 4} (hk : s.curIdx ≠ k) : t.slot k = s.slot k := by
  obtain ⟨x, hx⟩ := h.slots
  rw [State.slot, hx]
  exact slot_setCur_ne s x hk

/-- Writes of the current symbol compose. -/
theorem OnlyCurrent.trans {s t u : State} (a : OnlyCurrent s t) (b : OnlyCurrent t u) : OnlyCurrent s u := by
  obtain ⟨x, hx⟩ := a.slots
  obtain ⟨y, hy⟩ := b.slots
  exact ⟨b.curIdx.trans a.curIdx, y, by simp only [hy, hx, a.curIdx, Vector.set_set]⟩

/-- Growth writes the current symbol (R213). -/
theorem onlyCurrent_commitGrowth (s : State) (g : Growth) : OnlyCurrent s (commitGrowth s g) := ⟨rfl, _, rfl⟩

/-- A committed character writes the current symbol (R216). -/
theorem onlyCurrent_commitChar (p : Platform) (seg : Segment) (ch : CharCode) (b : Nat) (s : State) :
    OnlyCurrent s (commitChar p seg ch b s) := ⟨rfl, _, rfl⟩

/-- An opened segment writes the current symbol (R214). -/
theorem onlyCurrent_openSegment (mode : EncMode) (s : State) : OnlyCurrent s (openSegment mode s) := ⟨rfl, _, rfl⟩

/-- A written character writes the current symbol. -/
theorem Writes.onlyCurrent {p : Platform} {mode : EncMode} {ch : CharCode} {u t : State} (hw : Writes p mode ch u t) :
    OnlyCurrent u t := by
  cases hw with
  | stay => exact onlyCurrent_commitChar p _ ch _ u
  | opened => exact (onlyCurrent_openSegment mode u).trans (onlyCurrent_commitChar p _ ch _ _)

/-- Where the current symbol alone is written, its own segments decide whether one is empty. -/
theorem OnlyCurrent.noEmptySegment {s t : State} (hst : OnlyCurrent s t) (h : NoEmptySegment s)
    (hcur : ∀ seg ∈ t.cur.segs, 1 ≤ seg.count) : NoEmptySegment t := by
  intro k
  by_cases hk : s.curIdx = k
  · rw [← hk, ← hst.curIdx]
    exact hcur
  · rw [hst.slot hk]
    exact h k

/-- Growth touches no segment (R213). -/
theorem noEmptySegment_commitGrowth {s : State} (h : NoEmptySegment s) (g : Growth) :
    NoEmptySegment (commitGrowth s g) := by
  refine (onlyCurrent_commitGrowth s g).noEmptySegment h ?_
  rw [cur_commitGrowth]
  exact h s.curIdx

/-- A new symbol has no segment yet (R218). -/
theorem noEmptySegment_newSymbol {s : State} (h : NoEmptySegment s) : NoEmptySegment (newSymbol s) := by
  intro k
  rw [slot_newSymbol]
  split
  · exact fun seg hseg => by simp [Slot.reset] at hseg
  · exact h k

/-- A write leaves the last segment longer, or adds one that is not empty (R216, R217). -/
theorem Writes.noEmptySegment {p : Platform} {mode : EncMode} {ch : CharCode} {u t : State}
    (hw : Writes p mode ch u t) (fits : ModeFits p u.group.charset ch mode) (h : NoEmptySegment u) :
    NoEmptySegment t := by
  refine hw.onlyCurrent.noEmptySegment h ?_
  cases hw with
  | @stay seg _ last =>
    rw [cur_commitChar]
    simp only [List.mem_append, List.mem_singleton]
    rintro seg' (hseg' | rfl)
    · exact h u.curIdx seg' (List.mem_of_mem_dropLast hseg')
    · exact (h u.curIdx seg (List.mem_of_getLast? last)).trans (segAppend_count seg ch).1
  | opened =>
    rw [cur_commitChar, cur_openSegment]
    simp only [List.dropLast_concat, List.mem_append, List.mem_singleton]
    rintro seg' (hseg' | rfl)
    · exact h u.curIdx seg' hseg'
    · exact (segAppend_count ⟨mode, 0, [], 0⟩ ch).2 fits.subset

/-- A committed character leaves no segment empty, in whichever symbol it is (R217). -/
theorem Commits.noEmptySegment {p : Platform} {ch : CharCode} {rest : List CharCode} {s t : State}
    (hc : Commits p ch rest s t) (h : NoEmptySegment s) : NoEmptySegment t := by
  cases hc with
  | placed _ fits _ _ write => exact write.noEmptySegment fits (noEmptySegment_commitGrowth h _)
  | moved _ _ _ _ _ fits write =>
    exact write.noEmptySegment fits (noEmptySegment_newSymbol (noEmptySegment_commitGrowth h _))

/-- The segments are those of the slots. -/
theorem noEmptySegment_congr {s t : State} (h : NoEmptySegment s) (slots : t.slots = s.slots) : NoEmptySegment t := by
  intro k
  rw [State.slot, slots]
  exact h k

/-- An APPEND leaves no segment empty, however it ends (R217, R219). -/
theorem noEmptySegment_appendLoop {p : Platform} {text : List CharCode} {s t : State} (hw : Workable s)
    (ht : stateOf (appendLoop p text s) = some t) (h : NoEmptySegment s) : NoEmptySegment t := by
  obtain ⟨done, rest, w, g, -, hrun, rfl⟩ := appendLoop_leaves hw ht
  refine noEmptySegment_commitGrowth ?_ g
  exact hrun.keeps (fun _ _ hs => noEmptySegment_congr hs rfl) (fun _ hc => hc.noEmptySegment) h

/-- Every command leaves no segment empty: APPEND by its characters, CFG by its new symbol, the others write no slot. -/
theorem Effect.noEmptySegment {i : Instr} {s t : State} (he : Effect i s t) (h : NoEmptySegment s) :
    NoEmptySegment t := by
  cases he with
  | nothing => exact h
  | reset => exact noEmptySegment_congr (s := .reset) (fun k seg hseg => by simp [Slot.reset] at hseg) rfl
  | cfg _ ecl maxver sa cs =>
    have hopen : NoEmptySegment (openGroup ecl maxver sa cs s) := noEmptySegment_congr h rfl
    exact noEmptySegment_congr (noEmptySegment_newSymbol hopen) rfl
  | setlen => exact noEmptySegment_congr h rfl
  | append _ _ text hobs hloop =>
    have hwork := appendObstacle_eq_none_iff.mp hobs
    exact noEmptySegment_appendLoop (s := { s with tpos := 0 }) ⟨hwork.symbol, hwork.version, hwork.minver, hwork.maxver⟩
      hloop (noEmptySegment_congr h rfl)
  | assemble _ _ _ k _ _ _ hstages => exact noEmptySegment_congr h (stages_frame hstages).slots
  | stage _ _ _ hw => exact noEmptySegment_congr h hw.frame.slots
  | setw => exact noEmptySegment_congr h rfl
  | seta => exact noEmptySegment_congr h rfl
  | ld => exact noEmptySegment_congr h rfl
  | st _ u v hw =>
    obtain ⟨-, -, hslots, -⟩ := memWrite_frame hw
    exact noEmptySegment_congr h hslots

/-- Settles O57: every effect leaves no segment empty, and the port is not seen. -/
theorem stepKeepsNonempty : Obligations.StepKeepsNonempty := fun _ _ hs h =>
  step_keeps (fun _ _ _ hs => noEmptySegment_congr hs rfl) (fun _ _ _ he => he.noEmptySegment) h hs

/-! ### What APPEND leaves unchanged (R30, R219) -/

/-- The index of the current symbol is one less than their number (R21). -/
theorem Workable.curIdx_toNat {s : State} (h : Workable s) : s.curIdx.toNat + 1 = s.group.symcnt.toNat := by
  have hsymbol := h.symbol
  have hsub : (s.group.symcnt - 1).toNat = s.group.symcnt.toNat - 1 :=
    BitVec.toNat_sub_of_le (BitVec.le_def.mpr hsymbol.1)
  rw [State.curIdx, BitVec.toNat_setWidth, hsub, Nat.mod_eq_of_lt (by omega)]
  omega

/-- The symbols before the current one of `s` are in `t` as they were, and none is gone (R30, R218). -/
structure Frozen (s t : State) : Prop where
  symcnt : s.group.symcnt.toNat ≤ t.group.symcnt.toNat
  slot : ∀ k : BitVec 4, k.toNat + 1 < s.group.symcnt.toNat → t.slot k = s.slot k

/-- Writing the current symbol alone freezes those before it (R30). -/
theorem OnlyCurrent.frozen {s t : State} (hst : OnlyCurrent s t) (h : Workable s)
    (symcnt : t.group.symcnt = s.group.symcnt) : Frozen s t where
  symcnt := by rw [symcnt]
  slot := fun k hk => hst.slot fun heq => by
    have := h.curIdx_toNat
    rw [heq] at this
    omega

/-- Every elementary update freezes the symbols before the current one (R30: "Only the current symbol"). -/
theorem frozen_of_move {p : Platform} {s t : State} (hm : AppendMove p s t) (h : Workable s) : Frozen s t := by
  cases hm with
  | grow _ g => exact (onlyCurrent_commitGrowth s g).frozen h rfl
  | openSeg u g mode => exact (onlyCurrent_openSegment mode _).frozen h rfl
  | commit u g seg ch => exact (onlyCurrent_commitChar p seg ch _ _).frozen h rfl
  | newSym _ _ room =>
    have hcount := symcnt_newSymbol_toNat room
    have hindex := symcnt_setWidth_toNat room
    refine ⟨by omega, fun k hk => ?_⟩
    rw [slot_newSymbol, if_neg (by rintro rfl; omega)]
  | advance => exact ⟨le_rfl, fun _ _ => rfl⟩

/-- So does an append path. -/
theorem frozen_of_path {p : Platform} {s t : State} (hp : AppendPath p s t) (h : Workable s) : Frozen s t := by
  have hboth : Workable t ∧ Frozen s t := by
    refine hp.keeps (Inv := fun u => Workable u ∧ Frozen s u) (fun u v hm hu => ?_) ⟨h, le_rfl, fun _ _ => rfl⟩
    obtain ⟨hwork, hcount, hslot⟩ := hu
    obtain ⟨hcount', hslot'⟩ := frozen_of_move hm hwork
    exact ⟨hwork.move hm, hcount.trans hcount', fun k hk => (hslot' k (by omega)).trans (hslot k hk)⟩
  exact hboth.2

/-- The frame of the append machine, as one equation between states (R219: "Writes"). -/
theorem eq_of_frame {s t : State} (h : Laws.AppendFrame s t) :
    t = { s with
      tpos := t.tpos, slots := t.slots
      group := { s.group with minver := t.group.minver, parity := t.group.parity, symcnt := t.group.symcnt } } := by
  rcases s with ⟨_, ⟨⟩⟩
  rcases t with ⟨_, ⟨⟩⟩
  obtain ⟨⟩ := h
  simp_all

/-- APPEND's checks do not read the cursor. -/
theorem Workable.restart {s : State} (h : Workable s) : Workable { s with tpos := 0 } :=
  ⟨h.symbol, h.version, h.minver, h.maxver⟩

/-- Settles O19: a refusal changes nothing, and the loop is a chain of updates that keep the frame and freeze the symbols
before the current one. -/
theorem appendFrame : Obligations.AppendFrame := by
  refine ⟨fun s => exec_eq_finish .append s, fun p s t ht => ?_⟩
  obtain ⟨u, res, val, hu, rfl⟩ := finish_eq_next ht
  rcases append_loop hu with rfl | ⟨hobs, text, hloop⟩
  · exact ⟨rfl, fun _ _ => rfl⟩
  · have hpath := appendLoop_path hloop
    refine ⟨?_, (frozen_of_path hpath (appendObstacle_eq_none_iff.mp hobs).restart).slot⟩
    have heq := eq_of_frame hpath.frame
    rw [heq]
    rfl

/-! ### What a run of characters leaves (R216, R219) -/

/-- A written character moves no cursor, and its bytes go into the parity (R216). -/
theorem Writes.tpos_parity {p : Platform} {mode : EncMode} {ch : CharCode} {u t : State} (hw : Writes p mode ch u t) :
    t.tpos = u.tpos ∧ t.group.parity = (charBytes p u.group.charset ch).foldl (· ^^^ ·) u.group.parity := by
  cases hw <;> exact ⟨rfl, rfl⟩

/-- A written character is in the last segment of the current symbol (R216). -/
theorem Writes.segs_ne_nil {p : Platform} {mode : EncMode} {ch : CharCode} {u t : State} (hw : Writes p mode ch u t) :
    t.cur.segs ≠ [] := by
  cases hw <;> simp

section
variable {p : Platform} {ch : CharCode} {rest : List CharCode} {s t : State}

/-- A committed character moves no cursor, and its bytes go into the parity, in whichever symbol it is (R216). -/
theorem Commits.tpos_parity (hc : Commits p ch rest s t) :
    t.tpos = s.tpos ∧ t.group.parity = (charBytes p s.group.charset ch).foldl (· ^^^ ·) s.group.parity := by
  cases hc with
  | placed _ _ _ _ write => exact write.tpos_parity
  | moved _ _ _ _ _ _ write => exact write.tpos_parity

/-- After a committed character the current symbol has a segment (R216). -/
theorem Commits.segs_ne_nil (hc : Commits p ch rest s t) : t.cur.segs ≠ [] := by
  cases hc with
  | placed _ _ _ _ write => exact write.segs_ne_nil
  | moved _ _ _ _ _ _ write => exact write.segs_ne_nil

end

section
variable {p : Platform} {s w : State} {done rest : List CharCode}

/-- A run moves the cursor past its characters (R24, R219). -/
theorem Run.tpos (h : Run p s done rest w) : w.tpos = s.tpos + BitVec.ofNat 16 done.length := by
  induction h with
  | nil => simp
  | cons work char _ ih =>
    obtain ⟨htpos, -⟩ := (commits_of_appendChar work char).2.tpos_parity
    rw [ih, htpos, List.length_cons, BitVec.ofNat_add, BitVec.add_assoc, BitVec.add_comm (BitVec.ofNat 16 _)]
    rfl

/-- The parity after a run is that after its characters (R216). -/
theorem Run.parity (h : Run p s done rest w) :
    w.group.parity = parityAfter p s.group.charset s.group.parity done := by
  induction h with
  | nil => rfl
  | cons work char _ ih =>
    obtain ⟨-, hparity⟩ := (commits_of_appendChar work char).2.tpos_parity
    have hcharset := (appendChar_path (congrArg stateOf char)).frame.charset
    rw [ih, hparity, hcharset]
    rfl

/-- Every character of a run is supported (R158, R221). -/
theorem Run.supported (h : Run p s done rest w) : ∀ ch ∈ done, supported p s.group.charset ch = true := by
  induction h with
  | nil => exact fun _ hch => absurd hch List.not_mem_nil
  | cons work char _ ih =>
    have hcharset := (appendChar_path (congrArg stateOf char)).frame.charset
    rw [hcharset] at ih
    exact List.forall_mem_cons.mpr ⟨(commits_of_appendChar work char).1, ih⟩

/-- A run keeps a segment wherever a mode is active (R30). -/
theorem Run.segs_ne_nil (h : Run p s done rest w) (hs : s.cur.mode ≠ none → s.cur.segs ≠ []) :
    w.cur.mode ≠ none → w.cur.segs ≠ [] :=
  h.keeps (Inv := fun u => u.cur.mode ≠ none → u.cur.segs ≠ []) (fun _ _ hu => hu) (fun _ hc _ _ => hc.segs_ne_nil) hs

/-- A run keeps the counters of a group the rules describe (R30). -/
theorem Run.counted (h : Run p s done rest w) (hs : Counted s) : Counted w := by
  induction h with
  | nil => exact hs
  | cons _ char _ ih =>
    exact ih ((appendKeeps_counted p).advance ((appendKeeps_counted p).appendChar (congrArg stateOf char) hs))

end

/-! ### An APPEND that is accepted (R219) -/

/-- What a command answers, and the state it leaves. -/
def answerOf : Result → Option (State × ResCode × Word)
  | .done s v => some (s, .ok, v)
  | .raised s e v => some (s, e, v)
  | .stuck _ => none

/-- The answer is the one response (R98). -/
theorem finish_of_answerOf {r : Result} {u : State} {res : ResCode} {val : Word} (h : answerOf r = some (u, res, val)) :
    r.finish = .next (respond u res val) := by
  cases r <;> simp_all [answerOf]

section
variable {p : Platform} {s : State} {text : List CharCode}

/-- What APPEND starts from passes its checks (R219). -/
theorem workable_of_appendReady (h : AppendReady s text) : Workable s := ⟨h.symbol, h.version, h.minver, h.maxver⟩

/-- An accepted APPEND is its loop over the string, from `TPOS = 0` (R219). -/
theorem append_eq_appendLoop (h : AppendReady s text) : append p s = appendLoop p text { s with tpos := 0 } := by
  have hobs : appendObstacle s = none := appendObstacle_eq_none_iff.mpr (workable_of_appendReady h)
  have hnonempty : ¬ s.tlen = 0#16 := h.nonempty
  simp [append, appendAccepted, h.phase, hnonempty, hobs, h.string]

/-- The string has `TLEN` characters (R23). -/
theorem length_of_appendReady (h : AppendReady s text) : text.length = s.tlen.toNat := cellRun_length h.string

/-- The cursor after a run from the start of the string is the number of its characters (R24). -/
theorem Run.tpos_toNat {done rest : List CharCode} {w : State} (h : Run p { s with tpos := 0 } done rest w)
    (hlen : done.length ≤ s.tlen.toNat) : w.tpos.toNat = done.length := by
  have hlt := s.tlen.isLt
  have htpos : w.tpos = BitVec.ofNat 16 done.length := h.tpos.trans (BitVec.zero_add _)
  rw [htpos, BitVec.toNat_ofNat, Nat.mod_eq_of_lt (by omega)]

/-- The group and counter invariants do not see the cursor. -/
theorem counted_of_appendReady (h : AppendReady s text) (hg : GroupShape s) (hc : CountersAgree s) (i : BitVec 16) :
    Counted { s with tpos := i } := by
  have hsymbol : s.group.symcnt ≠ 0 := fun h0 => by simpa [h0] using h.symbol
  exact ⟨⟨groupShape_congr hg .rfl rfl rfl, hsymbol⟩, countersAgree_congr hc rfl rfl rfl rfl⟩

/-- A character too long for the current symbol of a group the rules describe fits no version of it (R213). -/
theorem Counted.noRoom {w : State} (hw : Counted w) {mode : EncMode} {ch : CharCode} {need : Nat → Nat} {g : Growth}
    (bits : WriteNeed p w mode ch need) (full : Machine.ensure need w = .exhausted (Machine.commitGrowth w g)) :
    fitsNowhere w (pendingBits p w mode ch) ∧ Machine.commitGrowth w g = exhaustedState w := by
  rw [bits.pending (hw.group.shape.mode w.curIdx)] at full
  rcases hw.ensure_spec (pendingBits p w mode ch) with ⟨v, he, -⟩ | ⟨he, hnone⟩
  · cases full.symm.trans he
  · exact ⟨hnone, Fit.exhausted.inj (full.symm.trans he)⟩

/-- An accepted APPEND answers, in one of the three ways, and is out of room only where the rules say (R219–R221). -/
theorem append_outcome (h : AppendReady s text) :
    ∃ u res val, answerOf (append p s) = some (u, res, val) ∧ AppendOutcome p s text u res val ∧
      (GroupShape s → CountersAgree s → res = .inputTooLong → NoRoomAtCursor p text u) := by
  obtain ⟨done, rest, w, rfl, hrun, hend⟩ := appendLoop_run p text (workable_of_appendReady h).restart
  have hlen := length_of_appendReady h
  rw [List.length_append] at hlen
  have htpos : w.tpos.toNat = done.length := hrun.tpos_toNat (by omega)
  have hcharset : w.group.charset = s.group.charset := hrun.path.frame.charset
  have hsupp : ∀ ch ∈ (done ++ rest).take w.tpos.toNat, supported p s.group.charset ch = true := by
    rw [htpos, List.take_left]
    exact hrun.supported
  rw [append_eq_appendLoop h]
  rcases hend with ⟨rfl, he⟩ | ⟨ch, rest', rfl, hstops⟩
  · refine ⟨w, .ok, _, by rw [he]; rfl, ⟨hsupp, .inl ⟨?_, rfl, rfl⟩⟩, fun _ _ hres => by cases hres⟩
    exact BitVec.eq_of_toNat_eq (by rw [htpos]; simpa using hlen)
  · generalize appendLoop p _ { s with tpos := 0 } = r at hstops ⊢
    cases hstops with
    | unsupported hs =>
      rw [hcharset] at hs
      exact ⟨w, _, _, rfl, ⟨hsupp, .inr (.inl ⟨ch, by simp [htpos], hs, rfl, rfl⟩)⟩, fun _ _ hres => by cases hres⟩
    | @tooLong mode need g decided bits full limit =>
      have hsa : w.group.sa = s.group.sa := hrun.path.frame.sa
      rw [hsa] at limit
      refine ⟨commitGrowth w g, _, _, rfl, ⟨hsupp, .inr (.inr ⟨?_, limit, rfl, rfl⟩)⟩, fun hg hc _ => ?_⟩
      · rw [commitGrowth_tpos, htpos]
        simp
      · have hcounted := hrun.counted (counted_of_appendReady h hg hc 0)
        obtain ⟨hnone, hu⟩ := hcounted.noRoom bits full
        exact ⟨w, ch, rest', mode, hcounted.group.shape, hcounted.counters, by simp [htpos], decided, hnone, hu⟩
    | broken active empty => exact absurd empty (hrun.segs_ne_nil h.mode active)

end

/-! ### A string with room for every character (R215, R219, R220) -/

/-- A written character keeps the current symbol's version and capacity and takes at most 52 bits (R214–R216). -/
theorem Writes.cur_room {p : Platform} {mode : EncMode} {ch : CharCode} {u t : State} (hw : Writes p mode ch u t) :
    t.cur.ver = u.cur.ver ∧ t.cur.cap = u.cur.cap ∧ t.cur.cnt.toNat ≤ u.cur.cnt.toNat + 52 := by
  have hnarrow : ∀ n, (BitVec.ofNat 15 n).toNat ≤ n := fun n => (BitVec.toNat_ofNat _ _).trans_le (Nat.mod_le _ _)
  cases hw with
  | @stay seg =>
    have hbits := charBits_le p u.group.charset seg.mode seg.count ch
    rw [cur_commitChar]
    exact ⟨rfl, rfl, (hnarrow _).trans (by omega)⟩
  | opened =>
    have hbits := headerBits_le p u.group.charset mode u.cur.ver.toNat ch
    have hheader := hnarrow (u.cur.cnt.toNat + (4 + ccw u.cur.ver.toNat mode))
    rw [cur_commitChar, cur_openSegment]
    exact ⟨by cases mode <;> rfl, by cases mode <;> rfl, (hnarrow _).trans (by dsimp only; omega)⟩

/-- The current symbol and the group's versions as they were (R213, R218). -/
structure SameSymbol (s t : State) : Prop where
  symcnt : t.group.symcnt = s.group.symcnt
  minver : t.group.minver = s.group.minver
  ver : t.cur.ver = s.cur.ver
  cap : t.cur.cap = s.cur.cap

/-- A written character goes into the same symbol. -/
theorem Writes.sameSymbol {p : Platform} {mode : EncMode} {ch : CharCode} {u t : State} (hw : Writes p mode ch u t) :
    SameSymbol u t := by
  obtain ⟨hver, hcap, -⟩ := hw.cur_room
  refine ⟨?_, ?_, hver, hcap⟩ <;> cases hw <;> rfl

/-- With 52 bits free a character is committed to the current symbol, without growth (R215, R220). -/
theorem Commits.roomy {p : Platform} {ch : CharCode} {rest : List CharCode} {s t : State} (hc : Commits p ch rest s t)
    (room : s.cur.cnt.toNat + 52 ≤ s.cur.cap.toNat) :
    SameSymbol s t ∧ t.cur.cnt.toNat ≤ s.cur.cnt.toNat + 52 := by
  have hfits : ∀ {mode need}, WriteNeed p s mode ch need → ensure need s = .fit s := fun bits =>
    ensure_eq_self ((Nat.add_le_add_left (bits.le _) _).trans room)
  cases hc with
  | placed _ _ bits he write =>
    rw [← Fit.fit.inj ((hfits bits).symm.trans he)] at write
    exact ⟨write.sameSymbol, write.cur_room.2.2⟩
  | moved _ bits full => cases (hfits bits).symm.trans full

/-- A run with 52 bits a character free stays in the current symbol and leaves 52 bits for each character ahead. -/
theorem Run.roomy {p : Platform} {s w : State} {done rest : List CharCode} (h : Run p s done rest w)
    (room : s.cur.cnt.toNat + 52 * (done ++ rest).length ≤ s.cur.cap.toNat) :
    SameSymbol s w ∧ w.cur.cnt.toNat + 52 * rest.length ≤ w.cur.cap.toNat := by
  induction h with
  | nil => exact ⟨⟨rfl, rfl, rfl, rfl⟩, room⟩
  | @cons s u w ch done rest work char _ ih =>
    rw [List.cons_append, List.length_cons] at room
    obtain ⟨⟨hsym, hmin, hver, hcap⟩, hcnt⟩ := (commits_of_appendChar work char).2.roomy (by omega)
    have hahead : u.cur.cnt.toNat + 52 * (done ++ rest).length ≤ u.cur.cap.toNat := by
      rw [hcap]
      omega
    obtain ⟨⟨hsym', hmin', hver', hcap'⟩, hroom⟩ := ih hahead
    exact ⟨⟨hsym'.trans hsym, hmin'.trans hmin, hver'.trans hver, hcap'.trans hcap⟩, hroom⟩

/-- Settles O18: the run over the string never needs growth, so it ends only with the string. -/
theorem appendTakesWholeText : Obligations.AppendTakesWholeText := by
  intro p s text h hsupp room
  obtain ⟨done, rest, w, rfl, hrun, hend⟩ := appendLoop_run p text (workable_of_appendReady h).restart
  obtain ⟨⟨hsym, hmin, hver, hcap⟩, hroom⟩ := hrun.roomy room
  have hcharset : w.group.charset = s.group.charset := hrun.path.frame.charset
  rw [← append_eq_appendLoop h] at hend
  rcases hend with ⟨rfl, he⟩ | ⟨ch, rest', rfl, hstops⟩
  · have hlen := length_of_appendReady h
    rw [List.append_nil] at hlen ⊢
    have hfinish : (append p s).finish = .next (respond w .ok (s.group.symcnt.setWidth 32)) := by
      rw [he, finish_done, hsym]
    refine ⟨w, hfinish, fun hp => ?_, ?_, hsym, hmin, hver, hcap, hrun.parity⟩
    · rw [exec_eq_finish, ← hfinish, hp]
      rfl
    · exact BitVec.eq_of_toNat_eq ((hrun.tpos_toNat hlen.le).trans hlen)
  · generalize append p s = r at hstops
    cases hstops with
    | unsupported hs =>
      rw [hcharset, hsupp ch (by simp)] at hs
      cases hs
    | tooLong _ bits full =>
      have hneed := bits.le w.cur.ver.toNat
      rw [List.length_cons] at hroom
      cases (ensure_eq_self (by omega)).symm.trans full
    | broken active empty => exact absurd empty (hrun.segs_ne_nil h.mode active)

/-! ### One character alone (R213, R220) -/

/-! ### One character alone (R213, R218, R220) -/

/-- A group the rules describe passes APPEND's checks. -/
theorem Counted.workable {s : State} (h : Counted s) : Workable s :=
  appendObstacle_eq_none_iff.mp (appendObstacle_eq_none h.group)

/-- What an exhausted negotiation leaves is the same symbol of the same group, grown or not (R213). -/
theorem exhaustedState_symbol (s : State) :
    (exhaustedState s).group.symcnt = s.group.symcnt ∧ (exhaustedState s).curIdx = s.curIdx := by
  rw [exhaustedState]
  split <;> exact ⟨rfl, rfl⟩

section
variable (s : State) (i : BitVec 16)

/-- No slot is read through the cursor, so neither is the current symbol (R21, R24). -/
theorem slot_cursor (k : BitVec 4) : State.slot { s with tpos := i } k = s.slot k := rfl
theorem cur_cursor : State.cur { s with tpos := i } = s.cur := rfl

/-- The negotiation does not see the cursor (R213). -/
theorem exhaustedState_cursor :
    exhaustedState { s with tpos := i } = { exhaustedState s with tpos := i } := by
  have hcount : curCountAt { s with tpos := i } s.group.maxver.toNat = curCountAt s s.group.maxver.toNat := rfl
  have hcap : capOfGroup { s with tpos := i } s.group.maxver.toNat = capOfGroup s s.group.maxver.toNat := rfl
  rw [exhaustedState, exhaustedState, hcount, hcap]
  split <;> rfl

end

/-- Every way a supported character can go in a group the rules describe: into the current symbol at the least version
that fits, or nowhere, or into a new symbol (R213, R218, R220). -/
inductive Decides (p : Platform) (ch : CharCode) (mode : EncMode) (s : State) : Result → Prop where
  | fits {v : Nat} {t : State} (least : LeastFit s (pendingBits p s mode ch) v)
      (write : Writes p mode ch (grownState s v) t) : Decides p ch mode s (.done t 0)
  | tooLong (nowhere : fitsNowhere s (pendingBits p s mode ch))
      (limit : s.group.sa = false ∨ s.group.symcnt = 16) :
      Decides p ch mode s (.raised (exhaustedState s) .inputTooLong (s.tpos.setWidth 32))
  | movesOn {mode' : EncMode} {t : State} (nowhere : fitsNowhere s (pendingBits p s mode ch))
      (allowed : s.group.sa = true) (few : s.group.symcnt.toNat < symMax)
      (write : Writes p mode' ch (newSymbol (exhaustedState s)) t) : Decides p ch mode s (.done t 0)

/-- A supported character goes one of these ways, by the mode the state machine decides (R220). -/
theorem Counted.appendChar_decides {p : Platform} {ch : CharCode} {s : State} (h : Counted s)
    (hs : supported p s.group.charset ch = true) (rest : List CharCode) :
    ∃ mode, modeSelect p s.group.charset s.cur.mode s.cur.ver.toNat ch rest = some mode ∧
      Decides p ch mode s (appendChar p ch rest s) := by
  have hagrees : s.cur.modeAgrees := h.group.shape.mode s.curIdx
  rcases appendChar_cases p ch rest h.workable with ⟨-, t, hc, he⟩ | hstops
  · rw [he]
    cases hc with
    | @placed mode need g _ decided _ bits room write =>
      rw [bits.pending hagrees] at room
      rcases h.ensure_spec (pendingBits p s mode ch) with ⟨v, he, hv⟩ | ⟨he, -⟩
      · rw [Fit.fit.inj (room.symm.trans he)] at write
        exact ⟨mode, decided, .fits hv write⟩
      · cases room.symm.trans he
    | moved decided bits full allowed few _ write =>
      obtain ⟨hnone, hu⟩ := h.noRoom bits full
      rw [hu] at write
      exact ⟨_, decided, .movesOn hnone allowed few write⟩
  · generalize appendChar p ch rest s = r at hstops
    cases hstops with
    | unsupported hs' => simp [hs] at hs'
    | tooLong decided bits full limit =>
      obtain ⟨hnone, hu⟩ := h.noRoom bits full
      rw [hu]
      exact ⟨_, decided, .tooLong hnone limit⟩
    | broken active empty =>
      obtain ⟨mode, hmode⟩ := Option.ne_none_iff_exists'.mp active
      exact absurd empty (segs_ne_nil_of_mode hagrees hmode)

/-- What becomes of a string of one supported character: the three clauses on `s` with the answer `(u, res)` (R213, R220). -/
theorem Decides.single {p : Platform} {ch : CharCode} {mode : EncMode} {s u : State} {res : ResCode} {val : Word}
    (h : Counted s) (hd : Decides p ch mode s (appendChar p ch [] s))
    (hu : answerOf (appendLoop p [ch] s) = some (u, res, val)) :
    (∀ v, LeastFit s (pendingBits p s mode ch) v →
        res = .ok ∧ u.group.symcnt = s.group.symcnt ∧ u.cur.ver.toNat = v ∧ u.group.minver.toNat = v) ∧
      (fitsNowhere s (pendingBits p s mode ch) → s.group.sa = false ∨ s.group.symcnt = 16 →
        res = .inputTooLong ∧ u = exhaustedState s) ∧
      (fitsNowhere s (pendingBits p s mode ch) → s.group.sa = true → s.group.symcnt ≠ 16 →
        res = .ok ∧ u.group.symcnt = s.group.symcnt + 1 ∧ u.cur.ver = (exhaustedState s).group.minver ∧
          u.slot s.curIdx = (exhaustedState s).cur) := by
  rw [appendLoop] at hu
  generalize appendChar p ch [] s = r at hd hu
  cases hd with
  | @fits v t least write =>
    obtain ⟨hsym, hmin, hver, -⟩ := write.sameSymbol
    obtain ⟨hver', -, -, hmin'⟩ := h.grownState_registers least.high ((Nat.le_add_right _ _).trans least.fits)
    have hnot : ¬ fitsNowhere s (pendingBits p s mode ch) := fun hn => hn v least.low least.high least.fits
    cases hu
    refine ⟨fun w hw => ?_, fun hn => absurd hn hnot, fun hn => absurd hn hnot⟩
    rw [hw.unique least]
    exact ⟨rfl, hsym, (congrArg BitVec.toNat hver).trans hver', (congrArg BitVec.toNat hmin).trans hmin'⟩
  | tooLong nowhere limit =>
    obtain ⟨rfl, hres⟩ := Prod.mk.inj (Option.some.inj hu)
    obtain ⟨rfl, -⟩ := Prod.mk.inj hres
    refine ⟨fun v hv => absurd hv.fits (nowhere v hv.low hv.high), fun _ _ => ⟨rfl, rfl⟩, fun _ hsa hsym => ?_⟩
    rcases limit with hsa' | hsym'
    · simp [hsa] at hsa'
    · exact absurd hsym' hsym
  | @movesOn mode' t nowhere allowed few write =>
    obtain ⟨hsym, hidx⟩ := exhaustedState_symbol s
    obtain ⟨hsym', -, hver, -⟩ := write.sameSymbol
    have hne : s.group.symcnt ≠ 16 := by
      intro h0
      rw [h0] at few
      exact absurd few (by decide)
    cases hu
    refine ⟨fun v hv => absurd hv.fits (nowhere v hv.low hv.high), fun _ hlimit => ?_, fun _ _ _ => ⟨rfl, ?_, ?_, ?_⟩⟩
    · rcases hlimit with hsa | hcount
      · simp [allowed] at hsa
      · exact absurd hcount hne
    · exact hsym'.trans (by rw [newSymbol_symcnt, hsym])
    · exact hver.trans (by rw [cur_newSymbol])
    · have hcur := h.workable.curIdx_toNat
      have hindex : (exhaustedState s).group.symcnt.setWidth 4 ≠ s.curIdx := by
        rw [hsym]
        intro heq
        have hcount := symcnt_setWidth_toNat few
        rw [heq] at hcount
        omega
      have hslot : t.slot s.curIdx = (newSymbol (exhaustedState s)).slot s.curIdx :=
        write.onlyCurrent.slot (by rwa [curIdx_newSymbol])
      rw [slot_cursor t, hslot, slot_newSymbol, if_neg hindex, State.cur, hidx]

/-- Settles O17: the outcome of the loop, on every platform, and the one character by the way it goes. -/
theorem appendCompletes : Obligations.AppendCompletes := by
  refine ⟨fun s text h => ?_, fun p s text h => ?_⟩
  · obtain ⟨u, res, val, hu, hout, hroom⟩ := append_outcome (p := Config.platform) h
    exact ⟨u, res, val, (exec_eq_finish .append s).trans (finish_of_answerOf hu), hout, hroom⟩
  · obtain ⟨u, res, val, hu, hout, hroom⟩ := append_outcome (p := p) h
    refine ⟨u, res, val, finish_of_answerOf hu, hout, hroom, ?_⟩
    rintro ch rfl hs hg hc
    have hcounted := counted_of_appendReady h hg hc 0
    obtain ⟨mode, hmode, hdecides⟩ := hcounted.appendChar_decides hs []
    rw [append_eq_appendLoop h] at hu
    obtain ⟨hfits, hfull, hnew⟩ := hdecides.single hcounted hu
    refine ⟨mode, hmode, fun v hlow hhigh hfit hleast => hfits v ⟨hlow, hhigh, hfit, hleast⟩, fun hnone hlimit => ?_,
      fun hnone hsa hsym => ?_⟩
    · rw [← exhaustedState_cursor]
      exact hfull hnone hlimit
    · have hanswer := hnew hnone hsa hsym
      rw [exhaustedState_cursor, cur_cursor (exhaustedState s) 0] at hanswer
      exact hanswer

/-! ### Words read back to values (R160, R163) -/

/-- Full words are read back one by one, whatever follows them (R160, R163). -/
theorem unpack_append (base : Nat) {size : Nat} (full ws : List Nat) (count : Nat) :
    unpack base size (full.length * size + count) (full ++ ws) =
      unpack base size (full.length * size) full ++ unpack base size count ws := by
  induction full with
  | nil => simp [unpack]
  | cons w full ih =>
    have hlen : (w :: full).length * size = size + full.length * size := by
      rw [List.length_cons, Nat.succ_mul, Nat.add_comm]
    simp only [hlen, List.cons_append, unpack, Nat.add_assoc, Nat.add_sub_cancel_left, ih, List.append_assoc,
      Nat.min_eq_left (Nat.le_add_right _ _)]

/-- A word of one value is the value (R160, R163). -/
theorem unpack_singleton (base d : Nat) {size : Nat} (hsize : 1 ≤ size) : unpack base size 1 [d] = [d] := by
  simp [unpack, Nat.min_eq_right hsize]

/-- A word that is not full takes one value more as its lowest (R160, R163). -/
theorem unpack_extend {base size count d : Nat} (w : Nat) (hd : d < base) (hcount : 1 ≤ count) (hsize : count < size) :
    unpack base size (count + 1) [w * base + d] = unpack base size count [w] ++ [d] := by
  have hbase : 0 < base := by omega
  have hdiv : ∀ k, (w * base + d) / base ^ (k + 1) = w / base ^ k := by
    intro k
    rw [pow_succ', ← Nat.div_div_eq_div_mul, Nat.mul_comm, Nat.mul_add_div hbase, Nat.div_eq_of_lt hd, Nat.add_zero]
  have hmin : min size (count + 1) = count + 1 := Nat.min_eq_right hsize
  simp only [unpack, Nat.min_eq_right hsize.le, hmin, List.append_nil, List.range_succ, List.map_append,
    List.map_singleton, Nat.add_sub_cancel]
  congr 1
  · refine List.map_congr_left fun i hi => ?_
    have hlt := List.mem_range.mp hi
    split
    · rw [← hdiv, Nat.sub_add_cancel hcount]
    · rw [← hdiv (count - 1 - i), show count - 1 - i + 1 = count - i by omega]
  · simp [show count ≠ 0 by omega, Nat.mod_eq_of_lt hd]

section
variable {size count : Nat} (hsize : 1 ≤ size)
include hsize

/-- A count that fills its words takes a word for each `size` values (R161, R164). -/
theorem words_of_full (h : count % size = 0) : (count + (size - 1)) / size * size = count := by
  have hcount : size * (count / size) = count := by simpa [h] using Nat.div_add_mod count size
  have hrest : (size - 1) / size = 0 := Nat.div_eq_of_lt (Nat.sub_lt hsize Nat.one_pos)
  conv_lhs => rw [← hcount, Nat.mul_add_div hsize, hrest, Nat.add_zero, Nat.mul_comm, hcount]

/-- A count that does not has one word more, for the rest (R161, R164). -/
theorem words_of_partial (h : count % size ≠ 0) : (count + (size - 1)) / size = count / size + 1 := by
  have hcount := Nat.div_add_mod count size
  have hlt := Nat.mod_lt count hsize
  have hsplit : count + (size - 1) = size * (count / size + 1) + (count % size - 1) := by
    rw [Nat.mul_succ]
    omega
  have hrest : (count % size - 1) / size = 0 := Nat.div_eq_of_lt (by omega)
  rw [hsplit, Nat.mul_add_div hsize, hrest, Nat.add_zero]

/-- A value packed behind the others, into the last word or a new one, is read back behind them (R160, R163). -/
theorem unpack_pack {base d : Nat} {words : List Nat} (hd : d < base)
    (hwords : words.length = (count + (size - 1)) / size) :
    unpack base size (count + 1) (if count % size = 0 then words ++ [d] else extendLast words base d) =
      unpack base size count words ++ [d] := by
  split
  next hfull =>
    have hlen : words.length * size = count := by rw [hwords, words_of_full hsize hfull]
    rw [← hlen, unpack_append, unpack_singleton base d hsize]
  next hpartial =>
    rw [words_of_partial hsize hpartial] at hwords
    obtain ⟨full, w, rfl⟩ : ∃ full w, words = full ++ [w] :=
      ⟨_, _, (List.dropLast_append_getLast (List.ne_nil_of_length_eq_add_one hwords)).symm⟩
    have hcount : full.length * size + count % size = count := by
      rw [List.length_append, List.length_singleton, Nat.add_right_cancel_iff] at hwords
      rw [hwords, Nat.mul_comm, Nat.div_add_mod]
    have hextend : extendLast (full ++ [w]) base d = full ++ [w * base + d] := by simp [extendLast]
    have hlt := Nat.mod_lt count hsize
    rw [hextend]
    conv_lhs => rw [← hcount, Nat.add_assoc]
    conv_rhs => rw [← hcount]
    rw [unpack_append, unpack_append, unpack_extend w hd (by omega) hlt, List.append_assoc]

end

/-- A digit packs as a value below 10 (R151, R160). -/
theorem digit_lt {ch : CharCode} (h : isNum ch = true) : ch.toNat - 0x30 < 10 := by
  have hrange : 0x30 ≤ ch.toNat ∧ ch.toNat ≤ 0x39 := by simpa [isNum] using h
  omega

/-- An alphanumeric character packs as its place among the 45 codes (R162, R389). -/
theorem alnVal?_eq {ch : CharCode} (h : isAln ch = true) :
    (alnVal? ch).getD 0 = alnCodes.idxOf ch.toNat ∧ alnCodes.idxOf ch.toNat < 45 := by
  obtain ⟨v, hv⟩ := Option.isSome_iff_exists.mp h
  have hidx : alnCodes.idxOf? ch.toNat = some v := hv
  exact ⟨by rw [hv, List.idxOf_eq_getD_idxOf?, hidx]; rfl, List.idxOf_lt_length_of_mem (isAln_iff.mp h)⟩

/-- A kanji character is one of two bytes under the kanji charset, whose code the encoder takes (R156). -/
theorem exists_kanji_bytes {p : Platform} {ch : CharCode} (h : isKanjiChar p ch = true) :
    ∃ a b, p.csBytes csCjk ch = some (.two a b) ∧ kanjiCodeOk a b = true := by
  rw [isKanjiChar, kanjiCode?] at h
  split at h
  next a b hbytes =>
    split at h
    next hok => exact ⟨a, b, hbytes, hok⟩
    next => cases h
  next => cases h

section
variable {p : Platform} {ch : CharCode} {a b : Byte} (hbytes : p.csBytes csCjk ch = some (.two a b))
include hbytes

/-- The double-byte code of a kanji character (R156). -/
theorem kanjiCode?_of_bytes (hok : kanjiCodeOk a b = true) : kanjiCode? p ch = some (a.toNat * 256 + b.toNat) := by
  rw [kanjiCode?, hbytes]
  exact if_pos hok

/-- The value a kanji character stands for, by its bytes (R167). -/
theorem valuesIn_kanji_of_bytes (cs : BitVec 8) :
    valuesIn p cs ch .kanji =
      [(a.toNat * 256 + b.toNat - if a.toNat < 0xA0 then 0x8140 else 0xC140) / 256 * 192 +
        (a.toNat * 256 + b.toNat - if a.toNat < 0xA0 then 0x8140 else 0xC140) % 256] := by
  have hbytes' : p.csBytes 0 ch = some (.two a b) := hbytes
  rw [valuesIn, hbytes']

end

/-- `KanVal` of a character's double-byte code is the value R167 gives it: the first byte tells the range. -/
theorem kanVal_eq {p : Platform} {cs : BitVec 8} {ch : CharCode} (h : isKanjiChar p ch = true) :
    [kanVal ((kanjiCode? p ch).getD 0)] = valuesIn p cs ch .kanji := by
  obtain ⟨a, b, hbytes, hok⟩ := exists_kanji_bytes h
  rw [kanjiCode?_of_bytes hbytes hok, valuesIn_kanji_of_bytes hbytes, Option.getD_some]
  simp only [kanjiCodeOk, Bool.and_eq_true, Bool.or_eq_true, decide_eq_true_eq] at hok
  have hrange : a.toNat * 256 + b.toNat ≤ 0x9FFC ↔ a.toNat < 0xA0 := by omega
  have hlow : ∀ d : Nat, d &&& 0xFF = d % 256 := fun d => Nat.and_two_pow_sub_one_eq_mod d 8
  have hhigh : ∀ d : Nat, d >>> 8 = d / 256 := fun d => Nat.shiftRight_eq_div_pow d 8
  simp only [kanVal, hrange, hhigh, hlow]

/-- A character put into a segment of a mode whose subset holds it is read back behind what the segment held
(R160, R163, R165, R168). -/
theorem readBack_segAppend {p : Platform} {cs : BitVec 8} {seg : Segment} {ch : CharCode} (h : SegmentAgrees seg)
    (hin : inSubset p cs ch seg.mode = true) :
    readBack (segAppend p cs seg ch) = readBack seg ++ valuesIn p cs ch seg.mode := by
  have hwords := h.words
  rw [segAppend]
  split
  next hm =>
    rw [hm] at hin hwords
    simp only [readBack, numAppend, hm, valuesIn]
    exact unpack_pack (by decide) (digit_lt hin) hwords
  next hm =>
    rw [hm] at hin hwords
    obtain ⟨hval, hlt⟩ := alnVal?_eq hin
    simp only [readBack, alnAppend, hm, valuesIn, hval]
    exact unpack_pack (by decide) hlt hwords
  next hm => simp [readBack, bytAppend, hm, valuesIn]
  next hm =>
    rw [hm] at hin
    have hkanji : isKanjiChar p ch = true := (Bool.and_eq_true_iff.mp hin).2
    rw [hm, ← kanVal_eq hkanji]
    simp [readBack, kanAppend, hm]

/-! ### The values of all segments (R160–R168, R218) -/

/-- The values of a list of segments, each with its segment's mode. -/
def valuesOf (segs : List Segment) : List (EncMode × Nat) :=
  segs.flatMap fun seg => (readBack seg).map (seg.mode, ·)

/-- Segments one after the other hold their values one after the other. -/
theorem valuesOf_append (l l' : List Segment) : valuesOf (l ++ l') = valuesOf l ++ valuesOf l' := by
  simp [valuesOf]

/-- A segment just opened holds nothing (R214). -/
theorem valuesOf_opened (mode : EncMode) : valuesOf [⟨mode, 0, [], 0⟩] = [] := by
  cases mode <;> rfl

/-- A character put into a segment adds its values behind the segment's (R216). -/
theorem valuesOf_segAppend {p : Platform} {cs : BitVec 8} {seg : Segment} {ch : CharCode} (h : SegmentAgrees seg)
    (hin : inSubset p cs ch seg.mode = true) :
    valuesOf [segAppend p cs seg ch] = valuesOf [seg] ++ (valuesIn p cs ch seg.mode).map (seg.mode, ·) := by
  simp [valuesOf, readBack_segAppend h hin]

/-- The segments of the symbols before the current one. -/
def earlierSegs (s : State) : List Segment := (s.slots.toList.take s.curIdx.toNat).flatMap (·.segs)

/-- The values of the group are those of the earlier symbols and then those of the current one (R21). -/
theorem storedValues_eq {s : State} (h : s.curIdx.toNat + 1 = s.group.symcnt.toNat) :
    storedValues s = valuesOf (earlierSegs s) ++ valuesOf s.cur.segs := by
  have hcur : s.slots.toList.take s.group.symcnt.toNat = s.slots.toList.take s.curIdx.toNat ++ [s.cur] := by
    rw [← h, List.take_add_one]
    simp [State.cur, State.slot]
  rw [← valuesOf_append, earlierSegs, storedValues, hcur]
  simp [valuesOf]

/-- Writing the current symbol leaves the earlier ones their segments (R30). -/
theorem OnlyCurrent.earlierSegs {s t : State} (h : OnlyCurrent s t) :
    Proofs.earlierSegs t = Proofs.earlierSegs s := by
  obtain ⟨x, hx⟩ := h.slots
  rw [Proofs.earlierSegs, hx, h.curIdx, Vector.toList_set, List.take_set_of_le le_rfl]
  rfl

/-- Growth stores nothing (R213). -/
theorem storedValues_commitGrowth {s : State} (h : Workable s) (g : Growth) :
    storedValues (commitGrowth s g) = storedValues s := by
  rw [storedValues_eq h.curIdx_toNat, storedValues_eq (s := commitGrowth s g) h.curIdx_toNat,
    (onlyCurrent_commitGrowth s g).earlierSegs, cur_commitGrowth]

/-- A new symbol stores nothing yet, and is behind the others (R218). -/
theorem storedValues_newSymbol {s : State} (few : s.group.symcnt.toNat < symMax) :
    storedValues (newSymbol s) = storedValues s := by
  have hindex := symcnt_setWidth_toNat few
  have hcur : (newSymbol s).curIdx.toNat = s.group.symcnt.toNat := by rw [curIdx_newSymbol, hindex]
  have hslots : (newSymbol s).slots.toList.take s.group.symcnt.toNat = s.slots.toList.take s.group.symcnt.toNat := by
    rw [show (newSymbol s).slots = s.slots.set (s.group.symcnt.setWidth 4).toNat _ from rfl, Vector.toList_set, hindex,
      List.take_set_of_le le_rfl]
  rw [storedValues_eq (by rw [hcur, symcnt_newSymbol_toNat few]), earlierSegs, hcur, hslots, cur_newSymbol]
  exact List.append_nil _

/-- A written character adds its values behind all others, in its mode (R214–R216). -/
theorem Writes.storedValues {p : Platform} {mode : EncMode} {ch : CharCode} {u t : State} (hw : Writes p mode ch u t)
    (fits : ModeFits p u.group.charset ch mode) (work : Workable u) (agrees : u.cur.modeAgrees)
    (segs : ∀ seg ∈ u.cur.segs, SegmentAgrees seg) :
    Claims.storedValues t = Claims.storedValues u ++ (valuesIn p u.group.charset ch mode).map (mode, ·) := by
  have hlast : valuesOf t.cur.segs = valuesOf u.cur.segs ++ (valuesIn p u.group.charset ch mode).map (mode, ·) := by
    cases hw with
    | @stay seg active last =>
      have hmode : seg.mode = mode := by simpa [Slot.modeAgrees, active, last] using agrees.symm
      have hseg : SegmentAgrees seg := segs seg (List.mem_of_getLast? last)
      have hsplit : u.cur.segs = u.cur.segs.dropLast ++ [seg] := (List.dropLast_append_getLast? seg last).symm
      rw [cur_commitChar, valuesOf_append, valuesOf_segAppend hseg (hmode ▸ fits.subset), ← List.append_assoc,
        ← valuesOf_append, ← hsplit, hmode]
    | opened =>
      have hempty : SegmentAgrees ⟨mode, 0, [], 0⟩ := by cases mode <;> exact ⟨rfl, rfl⟩
      rw [cur_commitChar, cur_openSegment, openSegment_group, List.dropLast_concat, valuesOf_append,
        valuesOf_segAppend hempty fits.subset, valuesOf_opened, List.nil_append]
  have hsym : t.curIdx.toNat + 1 = t.group.symcnt.toNat := by
    rw [hw.onlyCurrent.curIdx, hw.sameSymbol.symcnt, work.curIdx_toNat]
  rw [storedValues_eq hsym, storedValues_eq work.curIdx_toNat, hw.onlyCurrent.earlierSegs, hlast, List.append_assoc]

/-- A committed character adds its values behind all others, in a mode whose subset holds it, in whichever symbol it is
(R215, R216, R218). -/
theorem Commits.storedValues {p : Platform} {ch : CharCode} {rest : List CharCode} {s t : State}
    (hc : Commits p ch rest s t) (h : Counted s) :
    ∃ mode, inSubset p s.group.charset ch mode = true ∧
      Claims.storedValues t = Claims.storedValues s ++ (valuesIn p s.group.charset ch mode).map (mode, ·) := by
  cases hc with
  | @placed mode need g _ _ fits _ room write =>
    have hgrown : Workable (commitGrowth s g) := h.workable.path (ensure_path p (congrArg stateOfFit room))
    have hvalues := write.storedValues fits hgrown (by rw [cur_commitGrowth]; exact h.group.shape.mode s.curIdx)
      (by rw [cur_commitGrowth]; exact h.cur.segments)
    rw [storedValues_commitGrowth h.workable] at hvalues
    exact ⟨mode, fits.subset, hvalues⟩
  | @moved _ mode _ g _ _ _ full allowed few fits write =>
    have hgrown : Workable (commitGrowth s g) := h.workable.path (ensure_path p (congrArg stateOfFit full))
    have hvalues := write.storedValues fits (hgrown.move (p := p) (.newSym _ allowed few))
      (by rw [cur_newSymbol]; rfl) (by rw [cur_newSymbol]; exact fun _ hseg => by cases hseg)
    rw [storedValues_newSymbol (s := commitGrowth s g) few, storedValues_commitGrowth h.workable] at hvalues
    exact ⟨mode, fits.subset, hvalues⟩

/-- A run stores the values of its characters in order, each in a mode whose subset holds it (R219, R221). -/
theorem Run.storedValues {p : Platform} {s w : State} {done rest : List CharCode} (h : Run p s done rest w)
    (hs : Counted s) :
    ∃ modes : List EncMode, modes.length = done.length ∧
      (∀ mc ∈ modes.zip done, inSubset p s.group.charset mc.2 mc.1 = true) ∧
      Claims.storedValues w = Claims.storedValues s ++
        (modes.zip done).flatMap fun mc => (valuesIn p s.group.charset mc.2 mc.1).map (mc.1, ·) := by
  induction h with
  | nil => exact ⟨[], rfl, by simp, by simp⟩
  | @cons s u w ch done rest work char _ ih =>
    have hcounted : Counted { u with tpos := u.tpos + 1 } :=
      (appendKeeps_counted p).advance ((appendKeeps_counted p).appendChar (congrArg stateOf char) hs)
    have hcharset : u.group.charset = s.group.charset := (appendChar_path (congrArg stateOf char)).frame.charset
    obtain ⟨mode, hin, hvalue⟩ := (commits_of_appendChar work char).2.storedValues hs
    obtain ⟨modes, hlen, hins, hvalues⟩ := ih hcounted
    have hcursor : Claims.storedValues { u with tpos := u.tpos + 1 } = Claims.storedValues u := rfl
    simp only [hcharset] at hins hvalues
    refine ⟨mode :: modes, by rw [List.length_cons, hlen, List.length_cons], ?_, ?_⟩
    · rw [List.zip_cons_cons]
      exact List.forall_mem_cons.mpr ⟨hin, hins⟩
    · rw [hvalues, hcursor, hvalue, List.zip_cons_cons, List.flatMap_cons, List.append_assoc]

/-- Settles O20: cursor, parity and values after the run that the APPEND was, however it ended. -/
theorem appendParity : Obligations.AppendParity := by
  intro p s t text h ht
  obtain ⟨u, res, val, hu, rfl⟩ := finish_eq_next ht
  rw [append_eq_appendLoop h] at hu
  obtain ⟨done, rest, w, g, rfl, hrun, rfl⟩ := appendLoop_leaves (workable_of_appendReady h).restart hu
  have hlen := length_of_appendReady h
  rw [List.length_append] at hlen
  have htpos : w.tpos.toNat = done.length := hrun.tpos_toNat (by omega)
  rw [respond_tpos, respond_group, commitGrowth_tpos, commitGrowth_parity, htpos, List.take_left]
  refine ⟨by omega, hrun.parity, fun hg hc => ?_⟩
  have hcounted := counted_of_appendReady h hg hc 0
  obtain ⟨modes, hmodes, hins, hvalues⟩ := hrun.storedValues hcounted
  have hzip : modes.zip (done ++ rest) = modes.zip done := by
    have happend := List.zip_append (l₁ := modes) (r₁ := []) (l₂ := done) (r₂ := rest) hmodes
    simpa using happend
  refine ⟨modes, hmodes, hzip ▸ hins, ?_⟩
  rw [hzip]
  exact (storedValues_commitGrowth (hrun.counted hcounted).workable g).trans hvalues

end Sys2Proof.Proofs
end

