-- ==== Sys2Proof/Proofs/BitAssembly.lean ====
section
/-!
PROOFS. The family of bit assembly: the number a field of a bit string holds (R10), the codewords made of the bits in
use (R245–R248), what BITASM leaves (R241), and the bits in use field by field (R172, R241, R243, R244).
-/

namespace Sys2Proof.Proofs

open Sys2Proof.Machine Sys2Proof.Claims Sys2Proof.Laws

/-! ### Fields of a bit string (R10) -/

/-- A field of width `n` has `n` bits. -/
@[simp] theorem length_bitsOf (v n : Nat) : (bitsOf v n).length = n := by
  simp [bitsOf]

/-- The first bit of a field is its most significant one. -/
theorem bitsOf_succ (v n : Nat) : bitsOf v (n + 1) = v.testBit n :: bitsOf v n := by
  simp [bitsOf, List.range_succ_eq_map, Function.comp_def, Nat.sub_sub, Nat.add_comm]

/-- Reading the bits of a field shifts it in below what has been read. -/
theorem foldl_bitsOf (v n acc : Nat) :
    (bitsOf v n).foldl (fun acc x => 2 * acc + x.toNat) acc = acc * 2 ^ n + v % 2 ^ n := by
  induction n generalizing acc with
  | zero => simp [bitsOf, Nat.mod_one]
  | succ n ih =>
    rw [bitsOf_succ, List.foldl_cons, ih, Nat.mod_pow_succ, Nat.toNat_testBit, pow_succ]
    ring

/-- A field reads as the number that was put there, cut to its width. -/
theorem fieldAt_of_eq_append {b pre post : List Bool} {v n start : Nat} (hb : b = pre ++ (bitsOf v n ++ post))
    (hstart : pre.length = start) : fieldAt b start n = v % 2 ^ n := by
  rw [fieldAt, hb, List.drop_left' hstart, List.take_left' (length_bitsOf v n), foldl_bitsOf, Nat.zero_mul,
    Nat.zero_add]

/-! ### Codewords and their bits (R247, R303) -/

/-- The bits of a stream are those of its parts in turn. -/
theorem streamBits_append (ws us : List Byte) : streamBits (ws ++ us) = streamBits ws ++ streamBits us :=
  List.flatMap_append

/-- Every codeword has eight bits. -/
@[simp] theorem length_streamBits (ws : List Byte) : (streamBits ws).length = 8 * ws.length := by
  simp [streamBits, List.length_flatMap, Nat.mul_comm]

/-- A codeword has the bits it was cut from (R247). -/
theorem bitsOf_octet : ∀ b7 b6 b5 b4 b3 b2 b1 b0 : Bool,
    bitsOf (octet b7 b6 b5 b4 b3 b2 b1 b0).toNat 8 = [b7, b6, b5, b4, b3, b2, b1, b0] := by
  decide

/-- Cutting a whole number of codewords loses no bit (R247). -/
theorem streamBits_cutCodewords {n : Nat} {b : List Bool} (h : b.length = 8 * n) :
    streamBits (cutCodewords b) = b := by
  induction n generalizing b with
  | zero =>
    obtain rfl : b = [] := List.eq_nil_of_length_eq_zero h
    rfl
  | succ n ih =>
    match b, h with
    | b7 :: b6 :: b5 :: b4 :: b3 :: b2 :: b1 :: b0 :: rest, h =>
      have hrest : rest.length = 8 * n := by simpa [Nat.mul_add] using h
      rw [cutCodewords, ← List.singleton_append, streamBits_append, ih hrest]
      simp [streamBits, bitsOf_octet]

/-- Where the padded string is `n` whole codewords, no more than `d`, cutting keeps its bits and pad codewords fill the
rest (R247, R248). -/
theorem streamBits_fillCodewords {d n : Nat} {b : List Bool}
    (hlen : (addBitPadding (addTerminator (8 * d) b)).length = 8 * n) (hn : n ≤ d) :
    streamBits (fillCodewords d b) =
      addBitPadding (addTerminator (8 * d) b) ++ streamBits (padCodewords (d - n)) := by
  have hbits := streamBits_cutCodewords hlen
  have hcut : (cutCodewords (addBitPadding (addTerminator (8 * d) b))).length = n := by
    have hcount := congrArg List.length hbits
    rw [length_streamBits, hlen] at hcount
    omega
  have hall : (cutCodewords (addBitPadding (addTerminator (8 * d) b)) ++ padCodewords (d - n)).length ≤ d := by
    simp only [List.length_append, hcut, padCodewords, List.length_map, List.length_range]
    omega
  simp only [fillCodewords, hcut]
  rw [List.take_of_length_le hall, streamBits_append, hbits]

/-- Settles O27: terminator and padding are zero bits that make a whole number of codewords, no more than `d`. -/
theorem dataCodewordBits : Obligations.DataCodewordBits := by
  intro d b hb terminator padding pad
  have hpadded : addBitPadding (addTerminator (8 * d) b) = b ++ List.replicate (terminator + padding) false := by
    simp [addBitPadding, addTerminator, terminator, padding, ← List.replicate_append_replicate]
  have hlen : (addBitPadding (addTerminator (8 * d) b)).length =
      8 * ((b.length + terminator + padding) / 8) := by
    rw [hpadded, List.length_append, List.length_replicate]
    omega
  have hfits : (b.length + terminator + padding) / 8 ≤ d := by omega
  exact ⟨length_fillCodewords d b, hpadded ▸ streamBits_fillCodewords hlen hfits⟩

/-! ### BITASM (R241) -/

/-- Bits in use that fit the symbol begin the bits of its data codewords (R245). -/
theorem isPrefix_streamBits_fillCodewords {d : Nat} {b : List Bool} (h : b.length ≤ 8 * d) :
    b <+: streamBits (fillCodewords d b) :=
  ⟨_, (List.append_assoc b _ _).symm.trans (dataCodewordBits d b h).2.symm⟩

/-- Settles O26: a renderable symbol is assembled, and the codewords are those of its bits in use. -/
theorem bitasmCompletes : Obligations.BitasmCompletes := by
  intro k s hp hk hseg hlow hhigh
  have hlen : (symbolData k s).length = dataCW s.group.ecl (s.slot k).ver.toNat := length_fillCodewords _ _
  refine ⟨symbolData k s, ?_, hlen, rfl, fun hfits => isPrefix_streamBits_fillCodewords (hlen ▸ hfits)⟩
  rw [hlen]
  exact exec_of_done (bitasm_eq_done ⟨hp, hk, hseg, versionOk_iff.mpr ⟨hlow, hhigh⟩⟩)

/-! ### The words of a segment (R161, R164, R165, R168, R170, R172) -/

/-- Words packed one after the other, word `j` in `width j` bits (R172). -/
def packedWords (width : Nat → Nat) (words : List Nat) (start : Nat) : List Bool :=
  (words.zipIdx start).flatMap fun wj => bitsOf wj.1 (width wj.2)

/-- `SegBits` is its words packed in their widths (R172). -/
theorem segBits_eq_packedWords (seg : Segment) :
    segBits seg = packedWords (wordWidth seg.mode seg.count) seg.words 0 := rfl

/-- A packed list is what its first words pack to, and then what the others do. -/
theorem packedWords_append (width : Nat → Nat) (ws us : List Nat) (start : Nat) :
    packedWords width (ws ++ us) start = packedWords width ws start ++ packedWords width us (start + ws.length) := by
  rw [packedWords, List.zipIdx_append, List.flatMap_append]
  rfl

/-- A packed list begins with its first word. -/
theorem packedWords_cons (width : Nat → Nat) (w : Nat) (ws : List Nat) (start : Nat) :
    packedWords width (w :: ws) start = bitsOf w (width start) ++ packedWords width ws (start + 1) := rfl

/-- Packed words of one width take that width each. -/
theorem length_packedWords {width : Nat → Nat} {n : Nat} (words : List Nat) (start : Nat)
    (h : ∀ j, start ≤ j → j < start + words.length → width j = n) :
    (packedWords width words start).length = words.length * n := by
  induction words generalizing start with
  | nil => simp [packedWords]
  | cons w words ih =>
    have hrest := ih (start + 1) fun j hj hlt => h j (by omega) (by rw [List.length_cons]; omega)
    have hfirst := h start le_rfl (by simp)
    rw [packedWords_cons, List.length_append, length_bitsOf, hfirst, hrest, List.length_cons, Nat.succ_mul,
      Nat.add_comm]

/-- Every word of a segment but its last is full, and the last holds what the count leaves (R161, R164, R165, R168). -/
theorem wordWidth_eq {mode : EncMode} {count j : Nat} (h : j < wordCount mode count) :
    wordWidth mode count j = if j + 1 = wordCount mode count then lastWidth mode count else fullWidth mode := by
  cases mode with
  | numeric | alphanumeric =>
    simp only [wordCount] at h
    simp only [wordWidth, wordCount, lastWidth, fullWidth, reduceCtorEq, true_and, false_and, if_false]
    split_ifs <;> omega
  | byte | kanji => simp [wordWidth, lastWidth, fullWidth]

/-- The bits of a segment of `n + 1` words are `n` full words and the last (R170). -/
theorem segmentBits_eq {mode : EncMode} {count n : Nat} (h : wordCount mode count = n + 1) :
    segmentBits mode count = n * fullWidth mode + lastWidth mode count := by
  cases mode with
  | numeric | alphanumeric =>
    simp only [wordCount] at h
    simp only [segmentBits, lastWidth, fullWidth, reduceCtorEq, true_and, false_and, if_false]
    split_ifs <;> omega
  | byte | kanji =>
    simp only [wordCount] at h
    simp only [segmentBits, lastWidth, fullWidth, h, reduceCtorEq, false_and, if_false]
    omega

/-- Word `j` of a segment stands behind `j` full words (R172). -/
theorem segBits_eq_append {seg : Segment} (h : SegmentAgrees seg) {j w : Nat} (hw : seg.words[j]? = some w) :
    ∃ pre post : List Bool, pre.length = j * fullWidth seg.mode ∧
      segBits seg = pre ++ (bitsOf w (wordWidth seg.mode seg.count j) ++ post) ∧
      (j + 1 = seg.words.length → post = []) := by
  obtain ⟨hj, rfl⟩ := List.getElem?_eq_some_iff.mp hw
  have htake : (seg.words.take j).length = j := List.length_take_of_le hj.le
  refine ⟨packedWords (wordWidth seg.mode seg.count) (seg.words.take j) 0,
    packedWords (wordWidth seg.mode seg.count) (seg.words.drop (j + 1)) (j + 1), ?_, ?_, fun hlast => ?_⟩
  · rw [length_packedWords _ 0 (n := fullWidth seg.mode), htake]
    intro i _ hi
    rw [wordWidth_eq (by rw [← h.words]; omega), if_neg (by rw [← h.words]; omega)]
  · rw [segBits_eq_packedWords, ← packedWords_cons, ← List.drop_eq_getElem_cons hj]
    conv_lhs => rw [← List.take_append_drop j seg.words, packedWords_append, htake, Nat.zero_add]
  · rw [List.drop_of_length_le hlast.ge]
    rfl

/-- The packed stream of a segment has the bits the segment counts (R170, R172). -/
theorem length_segBits {seg : Segment} (h : SegmentAgrees seg) : (segBits seg).length = seg.bits := by
  rw [h.bits]
  cases hn : seg.words.length with
  | zero =>
    have hcount : seg.count = 0 := by
      have hwords := h.words
      cases hm : seg.mode <;> simp only [hm, wordCount] at hwords <;> omega
    rw [segBits, List.eq_nil_of_length_eq_zero hn, hcount]
    cases seg.mode <;> rfl
  | succ n =>
    have hlast : wordCount seg.mode seg.count = n + 1 := h.words.symm.trans hn
    have hn' : n < seg.words.length := by omega
    obtain ⟨pre, post, hpre, hbits, hpost⟩ := segBits_eq_append h (List.getElem?_eq_getElem hn')
    rw [hbits, hpost hn.symm, List.append_nil, List.length_append, hpre, length_bitsOf,
      wordWidth_eq (by omega), if_pos hlast.symm, segmentBits_eq hlast]

/-! ### The bits in use (R240, R241, R243, R244) -/

/-- A segment takes the bits it costs (R30, R244). -/
theorem length_segStream {seg : Segment} (h : SegmentAgrees seg) (v : Nat) :
    (segStream seg v).length = segmentCost v seg := by
  simp [segStream, segmentCost, length_segBits h, Nat.add_assoc]

/-- Segments take the bits they cost (R241, R244). -/
theorem length_segStreams {segs : List Segment} (h : ∀ seg ∈ segs, SegmentAgrees seg) (v : Nat) :
    (segs.flatMap (segStream · v)).length = (segs.map (segmentCost v)).sum := by
  rw [List.length_flatMap, List.map_congr_left fun seg hseg => length_segStream (h seg hseg) v]

/-- The header of symbol `k`: there is none in a group of one symbol (R241, R243). -/
def symbolHeader (s : State) (k : BitVec 4) : List Bool :=
  if 1 < s.group.symcnt.toNat then saHeader k.toNat s.group.symcnt.toNat s.group.parity.toNat else []

/-- A header has 20 bits (R243). -/
theorem length_symbolHeader (s : State) (k : BitVec 4) :
    (symbolHeader s k).length = if 1 < s.group.symcnt.toNat then 20 else 0 := by
  rw [symbolHeader]
  split_ifs <;> simp [saHeader]

/-- The bits in use are the header and the segments (R241). -/
theorem usedBits_eq (s : State) (k : BitVec 4) :
    usedBits s k = symbolHeader s k ++ (s.slot k).segs.flatMap (segStream · (s.slot k).ver.toNat) := rfl

/-- The number of bits in use (R30, R241). -/
theorem length_usedBits {k : BitVec 4} {s : State} (h : SlotCounts s.group.ecl s.group.sa (s.slot k)) :
    (usedBits s k).length = (s.slot k).cnt.toNat + if 1 < s.group.symcnt.toNat then 20 else 0 := by
  rw [usedBits_eq, List.length_append, length_symbolHeader, length_segStreams h.segments, h.count, Nat.add_comm]

/-- The header, field by field (R243). -/
theorem fieldAt_header (k : BitVec 4) {s : State} (hmany : 1 < s.group.symcnt.toNat)
    (hcount : s.group.symcnt.toNat ≤ 16) :
    fieldAt (usedBits s k) 0 4 = 3 ∧ fieldAt (usedBits s k) 4 4 = k.toNat ∧
      fieldAt (usedBits s k) 8 4 = s.group.symcnt.toNat - 1 ∧
      fieldAt (usedBits s k) 12 8 = s.group.parity.toNat := by
  have hbits : usedBits s k = bitsOf saInd 4 ++ (bitsOf k.toNat 4 ++ (bitsOf (s.group.symcnt.toNat - 1) 4 ++
      (bitsOf s.group.parity.toNat 8 ++ (s.slot k).segs.flatMap (segStream · (s.slot k).ver.toNat)))) := by
    simp [usedBits_eq, symbolHeader, hmany, saHeader]
  have hind := fieldAt_of_eq_append (pre := []) (v := saInd) (start := 0)
    (hbits.trans (List.nil_append _).symm) rfl
  have hpos := fieldAt_of_eq_append (pre := bitsOf saInd 4) (v := k.toNat) (start := 4) hbits rfl
  have htotal := fieldAt_of_eq_append (pre := bitsOf saInd 4 ++ bitsOf k.toNat 4) (v := s.group.symcnt.toNat - 1)
    (start := 8) hbits rfl
  have hparity := fieldAt_of_eq_append
    (pre := bitsOf saInd 4 ++ (bitsOf k.toNat 4 ++ bitsOf (s.group.symcnt.toNat - 1) 4)) (v := s.group.parity.toNat)
    (start := 12) hbits rfl
  exact ⟨hind, hpos.trans (Nat.mod_eq_of_lt k.isLt), htotal.trans (Nat.mod_eq_of_lt (by omega)),
    hparity.trans (Nat.mod_eq_of_lt s.group.parity.isLt)⟩

/-- The stream of a segment stands behind the header and the bits the segments before it cost (R241). -/
theorem usedBits_eq_append {k : BitVec 4} {s : State} (h : SlotCounts s.group.ecl s.group.sa (s.slot k))
    {before after : List Segment} {seg : Segment} (hsegs : (s.slot k).segs = before ++ seg :: after) :
    ∃ pre post : List Bool,
      pre.length = (if 1 < s.group.symcnt.toNat then 20 else 0) +
        (before.map (segmentCost (s.slot k).ver.toNat)).sum ∧
      usedBits s k = pre ++ (segStream seg (s.slot k).ver.toNat ++ post) := by
  have hbefore : ∀ seg ∈ before, SegmentAgrees seg := fun seg hseg =>
    h.segments seg (hsegs ▸ List.mem_append_left _ hseg)
  refine ⟨symbolHeader s k ++ before.flatMap (segStream · (s.slot k).ver.toNat),
    after.flatMap (segStream · (s.slot k).ver.toNat), ?_, ?_⟩
  · rw [List.length_append, length_symbolHeader, length_segStreams hbefore]
  · rw [usedBits_eq, hsegs, List.flatMap_append, List.flatMap_cons, List.append_assoc]

/-- No version of a tier has more data codewords than the tier's last version at level L (R181, R385). -/
theorem dataCW_le_of_tier {v : Nat} (ecl : EcLevel) (hv : v ≤ 40) :
    dataCW ecl v ≤ if v ≤ 9 then 232 else if v ≤ 26 then 1370 else 2956 := by
  have hall : ∀ v ∈ List.range 41, dataCW ecl v ≤ if v ≤ 9 then 232 else if v ≤ 26 then 1370 else 2956 := by
    cases ecl <;> decide
  exact hall v (List.mem_range.mpr (by omega))

/-- The count of a segment that fits its symbol fits its count indicator: mode by mode and tier by tier, the bits of
more characters would not fit the tier's largest symbol (R385, R388). -/
theorem count_lt_two_pow_ccw {seg : Segment} (h : SegmentAgrees seg) {v : Nat} (ecl : EcLevel) (hv : v ≤ 40)
    (hfits : segmentCost v seg ≤ 8 * dataCW ecl v) : seg.count < 2 ^ ccw v seg.mode := by
  have hdata := dataCW_le_of_tier ecl hv
  have hbits := h.bits
  rw [segmentCost] at hfits
  cases hm : seg.mode <;> simp only [hm, segmentBits, ccw, byTier_tier] at hbits hfits ⊢ <;>
    split_ifs at hdata hfits ⊢ <;> omega

/-- A segment, field by field: indicator, count, words (R172, R244, R387). -/
theorem fieldAt_segStream {seg : Segment} (h : SegmentAgrees seg) {b pre post : List Bool} {v start : Nat}
    (hb : b = pre ++ (segStream seg v ++ post)) (hstart : pre.length = start) :
    fieldAt b start 4 = indicatorOf seg.mode ∧
      fieldAt b (start + 4) (ccw v seg.mode) = seg.count % 2 ^ ccw v seg.mode ∧
      ∀ j w, seg.words[j]? = some w →
        fieldAt b (start + 4 + ccw v seg.mode + j * fullWidth seg.mode) (wordWidth seg.mode seg.count j) =
          w % 2 ^ wordWidth seg.mode seg.count j := by
  simp only [segStream, List.append_assoc] at hb
  refine ⟨?_, ?_, fun j w hw => ?_⟩
  · rw [fieldAt_of_eq_append hb hstart]
    cases seg.mode <;> rfl
  · exact fieldAt_of_eq_append (pre := pre ++ bitsOf (modeInd seg.mode) 4) (by rw [hb, List.append_assoc])
      (by simp [hstart])
  · obtain ⟨front, back, hfront, hbits, -⟩ := segBits_eq_append h hw
    refine fieldAt_of_eq_append
      (pre := pre ++ (bitsOf (modeInd seg.mode) 4 ++ (bitsOf seg.count (ccw v seg.mode) ++ front)))
      (post := back ++ post) ?_ ?_
    · simp only [hb, hbits, List.append_assoc]
    · simp only [List.length_append, length_bitsOf, hstart, hfront]
      omega

/-- The bits in use fit the symbol: structured append leaves room for its header (R211, R241). -/
theorem usedBits_fit {k : BitVec 4} {s : State} (h : SlotCounts s.group.ecl s.group.sa (s.slot k))
    (hlow : 1 ≤ (s.slot k).ver.toNat) (hhigh : (s.slot k).ver.toNat ≤ 40)
    (hsingle : s.group.sa = false → s.group.symcnt.toNat ≤ 1) :
    (usedBits s k).length ≤ 8 * dataCW s.group.ecl (s.slot k).ver.toNat := by
  have hdata := nine_le_dataCW s.group.ecl (s.slot k).ver.toNat (List.mem_range'_1.mpr ⟨hlow, by omega⟩)
  have hroom := h.room
  rw [h.cap, capOf] at hroom
  rw [length_usedBits h]
  cases hsa : s.group.sa with
  | false =>
    have hone := hsingle hsa
    rw [if_neg (by omega)]
    omega
  | true =>
    rw [hsa, if_pos rfl] at hroom
    split_ifs <;> omega

/-- Settles O28: the header and each segment are read off the string at their places; a count fits its indicator because
its segment fits the symbol. -/
theorem usedBitsCount : Obligations.UsedBitsCount := by
  intro k s h header v
  refine ⟨length_usedBits h, fieldAt_header k, ?_, usedBits_fit h⟩
  intro before after seg hsegs start data
  have hseg : SegmentAgrees seg := h.segments seg (by simp [hsegs])
  obtain ⟨pre, post, hpre, hbits⟩ := usedBits_eq_append h hsegs
  obtain ⟨hind, hcount, hwords⟩ := fieldAt_segStream hseg hbits hpre
  refine ⟨hind, fun _ hhigh => hcount.trans (Nat.mod_eq_of_lt ?_), fun j w hw => ?_⟩
  · refine count_lt_two_pow_ccw hseg s.group.ecl hhigh ?_
    have hsum := h.count
    have hroom := h.room
    rw [h.cap, capOf] at hroom
    simp only [hsegs, List.map_append, List.map_cons, List.sum_append, List.sum_cons] at hsum
    omega
  · have hj : j < wordCount seg.mode seg.count := hseg.words ▸ (List.getElem?_eq_some_iff.mp hw).1
    rw [hseg.words, ← wordWidth_eq hj]
    exact hwords j w hw

end Sys2Proof.Proofs
end

