-- ==== Sys2Proof/Proofs/ReedSolomon.lean ====
section
/-!
PROOFS. The family of the field and of the block builder: the tables against the powers of `α` (R261), the product of
the tables against the product without tables and its laws (R263, R264), the EC codewords of a block as the remainder
that makes it vanish at the roots of the generator (R265, R267, R269), the blocks and where their codewords stand in the
stream (R268, R271), and the ends of RSENC, MPLACE and MASKSEL (R270, R291, R339).
-/

namespace Sys2Proof.Proofs

open Sys2Proof.Machine Sys2Proof.Claims Sys2Proof.Laws

/-! ### The tables are the powers of `α` and their logarithms (R261) -/

/-- Doubling shifts left and reduces by 0x11D (R261, R263). -/
theorem toNat_xtime : ∀ x : Byte,
    (xtime x).toNat = (x.toNat <<< 1) ^^^ (if 0x80 ≤ x.toNat then 0x11D else 0) := by decide

/-- The table is `1, α, α², …` (R261, R395). -/
theorem expTable_eq_iterate : expTable = List.iterate xtime 1 255 := by decide +kernel

/-- Below 255 the table holds the powers of `α` (R261). -/
theorem gfExp_eq_iterate {i : Nat} (hi : i < 255) : gfExp i = xtime^[i] 1 := by
  rw [gfExp, expTable_eq_iterate, List.getD_eq_getElem?_getD, List.getElem?_iterate xtime 1 255 i hi, Option.getD_some]

/-- Every non-zero value is the power that its logarithm names (R261). -/
theorem gfExp_gfLog : ∀ x : Byte, x ≠ 0 → gfLog x < 255 ∧ gfExp (gfLog x) = x := by decide

/-- The logarithm of a power is its exponent (R261). -/
theorem gfLog_gfExp : ∀ i < 255, gfLog (gfExp i) = i := by decide +kernel

/-- Every non-zero value is a power of `α` (R261). -/
theorem eq_iterate_gfLog {x : Byte} (hx : x ≠ 0) : x = xtime^[gfLog x] 1 := by
  obtain ⟨hlt, hexp⟩ := gfExp_gfLog x hx
  rw [← gfExp_eq_iterate hlt, hexp]

/-- `α^255 = 1` (R261). -/
theorem isPeriodicPt_xtime_one : Function.IsPeriodicPt xtime 255 1 := by
  have hlast : gfExp 254 = xtime^[254] 1 := gfExp_eq_iterate (by decide)
  rw [Function.IsPeriodicPt, Function.IsFixedPt, Function.iterate_succ_apply', ← hlast]
  decide

/-- Settles O31: the table of powers is `α` iterated, and the table of logarithms inverts it. -/
theorem fieldTables : Obligations.FieldTables := by
  refine ⟨rfl, fun i hi => ?_, gfLog_gfExp, gfExp_gfLog, by decide⟩
  rw [gfExp_eq_iterate (i := i + 1) (by omega), Function.iterate_succ_apply', ← gfExp_eq_iterate (by omega),
    toNat_xtime]

/-! ### Addition is XOR (R260) -/

/-- Zero is neutral on the left. -/
theorem byte_zero_xor (a : Byte) : 0 ^^^ a = a := BitVec.zero_xor

/-- Zero is neutral. -/
theorem byte_xor_zero (a : Byte) : a ^^^ 0 = a := BitVec.xor_zero

/-- Every element is its own negative. -/
theorem byte_xor_self (a : Byte) : a ^^^ a = 0 := BitVec.xor_self

/-- A sum of two sums, taken the other way across. -/
theorem byte_xor_xor_xor_comm (a b c d : Byte) : (a ^^^ b) ^^^ (c ^^^ d) = (a ^^^ c) ^^^ (b ^^^ d) := by ac_rfl

/-! ### The product without tables is linear in each factor (R263) -/

/-- Doubling is linear (R263). -/
theorem xtime_xor (x y : Byte) : xtime (x ^^^ y) = xtime x ^^^ xtime y := by
  have hmsb (z : Byte) : xtime z = (z <<< 1) ^^^ (if z.msb then 0x1D else 0) := by
    simp [xtime, BitVec.msb_eq_decide]
  rw [hmsb, hmsb, hmsb, BitVec.shiftLeft_xor_distrib, BitVec.msb_xor, byte_xor_xor_xor_comm]
  cases x.msb <;> cases y.msb <;> simp

/-- One bit of the second factor adds its multiple of the first to the product so far (R263). -/
def addTerm (a b acc : Byte) (i : Nat) : Byte := if b.getLsbD i then acc ^^^ xtime^[i] a else acc

/-- The product is the sum of the terms of its eight bits. -/
theorem productOf_eq_foldl (a b : Byte) : productOf a b = (List.range 8).foldl (addTerm a b) 0 := rfl

/-- Doubling the first factor doubles every term. -/
theorem addTerm_xtime (a b acc : Byte) (i : Nat) : addTerm (xtime a) b (xtime acc) i = xtime (addTerm a b acc i) := by
  have hterm : xtime^[i] (xtime a) = xtime (xtime^[i] a) := by
    rw [← Function.iterate_succ_apply, Function.iterate_succ_apply']
  by_cases hb : b.getLsbD i <;> simp [addTerm, hb, xtime_xor, hterm]

/-- A sum as the second factor adds the terms of both. -/
theorem addTerm_xor (a b c x y : Byte) (i : Nat) :
    addTerm a (b ^^^ c) (x ^^^ y) i = addTerm a b x i ^^^ addTerm a c y i := by
  simp only [addTerm, BitVec.getLsbD_xor]
  cases b.getLsbD i <;> cases c.getLsbD i <;>
    simp only [Bool.xor_false, Bool.false_xor, Bool.xor_self, Bool.false_eq_true, if_true, if_false]
  · ac_rfl
  · ac_rfl
  · rw [byte_xor_xor_xor_comm, byte_xor_self, byte_xor_zero]

/-- Doubling the first factor doubles the product. -/
theorem productOf_xtime (a b : Byte) : productOf (xtime a) b = xtime (productOf a b) := by
  rw [productOf_eq_foldl, productOf_eq_foldl, ← List.foldl_hom xtime fun acc i => addTerm_xtime a b acc i]
  rfl

/-- The product is additive in its second factor (R263). -/
theorem productOf_xor (a b c : Byte) : productOf a (b ^^^ c) = productOf a b ^^^ productOf a c :=
  List.foldl_hom₂ (List.range 8) (· ^^^ ·) (addTerm a b) (addTerm a c) (addTerm a (b ^^^ c)) 0 0 fun x y i =>
    (addTerm_xor a b c x y i).symm

/-- `α^i` times the first factor is `α^i` times the product. -/
theorem productOf_iterate (i : Nat) (a b : Byte) : productOf (xtime^[i] a) b = xtime^[i] (productOf a b) :=
  (Function.Semiconj.iterate_right (f := fun x => productOf x b) (fun a => productOf_xtime a b) i) a

/-- One is neutral on the left. -/
theorem productOf_one : ∀ b : Byte, productOf 1 b = b := by decide

/-- Zero annihilates. -/
theorem productOf_zero (a : Byte) : productOf a 0 = 0 := by
  simpa using productOf_xor a 0 0

/-- Zero annihilates on the left. -/
theorem zero_productOf : ∀ b : Byte, productOf 0 b = 0 := by decide

/-! ### The product of the tables (R263, R264) -/

/-- The product of the tables is commutative. -/
theorem gfmul_comm (a b : Byte) : gfmul a b = gfmul b a := by
  simp only [gfmul, or_comm, Nat.add_comm]

/-- Zero annihilates. -/
theorem gfmul_zero (a : Byte) : gfmul a 0 = 0 := by simp [gfmul]

/-- Zero annihilates on the left. -/
theorem zero_gfmul (a : Byte) : gfmul 0 a = 0 := by simp [gfmul]

/-- The product of the tables is the product without tables (R263). -/
theorem gfmul_eq_productOf (a b : Byte) : gfmul a b = productOf a b := by
  by_cases ha : a = 0
  · rw [ha, zero_gfmul, zero_productOf]
  by_cases hb : b = 0
  · rw [hb, gfmul_zero, productOf_zero]
  calc gfmul a b
      = xtime^[(gfLog a + gfLog b) % 255] 1 := by
        simp only [gfmul, ha, hb, or_self, if_false]
        exact gfExp_eq_iterate (Nat.mod_lt _ (by decide))
    _ = xtime^[gfLog a] (xtime^[gfLog b] 1) := by
        rw [isPeriodicPt_xtime_one.iterate_mod_apply, Function.iterate_add_apply]
    _ = productOf (xtime^[gfLog a] 1) b := by
        rw [productOf_iterate, productOf_one, ← eq_iterate_gfLog hb]
    _ = productOf a b := by rw [← eq_iterate_gfLog ha]

/-- Settles O29: GFMUL answers the product of the tables, and that is the product without tables. -/
theorem gfmulProduct : Obligations.GfmulProduct := by
  intro a b s
  exact ⟨gfmul_eq_productOf a b ▸ exec_of_done (i := .gfmul a b) rfl, gfmul_eq_productOf a b⟩

/-- One is neutral on the left. -/
theorem one_gfmul (a : Byte) : gfmul 1 a = a := by rw [gfmul_eq_productOf, productOf_one]

/-- The product distributes over XOR from the left. -/
theorem gfmul_xor (a b c : Byte) : gfmul a (b ^^^ c) = gfmul a b ^^^ gfmul a c := by
  simp only [gfmul_eq_productOf, productOf_xor]

/-- The product distributes over XOR from the right. -/
theorem xor_gfmul (a b c : Byte) : gfmul (a ^^^ b) c = gfmul a c ^^^ gfmul b c := by
  simp only [gfmul_comm _ c, gfmul_xor]

/-- `α^i` in the first factor can be taken out of the product. -/
theorem gfmul_iterate (i : Nat) (a b : Byte) : gfmul (xtime^[i] a) b = xtime^[i] (gfmul a b) := by
  simp only [gfmul_eq_productOf, productOf_iterate]

/-- The product is associative: the first factor is 0, or a power of `α` that can be taken out on both sides. -/
theorem gfmul_assoc (a b c : Byte) : gfmul (gfmul a b) c = gfmul a (gfmul b c) := by
  by_cases ha : a = 0
  · simp only [ha, zero_gfmul]
  · rw [eq_iterate_gfLog ha]
    simp only [gfmul_iterate, one_gfmul]

/-- The inverse of `α^i` is `α^(255 - i)`. -/
theorem exists_gfmul_eq_one {a : Byte} (ha : a ≠ 0) : ∃ d, gfmul a d = 1 := by
  have hle : gfLog a ≤ 255 := (gfExp_gfLog a ha).1.le
  refine ⟨xtime^[255 - gfLog a] 1, ?_⟩
  calc gfmul a (xtime^[255 - gfLog a] 1)
      = gfmul (xtime^[gfLog a] 1) (xtime^[255 - gfLog a] 1) := by rw [← eq_iterate_gfLog ha]
    _ = xtime^[255] 1 := by
        rw [gfmul_iterate, one_gfmul, ← Function.iterate_add_apply, Nat.add_sub_cancel' hle]
    _ = 1 := isPeriodicPt_xtime_one

/-- Settles O30: the laws of the product of the tables. -/
theorem fieldLaws : Obligations.FieldLaws := fun a b c =>
  ⟨gfmul_comm a b, gfmul_assoc a b c, gfmul_xor a b c, (gfmul_comm a 1).trans (one_gfmul a), gfmul_zero a,
    exists_gfmul_eq_one⟩

/-! ### Polynomials and their values (R265, R267) -/

/-- Horner's rule goes on from the value so far (R267). -/
def horner (x acc : Byte) (poly : List Byte) : Byte := poly.foldl (fun acc c => gfmul acc x ^^^ c) acc

/-- The value of a polynomial is Horner's rule from 0. -/
theorem evalAt_eq_horner (x : Byte) (poly : List Byte) : evalAt x poly = horner x 0 poly := rfl

/-- One coefficient of Horner's rule. -/
theorem horner_cons (x acc c : Byte) (poly : List Byte) :
    horner x acc (c :: poly) = horner x (gfmul acc x ^^^ c) poly := rfl

/-- The first coefficient is the value Horner's rule goes on from. -/
theorem evalAt_cons (x c : Byte) (poly : List Byte) : evalAt x (c :: poly) = horner x c poly := by
  rw [evalAt_eq_horner, horner_cons, zero_gfmul, byte_zero_xor]

/-- Horner's rule along the first part goes on along the second. -/
theorem horner_append (x acc : Byte) (p q : List Byte) : horner x acc (p ++ q) = horner x (horner x acc p) q :=
  List.foldl_append

/-- Horner's rule is additive (R267). -/
theorem horner_zipWith_xor (x : Byte) {p q : List Byte} (h : p.length = q.length) (a b : Byte) :
    horner x (a ^^^ b) (List.zipWith (· ^^^ ·) p q) = horner x a p ^^^ horner x b q := by
  induction p generalizing q a b with
  | nil => rw [List.length_eq_zero_iff.mp h.symm]; rfl
  | cons c p ih =>
    cases q with
    | nil => cases h
    | cons e q =>
      rw [List.zipWith_cons_cons, horner_cons, horner_cons, horner_cons, ← ih (Nat.succ.inj h), xor_gfmul,
        byte_xor_xor_xor_comm]

/-- A common factor can be taken out of Horner's rule. -/
theorem horner_map_gfmul (x f a : Byte) (p : List Byte) :
    horner x (gfmul a f) (p.map fun c => gfmul c f) = gfmul (horner x a p) f := by
  induction p generalizing a with
  | nil => rfl
  | cons c p ih =>
    rw [List.map_cons, horner_cons, horner_cons, ← ih, xor_gfmul, gfmul_assoc, gfmul_assoc, gfmul_comm f x]

/-- Zero coefficients leave Horner's rule at 0. -/
theorem horner_replicate_zero (x : Byte) (n : Nat) : horner x 0 (List.replicate n 0) = 0 := by
  induction n with
  | zero => rfl
  | succ n ih => rw [List.replicate_succ, horner_cons, zero_gfmul, byte_zero_xor, ih]

/-- One factor more of a generator has the value of one factor more (R265). -/
theorem evalAt_mulLinear (x e : Byte) (g : List Byte) :
    evalAt x (mulLinear e g) = gfmul (evalAt x g) (x ^^^ e) := by
  have hshift : horner x 0 (g ++ [0]) = gfmul (evalAt x g) x := by
    rw [horner_append, horner_cons, byte_xor_zero]; rfl
  have hscale : horner x 0 (0 :: g.map fun c => gfmul c e) = gfmul (evalAt x g) e := by
    rw [horner_cons, zero_gfmul, byte_zero_xor, ← zero_gfmul e, horner_map_gfmul]; rfl
  rw [mulLinear, gfmul_xor, ← hshift, ← hscale, ← horner_zipWith_xor x (by simp)]
  rfl

/-! ### Generator polynomials (R265) -/

/-- A generator vanishes at its roots (R265). -/
theorem evalAt_gen {j n : Nat} (hj : j < n) : evalAt (gfExp j) (gen n) = 0 := by
  induction n with
  | zero => exact absurd hj (Nat.not_lt_zero j)
  | succ n ih =>
    rw [gen, evalAt_mulLinear]
    rcases Nat.lt_succ_iff_lt_or_eq.mp hj with hlt | rfl
    · rw [ih hlt, zero_gfmul]
    · rw [byte_xor_self]; exact gfmul_zero _

/-- A generator of degree `n` is monic and has `n` further coefficients (R265). -/
theorem gen_eq_cons (n : Nat) : ∃ tail, gen n = 1 :: tail ∧ tail.length = n := by
  induction n with
  | zero => exact ⟨[], rfl, rfl⟩
  | succ n ih =>
    obtain ⟨tail, hgen, hlen⟩ := ih
    exact ⟨_, by rw [gen, hgen]; rfl, by simp [hlen]⟩

/-! ### The division (R269) -/

/-- XORing with zeros changes nothing. -/
theorem zipWith_replicate_zero_xor {n : Nat} {w : List Byte} (h : w.length = n) :
    List.zipWith (· ^^^ ·) (List.replicate n 0) w = w := by
  subst h
  induction w with
  | nil => rfl
  | cons y w ih => rw [List.length_cons, List.replicate_succ, List.zipWith_cons_cons, ih, byte_zero_xor]

/-- XORing onto the front is XORing with zeros after it (R269). -/
theorem xorFront_eq_zipWith (u w : List Byte) :
    xorFront u w = List.zipWith (· ^^^ ·) (u ++ List.replicate (w.length - u.length) 0) w := by
  induction u generalizing w with
  | nil =>
    rw [List.nil_append, List.length_nil, Nat.sub_zero, zipWith_replicate_zero_xor rfl]
    cases w <;> rfl
  | cons x xs ih => cases w <;> simp [xorFront, ih]

/-- A round of the division keeps the value at every root of the generator `1 :: g` (R269). -/
theorem evalAt_xorFront {x f : Byte} {g w : List Byte} (hroot : evalAt x (1 :: g) = 0) (hlen : g.length ≤ w.length) :
    evalAt x (xorFront (g.map fun c => gfmul c f) w) = evalAt x (f :: w) := by
  have hmultiple : horner x f (g.map fun c => gfmul c f) = 0 := by
    have htake := horner_map_gfmul x f 1 g
    rwa [one_gfmul, ← evalAt_cons x 1, hroot, zero_gfmul] at htake
  calc evalAt x (xorFront (g.map fun c => gfmul c f) w)
      = horner x f ((g.map fun c => gfmul c f) ++ List.replicate (w.length - g.length) 0) ^^^ horner x f w := by
        rw [xorFront_eq_zipWith, List.length_map, ← horner_zipWith_xor x (by simp [hlen]), byte_xor_self]
        rfl
    _ = evalAt x (f :: w) := by
        rw [horner_append, hmultiple, horner_replicate_zero, byte_zero_xor, evalAt_cons]

/-- The division keeps the value at every root of the generator `1 :: g` (R269). -/
theorem evalAt_divideRounds {x : Byte} {g : List Byte} (hroot : evalAt x (1 :: g) = 0) {m : Nat} {w : List Byte}
    (hlen : m + g.length ≤ w.length) : evalAt x (divideRounds g m w) = evalAt x w := by
  induction m generalizing w with
  | zero => rfl
  | succ m ih =>
    cases w with
    | nil => simp at hlen
    | cons f w =>
      rw [List.length_cons] at hlen
      rw [divideRounds, ih (by rw [length_xorFront]; omega), evalAt_xorFront hroot (by omega)]

/-- A block and its EC codewords: the remainder fills in what makes the whole vanish at the generator's roots (R269). -/
theorem evalAt_codeword {x : Byte} {n : Nat} (hroot : evalAt x (gen n) = 0) (d : List Byte) :
    evalAt x (d ++ rsRemainder d n) = 0 := by
  obtain ⟨tail, hgen, htail⟩ := gen_eq_cons n
  have hrem : horner x 0 (rsRemainder d n) = horner x (horner x 0 d) (List.replicate n 0) := by
    rw [← horner_append, ← evalAt_eq_horner, ← evalAt_eq_horner, rsRemainder, hgen]
    exact evalAt_divideRounds (hgen ▸ hroot) (by simp [htail])
  calc evalAt x (d ++ rsRemainder d n)
      = horner x (horner x 0 d) (rsRemainder d n) := horner_append x 0 d _
    _ = horner x (horner x 0 d) (List.replicate n 0) ^^^ horner x 0 (rsRemainder d n) := by
        rw [← horner_zipWith_xor x (by simp), byte_xor_zero, zipWith_replicate_zero_xor (length_rsRemainder d n)]
    _ = 0 := by rw [hrem, byte_xor_self]

/-- Settles O32: the EC codewords are a remainder by a generator with those roots. -/
theorem rsCodewordRoots : Obligations.RsCodewordRoots := fun d n _ =>
  ⟨length_rsRemainder d n, fun _ hj => evalAt_codeword (evalAt_gen hj) d⟩

/-- XORing onto the front is additive in both lists (R269). -/
theorem xorFront_xor (f f' : Byte) (g : List Byte) {w w' : List Byte} (h : w.length = w'.length) :
    xorFront (g.map fun c => gfmul c (f ^^^ f')) (List.zipWith (· ^^^ ·) w w') =
      List.zipWith (· ^^^ ·) (xorFront (g.map fun c => gfmul c f) w) (xorFront (g.map fun c => gfmul c f') w') := by
  induction g generalizing w w' with
  | nil => cases w <;> cases w' <;> rfl
  | cons c g ih =>
    match w, w', h with
    | [], [], _ => rfl
    | y :: w, y' :: w', h =>
      simp only [List.map_cons, List.zipWith_cons_cons, xorFront]
      rw [ih (Nat.succ.inj h), gfmul_xor, byte_xor_xor_xor_comm]

/-- The division is additive (R269). -/
theorem divideRounds_xor (g : List Byte) (m : Nat) {w w' : List Byte} (h : w.length = w'.length) :
    divideRounds g m (List.zipWith (· ^^^ ·) w w') =
      List.zipWith (· ^^^ ·) (divideRounds g m w) (divideRounds g m w') := by
  induction m generalizing w w' with
  | zero => rfl
  | succ m ih =>
    match w, w', h with
    | [], [], _ => rfl
    | f :: w, f' :: w', h =>
      rw [List.zipWith_cons_cons, divideRounds, divideRounds, divideRounds, xorFront_xor f f' g (Nat.succ.inj h), ih]
      simpa using h

/-- The EC codewords of a sum are the sum of the EC codewords (R269). -/
theorem rsRemainder_xor {d e : List Byte} (n : Nat) (h : d.length = e.length) :
    rsRemainder (List.zipWith (· ^^^ ·) d e) n = List.zipWith (· ^^^ ·) (rsRemainder d n) (rsRemainder e n) := by
  have hpad : List.zipWith (· ^^^ ·) d e ++ List.replicate n 0 =
      List.zipWith (· ^^^ ·) (d ++ List.replicate n 0) (e ++ List.replicate n 0) := by
    rw [List.zipWith_append h, zipWith_replicate_zero_xor List.length_replicate]
  rw [rsRemainder, rsRemainder, rsRemainder, hpad, divideRounds_xor _ _ (by simp [h]), ← h,
    List.length_zipWith, ← h, Nat.min_self]

/-- A block XORed with itself is zero. -/
theorem zipWith_xor_self (w : List Byte) : List.zipWith (· ^^^ ·) w w = List.replicate w.length 0 := by
  simp only [List.zipWith_self, byte_xor_self, List.map_const']

/-- Settles O33: the division is additive, and the zero block is the sum of a block and itself. -/
theorem rsLinear : Obligations.RsLinear := by
  intro d e m n h
  refine ⟨rsRemainder_xor n h, ?_⟩
  have hself := rsRemainder_xor n (rfl : (List.replicate m (0 : Byte)).length = _)
  rwa [zipWith_xor_self, zipWith_xor_self, List.length_replicate, length_rsRemainder] at hself

/-! ### The blocks (R268) -/

/-- The slices are the data, as far as their lengths go (R268). -/
theorem flatten_slices (ns : List Nat) (d : List Byte) : (slices ns d).flatten = d.take ns.sum := by
  induction ns generalizing d with
  | nil => simp [slices]
  | cons n ns ih => rw [slices, List.flatten_cons, ih, List.sum_cons, List.take_add]

/-- Slice `b` starts where the earlier ones end (R268). -/
theorem getElem?_slices (ns : List Nat) (d : List Byte) (b : Nat) :
    (slices ns d)[b]? = ns[b]?.map fun n => (d.drop (ns.take b).sum).take n := by
  induction ns generalizing d b with
  | nil => simp [slices]
  | cons n ns ih =>
    cases b with
    | zero => simp [slices]
    | succ b => simp [slices, ih, List.drop_drop]

/-- Every version has blocks, and their data and EC codewords make up the total (R268, R385, R386). -/
theorem blocks_tile {v : Nat} (ecl : EcLevel) (hv : 1 ≤ v ∧ v ≤ 40) :
    0 < blocks ecl v ∧ dataCW ecl v + blocks ecl v * ecPerBlock ecl v = totalCW v :=
  blocks_tile_totalCW ecl v (List.mem_range'_1.mpr ⟨hv.1, by omega⟩)

/-- The data length of the shorter blocks (R268). -/
abbrev shortLength (ecl : EcLevel) (v : Nat) : Nat := dataCW ecl v / blocks ecl v

/-- The first of the longer blocks: all shorter ones come before it (R268). -/
abbrev firstLong (ecl : EcLevel) (v : Nat) : Nat := blocks ecl v - dataCW ecl v % blocks ecl v

/-- The first data codeword of block `b` (R268). -/
abbrev blockStart (ecl : EcLevel) (v b : Nat) : Nat := b * shortLength ecl v + (b - firstLong ecl v)

/-- The data length of block `b` (R268). -/
abbrev blockLength (ecl : EcLevel) (v b : Nat) : Nat := shortLength ecl v + if b < firstLong ecl v then 0 else 1

/-- The data blocks of a version and level (R268). -/
abbrev dataBlocks (ecl : EcLevel) (v : Nat) (d : List Byte) : List (List Byte) := slices (blockLengths ecl v) d

/-- The data of block `b` (R268). -/
abbrev blockData (ecl : EcLevel) (v : Nat) (d : List Byte) (b : Nat) : List Byte :=
  (d.drop (blockStart ecl v b)).take (blockLength ecl v b)

section
variable {ecl : EcLevel} {v b : Nat}

/-- The shorter blocks come first (R268). -/
theorem getElem?_blockLengths (hb : b < blocks ecl v) : (blockLengths ecl v)[b]? = some (blockLength ecl v b) := by
  have hmod := Nat.mod_lt (dataCW ecl v) (Nat.zero_lt_of_lt hb)
  rw [blockLengths, List.getElem?_append, List.length_replicate, blockLength]
  split
  next hshort => rw [List.getElem?_replicate_of_lt hshort, Nat.add_zero]
  next hlong => rw [List.getElem?_replicate_of_lt (by omega)]

/-- Before block `b` lie `b` shorter blocks and the extra codewords of the longer ones (R268). -/
theorem sum_take_blockLengths (hb : b < blocks ecl v) : ((blockLengths ecl v).take b).sum = blockStart ecl v b := by
  have hfirst : firstLong ecl v + dataCW ecl v % blocks ecl v = blocks ecl v :=
    Nat.sub_add_cancel (Nat.mod_lt _ (Nat.zero_lt_of_lt hb)).le
  simp only [blockLengths, List.take_append, List.take_replicate, List.sum_append, List.sum_replicate,
    List.length_replicate, smul_eq_mul]
  rcases Nat.le_total b (firstLong ecl v) with hle | hle
  · simp [hle]
  · obtain ⟨k, rfl⟩ := Nat.exists_eq_add_of_le hle
    rw [Nat.min_eq_right hle, Nat.add_sub_cancel_left, Nat.min_eq_left (by omega), blockStart, Nat.add_sub_cancel_left]
    ring

/-- Block `b` of the data (R268). -/
theorem getElem?_dataBlocks (d : List Byte) (hb : b < blocks ecl v) :
    (dataBlocks ecl v d)[b]? = some (blockData ecl v d b) := by
  rw [getElem?_slices, getElem?_blockLengths hb, sum_take_blockLengths hb, Option.map_some]

variable {d : List Byte} (hpos : 0 < blocks ecl v) (hd : d.length = dataCW ecl v)
include hpos hd

/-- The data blocks have the planned lengths (R268). -/
theorem map_length_dataBlocks : (dataBlocks ecl v d).map List.length = blockLengths ecl v :=
  map_length_slices (by rw [sum_blockLengths hpos, hd])

/-- The data blocks are the data (R268). -/
theorem flatten_dataBlocks : (dataBlocks ecl v d).flatten = d := by
  rw [flatten_slices, sum_blockLengths hpos, ← hd, List.take_length]

end

/-- Settles O34: the lengths are those of the shorter and the longer blocks in turn, and tile the data. -/
theorem blockPlan : Obligations.BlockPlan := by
  intro ecl v d hlow hhigh hd
  obtain ⟨hpos, htotal⟩ := blocks_tile ecl ⟨hlow, hhigh⟩
  refine ⟨hpos, length_blockLengths hpos, sum_blockLengths hpos, fun b hb => ?_, htotal, flatten_dataBlocks hpos hd,
    map_length_dataBlocks hpos hd⟩
  rw [length_blockLengths hpos] at hb
  exact (List.getElem?_eq_some_iff.mp (getElem?_blockLengths hb)).2

/-! ### Columns (R271) -/

/-- The cells of a list no longer than `n`, one by one. -/
theorem flatMap_getElem?_toList (b : List Byte) (n : Nat) :
    ((List.range n).flatMap fun c => b[c]?.toList) = b.take n := by
  induction n with
  | zero => simp
  | succ n ih => simp [List.range_succ, ih, List.take_add_one]

/-- The columns of blocks no longer than `n` are a rearrangement of the blocks (R271, R272). -/
theorem columns_perm {bs : List (List Byte)} {n : Nat} (h : ∀ b ∈ bs, b.length ≤ n) :
    (columns bs n).Perm bs.flatten := by
  induction bs with
  | nil => simp [columns, column]
  | cons b bs ih =>
    obtain ⟨hb, hbs⟩ := List.forall_mem_cons.mp h
    have hsplit : columns (b :: bs) n = (List.range n).flatMap fun c => b[c]?.toList ++ column bs c := by
      simp only [columns, ← column_cons]
    rw [hsplit, List.flatten_cons]
    refine (List.flatMap_append_perm _ _ _).symm.trans ?_
    rw [flatMap_getElem?_toList, List.take_of_length_le hb]
    exact (ih hbs).append_left b

/-- A column that every block reaches holds one codeword of each (R271). -/
theorem getElem?_column {bs : List (List Byte)} {c : Nat} (h : ∀ b ∈ bs, c < b.length) (i : Nat) :
    (column bs c)[i]? = bs[i]?.bind (·[c]?) := by
  induction bs generalizing i with
  | nil => simp [column]
  | cons b bs ih =>
    obtain ⟨hb, hbs⟩ := List.forall_mem_cons.mp h
    rw [column_cons, List.getElem?_eq_getElem hb]
    cases i with
    | zero => simp [hb]
    | succ i => simpa using ih hbs i

/-- A column that every block reaches has as many codewords as there are blocks (R271). -/
theorem length_column {bs : List (List Byte)} {c : Nat} (h : ∀ b ∈ bs, c < b.length) :
    (column bs c).length = bs.length := by
  induction bs with
  | nil => rfl
  | cons b bs ih =>
    obtain ⟨hb, hbs⟩ := List.forall_mem_cons.mp h
    rw [column_cons, List.getElem?_eq_getElem hb, List.length_append, ih hbs]
    exact Nat.add_comm _ _

/-- Blocks that do not reach a column contribute nothing to it (R271). -/
theorem column_drop {bs : List (List Byte)} {k c : Nat} (h : ∀ b ∈ bs.take k, b.length ≤ c) :
    column bs c = column (bs.drop k) c := by
  have hnone : column (bs.take k) c = [] :=
    List.filterMap_eq_nil_iff.mpr fun b hb => List.getElem?_eq_none (h b hb)
  calc column bs c = column (bs.take k ++ bs.drop k) c := by rw [List.take_append_drop]
    _ = column (bs.take k) c ++ column (bs.drop k) c := List.filterMap_append
    _ = column (bs.drop k) c := by rw [hnone, List.nil_append]

/-- The columns so far, then one column more (R271). -/
theorem columns_succ (bs : List (List Byte)) (n : Nat) : columns bs (n + 1) = columns bs n ++ column bs n := by
  simp [columns, List.range_succ]

/-- Columns that every block reaches hold one codeword of each (R271). -/
theorem length_columns_of_full {bs : List (List Byte)} {c : Nat} (h : ∀ b ∈ bs, c ≤ b.length) :
    (columns bs c).length = c * bs.length := by
  induction c with
  | zero => simp [columns]
  | succ c ih =>
    rw [columns_succ, List.length_append, ih fun b hb => (h b hb).trans' c.le_succ, length_column h, Nat.succ_mul]

/-- More columns only continue the stream (R271). -/
theorem columns_eq_append (bs : List (List Byte)) {m n : Nat} (h : m ≤ n) :
    ∃ later, columns bs n = columns bs m ++ later := by
  induction h with
  | refl => exact ⟨[], (List.append_nil _).symm⟩
  | @step n _ ih =>
    obtain ⟨later, hlater⟩ := ih
    exact ⟨later ++ column bs n, by rw [columns_succ, hlater, List.append_assoc]⟩

/-- Behind `c` columns that every block reaches, entry `i` of column `c` is at `c * bs.length + i`, whatever follows the
columns (R271). -/
theorem getElem?_columns {bs : List (List Byte)} {n c i : Nat} (hc : c < n) (hfull : ∀ b ∈ bs, c ≤ b.length)
    (hi : i < (column bs c).length) (rest : List Byte) :
    (columns bs n ++ rest)[c * bs.length + i]? = (column bs c)[i]? := by
  obtain ⟨later, hlater⟩ := columns_eq_append bs hc
  rw [hlater, columns_succ, List.append_assoc, List.append_assoc, ← length_columns_of_full hfull,
    List.getElem?_append_right (Nat.le_add_right _ _), Nat.add_sub_cancel_left, List.getElem?_append_left hi]

/-- In columns that every block reaches, codeword `c` of block `i` is at `c * bs.length + i` (R271). -/
theorem getElem?_columns_of_full {bs : List (List Byte)} {n c i : Nat} (hc : c < n) (hfull : ∀ b ∈ bs, c < b.length)
    (hi : i < bs.length) (rest : List Byte) :
    (columns bs n ++ rest)[c * bs.length + i]? = bs[i]?.bind (·[c]?) := by
  rw [getElem?_columns hc (fun b hb => (hfull b hb).le) (by rwa [length_column hfull]), getElem?_column hfull]

/-! ### The stream (R268, R270–R272) -/

/-- The EC codewords of the data blocks (R270). -/
abbrev ecBlocks (ecl : EcLevel) (v : Nat) (d : List Byte) : List (List Byte) :=
  (dataBlocks ecl v d).map fun b => rsRemainder b (ecPerBlock ecl v)

/-- The columns of the data blocks, then those of the EC blocks (R271). -/
theorem codewordStream_eq (ecl : EcLevel) (v : Nat) (d : List Byte) :
    codewordStream ecl v d =
      columns (dataBlocks ecl v d) (shortLength ecl v + 1) ++ columns (ecBlocks ecl v d) (ecPerBlock ecl v) := rfl

section
variable {ecl : EcLevel} {v : Nat} {d : List Byte} (hpos : 0 < blocks ecl v) (hd : d.length = dataCW ecl v)
include hpos hd

/-- There are as many data blocks as the tables say (R268). -/
theorem length_dataBlocks : (dataBlocks ecl v d).length = blocks ecl v := by
  rw [← List.length_map (f := List.length), map_length_dataBlocks hpos hd, length_blockLengths hpos]

/-- Every data block has its planned length (R268). -/
theorem length_of_getElem?_dataBlocks {i : Nat} {x : List Byte} (h : (dataBlocks ecl v d)[i]? = some x) :
    x.length = blockLength ecl v i := by
  have hi : i < blocks ecl v := length_dataBlocks hpos hd ▸ (List.getElem?_eq_some_iff.mp h).1
  have hlen := getElem?_blockLengths hi
  rw [← map_length_dataBlocks hpos hd, List.getElem?_map, h] at hlen
  exact Option.some.inj hlen

/-- No data block is longer than the longer ones (R268). -/
theorem length_le_of_mem_dataBlocks : ∀ b ∈ dataBlocks ecl v d, b.length ≤ shortLength ecl v + 1 := fun _ hb =>
  le_of_mem_blockLengths (map_length_dataBlocks hpos hd ▸ List.mem_map_of_mem hb)

/-- No data block is shorter than the shorter ones (R268). -/
theorem le_length_of_mem_dataBlocks : ∀ b ∈ dataBlocks ecl v d, shortLength ecl v ≤ b.length := by
  intro x hx
  obtain ⟨i, hi⟩ := List.mem_iff_getElem?.mp hx
  exact (length_of_getElem?_dataBlocks hpos hd hi).ge.trans' (Nat.le_add_right _ _)

/-- Before the first longer block every block is short (R268). -/
theorem length_le_of_mem_take_dataBlocks :
    ∀ b ∈ (dataBlocks ecl v d).take (firstLong ecl v), b.length ≤ shortLength ecl v := by
  intro x hx
  obtain ⟨i, hi⟩ := List.mem_iff_getElem?.mp hx
  rw [List.getElem?_take, Option.ite_none_right_eq_some] at hi
  rw [length_of_getElem?_dataBlocks hpos hd hi.2, blockLength, if_pos hi.1, Nat.add_zero]

/-- From the first longer block on every block is long (R268). -/
theorem lt_length_of_mem_drop_dataBlocks :
    ∀ b ∈ (dataBlocks ecl v d).drop (firstLong ecl v), shortLength ecl v < b.length := by
  intro x hx
  obtain ⟨i, hi⟩ := List.mem_iff_getElem?.mp hx
  rw [List.getElem?_drop] at hi
  rw [length_of_getElem?_dataBlocks hpos hd hi, blockLength, if_neg (Nat.le_add_right _ i).not_gt]
  exact Nat.lt_succ_self _

/-- The data part of the stream has `DataCW` codewords (R271). -/
theorem length_dataColumns : (columns (dataBlocks ecl v d) (shortLength ecl v + 1)).length = dataCW ecl v := by
  rw [length_columns (length_le_of_mem_dataBlocks hpos hd), map_length_dataBlocks hpos hd, sum_blockLengths hpos]

/-- The data part of the stream is a rearrangement of the data (R272). -/
theorem take_codewordStream_perm : ((codewordStream ecl v d).take (dataCW ecl v)).Perm d := by
  rw [codewordStream_eq, List.take_left' (length_dataColumns hpos hd)]
  exact (columns_perm (length_le_of_mem_dataBlocks hpos hd)).trans (.of_eq (flatten_dataBlocks hpos hd))

/-- Codeword `c` of block `b` in the columns that every block reaches (R271). -/
theorem getElem?_codewordStream_short {b c : Nat} (hb : b < blocks ecl v) (hc : c < shortLength ecl v) :
    (codewordStream ecl v d)[c * blocks ecl v + b]? = d[blockStart ecl v b + c]? := by
  have hfull : ∀ x ∈ dataBlocks ecl v d, c < x.length := fun x hx =>
    hc.trans_le (le_length_of_mem_dataBlocks hpos hd x hx)
  have hcount := length_dataBlocks hpos hd
  have hcol := getElem?_columns_of_full (hc.trans (Nat.lt_succ_self _)) hfull (hcount.symm ▸ hb)
    (columns (ecBlocks ecl v d) (ecPerBlock ecl v))
  rw [hcount] at hcol
  rw [codewordStream_eq, hcol, getElem?_dataBlocks d hb, Option.bind_some,
    List.getElem?_take_of_lt (Nat.lt_add_right _ hc), List.getElem?_drop]

/-- The extra codeword of the longer block `b` in the last data column (R271). -/
theorem getElem?_codewordStream_long {b : Nat} (hfirst : firstLong ecl v ≤ b) (hb : b < blocks ecl v) :
    (codewordStream ecl v d)[shortLength ecl v * blocks ecl v + (b - firstLong ecl v)]? =
      d[blockStart ecl v b + shortLength ecl v]? := by
  have hshort := length_le_of_mem_take_dataBlocks hpos hd
  have hlong := lt_length_of_mem_drop_dataBlocks hpos hd
  have hcol := getElem?_columns (n := shortLength ecl v + 1) (i := b - firstLong ecl v) (by omega)
    (le_length_of_mem_dataBlocks hpos hd)
    (by rw [column_drop hshort, length_column hlong, List.length_drop, length_dataBlocks hpos hd]; omega)
    (columns (ecBlocks ecl v d) (ecPerBlock ecl v))
  rw [length_dataBlocks hpos hd] at hcol
  rw [codewordStream_eq, hcol, column_drop hshort, getElem?_column hlong, List.getElem?_drop,
    Nat.add_sub_cancel' hfirst, getElem?_dataBlocks d hb, Option.bind_some,
    List.getElem?_take_of_lt (by simp [hfirst.not_gt]), List.getElem?_drop]

/-- EC codeword `c` of block `b` (R271). -/
theorem getElem?_codewordStream_ec {b c : Nat} (hb : b < blocks ecl v) (hc : c < ecPerBlock ecl v) :
    (codewordStream ecl v d)[dataCW ecl v + (c * blocks ecl v + b)]? =
      (rsRemainder (blockData ecl v d b) (ecPerBlock ecl v))[c]? := by
  have hfull : ∀ x ∈ ecBlocks ecl v d, c < x.length := by simpa using fun _ _ => hc
  have hcount : (ecBlocks ecl v d).length = blocks ecl v := by rw [List.length_map, length_dataBlocks hpos hd]
  have hcol := getElem?_columns_of_full hc hfull (hcount.symm ▸ hb) []
  rw [List.append_nil, hcount] at hcol
  rw [codewordStream_eq, List.getElem?_append_right (by rw [length_dataColumns hpos hd]; exact Nat.le_add_right _ _),
    length_dataColumns hpos hd, Nat.add_sub_cancel_left, hcol, List.getElem?_map, getElem?_dataBlocks d hb,
    Option.map_some, Option.bind_some]

end

/-- Settles O36: each codeword is in its block's place of its column, behind the columns before. -/
theorem interleaveLayout : Obligations.InterleaveLayout := by
  intro ecl v d hlow hhigh hd
  obtain ⟨hpos, -⟩ := blocks_tile ecl ⟨hlow, hhigh⟩
  exact ⟨fun _ _ hb hc => getElem?_codewordStream_short hpos hd hb hc,
    fun _ hfirst hb => getElem?_codewordStream_long hpos hd hfirst hb,
    fun _ _ hb hc => getElem?_codewordStream_ec hpos hd hb hc⟩

/-! ### RSENC, MPLACE and MASKSEL (R270, R291, R339) -/

/-- Settles O35: RSENC stores the stream of the data codewords. -/
theorem rsencCompletes : Obligations.RsencCompletes := by
  intro s d hlow hhigh hcount hread
  have hv : versionOk s.wver.toNat = true := versionOk_iff.mpr ⟨hlow, hhigh⟩
  have hd : d.length = dataCW s.wecl s.wver.toNat := (cellRun_length hread).trans hcount
  have hlen := length_codewordStream hv hd
  obtain ⟨hpos, -⟩ := blocks_tile s.wecl ⟨hlow, hhigh⟩
  refine ⟨codewordStream s.wecl s.wver.toNat d, ?_, hlen, take_codewordStream_perm hpos hd, rfl⟩
  rw [hlen]
  exact exec_of_done (i := .rsenc) (rsenc_eq_done hv (by simpa [dataComplete] using hcount) hread)

/-- A command out of sequence answers `PHASE` and changes nothing (R413). -/
theorem exec_of_sequenceError {i : Instr} {s : State} (h : resultOf i s = sequenceError s) :
    exec i s = .next (respond s .sequence (phaseWord s)) :=
  exec_of_raised h

section
variable {s : State}

/-- Without a working context there is nothing for RSENC (R270). -/
theorem rsenc_of_wver_eq_zero (h : s.wver = 0) : rsenc s = sequenceError s := by
  simpa [contextOpen, h] using rsenc_cases s

/-- Without a working context there is nothing for MPLACE (R291). -/
theorem mplace_of_wver_eq_zero (h : s.wver = 0) : mplace s = sequenceError s := by
  simpa [contextOpen, h] using mplace_cases s

/-- RSENC needs all data codewords (R270). -/
theorem rsenc_of_incomplete (hv : versionOk s.wver.toNat = true) (h : s.dcwn.toNat ≠ dataCW s.wecl s.wver.toNat) :
    rsenc s = sequenceError s := by
  simpa [contextOpen_of_versionOk hv, hv, dataComplete, h] using rsenc_cases s

/-- MPLACE needs the whole stream (R291). -/
theorem mplace_of_incomplete (hv : versionOk s.wver.toNat = true) (h : s.fcwn.toNat ≠ totalCW s.wver.toNat) :
    mplace s = sequenceError s := by
  simpa [contextOpen_of_versionOk hv, hv, streamComplete, h] using mplace_cases s

/-- MASKSEL needs a pre-mask matrix (R339). -/
theorem masksel_of_ne_premask (h : s.mmv ≠ .premask) : masksel s = sequenceError s := by
  simpa [h] using masksel_cases s

end

/-- Settles O14: each of the checks fails on its own, and all of them raise `ERR_SEQUENCE`. -/
theorem stageRefusals : Obligations.StageRefusals := by
  intro s
  refine ⟨fun h0 =>
      ⟨exec_of_sequenceError (rsenc_of_wver_eq_zero h0), exec_of_sequenceError (mplace_of_wver_eq_zero h0)⟩,
    fun hlow hhigh hcount => exec_of_sequenceError (rsenc_of_incomplete (versionOk_iff.mpr ⟨hlow, hhigh⟩) hcount),
    fun hlow hhigh hcount => exec_of_sequenceError (mplace_of_incomplete (versionOk_iff.mpr ⟨hlow, hhigh⟩) hcount),
    fun hm => exec_of_sequenceError (masksel_of_ne_premask ?_)⟩
  rcases hm with hm | hm <;> simp [hm]

section
variable {s t : State}

/-- An RSENC that passes its checks and gives a next state has stored the stream of the data codewords (R270). -/
theorem rsenc_completed (hc : dataComplete s = true) (hw : s.wver ≠ 0) (h : exec .rsenc s = .next t) :
    ∃ d val, firstCells s.mem.dcw s.dcwn.toNat = some d ∧
      t = respond (storeStream s (totalCW s.wver.toNat) (codewordStream s.wecl s.wver.toNat d)) .ok val := by
  have hopen : contextOpen s = true := by simpa [contextOpen] using hw
  rw [exec_eq_finish, resultOf] at h
  rcases rsenc_cases s with ⟨hno, -⟩ | ⟨-, -, he⟩ | ⟨-, -, hno, -⟩ | ⟨-, -, -, -, he⟩ | ⟨-, -, -, d, hd, he⟩
  · simp [hopen] at hno
  · simp [he] at h
  · simp [hc] at hno
  · simp [he] at h
  · rw [he] at h; cases h; exact ⟨d, _, hd, rfl⟩

/-- An MPLACE that passes its checks and gives a next state has stored the matrix of the stream (R291). -/
theorem mplace_completed (hc : streamComplete s = true) (hw : s.wver ≠ 0) (h : exec .mplace s = .next t) :
    ∃ ws val, firstCells s.mem.fcw s.fcwn.toNat = some ws ∧
      t = respond (storeMatrix s .premask (premaskMatrix s.wver.toNat ws).flatten) .ok val := by
  have hopen : contextOpen s = true := by simpa [contextOpen] using hw
  rw [exec_eq_finish, resultOf] at h
  rcases mplace_cases s with ⟨hno, -⟩ | ⟨-, -, he⟩ | ⟨-, -, hno, -⟩ | ⟨-, -, -, -, he⟩ | ⟨-, -, -, ws, hws, he⟩
  · simp [hopen] at hno
  · simp [he] at h
  · simp [hc] at hno
  · simp [he] at h
  · rw [he] at h; cases h; exact ⟨ws, _, hws, rfl⟩

/-- A MASKSEL that passes its check and gives a next state has stored the selected candidate of the matrix (R339). -/
theorem masksel_completed (hm : s.mmv = .premask) (h : exec .masksel s = .next t) :
    ∃ cells val, firstCells s.mem.mm (s.side * s.side) = some cells ∧ t = respond (maskselState s cells) .ok val := by
  rw [exec_eq_finish, resultOf] at h
  rcases masksel_cases s with ⟨hne, -⟩ | ⟨-, -, he⟩ | ⟨-, -, -, he⟩ | ⟨-, hv, cells, -, hcells, -, -⟩
  · exact absurd hm hne
  · simp [he] at h
  · simp [he] at h
  · rw [masksel_eq_done hv hm hcells] at h; cases h; exact ⟨cells, _, hcells, rfl⟩

end

/-- Settles O43: two states that agree on a stage's inputs read the same buffer, and what the stage writes is a function
of it and of the working context. -/
theorem stagesArePure : Obligations.StagesArePure := by
  intro s s' t t' hver
  refine ⟨fun hecl hn hmem hc hw h h' => ?_, fun hn hmem hc hw h h' => ?_, fun hecl hm hm' hmem h h' => ?_⟩
  · have hc' : dataComplete s' = true := by rwa [dataComplete, ← hn, ← hecl, ← hver]
    obtain ⟨d, _, hd, rfl⟩ := rsenc_completed hc hw h
    obtain ⟨d', _, hd', rfl⟩ := rsenc_completed hc' (hver ▸ hw) h'
    obtain rfl : d = d' := by rw [hmem, hn, hd'] at hd; exact Option.some.inj hd.symm
    simp [hver, hecl]
  · have hc' : streamComplete s' = true := by rwa [streamComplete, ← hn, ← hver]
    obtain ⟨ws, _, hws, rfl⟩ := mplace_completed hc hw h
    obtain ⟨ws', _, hws', rfl⟩ := mplace_completed hc' (hver ▸ hw) h'
    obtain rfl : ws = ws' := by rw [hmem, hn, hws'] at hws; exact Option.some.inj hws.symm
    simp [hver]
  · have hside : s.side = s'.side := congrArg (fun v : BitVec 6 => side v.toNat) hver
    obtain ⟨cells, _, hcells, rfl⟩ := masksel_completed hm h
    obtain ⟨cells', _, hcells', rfl⟩ := masksel_completed hm' h'
    obtain rfl : cells = cells' := by rw [hmem, hside, hcells'] at hcells; exact Option.some.inj hcells.symm
    simp [maskselState, bestMask, maskPenalties, hver, hecl, hside]

end Sys2Proof.Proofs
end

