-- ==== Sys2Proof/Proofs/Matrix.lean ====
section
/-!
PROOFS. The family of the matrix assembler: what writing, claiming, filling and masking do to one cell (R292, R302, R304,
R332), the traversal by its bands (R302), the function patterns cell by cell (R293–R301), the number of free cells
(R384, R398), the pre-mask matrix (R291, R309), and the finders in every candidate (R340).
-/

namespace Sys2Proof.Proofs

open Sys2Proof.Machine Sys2Proof.Claims Sys2Proof.Laws

/-- The versions of the tables, as the list that facts about the tables run over (R380). -/
theorem mem_versions {v : Nat} (hv : 1 ≤ v ∧ v ≤ 40) : v ∈ List.range' 1 40 :=
  List.mem_range'_1.mpr ⟨hv.1, Nat.lt_succ_of_le hv.2⟩

/-- No matrix is smaller than that of version 1 (R6). -/
theorem le_side {v : Nat} (hv : 1 ≤ v) : 21 ≤ side v := by
  rw [side]
  omega

/-! ### Cells of a square matrix (R12, R292, R302, R304, R332) -/

section
variable {n r c : Nat} {g : Grid}

/-- Inside a square matrix a cell is read from its row. -/
theorem gridAt_eq_getElem (h : isSquare n g) (hr : r < n) (hc : c < n) :
    ∃ (hr' : r < g.length) (hc' : c < g[r].length), gridAt g r c = g[r][c] := by
  have hr' : r < g.length := h.1.symm ▸ hr
  have hc' : c < g[r].length := (h.2 _ (List.getElem_mem hr')).symm ▸ hc
  exact ⟨hr', hc', by simp [gridAt, hr', hc']⟩

/-- A write leaves every other cell, in range or not. -/
theorem gridAt_gridSet_of_ne {a b : Nat} (h : ¬ (a = r ∧ b = c)) (u : Module) :
    gridAt (gridSet g a b u) r c = gridAt g r c := by
  simp only [gridAt, gridSet, List.getD_eq_getElem?_getD, List.getElem?_modify]
  by_cases ha : a = r
  · have hb : b ≠ c := fun hb => h ⟨ha, hb⟩
    cases hrow : g[r]? <;> simp [ha, hb]
  · simp [ha]

/-- After a write the cell written holds the new value, and every other cell its old one. -/
theorem gridAt_gridSet (h : isSquare n g) (hr : r < n) (hc : c < n) (a b : Nat) (u : Module) :
    gridAt (gridSet g a b u) r c = if a = r ∧ b = c then u else gridAt g r c := by
  split
  next hab =>
    obtain ⟨rfl, rfl⟩ := hab
    obtain ⟨_, _, hnew⟩ := gridAt_eq_getElem (isSquare_gridSet h a b u) hr hc
    rw [hnew]
    simp [gridSet]
  next hab => exact gridAt_gridSet_of_ne hab u

/-- A claim writes its cell if that is still free, and changes no other (R292). -/
theorem gridAt_claim (h : isSquare n g) (hr : r < n) (hc : c < n) (x : Placement) :
    gridAt (claim g x) r c = if (x.1 = r ∧ x.2.1 = c) ∧ gridAt g r c = 0 then x.2.2 else gridAt g r c := by
  rw [claim]
  split
  next hfree =>
    rw [gridAt_gridSet h hr hc]
    exact if_congr ⟨fun hx => ⟨hx, hx.1 ▸ hx.2 ▸ hfree⟩, And.left⟩ rfl rfl
  next hused =>
    rw [if_neg]
    rintro ⟨⟨rfl, rfl⟩, hfree⟩
    exact hused hfree

/-- Writes that agree on a cell leave their value in it, if there are any (R293, R333). -/
theorem gridAt_setAll (h : isSquare n g) (hr : r < n) (hc : c < n) {xs : List Placement} {u : Module}
    (hu : ∀ w, (r, c, w) ∈ xs → w = u) :
    gridAt (setAll g xs) r c = if (r, c, u) ∈ xs then u else gridAt g r c := by
  induction xs generalizing g with
  | nil => simp [setAll]
  | cons x xs ih =>
    have htail : gridAt (setAll g (x :: xs)) r c =
        if (r, c, u) ∈ xs then u else gridAt (gridSet g x.1 x.2.1 x.2.2) r c :=
      ih (isSquare_gridSet h _ _ _) fun w hw => hu w (List.mem_cons_of_mem x hw)
    obtain ⟨a, b, w⟩ := x
    rw [htail, gridAt_gridSet h hr hc]
    by_cases hx : a = r ∧ b = c
    · obtain ⟨rfl, rfl⟩ := hx
      obtain rfl := hu w List.mem_cons_self
      simp
    · have hne : (r, c, u) ≠ (a, b, w) := by rintro ⟨⟩; exact hx ⟨rfl, rfl⟩
      simp [hx, hne]

/-- Claims that agree on a cell leave their value in it, if there are any and it was free (R292). -/
theorem gridAt_claimAll (h : isSquare n g) (hr : r < n) (hc : c < n) {xs : List Placement} {u : Module}
    (hu : ∀ w, (r, c, w) ∈ xs → w = u) :
    gridAt (claimAll g xs) r c = if (r, c, u) ∈ xs ∧ gridAt g r c = 0 then u else gridAt g r c := by
  induction xs generalizing g with
  | nil => simp [claimAll]
  | cons x xs ih =>
    have htail : gridAt (claimAll g (x :: xs)) r c =
        if (r, c, u) ∈ xs ∧ gridAt (claim g x) r c = 0 then u else gridAt (claim g x) r c :=
      ih (isSquare_claim h x) fun w hw => hu w (List.mem_cons_of_mem x hw)
    obtain ⟨a, b, w⟩ := x
    rw [htail, gridAt_claim h hr hc]
    by_cases hx : a = r ∧ b = c
    · obtain ⟨rfl, rfl⟩ := hx
      obtain rfl := hu w List.mem_cons_self
      by_cases hfree : gridAt g a b = 0
      · simp [hfree]
      · have hused {p : Prop} : ¬ (p ∧ gridAt g a b = 0) := fun hp => hfree hp.2
        rw [if_neg hused, if_neg hused, if_neg hused]
    · have hne : (r, c, u) ≠ (a, b, w) := by rintro ⟨⟩; exact hx ⟨rfl, rfl⟩
      simp [hx, hne]

/-- Nothing changes where nothing is written. -/
theorem gridAt_setAll_of_notMem (h : isSquare n g) (hr : r < n) (hc : c < n) {xs : List Placement}
    (hxs : ∀ w, (r, c, w) ∉ xs) : gridAt (setAll g xs) r c = gridAt g r c := by
  rw [gridAt_setAll h hr hc fun w hw => absurd hw (hxs w), if_neg (hxs (gridAt g r c))]

/-- The blank matrix is free everywhere (R291). -/
theorem gridAt_blankGrid (hr : r < n) (hc : c < n) : gridAt (blankGrid n) r c = 0 := by
  simp [gridAt, blankGrid, hr, hc]

/-- The remainder fills the free cells light, and no other (R304). -/
theorem gridAt_placeRemainder (h : isSquare n g) (hr : r < n) (hc : c < n) :
    gridAt (placeRemainder g) r c = if gridAt g r c = 0 then -1 else gridAt g r c := by
  obtain ⟨hr', hc', hold⟩ := gridAt_eq_getElem h hr hc
  obtain ⟨_, _, hnew⟩ := gridAt_eq_getElem (isSquare_placeRemainder h) hr hc
  rw [hnew, hold]
  simp [placeRemainder]

/-- Masking flips the data cells that satisfy the condition, and no other cell (R332). -/
theorem gridAt_applyMask (h : isSquare n g) (hr : r < n) (hc : c < n) (m : Nat) :
    gridAt (applyMask g m) r c = if isData (gridAt g r c) && maskCond m r c then -gridAt g r c else gridAt g r c := by
  obtain ⟨hr', hc', hold⟩ := gridAt_eq_getElem h hr hc
  obtain ⟨_, _, hnew⟩ := gridAt_eq_getElem (isSquare_applyMask h m) hr hc
  rw [hnew, hold]
  simp [applyMask]

/-! ### Placing the data (R302, R303) -/

/-- The data passes over a cell in use, and leaves a cell that is not on its path (R302). -/
theorem gridAt_fillData_of_passed (h : isSquare n g) (hr : r < n) (hc : c < n) {path : List (Nat × Nat)}
    (bs : List Bool) (hpass : gridAt g r c ≠ 0 ∨ (r, c) ∉ path) : gridAt (fillData path bs g) r c = gridAt g r c := by
  induction path generalizing bs g with
  | nil => cases bs <;> rfl
  | cons rc path ih =>
    have htail := hpass.imp_right fun hout hmem => hout (List.mem_cons_of_mem rc hmem)
    cases bs with
    | nil => rfl
    | cons b bs =>
      rw [fillData]
      split
      next hfree =>
        have hne : ¬ (rc.1 = r ∧ rc.2 = c) := by
          rintro ⟨rfl, rfl⟩
          exact hpass.elim (fun hused => hused hfree) fun hout => hout List.mem_cons_self
        have hset := gridAt_gridSet_of_ne (g := g) hne (dataCell b)
        rw [ih (isSquare_gridSet h _ _ _) bs (hset ▸ htail), hset]
      next => exact ih h _ htail

/-- A data cell is not free (R303). -/
theorem dataCell_ne_zero (b : Bool) : dataCell b ≠ 0 := by cases b <;> decide

/-- A free cell stays free or takes a data cell (R302). -/
theorem gridAt_fillData_of_eq_zero (h : isSquare n g) (hr : r < n) (hc : c < n) (path : List (Nat × Nat))
    (bs : List Bool) (hfree : gridAt g r c = 0) :
    gridAt (fillData path bs g) r c = 0 ∨ ∃ b, gridAt (fillData path bs g) r c = dataCell b := by
  induction path generalizing bs g with
  | nil => cases bs <;> exact .inl hfree
  | cons rc path ih =>
    cases bs with
    | nil => exact .inl hfree
    | cons b bs =>
      rw [fillData]
      split
      · have hset := gridAt_gridSet h hr hc rc.1 rc.2 (dataCell b)
        split at hset
        · have hused : gridAt (gridSet g rc.1 rc.2 (dataCell b)) r c ≠ 0 := by rw [hset]; exact dataCell_ne_zero b
          exact .inr ⟨b, (gridAt_fillData_of_passed (isSquare_gridSet h _ _ _) hr hc bs (.inl hused)).trans hset⟩
        · exact ih (isSquare_gridSet h _ _ _) bs (hset.trans hfree)
      · exact ih h _ hfree

/-- The free cell that a path without repetitions meets as the `k`-th takes bit `k`, if there is one (R302). -/
theorem gridAt_fillData_of_getElem? (h : isSquare n g) (hr : r < n) (hc : c < n) {path : List (Nat × Nat)}
    (hpath : path.Nodup) (bs : List Bool) {k : Nat}
    (hk : (path.filter fun rc => gridAt g rc.1 rc.2 = 0)[k]? = some (r, c)) :
    gridAt (fillData path bs g) r c = (bs[k]?.map dataCell).getD 0 := by
  induction path generalizing bs g k with
  | nil => simp at hk
  | cons rc path ih =>
    obtain ⟨hnew, htail⟩ := List.nodup_cons.mp hpath
    cases bs with
    | nil =>
      have hmem := List.mem_of_getElem? hk
      simpa [fillData] using (List.mem_filter.mp hmem).2
    | cons b bs =>
      rw [fillData]
      split
      next hfree =>
        rw [List.filter_cons_of_pos (by simpa using hfree)] at hk
        have hsq := isSquare_gridSet h rc.1 rc.2 (dataCell b)
        cases k with
        | zero =>
          obtain rfl : rc = (r, c) := by simpa using hk
          rw [gridAt_fillData_of_passed hsq hr hc bs (.inr hnew), gridAt_gridSet h hr hc]
          simp
        | succ k =>
          have hfilter : path.filter (fun x => gridAt (gridSet g rc.1 rc.2 (dataCell b)) x.1 x.2 = 0) =
              path.filter (fun x => gridAt g x.1 x.2 = 0) := List.filter_congr fun x hx => by
            have hne : ¬ (rc.1 = x.1 ∧ rc.2 = x.2) := fun hab => hnew ((Prod.ext hab.1 hab.2 : rc = x) ▸ hx)
            rw [gridAt_gridSet_of_ne hne]
          have hk' := hk
          rw [List.getElem?_cons_succ, ← hfilter] at hk'
          rw [ih hsq htail bs hk', List.getElem?_cons_succ]
      next hused =>
        rw [List.filter_cons_of_neg (by simpa using hused)] at hk
        exact ih h htail _ hk

end

/-! ### The traversal (R302) -/

/-- From an even right column on, the bands are two columns apart down to column 8, and 5, 3 and 1 follow (R302). -/
theorem bands_eq (fuel k : Nat) :
    bands (k + 4 + fuel) (2 * k + 6) = (List.range k).reverse.map (2 * · + 8) ++ [5, 3, 1] := by
  induction k with
  | zero => cases fuel <;> simp [bands, Nat.add_comm]
  | succ k ih =>
    have hstep : bands (k + 1 + 4 + fuel) (2 * (k + 1) + 6) = (2 * k + 8) :: bands (k + 4 + fuel) (2 * k + 6) := by
      rw [show k + 1 + 4 + fuel = k + 4 + fuel + 1 by omega, bands, if_neg (by omega), if_neg (by omega)]
      rfl
    rw [hstep, ih, List.range_succ, List.reverse_append]
    rfl

/-- The bands of a version (R302). -/
theorem bands_side (v : Nat) :
    bands (side v) (side v - 1) = (List.range (2 * v + 5)).reverse.map (2 * · + 8) ++ [5, 3, 1] := by
  rw [show side v - 1 = 2 * (2 * v + 5) + 6 by rw [side]; omega,
    show side v = (2 * v + 5) + 4 + (2 * v + 8) by rw [side]; omega]
  exact bands_eq _ _

/-- The right columns of the bands: the even ones from 8 on, and 5, 3 and 1 (R302). -/
theorem mem_bands {v b : Nat} :
    b ∈ bands (side v) (side v - 1) ↔ (∃ j < 2 * v + 5, 2 * j + 8 = b) ∨ b = 5 ∨ b = 3 ∨ b = 1 := by
  simp [bands_side]

/-- Every column but 6 lies in a band (R302). -/
theorem exists_mem_bands_iff (v c : Nat) :
    (∃ b ∈ bands (side v) (side v - 1), c = b ∨ c = b - 1) ↔ c < side v ∧ c ≠ 6 := by
  have hside : side v = 17 + 4 * v := rfl
  simp only [mem_bands]
  constructor
  · rintro ⟨b, ⟨j, hj, rfl⟩ | hb, hcb⟩ <;> omega
  · intro hc
    by_cases h7 : 7 ≤ c
    · exact ⟨2 * ((c - 7) / 2) + 8, .inl ⟨(c - 7) / 2, by omega, rfl⟩, by omega⟩
    · exact ⟨2 * (c / 2) + 1, .inr (by omega), by omega⟩

/-- The bands do not overlap: each begins left of the two columns of the one before (R302). -/
theorem pairwise_bands (v : Nat) : (bands (side v) (side v - 1)).Pairwise fun a b => b + 2 ≤ a := by
  rw [bands_side, List.pairwise_append, List.pairwise_map, List.pairwise_reverse]
  refine ⟨List.pairwise_lt_range.imp fun hij => by omega, by decide, fun a ha b hb => ?_⟩
  obtain ⟨j, -, rfl⟩ := List.mem_map.mp ha
  simp only [List.mem_cons, List.not_mem_nil, or_false] at hb
  omega

/-- The cells of one band, in the order the data takes them (R302). -/
def bandCells (n : Nat) (band : Nat × Nat) : List (Nat × Nat) :=
  (List.range n).flatMap fun t =>
    let r := if band.2 % 2 = 0 then n - 1 - t else t
    [(r, band.1), (r, band.1 - 1)]

/-- The traversal takes band after band (R302). -/
theorem traversal_eq (n : Nat) : traversal n = (bands n (n - 1)).zipIdx.flatMap (bandCells n) := rfl

/-- A band holds the cells of its two columns (R302). -/
theorem mem_bandCells {n r c : Nat} {band : Nat × Nat} :
    (r, c) ∈ bandCells n band ↔ r < n ∧ (c = band.1 ∨ c = band.1 - 1) := by
  simp only [bandCells, List.mem_flatMap, List.mem_range, List.mem_cons, List.not_mem_nil, or_false, Prod.mk.injEq]
  constructor
  · rintro ⟨t, ht, hrc⟩
    split at hrc <;> omega
  · intro hrc
    refine ⟨if band.2 % 2 = 0 then n - 1 - r else r, ?_⟩
    split <;> omega

/-- A band meets no cell twice (R302). -/
theorem nodup_bandCells (n : Nat) {band : Nat × Nat} (hpos : 1 ≤ band.1) : (bandCells n band).Nodup := by
  rw [bandCells, List.nodup_flatMap]
  refine ⟨fun t _ => by simp; omega, ?_⟩
  have hlt := List.pairwise_lt_range (n := n)
  refine (List.Pairwise.and_mem.mp hlt).imp fun {s t} hst => ?_
  obtain ⟨hs, ht, hst⟩ := hst
  rw [List.mem_range] at hs ht
  rw [Function.onFun, List.disjoint_left]
  rintro ⟨r, c⟩ h1 h2
  simp only [List.mem_cons, List.not_mem_nil, or_false, Prod.mk.injEq] at h1 h2
  split at h1 <;> split at h2 <;> omega

/-- The traversal visits exactly the cells outside column 6 (R302). -/
theorem mem_traversal {v r c : Nat} : (r, c) ∈ traversal (side v) ↔ r < side v ∧ c < side v ∧ c ≠ 6 := by
  rw [traversal_eq, List.mem_flatMap, ← exists_mem_bands_iff]
  constructor
  · rintro ⟨band, hband, hrc⟩
    obtain ⟨hr, hc⟩ := mem_bandCells.mp hrc
    exact ⟨hr, band.1, List.fst_mem_of_mem_zipIdx hband, hc⟩
  · rintro ⟨hr, b, hb, hc⟩
    obtain ⟨i, hi, rfl⟩ := List.mem_iff_getElem.mp hb
    exact ⟨(_, i), by simp [List.mem_zipIdx_iff_getElem?], mem_bandCells.mpr ⟨hr, hc⟩⟩

/-- The traversal visits no cell twice (R302). -/
theorem nodup_traversal (v : Nat) : (traversal (side v)).Nodup := by
  rw [traversal_eq, List.nodup_flatMap]
  constructor
  · intro band hband
    apply nodup_bandCells
    rcases mem_bands.mp (List.fst_mem_of_mem_zipIdx hband) with ⟨j, -, hj⟩ | hb <;> omega
  · have hpair := pairwise_bands v
    rw [← List.zipIdx_map_fst 0 (bands (side v) (side v - 1)), List.pairwise_map] at hpair
    refine hpair.imp fun {a b} hab => ?_
    rw [Function.onFun, List.disjoint_left]
    rintro ⟨r, c⟩ h1 h2
    obtain ⟨-, ha⟩ := mem_bandCells.mp h1
    obtain ⟨-, hb⟩ := mem_bandCells.mp h2
    omega

/-! ### Where the patterns lie (R293–R295, R300, R301) -/

/-- The three finders (R293). -/
abbrev AtFinder (n r c : Nat) : Prop := (r < 7 ∧ c < 7) ∨ (r < 7 ∧ n - 7 ≤ c) ∨ (n - 7 ≤ r ∧ c < 7)

/-- The separators (R294). -/
abbrev AtSeparator (n r c : Nat) : Prop :=
  (r = 7 ∧ (c ≤ 7 ∨ n - 8 ≤ c)) ∨ (c = 7 ∧ (r ≤ 7 ∨ n - 8 ≤ r)) ∨ (r ≤ 7 ∧ c = n - 8) ∨ (r = n - 8 ∧ c ≤ 7)

/-- The three finders with their separators (R293, R294). -/
abbrev AtCorner (n r c : Nat) : Prop := (r ≤ 7 ∧ c ≤ 7) ∨ (r ≤ 7 ∧ n - 8 ≤ c) ∨ (n - 8 ≤ r ∧ c ≤ 7)

/-- The timing lines (R295). -/
abbrev AtTiming (n r c : Nat) : Prop := (r = 6 ∧ 8 ≤ c ∧ c < n - 8) ∨ (c = 6 ∧ 8 ≤ r ∧ r < n - 8)

/-- The format cells and the dark module's (R300). -/
abbrev AtFormat (n r c : Nat) : Prop :=
  (r = 8 ∧ c ≠ 6 ∧ (c ≤ 8 ∨ n - 8 ≤ c)) ∨ (c = 8 ∧ r ≠ 6 ∧ (r ≤ 8 ∨ n - 8 ≤ r))

/-- The version cells of the versions that have them (R301). -/
abbrev AtVersion (n r c : Nat) : Prop :=
  (r < 6 ∧ n - 11 ≤ c ∧ c < n - 8) ∨ (n - 11 ≤ r ∧ r < n - 8 ∧ c < 6)

/-! ### Layers of placements (R292) -/

/-- The placements `xs` give the cell `(r, c)` the one value `u`, or leave it out if `u` is 0. -/
def Paints (xs : List Placement) (r c : Nat) (u : Module) : Prop := ∀ w, (r, c, w) ∈ xs ↔ w = u ∧ u ≠ 0

/-- What a claim of `new` makes of a cell that holds `old` (R292). -/
def under (old new : Module) : Module := if old = 0 then new else old

/-- A free cell takes what is claimed. -/
theorem zero_under (a : Module) : under 0 a = a := if_pos rfl

/-- Claims on claims, the first to come prevailing. -/
theorem under_assoc (a b d : Module) : under (under a b) d = under a (under b d) := by
  by_cases ha : a = 0
  · rw [ha, zero_under, zero_under]
  · have hused (x : Module) : under a x = a := if_neg ha
    rw [hused, hused, hused]

/-- A pattern prevails where it lies, and what is under it shows where it does not. -/
theorem under_ite {P : Prop} [Decidable P] {u : Module} (hu : u ≠ 0) (a : Module) :
    under (if P then u else 0) a = if P then u else a := by
  by_cases hP : P
  · rw [if_pos hP, if_pos hP, under, if_neg hu]
  · rw [if_neg hP, if_neg hP, zero_under]

/-- Placements of one value, which is not 0, in the cells of a region. -/
theorem paints_of_mem_iff {xs : List Placement} {r c : Nat} {P : Prop} [Decidable P] {u : Module} (hu : u ≠ 0)
    (h : ∀ w, (r, c, w) ∈ xs ↔ P ∧ w = u) : Paints xs r c (if P then u else 0) := by
  intro w
  rw [h w]
  by_cases hP : P
  · rw [if_pos hP]
    exact ⟨fun hw => ⟨hw.2, hu⟩, fun hw => ⟨hP, hw.1⟩⟩
  · rw [if_neg hP]
    exact ⟨fun hw => absurd hw.1 hP, fun hw => absurd rfl hw.2⟩

/-- Claiming `xs` in a matrix puts `u` under what the cell `(r, c)` holds (R292). -/
def Claims (xs : List Placement) (r c : Nat) (u : Module) : Prop :=
  ∀ (n : Nat) (g : Grid), isSquare n g → r < n → c < n → gridAt (claimAll g xs) r c = under (gridAt g r c) u

/-- Of two patterns the one claimed first prevails (R292). -/
theorem Claims.append {xs ys : List Placement} {r c : Nat} {u w : Module} (hx : Claims xs r c u)
    (hy : Claims ys r c w) : Claims (xs ++ ys) r c (under u w) := by
  intro n g h hr hc
  rw [← under_assoc, ← hx n g h hr hc, ← hy n _ (isSquare_claimAll h xs) hr hc]
  exact congrArg (gridAt · r c) List.foldl_append

/-- The value painted is written somewhere exactly if it is not 0. -/
theorem Paints.mem_iff {xs : List Placement} {r c : Nat} {u : Module} (h : Paints xs r c u) :
    (r, c, u) ∈ xs ↔ u ≠ 0 :=
  (h u).trans (and_iff_right rfl)

section
variable {n r c : Nat} {g : Grid} {xs : List Placement} {u : Module}

/-- Placements claimed one pattern at a time lie under what the matrix holds (R292). -/
theorem Paints.claims (hu : Paints xs r c u) : Claims xs r c u := by
  intro n g h hr hc
  rw [gridAt_claimAll h hr hc fun w hw => ((hu w).mp hw).1, under]
  by_cases hzero : u = 0
  · rw [if_neg fun hx => hu.mem_iff.mp hx.1 hzero, hzero]
    split_ifs with hfree
    · exact hfree
    · rfl
  · exact if_congr (and_iff_right (hu.mem_iff.mpr hzero)) rfl rfl

/-- Placements on the blank matrix are what it then holds (R291, R293). -/
theorem gridAt_setAll_blankGrid (hr : r < n) (hc : c < n) (hu : Paints xs r c u) :
    gridAt (setAll (blankGrid n) xs) r c = u := by
  rw [gridAt_setAll (isSquare_blankGrid n) hr hc fun w hw => ((hu w).mp hw).1, gridAt_blankGrid hr hc]
  split_ifs with hmem
  · rfl
  · exact (not_not.mp (mt hu.mem_iff.mpr hmem)).symm

end

/-! ### Finders, separators and timing lines (R293–R295) -/

/-- The cells of a `k` by `k` pattern with its top-left cell at `(r0, c0)` (R293, R296). -/
theorem mem_block {k r0 c0 r c : Nat} {cell : Nat → Nat → Module} {w : Module} :
    (r, c, w) ∈ ((List.range k).flatMap fun i => (List.range k).map fun j => (r0 + i, c0 + j, cell i j)) ↔
      (r0 ≤ r ∧ r < r0 + k ∧ c0 ≤ c ∧ c < c0 + k) ∧ w = cell (r - r0) (c - c0) := by
  simp only [List.mem_flatMap, List.mem_map, List.mem_range, Prod.mk.injEq]
  constructor
  · rintro ⟨i, hi, j, hj, rfl, rfl, rfl⟩
    exact ⟨by omega, by simp⟩
  · rintro ⟨hin, rfl⟩
    exact ⟨r - r0, by omega, c - c0, by omega, by omega, by omega, rfl⟩

/-- The cells of a finder (R293). -/
theorem mem_finderAt {r0 c0 r c : Nat} {w : Module} : (r, c, w) ∈ finderAt r0 c0 ↔
    (r0 ≤ r ∧ r < r0 + 7 ∧ c0 ≤ c ∧ c < c0 + 7) ∧ w = finderCell (r - r0) (c - c0) := mem_block

/-- No cell of a finder is free (R293). -/
theorem finderCell_ne_zero (i j : Nat) : finderCell i j ≠ 0 := by
  rw [finderCell]
  split_ifs <;> decide

/-- A coordinate within the finder at its end of the matrix (R293). -/
def finderCoord (n i : Nat) : Nat := if i < 7 then i else i - (n - 7)

/-- At the low end the coordinate is the finder's own (R293). -/
theorem finderCoord_of_lt {n i : Nat} (h : i < 7) : finderCoord n i = i := if_pos h

/-- At the high end the finder begins 7 from the end (R293). -/
theorem finderCoord_of_le {n i : Nat} (hn : 21 ≤ n) (h : n - 7 ≤ i) : finderCoord n i = i - (n - 7) :=
  if_neg (by omega)

/-- The timing lines begin with a dark cell and alternate (R295). -/
def timingCell (i : Nat) : Module := if i % 2 = 0 then 6 else -6

/-- No cell of a timing line is free (R295). -/
theorem timingCell_ne_zero (i : Nat) : timingCell i ≠ 0 := by
  rw [timingCell]
  split_ifs <;> decide

section
variable {n r c : Nat} (hn : 21 ≤ n) (hr : r < n) (hc : c < n)
include hn hr hc

/-- The finders lie in three corners (R293). -/
theorem paints_finders : Paints (finders n) r c
    (if AtFinder n r c then finderCell (finderCoord n r) (finderCoord n c) else 0) := by
  refine paints_of_mem_iff (finderCell_ne_zero _ _) fun w => ?_
  simp only [finders, List.mem_append, mem_finderAt, Nat.sub_zero]
  constructor
  · rintro ((⟨hin, rfl⟩ | ⟨hin, rfl⟩) | ⟨hin, rfl⟩)
    · exact ⟨by omega, by rw [finderCoord_of_lt (by omega), finderCoord_of_lt (by omega)]⟩
    · exact ⟨by omega, by rw [finderCoord_of_lt (by omega), finderCoord_of_le hn (by omega)]⟩
    · exact ⟨by omega, by rw [finderCoord_of_le hn (by omega), finderCoord_of_lt (by omega)]⟩
  · rintro ⟨⟨hlow, hleft⟩ | ⟨hlow, hright⟩ | ⟨hhigh, hleft⟩, rfl⟩
    · exact .inl (.inl ⟨by omega, by rw [finderCoord_of_lt hlow, finderCoord_of_lt hleft]⟩)
    · exact .inl (.inr ⟨by omega, by rw [finderCoord_of_lt hlow, finderCoord_of_le hn hright]⟩)
    · exact .inr ⟨by omega, by rw [finderCoord_of_le hn hhigh, finderCoord_of_lt hleft]⟩

/-- The separators run along the finders (R294). -/
theorem paints_separators : Paints (separators n) r c (if AtSeparator n r c then -5 else 0) := by
  refine paints_of_mem_iff (by decide) fun w => ?_
  simp only [separators, List.mem_flatMap, List.mem_range, List.mem_cons, Prod.mk.injEq, List.not_mem_nil, or_false]
  constructor
  · rintro ⟨i, hi, hrc⟩
    exact ⟨by omega, by tauto⟩
  · rintro ⟨⟨rfl, hin | hin⟩ | ⟨rfl, hin | hin⟩ | ⟨hin, rfl⟩ | ⟨rfl, hin⟩, rfl⟩
    · exact ⟨c, by omega, by simp⟩
    · exact ⟨c - (n - 8), by omega, by simp; omega⟩
    · exact ⟨r, by omega, by simp⟩
    · exact ⟨r - (n - 8), by omega, by simp; omega⟩
    · exact ⟨r, by omega, by simp⟩
    · exact ⟨c, by omega, by simp⟩

/-- The timing lines join the separators in row 6 and in column 6 (R295). -/
theorem paints_timing : Paints (timing n) r c (if AtTiming n r c then timingCell (r + c) else 0) := by
  refine paints_of_mem_iff (timingCell_ne_zero _) fun w => ?_
  simp only [timing, List.mem_flatMap, List.mem_range, List.mem_cons, Prod.mk.injEq, List.not_mem_nil, or_false,
    timingCell]
  constructor
  · rintro ⟨i, hi, ⟨rfl, rfl, rfl⟩ | ⟨rfl, rfl, rfl⟩⟩
    · exact ⟨by omega, if_congr (by omega) rfl rfl⟩
    · exact ⟨by omega, if_congr (by omega) rfl rfl⟩
  · rintro ⟨⟨rfl, hin⟩ | ⟨rfl, hin⟩, rfl⟩
    · exact ⟨c - 8, by omega, .inl ⟨rfl, by omega, if_congr (by omega) rfl rfl⟩⟩
    · exact ⟨r - 8, by omega, .inr ⟨by omega, rfl, if_congr (by omega) rfl rfl⟩⟩

end

/-! ### Format and version cells (R300, R301, R392, R394) -/

/-- Placements bit by bit: each has a cell of its bit, and its bit's value. -/
theorem mem_bitCells {k r c : Nat} {cells : Nat → List (Nat × Nat)} {u : Nat → Module} {w : Module} :
    (r, c, w) ∈ ((List.range k).flatMap fun i => (cells i).map fun rc => (rc.1, rc.2, u i)) ↔
      ∃ i < k, (r, c) ∈ cells i ∧ w = u i := by
  simp [eq_comm]

/-- The format cells and the dark module's lie in row 8 and column 8, beside the finders and off the timing lines
(R300, R392). -/
theorem formatCells_iff {n r c : Nat} (hn : 21 ≤ n) (hr : r < n) (hc : c < n) :
    (∃ i < 15, (r, c) ∈ formatPos n i) ∨ (r = n - 8 ∧ c = 8) ↔ AtFormat n r c := by
  simp only [formatPos, List.mem_cons, List.not_mem_nil, or_false]
  constructor
  · rintro (⟨i, hi, hrc⟩ | hrc)
    · split_ifs at hrc <;> simp only [Prod.mk.injEq] at hrc <;> omega
    · omega
  · rintro (⟨rfl, hin⟩ | ⟨rfl, hin⟩)
    · refine .inl ⟨if c ≤ 5 then 14 - c else if c ≤ 8 then 15 - c else n - 1 - c, by split_ifs <;> omega, ?_⟩
      split_ifs <;> simp <;> omega
    · by_cases hdark : r = n - 8
      · exact .inr ⟨hdark, rfl⟩
      · refine .inl ⟨if r ≤ 5 then r else if r ≤ 8 then r - 1 else r + 15 - n, by split_ifs <;> omega, ?_⟩
        split_ifs <;> simp <;> omega

/-- The version cells are two blocks of 18 beside two finders (R301, R394). -/
theorem versionCells_iff {n r c : Nat} (hn : 21 ≤ n) :
    (∃ i < 18, (r, c) ∈ versionPos n i) ↔ AtVersion n r c := by
  simp only [versionPos, List.mem_cons, List.not_mem_nil, or_false, Prod.mk.injEq]
  constructor
  · rintro ⟨i, hi, hrc⟩
    omega
  · rintro (hin | hin)
    · exact ⟨3 * r + (c - (n - 11)), by omega, .inl (by omega)⟩
    · exact ⟨3 * c + (r - (n - 11)), by omega, .inr (by omega)⟩

/-- The reserved format cells (R300). -/
theorem paints_formatReserve {n r c : Nat} (hn : 21 ≤ n) (hr : r < n) (hc : c < n) : Paints (formatReserve n) r c
    (if AtFormat n r c then -4 else 0) := by
  refine paints_of_mem_iff (by decide) fun w => ?_
  rw [← formatCells_iff hn hr hc]
  simp only [formatReserve, List.mem_append, mem_bitCells, List.mem_singleton, Prod.mk.injEq, ← and_assoc,
    exists_and_right, ← or_and_right]

/-- The reserved version cells, from version 7 on (R301). -/
theorem paints_versionReserve {v : Nat} (hv : 1 ≤ v) (r c : Nat) : Paints (versionReserve v) r c
    (if 7 ≤ v ∧ AtVersion (side v) r c then -7 else 0) := by
  refine paints_of_mem_iff (by decide) fun w => ?_
  rw [← versionCells_iff (le_side hv), versionReserve]
  split_ifs with h7
  · simp only [mem_bitCells, ← and_assoc, exists_and_right, h7, true_and]
  · simp [h7]

/-! ### Alignment patterns (R296, R390) -/

/-- The coordinates of the table: the first is 6, the last lies 7 from the end, and between any two there is room for a
pattern and more (R296, R390). -/
theorem alignPos_table : ∀ v ∈ List.range' 1 40,
    (∀ x ∈ (alignPos v).zipIdx,
      (x.2 = 0 ↔ x.1 = 6) ∧ (x.2 + 1 = (alignPos v).length ↔ x.1 + 7 = side v)) ∧
    ∀ p ∈ alignPos v, (p = 6 ∨ 18 ≤ p) ∧ (p + 7 = side v ∨ p + 19 ≤ side v) ∧
      ∀ q ∈ alignPos v, p = q ∨ p + 5 ≤ q ∨ q + 5 ≤ p := by decide

/-- The coordinates are not those of a finder (R296). -/
abbrev OffFinders (v p q : Nat) : Prop := ¬ ((p = 6 ∧ q = 6) ∨ (p = 6 ∧ q + 7 = side v) ∨ (p + 7 = side v ∧ q = 6))

/-- A coordinate is at most two away from a centre's (R296). -/
abbrev Near (p r : Nat) : Prop := r ≤ p + 2 ∧ p ≤ r + 2

/-- The cell `(r, c)` lies in the pattern centred at `(p, q)` (R296). -/
structure InPattern (v r c p q : Nat) : Prop where
  row : p ∈ alignPos v
  col : q ∈ alignPos v
  off : OffFinders v p q
  nearRow : Near p r
  nearCol : Near q c

/-- What the search for a centre finds lies near and off the finders (R296). -/
theorem alignmentCentre_eq_find? (v r c : Nat) : alignmentCentre v r c =
    ((alignPos v).product (alignPos v)).find? fun pq => OffFinders v pq.1 pq.2 ∧ Near pq.1 r ∧ Near pq.2 c := by
  rw [alignmentCentre]
  congr 1
  funext pq
  rw [Bool.eq_iff_iff]
  simp [and_assoc]

section
variable {v : Nat} (hv : 1 ≤ v ∧ v ≤ 40)
include hv

/-- Coordinates lie clear of the corners, but for the first and the last (R390). -/
theorem alignPos_bounds {p : Nat} (hp : p ∈ alignPos v) :
    (p = 6 ∨ 18 ≤ p) ∧ (p + 7 = side v ∨ p + 19 ≤ side v) := by
  obtain ⟨-, hall⟩ := alignPos_table v (mem_versions hv)
  obtain ⟨hlow, hhigh, -⟩ := hall p hp
  exact ⟨hlow, hhigh⟩

/-- No coordinate lies near two centres (R296). -/
theorem eq_of_near {p q r : Nat} (hp : p ∈ alignPos v) (hq : q ∈ alignPos v) (hpr : Near p r) (hqr : Near q r) :
    p = q := by
  obtain ⟨-, hall⟩ := alignPos_table v (mem_versions hv)
  obtain ⟨-, -, hgap⟩ := hall p hp
  obtain ⟨hpr1, hpr2⟩ := hpr
  obtain ⟨hqr1, hqr2⟩ := hqr
  rcases hgap q hq with heq | hlt | hgt <;> omega

/-- A cell lies in the pattern of at most one centre, and that is the one found (R296). -/
theorem alignmentCentre_eq_some_iff {r c p q : Nat} :
    alignmentCentre v r c = some (p, q) ↔ InPattern v r c p q := by
  have hfound {p q : Nat} (h : alignmentCentre v r c = some (p, q)) : InPattern v r c p q := by
    rw [alignmentCentre_eq_find?] at h
    obtain ⟨hp, hq⟩ := List.pair_mem_product.mp (List.mem_of_find?_eq_some h)
    obtain ⟨hoff, hpr, hqc⟩ := decide_eq_true_eq.mp (List.find?_some (p := fun _ => decide _) h)
    exact ⟨hp, hq, hoff, hpr, hqc⟩
  refine ⟨hfound, fun h => ?_⟩
  cases hx : alignmentCentre v r c with
  | none =>
    rw [alignmentCentre_eq_find?, List.find?_eq_none] at hx
    have hno := hx (p, q) (List.pair_mem_product.mpr ⟨h.row, h.col⟩)
    exact absurd (decide_eq_true ⟨h.off, h.nearRow, h.nearCol⟩) hno
  | some pq =>
    have h' := hfound hx
    rw [eq_of_near hv h.row h'.row h.nearRow h'.nearRow, eq_of_near hv h.col h'.col h.nearCol h'.nearCol]

/-- The placements of the patterns, centre by centre (R296). -/
theorem mem_alignments {r c : Nat} {w : Module} :
    (r, c, w) ∈ alignments v ↔ ∃ p q, InPattern v r c p q ∧ w = alignmentCell (r + 2 - p) (c + 2 - q) := by
  obtain ⟨hidx, -⟩ := alignPos_table v (mem_versions hv)
  have hcells {p q : Nat} (hp : p ∈ alignPos v) (hq : q ∈ alignPos v) :
      (r, c, w) ∈ alignmentAt p q ↔ (Near p r ∧ Near q c) ∧ w = alignmentCell (r + 2 - p) (c + 2 - q) := by
    obtain ⟨hp6, -⟩ := alignPos_bounds hv hp
    obtain ⟨hq6, -⟩ := alignPos_bounds hv hq
    rw [alignmentAt, mem_block, show r - (p - 2) = r + 2 - p by omega, show c - (q - 2) = c + 2 - q by omega]
    exact and_congr_left' (by omega)
  simp only [alignments, List.mem_flatMap]
  constructor
  · rintro ⟨⟨p, i⟩, hpi, ⟨q, j⟩, hqj, hmem⟩
    obtain ⟨hi0, hilast⟩ := hidx _ hpi
    obtain ⟨hj0, hjlast⟩ := hidx _ hqj
    have hp := List.fst_mem_of_mem_zipIdx hpi
    have hq := List.fst_mem_of_mem_zipIdx hqj
    split_ifs at hmem with hoff
    · simp at hmem
    · obtain ⟨⟨hpr, hqc⟩, hw⟩ := (hcells hp hq).mp hmem
      rw [hi0, hj0, hilast, hjlast] at hoff
      exact ⟨p, q, ⟨hp, hq, hoff, hpr, hqc⟩, hw⟩
  · rintro ⟨p, q, ⟨hp, hq, hoff, hpr, hqc⟩, hw⟩
    obtain ⟨i, hi, rfl⟩ := List.mem_iff_getElem.mp hp
    obtain ⟨j, hj, rfl⟩ := List.mem_iff_getElem.mp hq
    have hpi : ((alignPos v)[i], i) ∈ (alignPos v).zipIdx := by simp [List.mem_zipIdx_iff_getElem?]
    have hqj : ((alignPos v)[j], j) ∈ (alignPos v).zipIdx := by simp [List.mem_zipIdx_iff_getElem?]
    obtain ⟨hi0, hilast⟩ := hidx _ hpi
    obtain ⟨hj0, hjlast⟩ := hidx _ hqj
    refine ⟨_, hpi, _, hqj, ?_⟩
    rw [if_neg (by rw [hi0, hj0, hilast, hjlast]; exact hoff)]
    exact (hcells hp hq).mpr ⟨⟨hpr, hqc⟩, hw⟩
end

/-- No cell of an alignment pattern is free (R296). -/
theorem alignmentCell_ne_zero (i j : Nat) : alignmentCell i j ≠ 0 := by
  rw [alignmentCell]
  split_ifs <;> decide

/-- What the alignment patterns hold: the cell of the pattern the place lies in, if any (R296). -/
def alignmentValue (v r c : Nat) : Module :=
  match alignmentCentre v r c with
  | some (p, q) => alignmentCell (r + 2 - p) (c + 2 - q)
  | none => 0

/-- In the pattern of a centre (R296). -/
theorem alignmentValue_of_some {v r c p q : Nat} (h : alignmentCentre v r c = some (p, q)) :
    alignmentValue v r c = alignmentCell (r + 2 - p) (c + 2 - q) := by
  rw [alignmentValue, h]

/-- Away from all centres (R296). -/
theorem alignmentValue_of_none {v r c : Nat} (h : alignmentCentre v r c = none) : alignmentValue v r c = 0 := by
  rw [alignmentValue, h]

/-- The alignment patterns (R296). -/
theorem paints_alignments {v : Nat} (hv : 1 ≤ v ∧ v ≤ 40) (r c : Nat) :
    Paints (alignments v) r c (alignmentValue v r c) := by
  intro w
  simp only [mem_alignments hv, ← alignmentCentre_eq_some_iff hv, alignmentValue]
  cases alignmentCentre v r c with
  | none => simp
  | some pq =>
    constructor
    · rintro ⟨p, q, hpq, rfl⟩
      cases hpq
      exact ⟨rfl, alignmentCell_ne_zero _ _⟩
    · rintro ⟨rfl, -⟩
      exact ⟨_, _, rfl, rfl⟩

/-! ### The cells before the data (R290, R293–R301) -/

/-- At a finder (R293). -/
theorem patternCell_of_atFinder {v r c : Nat} (hv : 1 ≤ v) (hF : AtFinder (side v) r c) :
    patternCell v r c = finderCell (finderCoord (side v) r) (finderCoord (side v) c) := by
  have hn := le_side hv
  rcases hF with ⟨hlow, hleft⟩ | ⟨hlow, hright⟩ | ⟨hhigh, hleft⟩
  · rw [patternCell, if_pos ⟨hlow, hleft⟩, finderCoord_of_lt hlow, finderCoord_of_lt hleft]
  · rw [patternCell, if_neg (by omega), if_pos ⟨hlow, hright⟩, finderCoord_of_lt hlow, finderCoord_of_le hn hright]
  · rw [patternCell, if_neg (by omega), if_neg (by omega), if_pos ⟨hhigh, hleft⟩, finderCoord_of_le hn hhigh,
      finderCoord_of_lt hleft]

/-- In a corner beside its finder lies a separator (R294). -/
theorem patternCell_of_atCorner {v r c : Nat} (hF : ¬ AtFinder (side v) r c) (hC : AtCorner (side v) r c) :
    patternCell v r c = -5 := by
  simp only [AtFinder, not_or] at hF
  obtain ⟨h1, h2, h3⟩ := hF
  rw [patternCell, if_neg h1, if_neg h2, if_neg h3, if_pos hC]

/-- Outside the corners row 6 and column 6 are the timing lines (R295). -/
theorem patternCell_of_timing {v r c : Nat} (hC : ¬ AtCorner (side v) r c) (h6 : r = 6 ∨ c = 6) :
    patternCell v r c = timingCell (r + c) := by
  rw [patternCell, if_neg (by omega), if_neg (by omega), if_neg (by omega), if_neg hC, timingCell]
  by_cases hr6 : r = 6
  · rw [if_pos hr6]
    exact if_congr (by omega) rfl rfl
  · rw [if_neg hr6, if_pos (h6.resolve_left hr6)]
    exact if_congr (by omega) rfl rfl

/-- Elsewhere are the alignment patterns, the format cells, the version cells and the free cells (R296, R300, R301). -/
theorem patternCell_of_inner {v r c : Nat} (hv : 1 ≤ v ∧ v ≤ 40) (hC : ¬ AtCorner (side v) r c) (hr6 : r ≠ 6)
    (hc6 : c ≠ 6) :
    patternCell v r c = under (alignmentValue v r c)
      (if AtFormat (side v) r c then -4 else if 7 ≤ v ∧ AtVersion (side v) r c then -7 else 0) := by
  rw [patternCell, if_neg (by omega), if_neg (by omega), if_neg (by omega), if_neg hC, if_neg hr6, if_neg hc6]
  cases hx : alignmentCentre v r c with
  | none =>
    rw [alignmentValue_of_none hx, zero_under]
    exact if_congr (by omega) rfl (if_congr (by omega) rfl rfl)
  | some pq =>
    obtain ⟨p, q⟩ := pq
    obtain ⟨-, -, -, hpr, hqc⟩ := (alignmentCentre_eq_some_iff hv).mp hx
    rw [alignmentValue_of_some hx, under, if_neg (alignmentCell_ne_zero _ _), alignmentCell, ← ite_or]
    exact if_congr (by omega) rfl rfl

/-- Before the data every cell is as the rules of the patterns say (R290, R293–R301). -/
theorem gridAt_functionPatterns {v r c : Nat} (hv : 1 ≤ v ∧ v ≤ 40) (hr : r < side v) (hc : c < side v) :
    gridAt (functionPatterns v) r c = patternCell v r c := by
  have hn : 21 ≤ side v := le_side hv.1
  have hclaims := ((((paints_separators hn hr hc).claims.append (paints_timing hn hr hc).claims).append
    (paints_alignments hv r c).claims).append (paints_formatReserve hn hr hc).claims).append
    (paints_versionReserve hv.1 r c).claims
  rw [functionPatterns, hclaims _ _ (isSquare_setAll (isSquare_blankGrid _) _) hr hc,
    gridAt_setAll_blankGrid hr hc (paints_finders hn hr hc)]
  simp only [under_assoc]
  rw [under_ite (finderCell_ne_zero _ _), under_ite (by decide), under_ite (timingCell_ne_zero _),
    under_ite (by decide)]
  by_cases hF : AtFinder (side v) r c
  · rw [if_pos hF, patternCell_of_atFinder hv.1 hF]
  by_cases hC : AtCorner (side v) r c
  · rw [if_neg hF, if_pos (by omega), patternCell_of_atCorner hF hC]
  by_cases h6 : r = 6 ∨ c = 6
  · rw [if_neg hF, if_neg (by omega), if_pos (by omega), patternCell_of_timing hC h6]
  · obtain ⟨hr6, hc6⟩ := not_or.mp h6
    rw [if_neg hF, if_neg (by omega), if_neg (by omega), patternCell_of_inner hv hC hr6 hc6]

/-! ### The number of free cells (R384, R398) -/

/-- A cell is free if no pattern and no reservation takes it (R290). -/
theorem patternCell_eq_zero_iff {v r c : Nat} (hv : 1 ≤ v ∧ v ≤ 40) : patternCell v r c = 0 ↔
    ¬ AtCorner (side v) r c ∧ r ≠ 6 ∧ c ≠ 6 ∧ ¬ AtFormat (side v) r c ∧ ¬ (7 ≤ v ∧ AtVersion (side v) r c) ∧
      alignmentCentre v r c = none := by
  by_cases hF : AtFinder (side v) r c
  · have hC : AtCorner (side v) r c := by omega
    simp only [patternCell_of_atFinder hv.1 hF, finderCell_ne_zero, hC, not_true, false_and]
  by_cases hC : AtCorner (side v) r c
  · simp only [patternCell_of_atCorner hF hC, hC, not_true, false_and, iff_false]
    decide
  by_cases h6 : r = 6 ∨ c = 6
  · rw [patternCell_of_timing hC h6]
    exact iff_of_false (timingCell_ne_zero _) fun ⟨_, hr6, hc6, _⟩ => h6.elim hr6 hc6
  · obtain ⟨hr6, hc6⟩ := not_or.mp h6
    rw [patternCell_of_inner hv hC hr6 hc6]
    cases hx : alignmentCentre v r c with
    | some pq =>
      rw [alignmentValue_of_some hx, under, if_neg (alignmentCell_ne_zero _ _)]
      exact iff_of_false (alignmentCell_ne_zero _ _) (by simp)
    | none =>
      rw [alignmentValue_of_none hx, zero_under]
      split_ifs with hformat hversion
      · exact iff_of_false (by decide) fun ⟨_, _, _, hno, _⟩ => hno hformat
      · exact iff_of_false (by decide) fun ⟨_, _, _, _, hno, _⟩ => hno hversion
      · exact iff_of_true rfl ⟨hC, hr6, hc6, hformat, hversion, rfl⟩

/-- The cells of a matrix that satisfy a condition, counted row by row. -/
theorem sum_countP_eq_card (n : Nat) (p : Nat → Nat → Prop) [∀ r c, Decidable (p r c)] :
    ((List.range n).map fun r => (List.range n).countP fun c => p r c).sum =
      ((Finset.range n ×ˢ Finset.range n).filter fun rc => p rc.1 rc.2).card := by
  rw [Finset.card_filter, Finset.sum_product]
  have hrow (r : Nat) : ∑ c ∈ Finset.range n, (if p r c then 1 else 0) = (List.range n).countP fun c => p r c := by
    rw [← Finset.card_filter, List.countP_eq_length_filter]
    rfl
  simp only [hrow]
  rfl

/-- Rows and columns 0 to 8 but for the timing line (R293–R295, R300). -/
def edge : Finset Nat := (Finset.range 9).erase 6

/-- The cells that finders, separators, timing lines and format cells leave (R293–R295, R300). -/
def openCells (n : Nat) : Finset (Nat × Nat) :=
  Finset.Ico 9 n ×ˢ Finset.Ico 9 n ∪ (edge ×ˢ Finset.Ico 9 (n - 8) ∪ Finset.Ico 9 (n - 8) ×ˢ edge)

/-- The edge by its numbers. -/
theorem mem_edge {r : Nat} : r ∈ edge ↔ r ≤ 8 ∧ r ≠ 6 := by
  simp [edge]; omega

/-- The open cells are those outside corners, timing lines and format cells. -/
theorem mem_openCells {n r c : Nat} (hn : 21 ≤ n) : (r, c) ∈ openCells n ↔
    (r < n ∧ c < n) ∧ ¬ AtCorner n r c ∧ r ≠ 6 ∧ c ≠ 6 ∧ ¬ AtFormat n r c := by
  simp only [openCells, Finset.mem_union, Finset.mem_product, Finset.mem_Ico, mem_edge]
  omega

/-- The number of open cells. -/
theorem card_openCells {n : Nat} (hn : 21 ≤ n) : (openCells n).card = (n - 9) * (n - 9) + 16 * (n - 17) := by
  have hedge : edge.card = 8 := rfl
  rw [openCells, Finset.card_union_of_disjoint, Finset.card_union_of_disjoint]
  · simp only [Finset.card_product, Nat.card_Ico, hedge]
    omega
  · rw [Finset.disjoint_left]
    rintro ⟨r, c⟩ h1 h2
    simp only [Finset.mem_product, Finset.mem_Ico, mem_edge] at h1 h2
    omega
  · rw [Finset.disjoint_left]
    rintro ⟨r, c⟩ h1 h2
    simp only [Finset.mem_union, Finset.mem_product, Finset.mem_Ico, mem_edge] at h1 h2
    omega

/-- The version cells (R301). -/
def versionCells (n : Nat) : Finset (Nat × Nat) :=
  Finset.range 6 ×ˢ Finset.Ico (n - 11) (n - 8) ∪ Finset.Ico (n - 11) (n - 8) ×ˢ Finset.range 6

/-- The version cells by their place. -/
theorem mem_versionCells {n r c : Nat} : (r, c) ∈ versionCells n ↔ AtVersion n r c := by
  simp only [versionCells, Finset.mem_union, Finset.mem_product, Finset.mem_Ico, Finset.mem_range]
  omega

/-- There are 36 version cells (R301). -/
theorem card_versionCells {n : Nat} (hn : 21 ≤ n) : (versionCells n).card = 36 := by
  rw [versionCells, Finset.card_union_of_disjoint]
  · simp only [Finset.card_product, Nat.card_Ico, Finset.card_range]
    omega
  · rw [Finset.disjoint_left]
    rintro ⟨r, c⟩ h1 h2
    simp only [Finset.mem_product, Finset.mem_Ico, Finset.mem_range] at h1 h2
    omega

/-- The rows, and columns, that come near a coordinate (R296). -/
def alignBand (v : Nat) : Finset Nat := (alignPos v).toFinset.biUnion fun p => Finset.Icc (p - 2) (p + 2)

/-- The rows of the band that come near the first coordinate, but for the timing line (R296). -/
def lowBand : Finset Nat := (Finset.Icc 4 8).erase 6

/-- The rows that come near the last coordinate (R296). -/
def highBand (n : Nat) : Finset Nat := Finset.Icc (n - 9) (n - 5)

/-- Where the bands cross at the three finders, off the timing lines (R296). -/
def finderCrossings (n : Nat) : Finset (Nat × Nat) :=
  lowBand ×ˢ lowBand ∪ (lowBand ×ˢ highBand n ∪ highBand n ×ˢ lowBand)

/-- The cells of the alignment patterns off the timing lines: where the bands cross, but at the finders (R296). -/
def alignmentCells (v : Nat) : Finset (Nat × Nat) :=
  ((alignBand v).erase 6 ×ˢ (alignBand v).erase 6) \ finderCrossings (side v)

/-- The band by the coordinates (R296). -/
theorem mem_alignBand {v r : Nat} (hv : 1 ≤ v ∧ v ≤ 40) : r ∈ alignBand v ↔ ∃ p ∈ alignPos v, Near p r := by
  simp only [alignBand, Finset.mem_biUnion, List.mem_toFinset, Finset.mem_Icc]
  refine exists_congr fun p => and_congr_right fun hp => ?_
  obtain ⟨hp6, -⟩ := alignPos_bounds hv hp
  omega

/-- How many coordinates there are, and that the first and the last are among them (R390). -/
theorem alignPos_count : ∀ v ∈ List.range' 1 40, (alignPos v).Nodup ∧
    (v = 1 ∨ (alignPos v).length = v / 7 + 2 ∧ 6 ∈ alignPos v ∧ side v - 7 ∈ alignPos v) := by decide

/-- Every coordinate brings five rows into the band (R296, R390). -/
theorem card_alignBand {v : Nat} (hv : 1 ≤ v ∧ v ≤ 40) : (alignBand v).card = 5 * (alignPos v).length := by
  obtain ⟨hnodup, -⟩ := alignPos_count v (mem_versions hv)
  rw [alignBand, Finset.card_biUnion, Finset.sum_congr rfl (g := fun _ => 5), Finset.sum_const,
    List.toFinset_card_of_nodup hnodup, smul_eq_mul, Nat.mul_comm]
  · intro p hp
    obtain ⟨hp6, -⟩ := alignPos_bounds hv (List.mem_toFinset.mp hp)
    rw [Nat.card_Icc]
    omega
  · intro p hp q hq hne
    rw [Finset.mem_coe, List.mem_toFinset] at hp hq
    refine Finset.disjoint_left.mpr fun r hpr hqr => hne ?_
    rw [Finset.mem_Icc] at hpr hqr
    exact eq_of_near hv hp hq (r := r) (by omega) (by omega)

/-- The cells of the alignment patterns by their centres (R296). -/
theorem mem_alignmentCells {v r c : Nat} (hv : 1 ≤ v ∧ v ≤ 40) :
    (r, c) ∈ alignmentCells v ↔ r ≠ 6 ∧ c ≠ 6 ∧ ∃ p q, InPattern v r c p q := by
  simp only [alignmentCells, finderCrossings, Finset.mem_sdiff, Finset.mem_union, Finset.mem_product, Finset.mem_erase,
    mem_alignBand hv, lowBand, highBand, Finset.mem_Icc]
  constructor
  · rintro ⟨⟨⟨hr6, p, hp, hpr⟩, hc6, q, hq, hqc⟩, hout⟩
    exact ⟨hr6, hc6, p, q, hp, hq, by omega, hpr, hqc⟩
  · rintro ⟨hr6, hc6, p, q, hp, hq, hoff, hpr, hqc⟩
    have hpb := alignPos_bounds hv hp
    have hqb := alignPos_bounds hv hq
    exact ⟨⟨⟨hr6, p, hp, hpr⟩, hc6, q, hq, hqc⟩, by omega⟩

/-- Version 1 has no alignment pattern (R390). -/
theorem alignmentCells_one : alignmentCells 1 = ∅ := by
  have hband : alignBand 1 = ∅ := rfl
  simp [alignmentCells, hband]

/-- The first coordinate brings its rows into the band (R296). -/
theorem lowBand_subset {v : Nat} (hv : 1 ≤ v ∧ v ≤ 40) (hfirst : 6 ∈ alignPos v) : lowBand ⊆ (alignBand v).erase 6 := by
  intro r hr
  simp only [lowBand, Finset.mem_erase, Finset.mem_Icc] at hr
  exact Finset.mem_erase.mpr ⟨hr.1, (mem_alignBand hv).mpr ⟨6, hfirst, by omega⟩⟩

/-- The last coordinate brings its rows into the band, none of them the timing line's (R296). -/
theorem highBand_subset {v : Nat} (hv : 2 ≤ v ∧ v ≤ 40) (hlast : side v - 7 ∈ alignPos v) :
    highBand (side v) ⊆ (alignBand v).erase 6 := by
  have hside : side v = 17 + 4 * v := rfl
  intro r hr
  simp only [highBand, Finset.mem_Icc] at hr
  exact Finset.mem_erase.mpr ⟨by omega, (mem_alignBand (by omega)).mpr ⟨_, hlast, by omega⟩⟩

/-- The finders hide 56 of the crossings off the timing lines. -/
theorem card_finderCrossings {n : Nat} (hn : 21 ≤ n) : (finderCrossings n).card = 56 := by
  have hlow : lowBand.card = 4 := rfl
  have hhigh : (highBand n).card = 5 := by rw [highBand, Nat.card_Icc]; omega
  have hdisj : Disjoint lowBand (highBand n) := by
    refine Finset.disjoint_left.mpr fun r h1 h2 => ?_
    simp only [lowBand, highBand, Finset.mem_erase, Finset.mem_Icc] at h1 h2
    omega
  rw [finderCrossings, Finset.card_union_of_disjoint, Finset.card_union_of_disjoint]
  · simp only [Finset.card_product, hhigh, hlow]
  · exact Finset.disjoint_product.mpr (.inl hdisj)
  · exact Finset.disjoint_union_right.mpr
      ⟨Finset.disjoint_product.mpr (.inr hdisj), Finset.disjoint_product.mpr (.inl hdisj)⟩

/-- Five rows and five columns a coordinate, less the timing line and the three finders (R296, R384). -/
theorem card_alignmentCells {v : Nat} (hv : 2 ≤ v ∧ v ≤ 40) :
    (alignmentCells v).card = (5 * (v / 7 + 2) - 1) * (5 * (v / 7 + 2) - 1) - 56 := by
  have hv' : 1 ≤ v ∧ v ≤ 40 := by omega
  obtain ⟨-, hone | ⟨hlen, hfirst, hlast⟩⟩ := alignPos_count v (mem_versions hv')
  · omega
  have hlow := lowBand_subset hv' hfirst
  have hhigh := highBand_subset hv hlast
  have h6 : 6 ∈ alignBand v := (mem_alignBand hv').mpr ⟨6, hfirst, by omega⟩
  have hsub : finderCrossings (side v) ⊆ (alignBand v).erase 6 ×ˢ (alignBand v).erase 6 :=
    Finset.union_subset (Finset.product_subset_product hlow hlow) (Finset.union_subset
      (Finset.product_subset_product hlow hhigh) (Finset.product_subset_product hhigh hlow))
  rw [alignmentCells, Finset.card_sdiff_of_subset hsub, card_finderCrossings (le_side hv'.1), Finset.card_product,
    Finset.card_erase_of_mem h6, card_alignBand hv', hlen]

/-- The open cells that the alignment patterns and the version cells of a version take (R296, R301). -/
def takenCells (v : Nat) : Finset (Nat × Nat) :=
  alignmentCells v ∪ if 7 ≤ v then versionCells (side v) else ∅

/-- The taken cells by their place. -/
theorem mem_takenCells {v r c : Nat} (hv : 1 ≤ v ∧ v ≤ 40) : (r, c) ∈ takenCells v ↔
    (r ≠ 6 ∧ c ≠ 6 ∧ ∃ p q, InPattern v r c p q) ∨ (7 ≤ v ∧ AtVersion (side v) r c) := by
  rw [takenCells, Finset.mem_union, mem_alignmentCells hv]
  refine or_congr_right ?_
  split_ifs with h7 <;> simp [h7, mem_versionCells]

/-- Alignment patterns and version cells lie clear of all that was placed before, but for the timing lines. -/
theorem takenCells_subset {v : Nat} (hv : 1 ≤ v ∧ v ≤ 40) : takenCells v ⊆ openCells (side v) := by
  have hside : side v = 17 + 4 * v := rfl
  rintro ⟨r, c⟩ h
  rw [mem_openCells (le_side hv.1)]
  rcases (mem_takenCells hv).mp h with ⟨hr6, hc6, p, q, hin⟩ | ⟨h7, hin⟩
  · obtain ⟨hp, hq, hoff, hpr, hqc⟩ := hin
    have hpb := alignPos_bounds hv hp
    have hqb := alignPos_bounds hv hq
    omega
  · omega

/-- The number of open cells that alignment patterns and version cells take (R384). -/
theorem card_takenCells {v : Nat} (hv : 1 ≤ v ∧ v ≤ 40) : (takenCells v).card =
    (if v = 1 then 0 else (5 * (v / 7 + 2) - 1) * (5 * (v / 7 + 2) - 1) - 56) + if 7 ≤ v then 36 else 0 := by
  rw [takenCells, Finset.card_union_of_disjoint]
  · congr 1
    · split_ifs with h1
      · rw [h1, alignmentCells_one, Finset.card_empty]
      · exact card_alignmentCells (by omega)
    · split_ifs
      · exact card_versionCells (le_side hv.1)
      · rfl
  · refine Finset.disjoint_left.mpr ?_
    rintro ⟨r, c⟩ h1 h2
    split_ifs at h2 with h7
    · obtain ⟨hr6, hc6, p, q, hp, hq, hoff, hpr, hqc⟩ := (mem_alignmentCells hv).mp h1
      have hpb := alignPos_bounds hv hp
      have hqb := alignPos_bounds hv hq
      rw [mem_versionCells] at h2
      omega
    · simp at h2

/-- The formula of R384 is the number of open cells less the taken ones. -/
theorem rawModules_eq : ∀ v ∈ List.range' 1 40, rawModules v =
    (side v - 9) * (side v - 9) + 16 * (side v - 17) -
      ((if v = 1 then 0 else (5 * (v / 7 + 2) - 1) * (5 * (v / 7 + 2) - 1) - 56) + if 7 ≤ v then 36 else 0) := by decide

/-- The free cells hold the codewords and the remainder bits (R384, R398). -/
theorem rawModules_eq_totalCW {v : Nat} (hv : 1 ≤ v ∧ v ≤ 40) : rawModules v = 8 * totalCW v + remBits v := by
  rw [totalCW_eq_rawModules v (mem_versions hv), remBits, Nat.div_add_mod]

/-- The free cells are the open cells that are not taken (R290). -/
theorem freeCells_eq {v : Nat} (hv : 1 ≤ v ∧ v ≤ 40) :
    ((Finset.range (side v) ×ˢ Finset.range (side v)).filter fun rc => patternCell v rc.1 rc.2 = 0) =
      openCells (side v) \ takenCells v := by
  ext ⟨r, c⟩
  rw [Finset.mem_filter, Finset.mem_sdiff, mem_openCells (le_side hv.1), mem_takenCells hv, patternCell_eq_zero_iff hv,
    Finset.mem_product, Finset.mem_range, Finset.mem_range]
  have hnone : alignmentCentre v r c = none ↔ ¬ ∃ p q, InPattern v r c p q := by
    simp [← alignmentCentre_eq_some_iff hv, Option.eq_none_iff_forall_ne_some]
  rw [hnone]
  constructor
  · rintro ⟨hrc, hC, hr6, hc6, hformat, hversion, hno⟩
    refine ⟨⟨hrc, hC, hr6, hc6, hformat⟩, ?_⟩
    rintro (⟨-, -, hin⟩ | hin)
    exacts [hno hin, hversion hin]
  · rintro ⟨⟨hrc, hC, hr6, hc6, hformat⟩, hout⟩
    exact ⟨hrc, hC, hr6, hc6, hformat, fun hin => hout (.inr hin), fun hin => hout (.inl ⟨hr6, hc6, hin⟩)⟩

/-- As many cells are free as the formula of R384 says. -/
theorem card_freeCells {v : Nat} (hv : 1 ≤ v ∧ v ≤ 40) :
    ((Finset.range (side v) ×ˢ Finset.range (side v)).filter fun rc => patternCell v rc.1 rc.2 = 0).card =
      rawModules v := by
  rw [freeCells_eq hv, Finset.card_sdiff_of_subset (takenCells_subset hv), card_takenCells hv,
    card_openCells (le_side hv.1), rawModules_eq v (mem_versions hv)]

/-! ### The pre-mask matrix (R302–R304, R309) -/

section
variable {v r c : Nat} (hr : r < side v) (hc : c < side v) (ws : List Byte)
include hr hc

/-- After the data, the remainder (R291). -/
theorem gridAt_premaskMatrix : gridAt (premaskMatrix v ws) r c =
    let u := gridAt (fillData (traversal (side v)) (streamBits ws) (functionPatterns v)) r c
    if u = 0 then -1 else u :=
  gridAt_placeRemainder (isSquare_fillData (isSquare_functionPatterns v) _ _) hr hc

/-- A cell of a pattern stays as it is (R302, R304). -/
theorem gridAt_premaskMatrix_of_ne_zero (hused : gridAt (functionPatterns v) r c ≠ 0) :
    gridAt (premaskMatrix v ws) r c = gridAt (functionPatterns v) r c := by
  have hfill := gridAt_fillData_of_passed (isSquare_functionPatterns v) hr hc (path := traversal (side v))
    (streamBits ws) (.inl hused)
  rw [gridAt_premaskMatrix hr hc, hfill]
  exact if_neg hused

/-- A free cell becomes a data cell (R302–R304). -/
theorem gridAt_premaskMatrix_of_eq_zero (hfree : gridAt (functionPatterns v) r c = 0) :
    gridAt (premaskMatrix v ws) r c = 1 ∨ gridAt (premaskMatrix v ws) r c = -1 := by
  rw [gridAt_premaskMatrix hr hc]
  rcases gridAt_fillData_of_eq_zero (isSquare_functionPatterns v) hr hc (traversal (side v)) (streamBits ws) hfree
    with hfill | ⟨b, hfill⟩
  · simp [hfill]
  · cases b <;> simp [hfill, dataCell]

/-- The free cell met as the `k`-th holds bit `k`, or light past the end of the stream (R302–R304). -/
theorem gridAt_premaskMatrix_of_getElem? {k : Nat}
    (hk : ((traversal (side v)).filter fun rc => gridAt (functionPatterns v) rc.1 rc.2 = 0)[k]? = some (r, c)) :
    gridAt (premaskMatrix v ws) r c = if (streamBits ws)[k]? = some true then 1 else -1 := by
  rw [gridAt_premaskMatrix hr hc,
    gridAt_fillData_of_getElem? (isSquare_functionPatterns v) hr hc (nodup_traversal v) _ hk]
  cases (streamBits ws)[k]? with
  | none => rfl
  | some b => cases b <;> rfl

end

/-- No cell is left 0 (R304). -/
theorem zero_notMem_flatten_placeRemainder (g : Grid) : (0 : Module) ∉ (placeRemainder g).flatten := by
  simp only [placeRemainder, List.mem_flatten, List.mem_map, not_exists, not_and]
  rintro _ ⟨row, -, rfl⟩ hmem
  obtain ⟨u, -, hu⟩ := List.mem_map.mp hmem
  split at hu
  next => exact absurd hu (by decide)
  next hne => exact hne hu

/-- Settles O37: the whole stream gives a square matrix, and the remainder leaves no cell 0. -/
theorem mplaceCompletes : Obligations.MplaceCompletes := by
  intro s ws hlow hhigh hcount hread
  have hv : versionOk s.wver.toNat = true := versionOk_iff.mpr ⟨hlow, hhigh⟩
  exact ⟨_, exec_of_done (i := .mplace) (mplace_eq_done hv (by simpa [streamComplete] using hcount) hread),
    length_flatten_of_isSquare (isSquare_premaskMatrix _ ws), zero_notMem_flatten_placeRemainder _, rfl⟩

/-- Settles O38: the patterns cell by cell, and the free cells counted as what the patterns leave of the matrix. -/
theorem premaskKeepsPatterns : Obligations.PremaskKeepsPatterns := by
  intro v ws hlow hhigh
  have hv : 1 ≤ v ∧ v ≤ 40 := ⟨hlow, hhigh⟩
  refine ⟨fun r c hr hc => ⟨gridAt_functionPatterns hv hr hc, gridAt_premaskMatrix_of_ne_zero hr hc ws,
    gridAt_premaskMatrix_of_eq_zero hr hc ws⟩, ?_⟩
  rw [sum_countP_eq_card (side v) fun r c => gridAt (functionPatterns v) r c = 0, ← rawModules_eq_totalCW hv,
    ← card_freeCells hv]
  refine congrArg Finset.card (Finset.filter_congr fun rc hrc => ?_)
  obtain ⟨hr, hc⟩ := Finset.mem_product.mp hrc
  rw [gridAt_functionPatterns hv (Finset.mem_range.mp hr) (Finset.mem_range.mp hc)]

/-- Settles O39: the traversal by its bands, and the data along it. -/
theorem dataFollowsTraversal : Obligations.DataFollowsTraversal := by
  intro v ws _ _
  refine ⟨nodup_traversal v, fun r c => mem_traversal, fun k r c hk => ?_⟩
  obtain ⟨hmem, -⟩ := List.mem_filter.mp (List.mem_of_getElem? hk)
  obtain ⟨hr, hc, -⟩ := mem_traversal.mp hmem
  exact gridAt_premaskMatrix_of_getElem? hr hc ws hk

/-! ### The finders in every candidate (R332, R333, R340) -/

/-- The format and version information goes to the cells reserved for it (R333). -/
theorem atFormat_or_atVersion_of_mem {ecl : EcLevel} {m v r c : Nat} {w : Module} (hv : 1 ≤ v) (hr : r < side v)
    (hc : c < side v) (h : (r, c, w) ∈ formatInfo ecl m (side v) ++ versionInfo v) :
    AtFormat (side v) r c ∨ AtVersion (side v) r c := by
  have hn : 21 ≤ side v := le_side hv
  rcases List.mem_append.mp h with h | h
  · left
    rw [← formatCells_iff hn hr hc]
    simp only [formatInfo, List.mem_append, mem_bitCells, List.mem_singleton, Prod.mk.injEq] at h
    rcases h with ⟨i, hi, hcell, -⟩ | ⟨hrow, hcol, -⟩
    exacts [.inl ⟨i, hi, hcell⟩, .inr ⟨hrow, hcol⟩]
  · right
    rw [versionInfo] at h
    split at h
    · obtain ⟨i, hi, hcell, -⟩ := mem_bitCells.mp h
      exact (versionCells_iff hn).mp ⟨i, hi, hcell⟩
    · simp at h

/-- A cell that is neither of data magnitude nor reserved for information is the same in every candidate (R332,
R333). -/
theorem gridAt_candidate {g : Grid} {v r c : Nat} (hv : 1 ≤ v) (h : isSquare (side v) g) (hr : r < side v)
    (hc : c < side v) (hdata : isData (gridAt g r c) = false) (hformat : ¬ AtFormat (side v) r c)
    (hversion : ¬ AtVersion (side v) r c) (ecl : EcLevel) (m : Nat) :
    gridAt (candidate g ecl v m) r c = gridAt g r c := by
  rw [candidate, writeInfo, gridAt_setAll_of_notMem (isSquare_applyMask h m) hr hc fun w hw =>
    (atFormat_or_atVersion_of_mem hv hr hc hw).elim hformat hversion, gridAt_applyMask h hr hc, hdata]
  rfl

/-- A finder cell is not of data magnitude (R293, R332). -/
theorem isData_finderCell (i j : Nat) : isData (finderCell i j) = false := by
  rw [finderCell]
  split_ifs <;> decide

/-- Before masking and in every candidate a finder's cell is as R293 has it (R340). -/
theorem gridAt_of_atFinder {v r c : Nat} (hv : 1 ≤ v ∧ v ≤ 40) (hr : r < side v) (hc : c < side v)
    (hF : AtFinder (side v) r c) (ws : List Byte) (ecl : EcLevel) (m : Nat) {g : Grid}
    (hg : g ∈ [premaskMatrix v ws, candidate (premaskMatrix v ws) ecl v m]) :
    gridAt g r c = finderCell (finderCoord (side v) r) (finderCoord (side v) c) := by
  have hcell := (gridAt_functionPatterns hv hr hc).trans (patternCell_of_atFinder hv.1 hF)
  have hpre : gridAt (premaskMatrix v ws) r c = _ :=
    (gridAt_premaskMatrix_of_ne_zero hr hc ws (hcell ▸ finderCell_ne_zero _ _)).trans hcell
  have hside : side v = 17 + 4 * v := rfl
  rcases List.mem_pair.mp hg with rfl | rfl
  · exact hpre
  · rw [gridAt_candidate hv.1 (isSquare_premaskMatrix v ws) hr hc (hpre ▸ isData_finderCell _ _) (by omega)
      (by omega), hpre]

/-- Settles O40: each of the three corners is a finder, whose cells nothing later touches. -/
theorem findersSurvive : Obligations.FindersSurvive := by
  intro v ws ecl m i j hlow hhigh _ hi hj g hg
  have hside : side v = 17 + 4 * v := rfl
  have hfar (k : Nat) : finderCoord (side v) (side v - 7 + k) = k := by
    rw [finderCoord_of_le (le_side hlow) (Nat.le_add_right _ k), Nat.add_sub_cancel_left]
  have hat {r c : Nat} (hr : r < side v) (hc : c < side v) (hF : AtFinder (side v) r c) :=
    gridAt_of_atFinder ⟨hlow, hhigh⟩ hr hc hF ws ecl m hg
  refine ⟨?_, ?_, ?_⟩
  · rw [hat (by omega) (by omega) (by omega), finderCoord_of_lt hi, finderCoord_of_lt hj]
  · rw [hat (by omega) (by omega) (by omega), finderCoord_of_lt hi, hfar]
  · rw [hat (by omega) (by omega) (by omega), hfar, finderCoord_of_lt hj]

end Sys2Proof.Proofs
end

