-- ==== Sys2Proof/Proofs/MaskingAccess.lean ====
section
/-!
PROOFS. The family of masking, of the access commands and of the exceptions: words that are no command (R412), what an
error leaves (R410), SETA, LD, ST and RDR (R360–R364), masking and the information cells of a candidate (R332, R333),
MASKSEL (R339), and the four penalties (R334–R337).
-/

namespace Sys2Proof.Proofs

open Sys2Proof.Machine Sys2Proof.Claims Sys2Proof.Laws

/-! ### Words that are no command (R412) -/

/-- A word that no row of the map admits decodes to no command (R93, R94). -/
theorem exists_decode_error {w : Word} (h : ∀ row ∈ opcodeMap, w &&& row.mask ≠ row.pattern) :
    ∃ e, decode w = .error e := by
  cases hd : decode w with
  | ok i =>
    obtain ⟨row, hrow, hmask⟩ := (decodeIsTheMap w).1.mp ⟨i, hd⟩
    exact absurd hmask (h row hrow)
  | error e => exact ⟨e, rfl⟩

/-- Every row asks for its own opcode, which is one of 0x01..0x10, and for zeros elsewhere (R93). -/
theorem opcodeMap_shape : ∀ row ∈ opcodeMap, field row.mask 24 8 = BitVec.allOnes 8 ∧
    (1 ≤ (field row.pattern 24 8).toNat ∧ (field row.pattern 24 8).toNat ≤ 0x10) ∧
    row.pattern = field row.pattern 24 8 ++ 0#24 := by decide

/-- Under a mask that asks for the whole opcode the opcode stays. -/
theorem field_opcode_and {mask : Word} (h : field mask 24 8 = BitVec.allOnes 8) (w : Word) :
    field (w &&& mask) 24 8 = field w 24 8 := by
  rw [field] at h
  rw [field, field, BitVec.extractLsb'_and, h, BitVec.and_allOnes]

/-- A word is admitted by a row exactly when it has the row's opcode and none of the bits the row reserves (R93,
R94). -/
theorem and_mask_eq_pattern_iff {row : OpcodeRow} (hrow : row ∈ opcodeMap) (w : Word) :
    w &&& row.mask = row.pattern ↔
      field w 24 8 = field row.pattern 24 8 ∧ field (w &&& row.mask) 0 24 = 0 := by
  obtain ⟨hmask, -, hpattern⟩ := opcodeMap_shape row hrow
  rw [← field_opcode_and hmask w, ← eq_formatZ_iff, ← hpattern]

/-- Settles O3: the step answers what does not decode, and a row asks for its opcode and for zeros in the bits it
reserves. -/
theorem illegalWordChangesNothing : Obligations.IllegalWordChangesNothing := by
  intro s w rest hc
  refine ⟨fun h => ?_, fun hop row hrow h => ?_, fun row hrow hop => ?_⟩
  · obtain ⟨e, he⟩ := exists_decode_error h
    exact step_of_decode_error (takeCommand_of_cons hc) he
  · obtain ⟨-, hrange, -⟩ := opcodeMap_shape row hrow
    rw [← ((and_mask_eq_pattern_iff hrow w).mp h).1] at hrange
    rcases hop with hop | hop
    · rw [hop] at hrange
      exact absurd hrange.1 (by decide)
    · omega
  · rw [Ne, and_mask_eq_pattern_iff hrow w, and_iff_right hop]

/-! ### What an error leaves (R410) -/

/-- RENDER raises nothing but what BITASM's checks raise, and those write nothing (R135, R241). -/
theorem render_raised {k : BitVec 4} {s u : State} {e : ResCode} {v : Word} (h : render k s = .raised u e v) :
    u = s := by
  rcases bitasm_cases k s with
    ⟨-, he⟩ | ⟨-, -, he⟩ | ⟨-, -, -, he⟩ | ⟨-, -, -, -, he⟩ | ⟨hp, hk, hseg, hv, -⟩
  case inr.inr.inr.inr =>
    have hr : Renderable k s := ⟨renderAccepted_iff.mp hp, by simpa [symbolExists] using hk, hseg, hv⟩
    simp [render_eq_done hr] at h
  case inr.inr.inr.inl => simp [render_eq_stages, he] at h
  all_goals
    rw [render_of_bitasm_raised he] at h
    cases h
    rfl

/-- A command other than APPEND that raises an error has written nothing before it (R410). -/
theorem resultOf_raised {i : Instr} {s u : State} {e : ResCode} {v : Word} (hi : i ≠ .append)
    (h : resultOf i s = .raised u e v) : u = s := by
  cases i with
  | reset => cases h
  | cfg ecl maxver sa cs =>
    rcases cfg_cases Config.platform ecl maxver sa cs s with ⟨-, he⟩ | ⟨-, -, he⟩ | ⟨-, -, -, he⟩ | ⟨-, -, -, he⟩ <;>
      cases he.symm.trans h <;> rfl
  | setlen n => rcases setlen_cases n s with ⟨-, he⟩ | ⟨-, he⟩ <;> cases he.symm.trans h; rfl
  | append => exact absurd rfl hi
  | render k => exact render_raised h
  | bitasm k =>
    rcases bitasm_cases k s with
      ⟨-, he⟩ | ⟨-, -, he⟩ | ⟨-, -, -, he⟩ | ⟨-, -, -, -, he⟩ | ⟨-, -, -, -, he⟩ <;> cases he.symm.trans h <;> rfl
  | rsenc =>
    rcases rsenc_cases s with
      ⟨-, he⟩ | ⟨-, -, he⟩ | ⟨-, -, -, he⟩ | ⟨-, -, -, -, he⟩ | ⟨-, -, -, d, -, he⟩ <;> cases he.symm.trans h <;> rfl
  | mplace =>
    rcases mplace_cases s with
      ⟨-, he⟩ | ⟨-, -, he⟩ | ⟨-, -, -, he⟩ | ⟨-, -, -, -, he⟩ | ⟨-, -, -, ws, -, he⟩ <;> cases he.symm.trans h <;> rfl
  | masksel =>
    rcases masksel_cases s with ⟨-, he⟩ | ⟨-, -, he⟩ | ⟨-, -, -, he⟩ | ⟨-, -, cells, penc, -, -, he⟩ <;>
      cases he.symm.trans h; rfl
  | setw ver ecl => rcases setw_cases ver ecl s with ⟨-, he⟩ | ⟨-, he⟩ <;> cases he.symm.trans h; rfl
  | modesel mode ver idx => exact modesel_state (congrArg stateOf h)
  | gfmul a b => cases h
  | seta space idx => rcases seta_cases space idx s with ⟨sp, -, he⟩ | ⟨-, he⟩ <;> cases he.symm.trans h; rfl
  | ld => rcases load_cases s with ⟨x, -, he⟩ | ⟨-, he⟩ | ⟨-, he⟩ <;> cases he.symm.trans h; rfl
  | st x => rcases store_cases Config.platform x s with ⟨t, -, he⟩ | ⟨-, he⟩ <;> cases he.symm.trans h; rfl
  | rdr regno => rcases readRegister_cases regno s with ⟨x, -, he⟩ | ⟨-, he⟩ <;> cases he.symm.trans h; rfl

/-- Settles O52: a command answers what its rule ended in, and one that raised has written nothing. -/
theorem failureChangesNothing : Obligations.FailureChangesNothing := by
  intro i s t res val hi hexec hresps hres
  rw [exec_eq_finish] at hexec
  cases hr : resultOf i s with
  | done u v =>
    obtain rfl : respond u .ok v = t := by simpa [hr] using hexec
    have hlast := congrArg List.getLast? hresps
    simp only [respond_resps, List.getLast?_append, List.getLast?_singleton, Option.some_or, Option.some.injEq,
      Response.mk.injEq] at hlast
    exact absurd hlast.1.symm hres
  | raised u e v =>
    obtain rfl : respond u e v = t := by simpa [hr] using hexec
    obtain rfl := resultOf_raised hi hr
    obtain ⟨rfl, rfl⟩ : e = res ∧ v = val := by simpa using hresps
    rfl
  | stuck f => simp [hr] at hexec

/-! ### SETA (R361) -/

/-- The id of an address space names it. -/
theorem spaceOfId_spaceCode (sp : Space) : spaceOfId (spaceCode sp) = some sp := by
  cases sp <;> decide

/-- The ids 0..4 are those of the address spaces (R60). -/
theorem exists_spaceCode {c : BitVec 4} (h : c.toNat ≤ 4) : ∃ sp, spaceCode sp = c := by
  have htable : ∀ c : BitVec 4, c.toNat ≤ 4 →
      c = spaceCode .txt ∨ c = spaceCode .dcw ∨ c = spaceCode .fcw ∨ c = spaceCode .mm ∨ c = spaceCode .qm := by
    decide
  rcases htable c h with rfl | rfl | rfl | rfl | rfl <;> exact ⟨_, rfl⟩

/-- The ids 5..15 name no address space (R60). -/
theorem spaceOfId_of_reserved : ∀ c : BitVec 4, 4 < c.toNat → spaceOfId c = none := by decide

/-- Settles O46: the id names a space, or SETA refuses it. -/
theorem setaSelects : Obligations.SetaSelects := by
  intro space idx s
  refine ⟨fun hlow => ?_, fun hhigh => ?_⟩
  · obtain ⟨sp, rfl⟩ := exists_spaceCode hlow
    exact ⟨sp, rfl, exec_of_done (i := .seta (spaceCode sp) idx) (by simp [resultOf, seta, spaceOfId_spaceCode])⟩
  · exact exec_of_raised (i := .seta space idx)
      (by simp [resultOf, seta, spaceOfId_of_reserved space hhigh, addressError])

/-! ### LD (R62, R362) -/

/-- LD answers what `MemRead` gives, and advances. -/
theorem exec_ld_of_value {s : State} {x : Word} (h : memRead s s.aspace s.aidx.toNat = .value x) :
    exec .ld s = .next (respond { s with aidx := s.aidx + 1 } .ok x) :=
  exec_of_done (i := .ld) (by simp [resultOf, load, h, advanceAidx])

/-- LD refuses what `MemRead` refuses, and nothing moves. -/
theorem exec_ld_of_refused {s : State} (h : memRead s s.aspace s.aidx.toNat = .refused) :
    exec .ld s = .next (respond s .address (s.aidx.setWidth 32)) :=
  exec_of_raised (i := .ld) (by simp [resultOf, load, h, addressError])

/-- A place of an `n` by `m` array, row by row, is below its size. -/
theorem rowMajor_lt {n m r c : Nat} (hr : r < n) (hc : c < m) : r * m + c < n * m := by
  calc r * m + c < r * m + m := by omega
    _ = (r + 1) * m := (Nat.succ_mul r m).symm
    _ ≤ n * m := Nat.mul_le_mul_right m hr

/-- The row and the column of a place of an array of `m` columns. -/
theorem rowMajor_div_mod {m r c : Nat} (hc : c < m) : (r * m + c) / m = r ∧ (r * m + c) % m = c := by
  rw [Nat.add_comm, Nat.add_mul_div_right _ _ (by omega), Nat.add_mul_mod_self_right, Nat.div_eq_of_lt hc,
    Nat.mod_eq_of_lt hc, Nat.zero_add]
  exact ⟨rfl, rfl⟩

section
variable {s : State} {r c : Nat}

/-- The quiet-zone view of a final matrix by row and column: the matrix inside the border of 4, and 0 on it (R74). -/
theorem readQuiet_at (hm : s.mmv = .final) (hr : r < s.side + 8) (hc : c < s.side + 8) :
    readQuiet s (r * (s.side + 8) + c) =
      if 4 ≤ r ∧ r < 4 + s.side ∧ 4 ≤ c ∧ c < 4 + s.side then
        readCell s.mem.mm (s.side * s.side) ((r - 4) * s.side + (c - 4))
      else .value 0 := by
  obtain ⟨hdiv, hmod⟩ := rowMajor_div_mod (r := r) hc
  have hlt := rowMajor_lt hr hc
  simp only [readQuiet, show qzWidth = 4 from rfl, hm, hlt, hdiv, hmod,
    and_self, if_true]

/-- Without a final matrix, or past its end, the quiet-zone view refuses (R74). -/
theorem readQuiet_refused {idx : Nat} (h : s.mmv ≠ .final ∨ (s.side + 8) * (s.side + 8) ≤ idx) :
    readQuiet s idx = .refused := by
  have hno : ¬ (s.mmv = .final ∧ idx < (s.side + 2 * qzWidth) * (s.side + 2 * qzWidth)) :=
    fun ⟨hm, hidx⟩ => h.elim (· hm) hidx.not_ge
  exact if_neg hno

/-- A cell of `MM`, sign-extended (R62, R75). -/
theorem memRead_mm {x : Module} (hm : s.mmv ≠ .empty) (hr : r < s.side) (hc : c < s.side)
    (hx : cellAt s.mem.mm (r * s.side + c) = some x) :
    memRead s .mm (r * s.side + c) = .value (x.signExtend 32) := by
  simp [memRead, hm, readCell_of_cellAt (rowMajor_lt hr hc) hx, sextRead]

/-- A cell of `QM` inside the border is the cell of `MM`, sign-extended (R62, R74). -/
theorem memRead_qm_inside {x : Module} (hm : s.mmv = .final) (hr : r < s.side) (hc : c < s.side)
    (hx : cellAt s.mem.mm (r * s.side + c) = some x) :
    memRead s .qm ((r + 4) * (s.side + 8) + (c + 4)) = .value (x.signExtend 32) := by
  rw [memRead, readQuiet_at hm (by omega) (by omega), if_pos (by omega), Nat.add_sub_cancel, Nat.add_sub_cancel,
    readCell_of_cellAt (rowMajor_lt hr hc) hx, sextRead]

/-- A cell of `QM` on the border is 0 (R62, R74). -/
theorem memRead_qm_border (hm : s.mmv = .final) (hr : r < s.side + 8) (hc : c < s.side + 8)
    (hborder : r < 4 ∨ s.side + 4 ≤ r ∨ c < 4 ∨ s.side + 4 ≤ c) :
    memRead s .qm (r * (s.side + 8) + c) = .value 0 := by
  rw [memRead, readQuiet_at hm hr hc, if_neg (by omega)]
  rfl

end

/-- Settles O47: LD is `MemRead`, space by space. -/
theorem ldReads : Obligations.LdReads := by
  intro s
  refine ⟨fun x hsp hi hx => ?_, fun x hsp hi hx => ?_, fun x hsp hi hx => ?_, fun x r c hsp hm hr hc hi hx => ?_,
    fun x r c hsp hm hr hc hi hx => ?_, fun r c hsp hm hr hc hborder hi => ?_, fun h => exec_ld_of_refused ?_⟩
  · exact exec_ld_of_value (by rw [hsp, memRead, readCell_of_cellAt hi hx, zextRead])
  · exact exec_ld_of_value (by rw [hsp, memRead, readCell_of_cellAt hi hx, zextRead])
  · exact exec_ld_of_value (by rw [hsp, memRead, readCell_of_cellAt hi hx, zextRead])
  · exact exec_ld_of_value (by rw [hsp, hi, memRead_mm hm hr hc hx])
  · exact exec_ld_of_value (by rw [hsp, hi, memRead_qm_inside hm hr hc hx])
  · exact exec_ld_of_value (by rw [hsp, hi, memRead_qm_border hm hr hc hborder])
  · rcases h with ⟨hsp, hi⟩ | ⟨hsp, hi⟩ | ⟨hsp, hi⟩ | ⟨hsp, hm⟩ | ⟨hsp, hm⟩ <;> rw [hsp, memRead]
    · rw [readCell_of_le hi, zextRead]
    · rw [readCell_of_le hi, zextRead]
    · rw [readCell_of_le hi, zextRead]
    · split
      · rfl
      next hne => rw [readCell_of_le (hm.resolve_left hne), sextRead]
    · rw [readQuiet_refused hm, sextRead]

/-! ### ST (R62, R363) -/

/-- ST leaves what `MemWrite` leaves, and advances. -/
theorem exec_st_of_memWrite {v : BitVec 16} {s t : State}
    (h : memWrite Config.platform s s.aspace s.aidx.toNat v = some t) :
    exec (.st v) s = .next (respond (advanceAidx t) .ok 0) :=
  exec_of_done (i := .st v) (by simp [resultOf, store, h])

/-- ST refuses what `MemWrite` refuses, and nothing changes. -/
theorem exec_st_of_refused {v : BitVec 16} {s : State}
    (h : memWrite Config.platform s s.aspace s.aidx.toNat v = none) :
    exec (.st v) s = .next (respond s .address (s.aidx.setWidth 32)) :=
  exec_of_raised (i := .st v) (by simp [resultOf, store, h, addressError])

/-- The valid length after a store is one more exactly if the store was at the end (R62). -/
theorem storeLength_toNat {w idx : Nat} {n : BitVec w} (hw : idx + 1 < 2 ^ w) :
    (storeLength n idx).toNat = if idx = n.toNat then n.toNat + 1 else n.toNat := by
  rw [storeLength]
  split
  next hend =>
    rw [BitVec.toNat_add, BitVec.ofNat_eq_ofNat, BitVec.toNat_ofNat, Nat.add_mod_mod]
    exact Nat.mod_eq_of_lt (hend ▸ hw)
  · rfl

/-- After a store without a hole its cell reads back, and every other index reads as before: a cell below the old length
is the old cell, and none is added but the one stored (R62). -/
theorem readCell_store {α : Type} {w idx : Nat} {n : BitVec w} (c : Cells α) (v : α) (hidx : idx ≤ n.toNat)
    (hw : idx + 1 < 2 ^ w) (i : Nat) :
    readCell (cellPut c idx v) (storeLength n idx).toNat i =
      if i = idx then .value v else readCell c n.toNat i := by
  have hlen := storeLength_toNat (n := n) hw
  split
  next hi =>
    subst hi
    exact readCell_of_cellAt (by rw [hlen]; split <;> omega) (cellAt_cellPut_self c i v)
  next hi =>
    have hbound : (storeLength n idx).toNat ≤ i ↔ n.toNat ≤ i := by rw [hlen]; split <;> omega
    simp only [readCell, hbound, cellAt_cellPut_ne c v hi]

/-- The element a store of `v` leaves, as LD returns it: `DCW` and `FCW` keep the low 8 bits (R60, R62). -/
def storedWord (sp : Space) (v : BitVec 16) : Word :=
  match sp with
  | .txt => v.setWidth 32
  | _ => (v.setWidth 8).setWidth 32

/-- After `MemWrite` the element reads back, and every other element of every space reads as before (R62). -/
theorem memRead_memWrite {s t : State} {sp : Space} {idx : Nat} {v : BitVec 16}
    (h : memWrite Config.platform s sp idx v = some t) (sp' : Space) (i : Nat) :
    memRead t sp' i = if (sp', i) = (sp, idx) then .value (storedWord sp v) else memRead s sp' i := by
  rcases memWrite_cases h with ⟨rfl, hidx, hlt, rfl⟩ | ⟨rfl, hidx, hlt, rfl⟩ | ⟨rfl, hidx, hlt, rfl⟩
  · have hw : idx + 1 < 2 ^ 16 := by have := txtSize_le; omega
    cases sp' with
    | txt => simp only [memRead, readCell_store _ _ hidx hw, Prod.mk.injEq, true_and]; split <;> rfl
    | dcw | fcw | mm | qm => rfl
  · have hw : idx + 1 < 2 ^ 12 := by rw [dcwSize] at hlt; omega
    cases sp' with
    | dcw => simp only [memRead, readCell_store _ _ hidx hw, Prod.mk.injEq, true_and]; split <;> rfl
    | txt | fcw | mm | qm => rfl
  · have hw : idx + 1 < 2 ^ 12 := by rw [fcwSize] at hlt; omega
    cases sp' with
    | fcw => simp only [memRead, readCell_store _ _ hidx hw, Prod.mk.injEq, true_and]; split <;> rfl
    | txt | dcw | mm | qm => rfl

/-- An accepted store: the state it leaves, the element it wrote, and every other element (R62, R363). -/
theorem st_stores {v : BitVec 16} {s t : State} {sp : Space} (hsp : s.aspace = sp)
    (h : memWrite Config.platform s sp s.aidx.toNat v = some t) :
    exec (.st v) s = .next (respond (advanceAidx t) .ok 0) ∧
      memRead (respond (advanceAidx t) .ok 0) sp s.aidx.toNat = .value (storedWord sp v) ∧
      ∀ sp' i, (sp', i) ≠ (sp, s.aidx.toNat) → memRead (respond (advanceAidx t) .ok 0) sp' i = memRead s sp' i := by
  have hsame (sp' : Space) (i : Nat) : memRead (respond (advanceAidx t) .ok 0) sp' i = memRead t sp' i := by
    cases sp' <;> rfl
  refine ⟨exec_st_of_memWrite (by rw [hsp, h]), ?_, fun sp' i hne => ?_⟩
  · rw [hsame, memRead_memWrite h, if_pos rfl]
  · rw [hsame, memRead_memWrite h, if_neg hne]

/-- Settles O48: the three writable spaces by the law of an accepted store, and the reasons of a refusal. -/
theorem stStores : Obligations.StStores := by
  intro v s
  refine ⟨fun hsp hn hsize => ?_, fun hsp hn hsize => ?_, fun hsp hn hsize => ?_, fun h => ?_⟩
  · obtain ⟨hexec, hself, hother⟩ := st_stores (v := v) hsp (if_pos (storeOk_iff.mpr ⟨hn, hsize⟩))
    exact ⟨_, hexec, rfl, hself, hother⟩
  · obtain ⟨hexec, hself, hother⟩ := st_stores (v := v) hsp (if_pos (storeOk_iff.mpr ⟨hn, hsize⟩))
    exact ⟨_, hexec, rfl, hself, hother⟩
  · obtain ⟨hexec, hself, hother⟩ := st_stores (v := v) hsp (if_pos (storeOk_iff.mpr ⟨hn, hsize⟩))
    exact ⟨_, hexec, rfl, hself, hother⟩
  · refine exec_st_of_refused (memWrite_eq_none_iff.mpr ?_)
    rcases h with ⟨hsp, hi⟩ | ⟨hsp, hi⟩ | ⟨hsp, hi⟩ | hsp | hsp <;> rw [hsp]
    exacts [hi, hi, hi, trivial, trivial]

/-! ### RDR (R364) -/

/-- RDR answers the value of a register, and writes nothing. -/
theorem exec_rdr_of_value {n : BitVec 8} {s : State} {v : Word} (h : registerValue s n = some v) :
    exec (.rdr n) s = .next (respond s .ok v) :=
  exec_of_done (i := .rdr n) (by simp [resultOf, readRegister, h])

/-- RDR refuses a number that names no register, and writes nothing. -/
theorem exec_rdr_of_none {n : BitVec 8} {s : State} (h : registerValue s n = none) :
    exec (.rdr n) s = .next (respond s .argument (n.setWidth 32)) :=
  exec_of_raised (i := .rdr n) (by simp [resultOf, readRegister, h, argumentError])

/-- `PEN[m]` has number `0x10 + m` (R27). -/
theorem registerValue_pen (s : State) (m : Fin 8) :
    registerValue s (BitVec.ofNat 8 (0x10 + m.val)) = some s.pen[m] := by
  fin_cases m <;> rfl

/-- `PENC[m][t]` has number `0x20 + 4m + t` (R27). -/
theorem registerValue_penc (s : State) (m : Fin 8) (t : Fin 4) :
    registerValue s (BitVec.ofNat 8 (0x20 + 4 * m.val + t.val)) = some s.penc[m][t] := by
  fin_cases m <;> fin_cases t <;> rfl

/-- Field `f` of slot `k` has number `0x80 + 8k + f` (R30). -/
theorem registerValue_slot (s : State) (k : Fin 16) (f : Fin 8) :
    registerValue s (BitVec.ofNat 8 (0x80 + 8 * k.val + f.val)) = slotRegister s.slots[k] f.val := by
  fin_cases k <;> fin_cases f <;> rfl

/-- The numbers 0x1C..0x1F and 0x40..0x7F name no register (R364). -/
theorem registerValue_undefined {n : BitVec 8} (s : State)
    (h : (0x1C ≤ n.toNat ∧ n.toNat ≤ 0x1F) ∨ (0x40 ≤ n.toNat ∧ n.toNat ≤ 0x7F)) : registerValue s n = none := by
  rcases h with ⟨hlow, hhigh⟩ | ⟨hlow, hhigh⟩
  · rw [registerValue, if_neg (by omega), if_neg (by omega), if_pos (by omega)]
    have hcases : n.toNat = 0x1C ∨ n.toNat = 0x1D ∨ n.toNat = 0x1E ∨ n.toNat = 0x1F := by omega
    rcases hcases with hn | hn | hn | hn <;> rw [hn] <;> rfl
  · rw [registerValue, if_neg (by omega), if_neg (by omega), if_neg (by omega), if_neg (by omega), if_pos (by omega)]

/-- The eight fields of a slot, in order (R30). -/
theorem slotRegister_eq_getElem? (x : Slot) (f : Fin 8) :
    slotRegister x f.val = [x.ver.setWidth 32, x.cap.setWidth 32, x.cnt.setWidth 32, (modeCode x.mode).setWidth 32,
      x.segnNumeric.setWidth 32, x.segnAlphanumeric.setWidth 32, x.segnByte.setWidth 32,
      x.segnKanji.setWidth 32][f.val]? := by
  fin_cases f <;> rfl

/-- A slot at its reset values reads as zeros (R364). -/
theorem slotRegister_reset (f : Fin 8) : slotRegister .reset f.val = some 0 := by
  fin_cases f <;> rfl

/-- Settles O49: register by register, and a slot never created is at its reset values. -/
theorem rdrReads : Obligations.RdrReads := by
  intro s
  refine ⟨fun n v h => exec_rdr_of_value ?_, fun m => exec_rdr_of_value (registerValue_pen s m),
    fun m t => exec_rdr_of_value (registerValue_penc s m t),
    fun k f v hv => exec_rdr_of_value ?_,
    fun n hn => exec_rdr_of_none (registerValue_undefined s hn), fun k f hg hk => exec_rdr_of_value ?_⟩
  · refine (?_ : ∀ x ∈ _, registerValue s x.1 = some x.2) (n, v) h
    simp only [List.forall_mem_cons]
    exact ⟨rfl, rfl, rfl, rfl, rfl, rfl, rfl, rfl, rfl, rfl, rfl, rfl, rfl, rfl, rfl, rfl, rfl, rfl, rfl, rfl,
      List.forall_mem_nil _⟩
  · rw [registerValue_slot, slotRegister_eq_getElem?]
    exact hv
  · have hslot : s.slots[k] = .reset := hg.uncreated (BitVec.ofFin k) hk
    rw [registerValue_slot, hslot, slotRegister_reset]

/-! ### The four access commands together (R360) -/

/-- Settles O50: the two ends of SETA, LD, ST and RDR, of which only ST's success writes a buffer, and that as
`MemWrite` does. -/
theorem accessOnly : Obligations.AccessOnly := by
  intro i s t hi h
  rw [exec_eq_finish] at h
  rcases hi with ⟨space, idx, rfl⟩ | rfl | ⟨v, rfl⟩ | ⟨n, rfl⟩
  · rcases seta_cases space idx s with ⟨sp, -, he⟩ | ⟨-, he⟩ <;> rw [resultOf, he] at h <;> cases h <;>
      exact ⟨rfl, fun _ => ⟨rfl, rfl, rfl, rfl⟩, _, rfl, by simp⟩
  · rcases load_cases s with ⟨x, -, he⟩ | ⟨-, he⟩ | ⟨-, he⟩ <;> rw [resultOf, he] at h <;> cases h <;>
      exact ⟨rfl, fun _ => ⟨rfl, rfl, rfl, rfl⟩, _, rfl, by simp⟩
  · rcases store_cases Config.platform v s with ⟨u, hu, he⟩ | ⟨-, he⟩ <;> rw [resultOf, he] at h <;> cases h
    · rcases memWrite_cases hu with ⟨-, -, -, rfl⟩ | ⟨-, -, -, rfl⟩ | ⟨-, -, -, rfl⟩ <;>
        exact ⟨rfl, fun hne => absurd rfl (hne v), _, rfl, by simp⟩
    · exact ⟨rfl, fun _ => ⟨rfl, rfl, rfl, rfl⟩, _, rfl, by simp⟩
  · rcases readRegister_cases n s with ⟨x, -, he⟩ | ⟨-, he⟩ <;> rw [resultOf, he] at h <;> cases h <;>
      exact ⟨rfl, fun _ => ⟨rfl, rfl, rfl, rfl⟩, _, rfl, by simp⟩


/-! ### Masking (R332) -/

/-- A cell of data magnitude is 1 or −1 (R332). -/
theorem isData_iff {v : Module} : isData v = true ↔ v = 1 ∨ v = -1 := by
  simp [isData]

/-- What masking does to the cell at `(r, c)` (R332). -/
def maskCell (m r c : Nat) (v : Module) : Module := if isData v && maskCond m r c then -v else v

/-- Masking a cell twice restores it: the condition reads the place and the magnitude, which stay (R332). -/
theorem maskCell_maskCell (m r c : Nat) (v : Module) : maskCell m r c (maskCell m r c v) = v := by
  have hneg : ∀ v : Module, isData (-v) = isData v ∧ - -v = v := by decide
  by_cases h : (isData v && maskCond m r c) = true
  · rw [maskCell, maskCell, if_pos h, (hneg v).1, if_pos h, (hneg v).2]
  · rw [maskCell, maskCell, if_neg h, if_neg h]

/-- Masking is done cell by cell (R332). -/
theorem applyMask_eq_mapIdx (g : Grid) (m : Nat) :
    applyMask g m = g.mapIdx fun r row => row.mapIdx (maskCell m r) := by
  simp only [applyMask, List.mapIdx_eq_zipIdx_map, maskCell]

/-- Settles O41: masking acts on every cell by itself, and undoes itself there. -/
theorem applyMask : Obligations.ApplyMask := by
  intro g m
  have hmask := applyMask_eq_mapIdx
  refine ⟨fun r c row v hrow hv => ?_, ?_, ?_⟩
  · have hcell : gridAt (Machine.applyMask g m) r c = maskCell m r c v := by
      simp [gridAt, hmask, hrow, hv]
    rw [hcell, maskCell]
    simp only [Bool.and_eq_true, isData_iff]
  · refine List.ext_getElem? fun r => ?_
    cases hrow : g[r]? <;> simp [hmask, hrow]
  · refine List.ext_getElem (by simp [hmask]) fun r _ _ => List.ext_getElem (by simp [hmask]) fun c _ _ => ?_
    simp [hmask, maskCell_maskCell]

/-! ### The information cells of a candidate (R333, R338) -/

section
variable {n r c i j : Nat}

/-- A cell carries at most one format bit (R392). -/
theorem formatPos_inj (hn : 21 ≤ n) (hi : i < 15) (hj : j < 15) (h : (r, c) ∈ formatPos n i)
    (h' : (r, c) ∈ formatPos n j) : i = j := by
  simp only [formatPos, List.mem_cons, List.not_mem_nil, or_false] at h h'
  split_ifs at h h' <;> simp only [Prod.mk.injEq] at h h' <;> omega

/-- The dark module carries no format bit (R392). -/
theorem dark_notMem_formatPos (hn : 21 ≤ n) : (n - 8, 8) ∉ formatPos n i := by
  intro h
  simp only [formatPos, List.mem_cons, List.not_mem_nil, or_false] at h
  split_ifs at h <;> simp only [Prod.mk.injEq] at h <;> omega

/-- A cell carries at most one version bit (R394). -/
theorem versionPos_inj (hn : 45 ≤ n) (hj : j < 18) (h : (r, c) ∈ versionPos n i)
    (h' : (r, c) ∈ versionPos n j) : i = j := by
  simp only [versionPos, List.mem_cons, List.not_mem_nil, or_false, Prod.mk.injEq] at h h'
  omega

/-- The format cells and the dark module's are none of the version cells (R300, R301). -/
theorem not_atVersion_of_atFormat (hn : 45 ≤ n) (h : AtFormat n r c) : ¬ AtVersion n r c := by
  omega

/-- Every format bit is carried inside the matrix (R392). -/
theorem formatPos_lt (hn : 21 ≤ n) (hi : i < 15) (h : (r, c) ∈ formatPos n i) : r < n ∧ c < n := by
  simp only [formatPos, List.mem_cons, List.not_mem_nil, or_false] at h
  split_ifs at h <;> simp only [Prod.mk.injEq] at h <;> omega

/-- Every version bit is carried inside the matrix (R394). -/
theorem versionPos_lt (hn : 45 ≤ n) (hi : i < 18) (h : (r, c) ∈ versionPos n i) : r < n ∧ c < n := by
  have hat : AtVersion n r c := (versionCells_iff (by omega)).mp ⟨i, hi, h⟩
  omega

end

section
variable {ecl : EcLevel} {m n v r c : Nat} {w w' : Module}

/-- The writes of the format information (R333). -/
theorem mem_formatInfo : (r, c, w) ∈ formatInfo ecl m n ↔
    (∃ i < 15, (r, c) ∈ formatPos n i ∧ w = if (formatBits ecl m).getLsbD i then 4 else -4) ∨
      (r = n - 8 ∧ c = 8 ∧ w = 4) := by
  simp only [formatInfo, List.mem_append, mem_bitCells, List.mem_singleton, Prod.mk.injEq]

/-- The writes of the version information (R333). -/
theorem mem_versionInfo : (r, c, w) ∈ versionInfo v ↔
    7 ≤ v ∧ ∃ i < 18, (r, c) ∈ versionPos (side v) i ∧ w = if (versionBits v).getLsbD i then 7 else -7 := by
  rw [versionInfo]
  split
  next hv => simp only [mem_bitCells, hv, true_and]
  next hv => simp [hv]

/-- The format information is written to the format cells and the dark module's (R333). -/
theorem atFormat_of_mem_formatInfo (hn : 21 ≤ n) (hr : r < n) (hc : c < n) (h : (r, c, w) ∈ formatInfo ecl m n) :
    AtFormat n r c := by
  rw [← formatCells_iff hn hr hc]
  rcases mem_formatInfo.mp h with ⟨i, hi, hcell, -⟩ | ⟨hrow, hcol, -⟩
  exacts [.inl ⟨i, hi, hcell⟩, .inr ⟨hrow, hcol⟩]

/-- The version information is written to the version cells (R333). -/
theorem atVersion_of_mem_versionInfo (hv : 1 ≤ v) (h : (r, c, w) ∈ versionInfo v) : AtVersion (side v) r c := by
  obtain ⟨-, i, hi, hcell, -⟩ := mem_versionInfo.mp h
  exact (versionCells_iff (le_side hv)).mp ⟨i, hi, hcell⟩

/-- The format information writes one value to a cell (R333, R392). -/
theorem formatInfo_unique (hn : 21 ≤ n) (h : (r, c, w) ∈ formatInfo ecl m n) (h' : (r, c, w') ∈ formatInfo ecl m n) :
    w' = w := by
  rcases mem_formatInfo.mp h with ⟨i, hi, hcell, rfl⟩ | ⟨rfl, rfl, rfl⟩ <;>
    rcases mem_formatInfo.mp h' with ⟨j, hj, hcell', rfl⟩ | ⟨hrow, hcol, rfl⟩
  · rw [formatPos_inj hn hi hj hcell hcell']
  · exact absurd (hrow ▸ hcol ▸ hcell) (dark_notMem_formatPos hn)
  · exact absurd hcell' (dark_notMem_formatPos hn)
  · rfl

/-- From version 7 on the matrix has 45 rows at least (R6). -/
theorem le_side_of_seven_le (hv : 7 ≤ v) : 45 ≤ side v := by
  have hside : side v = 17 + 4 * v := rfl
  omega

/-- The version information writes one value to a cell (R333, R394). -/
theorem versionInfo_unique (h : (r, c, w) ∈ versionInfo v) (h' : (r, c, w') ∈ versionInfo v) : w' = w := by
  obtain ⟨hv, i, hi, hcell, rfl⟩ := mem_versionInfo.mp h
  obtain ⟨-, j, hj, hcell', rfl⟩ := mem_versionInfo.mp h'
  rw [versionPos_inj (le_side_of_seven_le hv) hj hcell hcell']

/-- Format and version information are never written to the same cell (R300, R301). -/
theorem notMem_versionInfo (hr : r < side v) (hc : c < side v) (h : (r, c, w) ∈ formatInfo ecl m (side v)) :
    (r, c, w') ∉ versionInfo v := by
  intro h'
  have hn := le_side_of_seven_le (mem_versionInfo.mp h').1
  exact not_atVersion_of_atFormat hn (atFormat_of_mem_formatInfo (by omega) hr hc h)
    (atVersion_of_mem_versionInfo ((mem_versionInfo.mp h').1.trans' (by decide)) h')

/-- What the information writes to a cell stands there in the candidate (R333, R338). -/
theorem gridAt_candidate_of_mem {g : Grid} (hv : 1 ≤ v) (hg : isSquare (side v) g) (hr : r < side v) (hc : c < side v)
    (h : (r, c, w) ∈ formatInfo ecl m (side v) ++ versionInfo v) : gridAt (candidate g ecl v m) r c = w := by
  rw [candidate, writeInfo, gridAt_setAll (isSquare_applyMask hg m) hr hc fun w' h' => ?_, if_pos h]
  rcases List.mem_append.mp h with h | h <;> rcases List.mem_append.mp h' with h' | h'
  · exact formatInfo_unique (le_side hv) h h'
  · exact absurd h' (notMem_versionInfo hr hc h)
  · exact absurd h (notMem_versionInfo hr hc h')
  · exact versionInfo_unique h h'

end

/-- Settles O44: a cell written by the information holds what it writes, every other cell the masked matrix's. -/
theorem infoCells : Obligations.InfoCells := by
  intro v ecl m g hlow hhigh hm hg
  have hn := le_side hlow
  refine ⟨fun i hi ⟨r, c⟩ hcell => ?_, ?_, fun hv i hi ⟨r, c⟩ hcell => ?_, fun r c hr hc hformat hdark hversion => ?_⟩
  · obtain ⟨hr, hc⟩ := formatPos_lt hn hi hcell
    exact gridAt_candidate_of_mem hlow hg hr hc (List.mem_append_left _ (mem_formatInfo.mpr (.inl ⟨i, hi, hcell, rfl⟩)))
  · exact gridAt_candidate_of_mem hlow hg (by omega) (by omega)
      (List.mem_append_left _ (mem_formatInfo.mpr (.inr ⟨rfl, rfl, rfl⟩)))
  · obtain ⟨hr, hc⟩ := versionPos_lt (le_side_of_seven_le hv) hi hcell
    exact gridAt_candidate_of_mem hlow hg hr hc
      (List.mem_append_right _ (mem_versionInfo.mpr ⟨hv, i, hi, hcell, rfl⟩))
  · refine gridAt_setAll_of_notMem (isSquare_applyMask hg m) hr hc fun w hw => ?_
    rcases List.mem_append.mp hw with hw | hw
    · rcases mem_formatInfo.mp hw with ⟨i, hi, hcell, -⟩ | ⟨rfl, rfl, -⟩
      · exact hformat i hi hcell
      · exact hdark rfl
    · obtain ⟨hv, i, hi, hcell, -⟩ := mem_versionInfo.mp hw
      exact hversion hv i hi hcell

/-! ### MASKSEL (R339) -/

/-- A dark cell is a positive one (R12). -/
theorem dark_eq_decide (x : Module) : dark x = decide (0 < x.toInt) := by
  rw [dark, BitVec.slt_eq_decide]
  rfl

/-- The selected state's totals are the sums of their terms, and its mask the first of least total (R27, R339). -/
theorem penaltiesAgree_maskselState (s : State) (cells : List Module) : PenaltiesAgree (maskselState s cells) where
  sums m := by simp [maskselState, penaltyTotal]
  least m := (selectMask_spec _ m).1
  first m := (selectMask_spec _ m).2

/-- MASKSEL's response is the mask it selected (R339). -/
theorem ofNat_bestMask (s : State) (cells : List Module) :
    BitVec.ofNat 32 (bestMask s cells).val = (maskselState s cells).maskref.setWidth 32 :=
  BitVec.eq_of_toNat_eq (by simp [maskselState])

/-- Settles O42: MASKSEL leaves its selected state, whose penalties are those of the candidates. -/
theorem maskselSelects : Obligations.MaskselSelects := by
  intro s cells hm hlow hhigh hcells
  have hdone := masksel_eq_done (versionOk_iff.mpr ⟨hlow, hhigh⟩) hm hcells
  rw [ofNat_bestMask] at hdone
  have hexec : exec .masksel s =
      .next (respond (maskselState s cells) .ok ((maskselState s cells).maskref.setWidth 32)) :=
    exec_of_done (i := .masksel) hdone
  refine ⟨_, hexec, ?_, fun m => ?_, ?_⟩
  · rfl
  · have hpenc : (maskPenalties s cells)[m] =
        penaltyTerms s.side (candidate (rowsOf s.side s.side cells) s.wecl s.wver.toNat m.val) := by
      simp [maskPenalties]
    simp only [← funext dark_eq_decide]
    exact hpenc
  · exact penaltiesAgree_congr (penaltiesAgree_maskselState s cells) rfl rfl rfl

/-! ### The runs of a line (R334, R336) -/

/-- The line of a list of runs. -/
def lineOf (u : List (Bool × Nat)) : List Bool := u.flatMap fun x => List.replicate x.2 x.1

/-- The place where run `x` begins: the lengths of the runs before it. -/
def startOf (u : List (Bool × Nat)) (x : Nat) : Nat := ((u.take x).map Prod.snd).sum

/-- Runs as `runsOf` gives them: none is empty, and neighbours differ in colour. -/
structure MaximalRuns (u : List (Bool × Nat)) : Prop where
  pos : ∀ x ∈ u, 1 ≤ x.2
  alternate : u.IsChain fun x y => x.1 ≠ y.1

/-- One cell more at the left of maximal runs leaves maximal runs. -/
theorem MaximalRuns.addToRuns {u : List (Bool × Nat)} (h : MaximalRuns u) (b : Bool) :
    MaximalRuns (addToRuns b u) ∧ lineOf (Machine.addToRuns b u) = b :: lineOf u := by
  cases u with
  | nil => exact ⟨⟨by simp [Machine.addToRuns], .singleton _⟩, rfl⟩
  | cons x u =>
    obtain ⟨c, n⟩ := x
    obtain ⟨hn, hpos⟩ := List.forall_mem_cons.mp h.pos
    rw [Machine.addToRuns]
    split
    next hbc =>
      subst hbc
      refine ⟨⟨List.forall_mem_cons.mpr ⟨Nat.le_add_left 1 n, hpos⟩, ?_⟩, rfl⟩
      have halt := h.alternate
      rw [List.isChain_cons] at halt ⊢
      exact halt
    next hbc => exact ⟨⟨List.forall_mem_cons.mpr ⟨le_rfl, h.pos⟩, .cons_cons hbc h.alternate⟩, rfl⟩

/-- The runs of a line are maximal, and they are the line. -/
theorem maximalRuns_runsOf (line : List Bool) : MaximalRuns (runsOf line) ∧ lineOf (runsOf line) = line := by
  induction line with
  | nil => exact ⟨⟨by simp [runsOf], .nil⟩, rfl⟩
  | cons b line ih =>
    obtain ⟨hruns, hline⟩ := ih.1.addToRuns b
    exact ⟨hruns, hline.trans (congrArg (b :: ·) ih.2)⟩

/-- A line has no maximal runs but its own. -/
theorem runsOf_lineOf {u : List (Bool × Nat)} (h : MaximalRuns u) : runsOf (lineOf u) = u := by
  induction u with
  | nil => rfl
  | cons x u ih =>
    obtain ⟨c, n⟩ := x
    obtain ⟨hn, hpos⟩ := List.forall_mem_cons.mp h.pos
    obtain ⟨hhead, htail⟩ := List.isChain_cons.mp h.alternate
    have hrun (n : Nat) : (List.replicate (n + 1) c).foldr addToRuns u = (c, n + 1) :: u := by
      induction n with
      | zero =>
        cases u with
        | nil => rfl
        | cons y u => exact if_neg (hhead y (by simp))
      | succ n ihn => rw [List.replicate_succ, List.foldr_cons, ihn, addToRuns, if_pos rfl]
    obtain ⟨n, rfl⟩ := Nat.exists_eq_add_of_le' hn
    rw [lineOf, List.flatMap_cons, runsOf, List.foldr_append]
    exact (congrArg (List.foldr addToRuns · _) (ih ⟨hpos, htail⟩)).trans (hrun n)

/-- Read from the other end, a line has the same runs in the other order. -/
theorem runsOf_reverse (line : List Bool) : runsOf line.reverse = (runsOf line).reverse := by
  obtain ⟨h, hline⟩ := maximalRuns_runsOf line
  have hrev : MaximalRuns (runsOf line).reverse :=
    ⟨fun x hx => h.pos x (List.mem_reverse.mp hx), List.isChain_reverse.mpr (h.alternate.imp fun _ _ => Ne.symm)⟩
  rw [← runsOf_lineOf hrev, lineOf, List.flatMap_reverse]
  simp only [Function.comp_def, List.reverse_replicate]
  rw [← lineOf, hline]

/-- A line has the same run penalty in both directions (R334). -/
theorem runPenalty_reverse (line : List Bool) : runPenalty line.reverse = runPenalty line := by
  rw [runPenalty, runsOf_reverse, List.map_reverse, List.sum_reverse, runPenalty]

section
variable {u : List (Bool × Nat)} {x : Nat} {c : Bool} {n : Nat}

/-- The line ends where the last run ends. -/
theorem length_lineOf (u : List (Bool × Nat)) : (lineOf u).length = startOf u u.length := by
  simp [lineOf, startOf, List.length_flatMap]

/-- The next run begins where a run ends. -/
theorem startOf_succ (hx : u[x]? = some (c, n)) : startOf u (x + 1) = startOf u x + n := by
  rw [startOf, List.take_add_one, hx]
  simp [startOf]

/-- No run begins before an earlier one. -/
theorem startOf_mono (u : List (Bool × Nat)) : Monotone (startOf u) := by
  refine monotone_nat_of_le_succ fun x => ?_
  cases hx : u[x]? with
  | none => rw [startOf, startOf, List.take_add_one, hx, Option.toList_none, List.append_nil]
  | some y => rw [startOf_succ hx]; exact Nat.le_add_right _ _

/-- A cell of run `x` has the run's colour. -/
theorem getElem?_lineOf (hx : u[x]? = some (c, n)) {j : Nat} (hj : j < n) :
    (lineOf u)[startOf u x + j]? = some c := by
  obtain ⟨hlt, hget⟩ := List.getElem?_eq_some_iff.mp hx
  have hsplit : u = u.take x ++ (c, n) :: u.drop (x + 1) := by
    rw [← hget, ← List.drop_eq_getElem_cons hlt, List.take_append_drop]
  have hline : lineOf u = lineOf (u.take x) ++ (List.replicate n c ++ lineOf (u.drop (x + 1))) := by
    conv_lhs => rw [hsplit]
    simp [lineOf]
  have hlen : (lineOf (u.take x)).length = startOf u x := by
    simp [lineOf, startOf, List.length_flatMap]
  rw [hline, ← hlen, List.getElem?_append_right (Nat.le_add_right _ _), Nat.add_sub_cancel_left,
    List.getElem?_append_left (by simpa using hj)]
  simp [hj]

end

/-- Every cell of the line lies in a run. -/
theorem exists_run_of_lt {u : List (Bool × Nat)} {i : Nat} (hi : i < (lineOf u).length) :
    ∃ x c n j, u[x]? = some (c, n) ∧ j < n ∧ i = startOf u x + j := by
  induction u generalizing i with
  | nil => simp [lineOf] at hi
  | cons y u ih =>
    obtain ⟨c, n⟩ := y
    by_cases hin : i < n
    · exact ⟨0, c, n, i, rfl, hin, by simp [startOf]⟩
    · have hlen : (lineOf ((c, n) :: u)).length = n + (lineOf u).length := by simp [lineOf]
      obtain ⟨x, d, m, j, hx, hj, he⟩ := ih (i := i - n) (by omega)
      refine ⟨x + 1, d, m, j, hx, hj, ?_⟩
      have hstart : startOf ((c, n) :: u) (x + 1) = n + startOf u x := by simp [startOf]
      omega

/-- The four conditions of a maximal run (R334). -/
theorem maximalRun_iff {l : List Bool} {i n : Nat} : maximalRun l i n = true ↔
    1 ≤ n ∧ i + n ≤ l.length ∧ (∀ j < n, l[i + j]? = l[i]?) ∧ (i = 0 ∨ l[i - 1]? ≠ l[i]?) ∧ l[i + n]? ≠ l[i]? := by
  simp [maximalRun, and_assoc]

section
variable {u : List (Bool × Nat)} {x y : Nat} {c : Bool} {n : Nat} (h : MaximalRuns u)
include h

/-- A run of maximal runs is not empty. -/
theorem MaximalRuns.one_le (hx : u[x]? = some (c, n)) : 1 ≤ n := h.pos _ (List.mem_of_getElem? hx)

/-- Later runs begin later. -/
theorem MaximalRuns.startOf_lt (hxy : x < y) (hy : y ≤ u.length) : startOf u x < startOf u y := by
  have hx : u[x]? = some (u[x].1, u[x].2) := List.getElem?_eq_getElem (by omega)
  have hsucc := startOf_succ hx
  have hpos := h.one_le hx
  have hmono : startOf u (x + 1) ≤ startOf u y := startOf_mono u hxy
  omega

/-- Different runs begin at different places; the end of the line counts as one more. -/
theorem MaximalRuns.startOf_inj (hx : x ≤ u.length) (hy : y ≤ u.length) (hxy : startOf u x = startOf u y) :
    x = y := by
  rcases Nat.lt_trichotomy x y with hlt | heq | hlt
  · exact absurd hxy (h.startOf_lt hlt hy).ne
  · exact heq
  · exact absurd hxy (h.startOf_lt hlt hx).ne'

/-- Neighbouring runs differ in colour. -/
theorem MaximalRuns.colour_ne {d : Bool} {m : Nat} (hx : u[x]? = some (c, n)) (hnext : u[x + 1]? = some (d, m)) :
    c ≠ d := by
  obtain ⟨hlt, hget⟩ := List.getElem?_eq_some_iff.mp hx
  obtain ⟨hlt', hget'⟩ := List.getElem?_eq_some_iff.mp hnext
  simpa [hget, hget'] using List.isChain_iff_getElem.mp h.alternate x hlt'

/-- The cell after a run, if there is one, has another colour. -/
theorem MaximalRuns.getElem?_after (hx : u[x]? = some (c, n)) : (lineOf u)[startOf u x + n]? ≠ some c := by
  rw [← startOf_succ hx]
  cases hnext : u[x + 1]? with
  | none =>
    have hend : u.length = x + 1 :=
      le_antisymm (List.getElem?_eq_none_iff.mp hnext) (List.getElem?_eq_some_iff.mp hx).1
    rw [← hend, ← length_lineOf, List.getElem?_eq_none le_rfl]
    simp
  | some y =>
    have hcell := getElem?_lineOf hnext (h.one_le hnext)
    rw [Nat.add_zero] at hcell
    rw [hcell]
    exact fun he => h.colour_ne hx hnext (Option.some.inj he).symm

/-- The cell before a run, if there is one, has another colour. -/
theorem MaximalRuns.getElem?_before (hx : u[x]? = some (c, n)) :
    startOf u x = 0 ∨ (lineOf u)[startOf u x - 1]? ≠ some c := by
  cases x with
  | zero => exact .inl rfl
  | succ x =>
    right
    have hlt : x < u.length := Nat.lt_of_succ_lt (List.getElem?_eq_some_iff.mp hx).1
    have hprev : u[x]? = some (u[x].1, u[x].2) := List.getElem?_eq_getElem hlt
    have hpos := h.one_le hprev
    rw [startOf_succ hprev, Nat.add_sub_assoc hpos, getElem?_lineOf hprev (by omega)]
    exact fun he => h.colour_ne hprev hx (Option.some.inj he)

/-- A run is a maximal run of its line. -/
theorem MaximalRuns.maximalRun_startOf (hx : u[x]? = some (c, n)) : maximalRun (lineOf u) (startOf u x) n = true := by
  have hfirst : (lineOf u)[startOf u x]? = some c := getElem?_lineOf hx (h.one_le hx)
  rw [maximalRun_iff, hfirst]
  refine ⟨h.one_le hx, ?_, fun j hj => getElem?_lineOf hx hj, h.getElem?_before hx, h.getElem?_after hx⟩
  rw [← startOf_succ hx, length_lineOf]
  exact startOf_mono u (List.getElem?_eq_some_iff.mp hx).1

/-- Every maximal run of the line is one of the runs: it can neither begin inside one, nor end before it or after
it. -/
theorem MaximalRuns.exists_run {i : Nat} (hrun : maximalRun (lineOf u) i n = true) :
    ∃ x c, u[x]? = some (c, n) ∧ i = startOf u x := by
  obtain ⟨hn, hlen, hsame, hbefore, hafter⟩ := maximalRun_iff.mp hrun
  obtain ⟨x, c, m, j, hx, hj, rfl⟩ := exists_run_of_lt (u := u) (i := i) (by omega)
  have hcell := getElem?_lineOf hx hj
  obtain rfl : j = 0 := by
    by_contra hj0
    refine hbefore.elim (by omega) fun hne => hne ?_
    rw [Nat.add_sub_assoc (by omega), getElem?_lineOf hx (by omega), hcell]
  rw [Nat.add_zero] at hsame hafter hcell
  rw [hcell] at hsame hafter
  rcases Nat.lt_trichotomy n m with hlt | rfl | hlt
  · exact absurd (getElem?_lineOf hx hlt) hafter
  · exact ⟨x, c, hx, rfl⟩
  · exact absurd (hsame m hlt) (h.getElem?_after hx)

end

/-! ### Penalties as sums over the places of a line (R334, R336) -/

/-- A sum over the first `n` numbers, as a list and as a finite sum. -/
theorem sum_map_range (n : Nat) (f : Nat → Nat) : ((List.range n).map f).sum = ∑ i ∈ Finset.range n, f i := rfl

/-- A count over the first `n` numbers, as a finite sum. -/
theorem countP_range (n : Nat) (p : Nat → Bool) :
    (List.range n).countP p = ∑ i ∈ Finset.range n, if p i = true then 1 else 0 := by
  induction n with
  | zero => rfl
  | succ n ih => rw [List.range_succ, List.countP_append, ih, Finset.sum_range_succ, List.countP_singleton]

section
variable {u : List (Bool × Nat)} (h : MaximalRuns u)
include h

/-- What is 0 but where a run begins is summed over the runs. -/
theorem MaximalRuns.sum_places {f g : Nat → Nat} (hstart : ∀ x < u.length, f (startOf u x) = g x)
    (hoff : ∀ i, (∀ x < u.length, i ≠ startOf u x) → f i = 0) :
    ∑ i ∈ Finset.range (lineOf u).length, f i = ∑ x ∈ Finset.range u.length, g x := by
  have hinj : Set.InjOn (startOf u) (Finset.range u.length) := fun x hx y hy he =>
    h.startOf_inj (Finset.mem_range.mp hx).le (Finset.mem_range.mp hy).le he
  have hsub : (Finset.range u.length).image (startOf u) ⊆ Finset.range (lineOf u).length := by
    intro i hi
    obtain ⟨x, hx, rfl⟩ := Finset.mem_image.mp hi
    rw [Finset.mem_range, length_lineOf]
    exact h.startOf_lt (Finset.mem_range.mp hx) le_rfl
  rw [← Finset.sum_subset hsub, Finset.sum_image hinj]
  · exact Finset.sum_congr rfl fun x hx => hstart x (Finset.mem_range.mp hx)
  · intro i _ hi
    exact hoff i fun x hx he => hi (Finset.mem_image.mpr ⟨x, Finset.mem_range.mpr hx, he.symm⟩)

/-- The maximal run that begins where run `y` does is run `y`, if there is one. -/
theorem MaximalRuns.maximalRun_right {y n : Nat} (hy : y ≤ u.length) :
    maximalRun (lineOf u) (startOf u y) n = true ↔ lengthRight u y 0 = some n := by
  constructor
  · intro hrun
    obtain ⟨x, c, hx, he⟩ := h.exists_run hrun
    obtain rfl := h.startOf_inj hy (List.getElem?_eq_some_iff.mp hx).1.le he
    simp [lengthRight, hx]
  · intro hlen
    obtain ⟨⟨c, m⟩, hx, rfl⟩ := Option.map_eq_some_iff.mp hlen
    exact h.maximalRun_startOf hx

/-- The maximal run that ends where run `y` begins is the run before it, if there is one. -/
theorem MaximalRuns.maximalRun_left {y n : Nat} (hy : y ≤ u.length) (hn : n ≤ startOf u y) :
    maximalRun (lineOf u) (startOf u y - n) n = true ↔ lengthLeft u y 1 = some n := by
  constructor
  · intro hrun
    obtain ⟨x, c, hx, he⟩ := h.exists_run hrun
    have hsucc := startOf_succ hx
    obtain rfl : y = x + 1 := h.startOf_inj hy (List.getElem?_eq_some_iff.mp hx).1 (by omega)
    simp [lengthLeft, hx]
  · intro hlen
    obtain ⟨hy1, hlen⟩ : 1 ≤ y ∧ (u[y - 1]?).map (·.2) = some n := by simpa [lengthLeft] using hlen
    obtain ⟨⟨c, m⟩, hx, rfl⟩ := Option.map_eq_some_iff.mp hlen
    have hsucc := startOf_succ hx
    rw [Nat.sub_add_cancel hy1] at hsucc
    rw [hsucc, Nat.add_sub_cancel]
    exact h.maximalRun_startOf hx

end

/-- A sum over a list, position by position. -/
theorem sum_map_eq_sum_getD {α : Type} (l : List α) (d : α) (f : α → Nat) :
    (l.map f).sum = ∑ x ∈ Finset.range l.length, f (l.getD x d) := by
  rw [← sum_map_range]
  congr 1
  refine List.ext_getElem (by simp) fun x hx _ => ?_
  rw [List.length_map] at hx
  simp [hx]

/-- The run penalty, place by place (R334). -/
theorem runPenalty_eq_sum (line : List Bool) :
    runPenalty line = ∑ i ∈ Finset.range line.length, ∑ n ∈ Finset.range (line.length + 1),
      if maximalRun line i n = true ∧ 5 ≤ n then n - 2 else 0 := by
  obtain ⟨h, hline⟩ := maximalRuns_runsOf line
  rw [runPenalty, sum_map_eq_sum_getD _ (false, 0)]
  conv_rhs => rw [← hline]
  refine (h.sum_places (fun x hx => ?_) fun i hi => ?_).symm
  · have hrun (n : Nat) := h.maximalRun_right (n := n) hx.le
    have hx' := List.getElem?_eq_getElem hx
    simp only [lengthRight, Nat.add_zero, hx', Option.map_some, Option.some.injEq] at hrun
    rw [Finset.sum_eq_single (runsOf line)[x].2]
    · simp [hrun, List.getD_eq_getElem?_getD, hx']
    · intro n _ hn
      exact if_neg fun hp => hn ((hrun n).mp hp.1).symm
    · intro hlarge
      have hlen := (maximalRun_iff.mp ((hrun _).mpr rfl)).2.1
      rw [Finset.mem_range] at hlarge
      omega
  · refine Finset.sum_eq_zero fun n _ => if_neg fun hp => ?_
    obtain ⟨x, c, hx, he⟩ := h.exists_run hp.1
    exact hi x (List.getElem?_eq_some_iff.mp hx).1 he

/-! ### The ratio patterns of a line (R336) -/

/-- Around run `x` there is what a pattern of unit `k` needs: two runs of length `k` on either side, and beyond them a run
of at least `4k` on one side (R336). -/
def PatternAround (u : List (Bool × Nat)) (x k : Nat) : Prop :=
  lengthLeft u x 1 = some k ∧ lengthLeft u x 2 = some k ∧ lengthRight u x 1 = some k ∧ lengthRight u x 2 = some k ∧
    (atLeast (lengthLeft u x 3) (4 * k) = true ∨ atLeast (lengthRight u x 3) (4 * k) = true)

/-- A ratio centre is a dark run of length `3k` with a pattern around it (R336). -/
theorem isRatioCentre_iff {u : List (Bool × Nat)} {x n : Nat} {c : Bool} (hx : u[x]? = some (c, n)) :
    isRatioCentre u x = true ↔ ∃ k, 1 ≤ k ∧ c = true ∧ n = 3 * k ∧ PatternAround u x k := by
  simp only [isRatioCentre, PatternAround, hx, Bool.and_eq_true, Bool.or_eq_true, decide_eq_true_eq, beq_iff_eq, and_assoc]
  constructor
  · rintro ⟨hc, hn, hmod, hrest⟩
    exact ⟨n / 3, by omega, hc, by omega, hrest⟩
  · rintro ⟨k, hk, hc, rfl, hrest⟩
    rw [Nat.mul_div_cancel_left k (by decide)]
    exact ⟨hc, by omega, by omega, hrest⟩

/-- A run length exists and is large enough (R336). -/
theorem atLeast_iff {len : Option Nat} {k : Nat} : atLeast len k = true ↔ ∃ n, len = some n ∧ k ≤ n := by
  cases len <;> simp [atLeast]

/-- The conditions of a pattern whose centre begins at place `i` (R336). -/
theorem ratioAt_iff {l : List Bool} {i k : Nat} : ratioAt l i k = true ↔
    l[i]? = some true ∧ 2 * k ≤ i ∧ maximalRun l i (3 * k) = true ∧ maximalRun l (i - k) k = true ∧
      maximalRun l (i - 2 * k) k = true ∧ maximalRun l (i + 3 * k) k = true ∧ maximalRun l (i + 4 * k) k = true ∧
      ((∃ start < i - 2 * k, 4 * k ≤ i - 2 * k - start ∧ maximalRun l start (i - 2 * k - start) = true) ∨
        ∃ len < l.length + 1, 4 * k ≤ len ∧ maximalRun l (i + 5 * k) len = true) := by
  simp [ratioAt, and_assoc]

/-- The run `d + 1` places left of a run is the one left of the run `d` places left of it. -/
theorem lengthLeft_succ {u : List (Bool × Nat)} {x d : Nat} (hd : d ≤ x) :
    lengthLeft u x (d + 1) = lengthLeft u (x - d) 1 := by
  have hle : d + 1 ≤ x ↔ 1 ≤ x - d := by omega
  simp only [lengthLeft, hle, Nat.sub_sub]

section
variable {u : List (Bool × Nat)} {x k : Nat}

/-- The run after run `x` begins where that ends. -/
theorem startOf_of_lengthRight (hlen : lengthRight u x 0 = some k) :
    x + 1 ≤ u.length ∧ startOf u (x + 1) = startOf u x + k := by
  obtain ⟨⟨c, n⟩, hx, rfl⟩ := Option.map_eq_some_iff.mp hlen
  exact ⟨(List.getElem?_eq_some_iff.mp hx).1, startOf_succ hx⟩

/-- The run before run `x` ends where that begins. -/
theorem startOf_of_lengthLeft (hlen : lengthLeft u x 1 = some k) : 1 ≤ x ∧ startOf u (x - 1) + k = startOf u x := by
  obtain ⟨hx1, hlen⟩ : 1 ≤ x ∧ lengthRight u (x - 1) 0 = some k := by simpa [lengthLeft, lengthRight] using hlen
  have hstart := (startOf_of_lengthRight hlen).2
  rw [Nat.sub_add_cancel hx1] at hstart
  exact ⟨hx1, hstart.symm⟩

/-- Where the two runs of length `k` before run `x` begin. -/
theorem startOf_two_left (h1 : lengthLeft u x 1 = some k) (h2 : lengthLeft u x 2 = some k) :
    2 ≤ x ∧ startOf u (x - 2) + 2 * k = startOf u x := by
  obtain ⟨hx1, hs1⟩ := startOf_of_lengthLeft h1
  rw [lengthLeft_succ hx1] at h2
  obtain ⟨hx2, hs2⟩ := startOf_of_lengthLeft h2
  have hs2 : startOf u (x - 2) + k = startOf u (x - 1) := hs2
  omega

/-- Where two runs of length `k` from run `x` on end. -/
theorem startOf_two_right (h1 : lengthRight u x 0 = some k) (h2 : lengthRight u x 1 = some k) :
    x + 2 ≤ u.length ∧ startOf u (x + 2) = startOf u x + 2 * k := by
  obtain ⟨-, hs1⟩ := startOf_of_lengthRight h1
  obtain ⟨hx2, hs2⟩ := startOf_of_lengthRight (x := x + 1) h2
  have hs2 : startOf u (x + 2) = startOf u (x + 1) + k := hs2
  omega

variable (h : MaximalRuns u)
include h

/-- Two runs of length `k` from run `x` on, read from the line. -/
theorem MaximalRuns.two_right (hx : x ≤ u.length) :
    maximalRun (lineOf u) (startOf u x) k = true ∧ maximalRun (lineOf u) (startOf u x + k) k = true ↔
      lengthRight u x 0 = some k ∧ lengthRight u x 1 = some k := by
  rw [h.maximalRun_right hx]
  refine and_congr_right fun hlen => ?_
  obtain ⟨hx', hstart⟩ := startOf_of_lengthRight hlen
  rw [← hstart, h.maximalRun_right hx']
  rfl

/-- Two runs of length `k` before run `x`, read from the line. -/
theorem MaximalRuns.two_left (hx : x ≤ u.length) (hk : 2 * k ≤ startOf u x) :
    maximalRun (lineOf u) (startOf u x - k) k = true ∧ maximalRun (lineOf u) (startOf u x - 2 * k) k = true ↔
      lengthLeft u x 1 = some k ∧ lengthLeft u x 2 = some k := by
  rw [h.maximalRun_left hx (by omega)]
  refine and_congr_right fun hlen => ?_
  obtain ⟨hx1, hstart⟩ := startOf_of_lengthLeft hlen
  rw [show startOf u x - 2 * k = startOf u (x - 1) - k by omega, h.maximalRun_left (by omega) (by omega),
    lengthLeft_succ hx1]

/-- A long run from run `x` on, read from the line. -/
theorem MaximalRuns.wide_right (hx : x ≤ u.length) :
    (∃ len < (lineOf u).length + 1, k ≤ len ∧ maximalRun (lineOf u) (startOf u x) len = true) ↔
      atLeast (lengthRight u x 0) k = true := by
  simp only [h.maximalRun_right hx, atLeast_iff]
  constructor
  · rintro ⟨len, -, hk, hlen⟩
    exact ⟨len, hlen, hk⟩
  · rintro ⟨len, hlen, hk⟩
    obtain ⟨hx', hstart⟩ := startOf_of_lengthRight hlen
    have hend := startOf_mono u hx'
    rw [← length_lineOf] at hend
    exact ⟨len, by omega, hk, hlen⟩

/-- A long run before run `x`, read from the line. -/
theorem MaximalRuns.wide_left (hx : x ≤ u.length) (hk : 1 ≤ k) :
    (∃ start < startOf u x, k ≤ startOf u x - start ∧
        maximalRun (lineOf u) start (startOf u x - start) = true) ↔ atLeast (lengthLeft u x 1) k = true := by
  rw [atLeast_iff]
  constructor
  · rintro ⟨start, hlt, hle, hrun⟩
    refine ⟨_, (h.maximalRun_left hx (Nat.sub_le _ _)).mp ?_, hle⟩
    rwa [Nat.sub_sub_self hlt.le]
  · rintro ⟨len, hlen, hle⟩
    obtain ⟨-, hstart⟩ := startOf_of_lengthLeft hlen
    refine ⟨startOf u x - len, by omega, ?_⟩
    rw [Nat.sub_sub_self (by omega), h.maximalRun_left hx (by omega)]
    exact ⟨hle, hlen⟩

/-- A pattern whose centre begins where run `x` does has run `x` as its centre (R336). -/
theorem MaximalRuns.ratioAt_centre (hx : u[x]? = some (true, 3 * k)) :
    ratioAt (lineOf u) (startOf u x) k = true ↔ PatternAround u x k := by
  obtain ⟨hx1, hend⟩ := startOf_of_lengthRight (k := 3 * k) (show lengthRight u x 0 = _ by simp [lengthRight, hx])
  have hk : 1 ≤ k := by have := h.one_le hx; omega
  have hfirst : (lineOf u)[startOf u x]? = some true := getElem?_lineOf hx (h.one_le hx)
  have hright := h.two_right (k := k) hx1
  rw [hend, Nat.add_assoc, ← Nat.succ_mul] at hright
  have hwide (l1 : lengthLeft u x 1 = some k) (l2 : lengthLeft u x 2 = some k) (r1 : lengthRight u x 1 = some k)
      (r2 : lengthRight u x 2 = some k) := by
    obtain ⟨hx2, hleft⟩ := startOf_two_left l1 l2
    obtain ⟨hx3, hright⟩ := startOf_two_right (x := x + 1) r1 r2
    have hl := h.wide_left (k := 4 * k) (x := x - 2) (by omega) (by omega)
    have hr := h.wide_right (k := 4 * k) hx3
    rw [show startOf u (x - 2) = startOf u x - 2 * k by omega, ← lengthLeft_succ hx2] at hl
    rw [show startOf u (x + 1 + 2) = startOf u x + 5 * k by omega] at hr
    exact or_congr hl hr
  rw [ratioAt_iff]
  constructor
  · rintro ⟨-, h2k, -, hl1, hl2, hr1, hr2, hw⟩
    obtain ⟨l1, l2⟩ := (h.two_left (by omega) h2k).mp ⟨hl1, hl2⟩
    obtain ⟨r1, r2⟩ := hright.mp ⟨hr1, hr2⟩
    exact ⟨l1, l2, r1, r2, (hwide l1 l2 r1 r2).mp hw⟩
  · rintro ⟨l1, l2, r1, r2, hw⟩
    obtain ⟨-, hleft⟩ := startOf_two_left l1 l2
    obtain ⟨hl1, hl2⟩ := (h.two_left (by omega) (by omega)).mpr ⟨l1, l2⟩
    obtain ⟨hr1, hr2⟩ := hright.mpr ⟨r1, r2⟩
    exact ⟨hfirst, by omega, h.maximalRun_startOf hx, hl1, hl2, hr1, hr2, (hwide l1 l2 r1 r2).mpr hw⟩

/-- Run `x` is a ratio centre exactly when a pattern has its centre where the run begins (R336). -/
theorem MaximalRuns.isRatioCentre_iff_ratioAt (hx : x < u.length) :
    isRatioCentre u x = true ↔ ∃ k < (lineOf u).length + 1, ratioAt (lineOf u) (startOf u x) k = true := by
  obtain ⟨c, n, hget⟩ : ∃ c n, u[x]? = some (c, n) := ⟨_, _, List.getElem?_eq_getElem hx⟩
  rw [isRatioCentre_iff hget]
  constructor
  · rintro ⟨k, hk, rfl, rfl, hrest⟩
    have hlen := (maximalRun_iff.mp (h.maximalRun_startOf hget)).2.1
    exact ⟨k, by omega, (h.ratioAt_centre hget).mpr hrest⟩
  · rintro ⟨k, -, hratio⟩
    obtain ⟨hdark, -, hcentre, hbefore, -⟩ := ratioAt_iff.mp hratio
    rw [h.maximalRun_right hx.le] at hcentre
    obtain rfl : n = 3 * k := by simpa [lengthRight, hget] using hcentre
    obtain rfl : true = c := by
      have hfirst := getElem?_lineOf hget (h.one_le hget)
      exact Option.some.inj (hdark.symm.trans hfirst)
    exact ⟨k, (maximalRun_iff.mp hbefore).1, rfl, rfl, (h.ratioAt_centre hget).mp hratio⟩

end

/-- The ratio matches of a line are the places where the centre of a pattern begins (R336). -/
theorem ratioMatches_eq_countP (line : List Bool) : ratioMatches line = (List.range line.length).countP fun i =>
    (List.range (line.length + 1)).any fun k => ratioAt line i k := by
  obtain ⟨h, hline⟩ := maximalRuns_runsOf line
  have hany (i : Nat) : ((List.range (line.length + 1)).any fun k => ratioAt line i k) = true ↔
      ∃ k < line.length + 1, ratioAt line i k = true := by simp
  rw [ratioMatches, ← List.countP_eq_length_filter, countP_range, countP_range]
  simp only [hany]
  conv_rhs => rw [← hline]
  refine (h.sum_places (fun x hx => ?_) fun i hi => ?_).symm
  · exact if_congr (h.isRatioCentre_iff_ratioAt hx).symm rfl rfl
  · refine if_neg fun ⟨k, _, hratio⟩ => ?_
    obtain ⟨-, -, hcentre, -⟩ := ratioAt_iff.mp hratio
    obtain ⟨x, c, hx, he⟩ := h.exists_run hcentre
    exact hi x (List.getElem?_eq_some_iff.mp hx).1 he

/-! ### The lines of a square of colours (R334, R336) -/

section
variable {n : Nat} {g : List (List Bool)} (hg : isSquare n g)
include hg

/-- Every row of a square has its length. -/
theorem length_getD {r : Nat} (hr : r < n) : (g.getD r []).length = n := by
  have hr' : r < g.length := hg.1.symm ▸ hr
  simp [hr', hg.2 _ (List.getElem_mem hr')]

/-- A square is its colours, row by row. -/
theorem rows_eq_colourAt : (List.range n).map (fun i => (List.range n).map fun j => colourAt g i j) = g := by
  refine List.ext_getElem (by simp [hg.1]) fun i _ hi => List.ext_getElem ?_ fun j _ hj => ?_
  · simp [hg.2 _ (List.getElem_mem hi)]
  · simp [colourAt, hi, hj]

/-- The columns of a square are its colours, column by column (R334). -/
theorem columnsOf_eq_colourAt :
    columnsOf n g = (List.range n).map fun j => (List.range n).map fun i => colourAt g i j := by
  refine List.map_congr_left fun j _ => List.ext_getElem (by simp [hg.1]) fun i hi _ => ?_
  rw [List.length_map] at hi
  simp [colourAt, hi]

/-- A sum over the rows of a square. -/
theorem sum_rows (f : List Bool → Nat) :
    (g.map f).sum = ((List.range n).map fun i => f ((List.range n).map fun j => colourAt g i j)).sum := by
  conv_lhs => rw [← rows_eq_colourAt hg, List.map_map]
  rfl

/-- A sum over the rows and the columns of a square. -/
theorem sum_lines (f : List Bool → Nat) :
    ((g ++ columnsOf n g).map f).sum = ((List.range n).map fun i =>
      f ((List.range n).map fun j => colourAt g i j) + f ((List.range n).map fun j => colourAt g j i)).sum := by
  rw [List.map_append, List.sum_append, sum_rows hg, columnsOf_eq_colourAt hg, List.map_map, List.sum_map_add]
  rfl

end

/-! ### Blocks (R335) -/

/-- The 2×2 window of two neighbouring rows that begins at column `c` is of one colour (R335). -/
def uniformAt (top bottom : List Bool) (c : Nat) : Bool :=
  top.getD c false == top.getD (c + 1) false && top.getD c false == bottom.getD c false &&
    top.getD c false == bottom.getD (c + 1) false

/-- The uniform windows of two neighbouring rows, place by place (R335). -/
theorem uniformWindows_eq_countP : ∀ {top bottom : List Bool}, top.length = bottom.length →
    uniformWindows top bottom = (List.range (top.length - 1)).countP (uniformAt top bottom)
  | [], _, _ => by simp [uniformWindows]
  | [_], _, _ => by simp [uniformWindows]
  | _ :: _ :: _, [], h => by simp at h
  | _ :: _ :: _, [_], h => by simp at h
  | a :: b :: top, c :: d :: bottom, h => by
    have hfirst : uniformAt (a :: b :: top) (c :: d :: bottom) 0 = decide (a = b ∧ a = c ∧ a = d) := by
      simp [uniformAt, Bool.beq_eq_decide_eq, Bool.and_assoc]
    have hlater : uniformAt (a :: b :: top) (c :: d :: bottom) ∘ Nat.succ = uniformAt (b :: top) (d :: bottom) := rfl
    rw [uniformWindows, uniformWindows_eq_countP (top := b :: top) (bottom := d :: bottom) (Nat.succ.inj h),
      List.length_cons, List.length_cons, Nat.add_sub_cancel, Nat.add_sub_cancel, List.length_cons,
      List.range_succ_eq_map, List.countP_cons, List.countP_map, hlater, hfirst, Nat.add_comm]
    simp only [decide_eq_true_eq]

/-- The uniform windows of a matrix, row by row (R335). -/
theorem blockCount_eq_sum (g : List (List Bool)) : blockCount g =
    ((List.range (g.length - 1)).map fun r => uniformWindows (g.getD r []) (g.getD (r + 1) [])).sum := by
  induction g with
  | nil => rfl
  | cons top rest ih =>
    cases rest with
    | nil => rfl
    | cons bottom rest =>
      rw [blockCount, ih, List.length_cons, List.length_cons, Nat.add_sub_cancel, Nat.add_sub_cancel,
        List.length_cons, List.range_succ_eq_map, List.map_cons, List.sum_cons, List.map_map]
      rfl

/-! ### The quiet zone (R74, R336) -/

/-- A list between two margins of `k` copies of `d`, place by place. -/
theorem getD_margins {α : Type} (k : Nat) (d : α) (l : List α) (i : Nat) :
    (List.replicate k d ++ l ++ List.replicate k d).getD i d =
      if k ≤ i ∧ i < l.length + k then l.getD (i - k) d else d := by
  by_cases hlow : i < k
  · rw [List.append_assoc, if_neg (by omega), List.getD_append _ _ _ _ (by simpa using hlow)]
    simp [hlow]
  · rw [List.append_assoc, List.getD_append_right _ _ _ _ (by simpa using hlow), List.length_replicate]
    by_cases hin : i - k < l.length
    · rw [List.getD_append _ _ _ _ hin, if_pos (by omega)]
    · rw [List.getD_append_right _ _ _ _ (by omega), if_neg (by omega)]
      simp

/-- The line of `n + 8` light cells above and below the matrix (R74). -/
abbrev blankLine (n : Nat) : List Bool := List.replicate (n + 8) false

/-- A row of the matrix with four light cells at either end (R74). -/
abbrev quietRow (row : List Bool) : List Bool := List.replicate 4 false ++ row ++ List.replicate 4 false

/-- The quiet zone with its widths written out (R74). -/
theorem withQuietZone_eq (n : Nat) (g : List (List Bool)) :
    withQuietZone n g = List.replicate 4 (blankLine n) ++ g.map quietRow ++ List.replicate 4 (blankLine n) := rfl

section
variable {n : Nat} {g : List (List Bool)} (hg : isSquare n g)
include hg

/-- With the quiet zone a square of `n` is a square of `n + 8` (R74). -/
theorem isSquare_withQuietZone : isSquare (n + 8) (withQuietZone n g) := by
  rw [withQuietZone_eq]
  refine ⟨?_, fun row hrow => ?_⟩
  · simp only [List.length_append, List.length_replicate, List.length_map, hg.1]
    omega
  · simp only [List.mem_append, List.mem_replicate, List.mem_map] at hrow
    rcases hrow with (⟨-, rfl⟩ | ⟨row, hrow, rfl⟩) | ⟨-, rfl⟩
    · exact List.length_replicate
    · simp only [List.length_append, List.length_replicate, hg.2 row hrow]
      omega
    · exact List.length_replicate

/-- The colours with the quiet zone: light on the border, the matrix inside (R74). -/
theorem colourAt_withQuietZone {i j : Nat} (hi : i < n + 8) (hj : j < n + 8) :
    colourAt (withQuietZone n g) i j = quietAt n g i j := by
  have hrow : (withQuietZone n g).getD i [] = (withQuietZone n g).getD i (blankLine n) := by
    have hlt : i < (withQuietZone n g).length := (isSquare_withQuietZone hg).1.symm ▸ hi
    simp [hlt]
  rw [colourAt, hrow, withQuietZone_eq, getD_margins, List.length_map, hg.1, quietAt]
  by_cases hin : 4 ≤ i ∧ i < n + 4
  · have hlt : i - 4 < g.length := by rw [hg.1]; omega
    have hquiet : (g.map quietRow).getD (i - 4) (blankLine n) = quietRow (g.getD (i - 4) []) := by simp [hlt]
    rw [if_pos hin, hquiet, getD_margins, length_getD hg (by omega), colourAt]
    by_cases hjn : 4 ≤ j ∧ j < n + 4 <;> simp [hin, hjn]
  · have hout : ¬ (4 ≤ i ∧ i < n + 4 ∧ 4 ≤ j ∧ j < n + 4) := by omega
    simp [hin, hout, hj]

end

/-! ### Balance (R337) -/

/-- The balance penalty, with the dark cells counted as a number (R337). -/
theorem penaltyBalance_eq (n : Nat) (g : List (List Bool)) : penaltyBalance n g =
    (100 * (((g.map fun row => row.count true).sum : Nat) : Int) - 50 * ((n * n : Nat) : Int)).natAbs /
      (5 * (n * n)) * 10 := by
  rw [Nat.cast_list_sum, List.map_map]
  rfl

/-- The dark cells of a square, place by place (R337). -/
theorem dark_cells {n : Nat} {g : List (List Bool)} (hg : isSquare n g) : (g.map fun row => row.count true).sum =
    ((List.range n).map fun r => (List.range n).countP fun c => colourAt g r c).sum := by
  rw [sum_rows hg]
  simp [List.count, List.countP_map, Function.comp_def]

/-- Settles O45: a line's penalties run over its maximal runs, and a square's over its lines and windows. -/
theorem penaltyWindows : Obligations.PenaltyWindows := by
  refine ⟨fun line => ⟨runPenalty_eq_sum line, runPenalty_reverse line, ratioMatches_eq_countP line⟩,
    fun n g hg => ⟨sum_lines hg runPenalty, ?_, ?_, fun hn => ?_⟩⟩
  · have hwindows : ∀ r ∈ List.range (n - 1), uniformWindows (g.getD r []) (g.getD (r + 1) []) =
        (List.range (n - 1)).countP (uniformAt (g.getD r []) (g.getD (r + 1) [])) := by
      intro r hr
      rw [List.mem_range] at hr
      rw [uniformWindows_eq_countP (by rw [length_getD hg (by omega), length_getD hg (by omega)]),
        length_getD hg (by omega)]
    rw [penaltyBlock, blockCount_eq_sum, hg.1, List.map_congr_left hwindows]
    rfl
  · rw [penaltyRatio, show n + 2 * qzWidth = n + 8 from rfl, sum_lines (isSquare_withQuietZone hg)]
    refine congrArg (fun l => 40 * List.sum l) (List.map_congr_left fun i hi => ?_)
    rw [List.mem_range] at hi
    congr 2 <;> refine List.map_congr_left fun j hj => ?_ <;> rw [List.mem_range] at hj
    · exact colourAt_withQuietZone hg hi hj
    · exact colourAt_withQuietZone hg hj hi
  · have hpos : 0 < 5 * (n * n) := by positivity
    refine ⟨_, penaltyBalance_eq n g, ?_⟩
    rw [← dark_cells hg]
    exact ⟨Nat.mul_div_le _ _, Nat.lt_mul_div_succ _ hpos⟩

end Sys2Proof.Proofs
end
